-- ==== Sys2Proof/Word.lean ====
section
/-! DEFINITION. The word types of EIP1962-PAB: the byte of the two tapes (20_memory.md R60) and the 16-bit word a
unit-operation selector of 30_encoding.md R101 is. -/

namespace Sys2Proof

/-- The addressable unit of both tapes (20_memory.md R60). -/
abbrev Byte := BitVec 8

/-- A word of the unit-operation port: a 16-bit selector of 30_encoding.md R101, or an operand word. -/
abbrev Word := BitVec 16

end Sys2Proof
end

