-- ==== Sys2Proof/Config.lean ====
section
/-! DEFINITION. What the hardware fixes (00_scope.md R8) and the one value the spec leaves undefined (log 5). The open
sizes `NSLOT`, `MAX_INPUT_LEN` and `SCRATCH_COUNT` (R10) are taken unbounded or omitted (log 6), as D3 allows. -/

namespace Sys2Proof.Config

/-- `LIMB_BITS` (00_scope.md R8). -/
def limbBits : Nat := 64

/-- `LIMB_FLOOR` (R8, R9): the least limb count construction produces. -/
def limbFloor : Nat := 4

/-- The greatest limb count of `LIMB_MENU` (R8). -/
def limbMax : Nat := 16

/-- `MAX_MODULUS_LEN` in bytes (R8). -/
def maxModulusLen : Nat := 128

/-- `MAX_ORDER_LEN` in bytes (R8). -/
def maxOrderLen : Nat := 128

/-- `MAX_LOOP_BITS` (R8). -/
def maxLoopBits : Nat := 2032

/-- `MAX_BN_WEIGHT` (R8). -/
def maxBnWeight : Nat := 128

/-- `WNAF_WINDOW` (R8). -/
def wnafWindow : Nat := 3

/-- `MEXP_SMALL_N` (R8). -/
def mexpSmallN : Nat := 32

/-- `MEXP_SMALL_C` (R8). -/
def mexpSmallC : Nat := 3

/-- DESIGN CHOICE (log 5), safe: coordinate number `idx` of the element that `FROBENIUS_MAP` gives at a level (by its
number) whose table, or a table below it, was never computed. 70_reset_and_hazards.md R472: "it has no defined result: a
model may return any element". The arguments are the model's free-value counter, the level, the power, the operand's
coordinates and the coordinate's index; nothing is known of the value, which the caller reduces below the modulus. -/
opaque freeCoordinate (ctr level power : Nat) (operand : List Nat) (idx : Nat) : Nat

end Sys2Proof.Config
end

