-- ==== Sys2Proof/Machine/Bytes.lean ====
section
/-! DEFINITION. Byte order and bit counting: `int`, `be`, `bitlen` of 00_scope.md R13 and R14, and the 16-bit words of the
unit port (log 3). -/

namespace Sys2Proof

/-- `int(bs)`: the unsigned big-endian value of a byte string, 0 for the empty one (00_scope.md R14, 20_memory.md R61). -/
def bytesToNat (bs : List Byte) : Nat :=
  bs.foldl (fun acc b => acc * 256 + b.toNat) 0

/-- `be(v, n)`: the `n`-byte big-endian encoding of `v`, most significant byte first (00_scope.md R14). -/
def natToBytes (v : Nat) : Nat → List Byte
  | 0 => []
  | n + 1 => BitVec.ofNat 8 (v / 256 ^ n) :: natToBytes v n

/-- `bitlen(n)`, with `bitlen(0) = 0` (00_scope.md R13). -/
def bitlen (n : Nat) : Nat :=
  if n = 0 then 0 else Nat.log2 n + 1

/-- `ceil(n / d)` for `d > 0`. -/
def ceilDiv (n d : Nat) : Nat :=
  (n + (d - 1)) / d

/-- The `n` port words of a big integer, most significant first (log 3). -/
def natToWords (v : Nat) : Nat → List Word
  | 0 => []
  | n + 1 => BitVec.ofNat 16 (v / 65536 ^ n) :: natToWords v n

/-- The value of port words, most significant first (log 3). -/
def wordsToNat (ws : List Word) : Nat :=
  ws.foldl (fun acc w => acc * 65536 + w.toNat) 0

/-- How many port words a big integer takes: none for 0, and no leading zero word (log 3). -/
def wordCount (v : Nat) : Nat :=
  ceilDiv (bitlen v) 16

end Sys2Proof
end

