-- ==== Sys2Proof/Syntax.lean ====
section
/-! DEFINITION. The instructions of EIP1962-PAB, one constructor per row of spec/opcode_table.json, and the written
form of a whole call (30_encoding.md R90 to R99). -/

namespace Sys2Proof

/-- The six extension levels (41_extension_tower.md R170). -/
inductive Level where
  | fq2 | fq3 | fq4 | fq6c | fq6q | fq12
deriving DecidableEq, Repr

/-- The levels of degree 2 over their base, on which `CONJUGATE` is defined (41_extension_tower.md R180). -/
inductive QuadLevel where
  | fq2 | fq4 | fq6q | fq12
deriving DecidableEq, Repr

/-- The levels `CALC_FROB_PRE` is defined for (41_extension_tower.md R179). -/
inductive PreLevel where
  | fq6c | fq12
deriving DecidableEq, Repr

/-- The two curve groups of a call (10_state.md R34). -/
inductive Group where
  | g1 | g2
deriving DecidableEq, Repr

/-- What a curve group lies over: `Fp` (then it is G1), `Fq2` or `Fq3` (then it is G2) (10_state.md R34). -/
inductive CurveField where
  | fp | fq2 | fq3
deriving DecidableEq, Repr

/-- The pairing families (10_state.md R36). -/
inductive Family where
  | bls12 | bn | mnt4 | mnt6
deriving DecidableEq, Repr

/-- The twist types, tape bytes 1 and 2 (00_scope.md R8). -/
inductive Twist where
  | m | d
deriving DecidableEq, Repr

/-- Which MNT step a line value comes from (43_pairing.md R304). -/
inductive LineKind where
  | doubling | addition
deriving DecidableEq, Repr

/-- One instruction. A call (`OP`) has its operands on the tape, after byte 0, where its meaning reads them through the
cursor (30_encoding.md R105: each length is data). A unit operation (`UOP`) names the first slot of each operand group
(10_state.md R22, R24, R25), and carries its byte strings, big integers, levels and flags. -/
inductive Instr where
  | g1add | g1mul | g1mexp | g2add | g2mul | g2mexp
  | bls12 | bn | mnt4 | mnt6
  | pfNew (mb : List Byte)
  | pfAdd (c a b : Nat)
  | pfSub (c a b : Nat)
  | pfDouble (c a : Nat)
  | pfNegate (c a : Nat)
  | pfMul (c a b : Nat)
  | pfSquare (c a : Nat)
  | pfExp (c a e : Nat)
  | pfInvert (c a : Nat)
  | pfSqrt (c a : Nat)
  | pfNres (a n : Nat)
  | pfFromBytes (c : Nat) (bs : List Byte)
  | pfToBytes (a : Nat)
  | pfToBytesDense (a : Nat)
  | pfToMont (c a : Nat)
  | pfFromMont (c a : Nat)
  | exNew (l : Level) (nr : Nat)
  | exAdd (l : Level) (c a b : Nat)
  | exSub (l : Level) (c a b : Nat)
  | exNeg (l : Level) (c a : Nat)
  | exDouble (l : Level) (c a : Nat)
  | exMul (l : Level) (c a b : Nat)
  | exSquare (l : Level) (c a : Nat)
  | exInverse (l : Level) (c a : Nat)
  | exExp (l : Level) (c a e : Nat)
  | exConjugate (l : QuadLevel) (c a : Nat)
  | exFrobeniusMap (l : Level) (c a power : Nat)
  | exCalcFrob (l : Level)
  | exCalcFrobPre (l : PreLevel) (f1 : Nat)
  | exMulBy014 (c a e0 e1 e4 : Nat)
  | exMulBy034 (c a e0 e3 e4 : Nat)
  | exCyclotomicSquare (c a : Nat)
  | cgNew (field : CurveField) (a b : Option Nat) (ob : List Byte)
  | cgIsZero (g : Group) (p : Nat)
  | cgIsOnCurve (g : Group) (p : Nat)
  | cgAdd (g : Group) (r p1 p2 : Nat)
  | cgDouble (g : Group) (r p : Nat)
  | cgNegate (g : Group) (r p : Nat)
  | cgScalarMul (g : Group) (r p e : Nat)
  | cgWnafMul (g : Group) (r p e : Nat)
  | cgSubgroupCheck (g : Group) (p : Nat)
  | cgMultiExp (g : Group) (r points n : Nat) (scalars : List Nat)
  | cgToAffine (g : Group) (r p : Nat)
  | peNew (family : Family) (twist : Twist) (x : Nat) (xNeg : Bool) (w0 w1 : Nat) (w0Neg : Bool)
  | peDoublingStep (r co src : Nat)
  | peAdditionStep (r co src q : Nat)
  | peEll (c f co p : Nat)
  | peMillerLoop (c pairs n : Nat)
  | peFinalExp (c f : Nat)
  | peMultiPair (c pairs n : Nat)
  | peDoublingStepMnt (r co src : Nat)
  | peAdditionStepMnt (r co src q : Nat)
  | peEllMnt (kind : LineKind) (c f co p q : Nat)
  | peMillerLoopMnt (c pairs n : Nat)
  | peFinalExpMnt (c f : Nat)
deriving DecidableEq, Repr

/-! The written form of a call: its fields in tape order (30_encoding.md R86 to R99, R106). Coordinates are plain
residues, coordinate 0 first. Length-prefixed integers are kept as their bytes, because leading zeros of an order widen
every scalar (44_decoder.md R338). -/

/-- `CURVE(F)`: `a`, `b`, `ORD` (30_encoding.md R88). -/
structure CurveFields where
  a : List Nat
  b : List Nat
  ord : List Byte
deriving DecidableEq, Repr

/-- `EXTHDR`: `deg`, `nr` (30_encoding.md R88). -/
structure ExtHeader where
  deg : Nat
  nr : Nat
deriving DecidableEq, Repr

/-- `POINT(F)`: `x`, `y` (30_encoding.md R88). -/
structure PointFields where
  x : List Nat
  y : List Nat
deriving DecidableEq, Repr

/-- `PAIR(F2)`: two subgroup-check flags, as the bytes they are, and two points (30_encoding.md R88). -/
structure PairFields where
  chk1 : Nat
  p : PointFields
  chk2 : Nat
  q : PointFields
deriving DecidableEq, Repr

/-- The fields of a BLS12 or BN call after the curve (30_encoding.md R96, fields 4 to 11). The twist type and the sign are
the bytes they are. -/
structure TwistedFields where
  ext : ExtHeader
  xi : List Nat
  twist : Nat
  loop : List Byte
  neg : Nat
  pairs : List PairFields
deriving DecidableEq, Repr

/-- The fields of an MNT call after the curve (30_encoding.md R98, fields 4 to 12). The signs are the bytes they are. -/
structure MntFields where
  ext : ExtHeader
  loop : List Byte
  neg : Nat
  w0 : List Byte
  w1 : List Byte
  w0Neg : Nat
  pairs : List PairFields
deriving DecidableEq, Repr

/-- A whole call as a host may write it, good or bad: the modulus bytes, then the fields of its format (30_encoding.md R90
to R99). -/
inductive Call where
  | g1add (mb : List Byte) (c : CurveFields) (p1 p2 : PointFields)
  | g1mul (mb : List Byte) (c : CurveFields) (p : PointFields) (e : Nat)
  | g1mexp (mb : List Byte) (c : CurveFields) (list : List (PointFields × Nat))
  | g2add (mb : List Byte) (h : ExtHeader) (c : CurveFields) (p1 p2 : PointFields)
  | g2mul (mb : List Byte) (h : ExtHeader) (c : CurveFields) (p : PointFields) (e : Nat)
  | g2mexp (mb : List Byte) (h : ExtHeader) (c : CurveFields) (list : List (PointFields × Nat))
  | bls12 (mb : List Byte) (c : CurveFields) (t : TwistedFields)
  | bn (mb : List Byte) (c : CurveFields) (t : TwistedFields)
  | mnt4 (mb : List Byte) (c : CurveFields) (t : MntFields)
  | mnt6 (mb : List Byte) (c : CurveFields) (t : MntFields)
deriving DecidableEq, Repr

end Sys2Proof
end

