-- ==== Sys2Proof/Machine/State.lean ====
section
/-! DEFINITION. The state of EIP1962-PAB (10_state.md): the two tapes, the result, the cursor, the object blocks `PF`,
`EX[L]`, `CG[g]`, `PE`, the flags, the operand slots, and the model's own port, byte result and counter.

An `Option` field is the spec's own state "unset": "the register holds no value and a rule that reads it has no meaning
(a fault of the model, ...); it does not mean zero" (10_state.md R45). Log 1 says so. -/

namespace Sys2Proof.Machine

/-- The 22 errors of a call (60_exceptions.md R410), in the order of their codes. -/
inductive Err where
  | opcode | short | zeroLen | noncanon | lenBound | modEven | modSmall | feRange | orderZero | extDegree
  | nonres | twist | flag | frob | notOnCurve | scalarRange | subgroup | loopBits | loopWeight | trailing
  | multiexpLen | internalLimbs
deriving DecidableEq, Repr

/-- What a model fault of kind `unset` or `frozen` is about. -/
inductive Item where
  | curField | curLp | curLq
  | pf
  | ex (l : Level)
  | cg (g : Group)
  | pe
  | peField
  | slot (i : Nat)
deriving DecidableEq, Repr

/-- Why the model stops with a fault. None is an error code of the block (70_reset_and_hazards.md R452). -/
inductive Fault where
  /-- Raised by every read of a register, object or slot that nothing has written in this call: "a rule that reads it has
  no meaning (a fault of the model)" (10_state.md R45, 70_reset_and_hazards.md R452, 93_implementation_defined.md U1).
  Safe: the spec gives no behaviour there. No call reaches it. -/
  | unset (what : Item)
  /-- Raised by a constructor (`PF.NEW`, `EX.NEW`, `CG.NEW`, `PE.NEW`) of an object that exists, and by a second
  computation of a Frobenius table: "Writing a field of an object at any other time ... is outside the rules"
  (70_reset_and_hazards.md R475), "A write outside this table is not a behaviour of the block" (10_state.md R44). Safe. -/
  | frozen (what : Item)
  /-- Raised by an engine operation of one family while the engine, or the G2 group, is of another: "which of the two a
  call uses is fixed by `PE.family`" (30_encoding.md R101), "No rule mixes elements" (70_reset_and_hazards.md R476). Safe. -/
  | mismatch
deriving DecidableEq, Repr

/-- Why the model has no meaning for what it is given. -/
inductive Refusal where
  /-- Raised by `exec` for an instruction without a meaning; no instruction is left without one. Safe. -/
  | notModelled (mnemonic : String)
  /-- Raised by `PF.SQRT` when the modulus is not 3 modulo 4: "A model refuses the operation for such `p`"
  (40_prime_field.md R151, 93_implementation_defined.md U5). Safe: no call reaches `SQRT`. -/
  | sqrtModulus
  /-- Raised by `step` for a port word that is no selector of 30_encoding.md R101 ("no meaning",
  93_implementation_defined.md section 2). Safe. -/
  | unknownSelector
  /-- Raised by `step` for port words whose operands are cut off or outside their fields; the port is the model's own
  (log 3). Safe. -/
  | malformedCommand
deriving DecidableEq, Repr

/-- A tape: `len` bytes at offsets `0 .. len-1` (20_memory.md R60). `cells` lists the non-zero bytes, addresses rising. -/
structure Memory where
  len : Nat
  cells : List Host.Cell
deriving DecidableEq, Repr

/-- A sparse file of registers by number, numbers rising; a number that is not listed is unset. -/
abbrev RegFile := List (Nat × Nat)

/-- `RES` (10_state.md R40). -/
inductive Res where
  | unset
  | ok
  | error (e : Err)
deriving DecidableEq, Repr

/-- The configuration inputs `CFG` (10_state.md R37). -/
structure Cfg where
  meteringMode : Bool
  capability : Nat
  forceBinary : Bool
deriving DecidableEq, Repr

/-- The cursor and its cache (10_state.md R28, R29). `fieldSet` says that `CUR.field` refers to `PF`. -/
structure Cursor where
  off : Nat
  fieldSet : Bool
  lp : Option Nat
  lq : Option Nat
deriving DecidableEq, Repr

/-- The `PF` block (10_state.md R31). -/
structure PrimeField where
  p : Nat
  lp : Nat
  bitlen : Nat
  limbs : Nat
  r : Nat
  r2 : Nat
  inv : Nat
  zero : Nat
  one : Nat
deriving DecidableEq, Repr

/-- What an object refers to as its field: `PF` or a level of `EX`. -/
inductive FieldRef where
  | fp
  | level (l : Level)
deriving DecidableEq, Repr

/-- An `EX[L]` block (10_state.md R32). An element is the list of its base-field coordinates, in Montgomery form, in the
order of 41_extension_tower.md R170. `frob2` is the companion table of the degree-3 levels (R192, R202). -/
structure ExtField where
  base : FieldRef
  degree : Nat
  nonResidue : List Nat
  frob1 : List (List Nat)
  frob2 : List (List Nat)
  frobValid : Bool
deriving DecidableEq, Repr

/-- The six `EX` blocks. -/
structure ExFile where
  fq2 : Option ExtField
  fq3 : Option ExtField
  fq4 : Option ExtField
  fq6c : Option ExtField
  fq6q : Option ExtField
  fq12 : Option ExtField
deriving DecidableEq, Repr

/-- A `CG[g]` block (10_state.md R34). -/
structure CurveGroup where
  field : FieldRef
  a : List Nat
  b : List Nat
  q : Nat
deriving DecidableEq, Repr

/-- The `PE` block (10_state.md R36, 43_pairing.md R262). A field its family does not have is unset. -/
structure Engine where
  family : Family
  g1 : Group
  g2 : Group
  target : Level
  twist : Option Twist
  x : Nat
  xNeg : Bool
  loop : Option Nat
  loopNeg : Option Bool
  w0 : Option Nat
  w1 : Option Nat
  w0Neg : Option Bool
  digits : Option (List Int)
  useNaf : Option Bool
  tw : Option (List Nat)
  twInv : Option (List Nat)
deriving DecidableEq, Repr

/-- The flags that are results of unit operations or bytes of the tape (10_state.md R30). `EX.frob_valid`, `PE.x_neg`,
`PE.w0_neg` and `PE.use_naf` stand in their blocks; `CG.a_is_zero` is derived (42_curve_group.md R221). -/
structure Flags where
  invOk : Option Bool
  sqrtOk : Option Bool
  nresOk : Option Bool
  exInvOk : Option Bool
  frobOk : Option Bool
  ptIsZero : Option Bool
  ptOnCurve : Option Bool
  ptInSubgroup : Option Bool
  checkG1 : Option Bool
  checkG2 : Option Bool
  isOne : Option Bool
deriving DecidableEq, Repr

/-- The whole state. `port`, `ret` and `freeCtr` are the model's own (logs 3, 4, 5). -/
structure State where
  cfg : Cfg
  inp : Memory
  out : Memory
  res : Res
  cur : Cursor
  pf : Option PrimeField
  ex : ExFile
  cg1 : Option CurveGroup
  cg2 : Option CurveGroup
  pe : Option Engine
  flags : Flags
  slots : RegFile
  port : List Word
  ret : Option (List Byte)
  freeCtr : Nat
deriving DecidableEq, Repr

/-- A tape of no bytes. -/
def Memory.empty : Memory := { len := 0, cells := [] }

/-- The cursor at the start of a call (10_state.md R45). -/
def Cursor.initial : Cursor := { off := 0, fieldSet := false, lp := none, lq := none }

/-- No level constructed (10_state.md R45). -/
def ExFile.unset : ExFile :=
  { fq2 := none, fq3 := none, fq4 := none, fq6c := none, fq6q := none, fq12 := none }

/-- Every flag unset (10_state.md R30). -/
def Flags.unset : Flags :=
  { invOk := none, sqrtOk := none, nresOk := none, exInvOk := none, frobOk := none, ptIsZero := none
    ptOnCurve := none, ptInSubgroup := none, checkG1 := none, checkG2 := none, isOne := none }

/-- The block before any buffer is presented: the values of 10_state.md R45, an empty tape (log 2), an empty port (log 3).
DESIGN CHOICE (log 2): `CFG.metering_mode` false and `CFG.capability` 0, which R37 leaves unspecified. -/
def State.reset : State :=
  { cfg := { meteringMode := false, capability := 0, forceBinary := false }
    inp := Memory.empty
    out := Memory.empty
    res := .unset
    cur := Cursor.initial
    pf := none
    ex := ExFile.unset
    cg1 := none
    cg2 := none
    pe := none
    flags := Flags.unset
    slots := []
    port := []
    ret := none
    freeCtr := 0 }

end Sys2Proof.Machine
end

