-- ==== Sys2Proof/Machine/Ops.lean ====
section
/-! DEFINITION. The named operations over the tapes, the slots and the blocks, raising an error (60_exceptions.md R420),
the start of a call (70_reset_and_hazards.md R450), and the two ways a meaning ends. -/

namespace Sys2Proof.Machine

/-! ## The tapes (20_memory.md) -/

/-- The byte listed for an address, 00 for an unlisted one. -/
def cellLookup (a : Nat) : List Host.Cell → Byte
  | [] => 0
  | (k, b) :: rest => if k = a then b else cellLookup a rest

/-- List `b` at address `a`, dropping a zero byte, addresses rising. -/
def cellInsert (a : Nat) (b : Byte) : List Host.Cell → List Host.Cell
  | [] => if b = 0 then [] else [(a, b)]
  | (k, c) :: rest =>
    if a < k then (if b = 0 then (k, c) :: rest else (a, b) :: (k, c) :: rest)
    else if a = k then (if b = 0 then rest else (a, b) :: rest)
    else (k, c) :: cellInsert a b rest

/-- The byte at an address: an address below the length that is not listed holds 00. -/
def Memory.read (m : Memory) (a : Nat) : Byte :=
  cellLookup a m.cells

/-- `n` bytes from address `a`, lowest first. -/
def Memory.readList (m : Memory) (a : Nat) : Nat → List Byte
  | 0 => []
  | n + 1 => m.read a :: m.readList (a + 1) n

/-- `MemRead(addr, n)` (20_memory.md R62): none when the bytes are not all there, which is `E_SHORT`. -/
def Memory.readBytes (m : Memory) (a n : Nat) : Option (List Byte) :=
  if a + n ≤ m.len then some (m.readList a n) else none

/-- Write one byte; the length grows to hold it. -/
def Memory.writeByte (m : Memory) (a : Nat) (b : Byte) : Memory :=
  { len := max m.len (a + 1), cells := cellInsert a b m.cells }

/-- `MemWrite(addr, n, v)` (20_memory.md R64), `n` the length of `v`; the length becomes `max(OUT_LEN, addr + n)`. -/
def Memory.write (m : Memory) (a : Nat) : List Byte → Memory
  | [] => { m with len := max m.len a }
  | b :: bs => (m.writeByte a b).write (a + 1) bs

/-- A tape holding a byte string from offset 0. -/
def Memory.ofBytes (bs : List Byte) : Memory :=
  Memory.empty.write 0 bs

/-- The bytes of a tape, in order. -/
def Memory.toBytes (m : Memory) : List Byte :=
  m.readList 0 m.len

/-- Addresses rising from `lo`, below `hi`, no zero byte listed. -/
def cellsCanonical (hi : Nat) : Nat → List Host.Cell → Bool
  | _, [] => true
  | lo, (k, b) :: rest => lo ≤ k && k < hi && b != 0 && cellsCanonical hi (k + 1) rest

/-- The canonical form of a tape: addresses strictly rising and inside the tape, no entry equal to what an unlisted
address holds. -/
def Memory.wf (m : Memory) : Bool :=
  cellsCanonical m.len 0 m.cells

/-! ## The slots (10_state.md R22) -/

/-- The value of a register, none when unset. -/
def regGet (i : Nat) : RegFile → Option Nat
  | [] => none
  | (k, v) :: rest => if k = i then some v else regGet i rest

/-- Write a register, numbers rising. -/
def regSet (i v : Nat) : RegFile → RegFile
  | [] => [(i, v)]
  | (k, w) :: rest =>
    if i < k then (i, v) :: (k, w) :: rest
    else if i = k then (i, v) :: rest
    else (k, w) :: regSet i v rest

/-- Register numbers strictly rising from `lo`. -/
def regsCanonical : Nat → RegFile → Bool
  | _, [] => true
  | lo, (k, _) :: rest => lo ≤ k && regsCanonical (k + 1) rest

/-- `n` consecutive registers from `a`; an unset one is named. -/
def regGetGroup (rf : RegFile) (a : Nat) : Nat → Except Nat (List Nat)
  | 0 => .ok []
  | n + 1 =>
    match regGet a rf with
    | none => .error a
    | some v =>
      match regGetGroup rf (a + 1) n with
      | .error i => .error i
      | .ok vs => .ok (v :: vs)

/-- Write consecutive registers from `a`. -/
def regSetGroup (a : Nat) : List Nat → RegFile → RegFile
  | [], rf => rf
  | v :: vs, rf => regSetGroup (a + 1) vs (regSet a v rf)

/-! ## State updates -/

/-- Move the cursor. -/
def State.setOff (s : State) (o : Nat) : State := { s with cur := { s.cur with off := o } }

/-- Cache the field object and its element length (44_decoder.md R332). -/
def State.setField (s : State) (lp : Nat) : State := { s with cur := { s.cur with fieldSet := true, lp := some lp } }

/-- Cache the order length (44_decoder.md R338). -/
def State.setLq (s : State) (lq : Nat) : State := { s with cur := { s.cur with lq := some lq } }

/-- Write the `PF` block. -/
def State.setPF (s : State) (f : PrimeField) : State := { s with pf := some f }

/-- Write the slots. -/
def State.setSlots (s : State) (rf : RegFile) : State := { s with slots := rf }

/-- Write the flags. -/
def State.setFlags (s : State) (f : Flags) : State := { s with flags := f }

/-- Write the `PE` block. -/
def State.setPE (s : State) (e : Engine) : State := { s with pe := some e }

/-- Write the unit byte result (log 4). -/
def State.setRet (s : State) (bs : List Byte) : State := { s with ret := some bs }

/-- Advance the free-value counter (log 5). -/
def State.bumpFree (s : State) : State := { s with freeCtr := s.freeCtr + 1 }

/-- Empty the port. -/
def State.clearPort (s : State) : State := { s with port := [] }

/-- A level's block. -/
def ExFile.get (x : ExFile) : Level → Option ExtField
  | .fq2 => x.fq2 | .fq3 => x.fq3 | .fq4 => x.fq4 | .fq6c => x.fq6c | .fq6q => x.fq6q | .fq12 => x.fq12

/-- Write a level's block. -/
def ExFile.put (x : ExFile) (e : ExtField) : Level → ExFile
  | .fq2 => { x with fq2 := some e }
  | .fq3 => { x with fq3 := some e }
  | .fq4 => { x with fq4 := some e }
  | .fq6c => { x with fq6c := some e }
  | .fq6q => { x with fq6q := some e }
  | .fq12 => { x with fq12 := some e }

/-- Write `EX[L]`. -/
def State.setEX (s : State) (l : Level) (e : ExtField) : State := { s with ex := s.ex.put e l }

/-- A group's block. -/
def State.cg (s : State) : Group → Option CurveGroup
  | .g1 => s.cg1 | .g2 => s.cg2

/-- Write `CG[g]`. -/
def State.setCG (s : State) (g : Group) (c : CurveGroup) : State :=
  match g with
  | .g1 => { s with cg1 := some c }
  | .g2 => { s with cg2 := some c }

/-- The reset of the call state (70_reset_and_hazards.md R450, 10_state.md R45). `IN` and `CFG` stay as the host presented
them; the port and the free-value counter are the model's own and stay. -/
def State.resetCall (s : State) : State :=
  { cfg := s.cfg
    inp := s.inp
    out := Memory.empty
    res := .unset
    cur := Cursor.initial
    pf := none
    ex := ExFile.unset
    cg1 := none
    cg2 := none
    pe := none
    flags := Flags.unset
    slots := []
    port := s.port
    ret := none
    freeCtr := s.freeCtr }

/-- `raise E` (60_exceptions.md R420): the result is the error, the output tape is empty, the call ends, and "nothing of the
call's state (`PF`, `EX`, `CG`, `PE`, `CUR`) outlives it". Nothing saves an offset, no handler is entered and nothing
returns (R411, R422, R423). -/
def State.raiseErr (s : State) (e : Err) : State := { s.resetCall with res := .error e }

/-- The successful end of a call: the whole result is written from offset 0 of the empty output tape, and `RES.kind` is
ok (45_dispatcher.md R380, 20_memory.md R64, R77). `CUR.OFF` stands where the decoder left it, at the end of the tape:
"After a successful call `CUR.OFF = IN_LEN`" (10_state.md R28, 44_decoder.md R356). Nothing else of the call outlives it
(00_scope.md R6, 10_state.md R30, 60_exceptions.md R446). -/
def State.finish (s : State) (bs : List Byte) : State :=
  { s.resetCall with res := .ok, out := Memory.ofBytes bs, cur := { Cursor.initial with off := s.cur.off } }

/-- The state in which the meaning of a call runs: after the reset and the read of byte 0 (45_dispatcher.md R380). -/
def State.beginCall (s : State) : State := s.resetCall.setOff 1

/-! ## Steps that can end a call -/

/-- Why a sequence of steps stops: an error of the block, a fault or a refusal of the model. -/
inductive Stop where
  | raise (e : Err)
  | fault (f : Fault)
  | refuse (r : Refusal)
deriving DecidableEq, Repr

/-- A sequence of steps over the state. On a stop the state as it then stood is kept. -/
abbrev M := EStateM Stop State

/-- `raise E`. -/
def raise {α : Type} (e : Err) : M α := fun s => .error (.raise e) s

/-- Stop with a model fault. -/
def faultWith {α : Type} (f : Fault) : M α := fun s => .error (.fault f) s

/-- Stop with a refusal. -/
def refuseWith {α : Type} (r : Refusal) : M α := fun s => .error (.refuse r) s

/-- `if not ok: raise E`. -/
def require (ok : Bool) (e : Err) : M Unit := fun s =>
  if ok then .ok () s else .error (.raise e) s

/-- Change the state. -/
def update (f : State → State) : M Unit := fun s => .ok () (f s)

/-- Look at the state. -/
def look {α : Type} (f : State → α) : M α := fun s => .ok (f s) s

/-- The value of a register, or the fault of reading it unset (70_reset_and_hazards.md R452). -/
def getSet {α : Type} (what : Item) (o : State → Option α) : M α := fun s =>
  match o s with
  | some v => .ok v s
  | none => .error (.fault (.unset what)) s

/-- Write an object that does not exist yet; one that exists is frozen (70_reset_and_hazards.md R475). -/
def construct (what : Item) (present : State → Bool) (f : State → State) : M Unit := fun s =>
  if present s then .error (.fault (.frozen what)) s else .ok () (f s)

/-- `TapeRead(n)` (44_decoder.md R321): all or nothing. -/
def tapeRead (n : Nat) : M (List Byte) := fun s =>
  match s.inp.readBytes s.cur.off n with
  | none => .error (.raise .short) s
  | some bs => .ok bs (s.setOff (s.cur.off + n))

/-- `ReadByte()` (44_decoder.md R322). -/
def readByte : M Nat := do
  let bs ← tapeRead 1
  pure (bytesToNat bs)

/-- `ReadFlag()` (44_decoder.md R324). -/
def readFlag : M Bool := do
  let v ← readByte
  require (v ≤ 1) .flag
  pure (v == 1)

/-- The `PF` block. -/
def getPF : M PrimeField := getSet .pf (fun s => s.pf)

/-- The field object through the cursor cache (44_decoder.md R325). -/
def getCurField : M PrimeField := do
  let _ ← getSet .curField (fun s => if s.cur.fieldSet then some () else none)
  getPF

/-- `CUR.Lp`. -/
def getLp : M Nat := getSet .curLp (fun s => s.cur.lp)

/-- `CUR.Lq`. -/
def getLq : M Nat := getSet .curLq (fun s => s.cur.lq)

/-- The `EX[L]` block. -/
def getEX (l : Level) : M ExtField := getSet (.ex l) (fun s => s.ex.get l)

/-- The `CG[g]` block. -/
def getCG (g : Group) : M CurveGroup := getSet (.cg g) (fun s => s.cg g)

/-- The `PE` block. -/
def getPE : M Engine := getSet .pe (fun s => s.pe)

/-- A field of `PE` that only some families have. -/
def getPEField {α : Type} (o : Option α) : M α := getSet .peField (fun _ => o)

/-- How the meaning of a call ends: the result bytes, an error, or a stop of the model (45_dispatcher.md R380, R395). -/
def runCall (m : M (List Byte)) (s : State) : Host.Outcome State Fault Refusal :=
  match m s with
  | .ok bs t => .next (t.finish bs)
  | .error (.raise e) t => .next (t.raiseErr e)
  | .error (.fault f) _ => .fault f
  | .error (.refuse r) _ => .refused r

/-- How the meaning of a unit operation ends; an error of the unit interface ends the call (60_exceptions.md R412, R420). -/
def runUnit (m : M Unit) (s : State) : Host.Outcome State Fault Refusal :=
  match m s with
  | .ok _ t => .next t
  | .error (.raise e) t => .next (t.raiseErr e)
  | .error (.fault f) _ => .fault f
  | .error (.refuse r) _ => .refused r

end Sys2Proof.Machine
end

