-- ==== Sys2Proof/Machine/Flags.lean ====
section
/-! DEFINITION. The flags (10_state.md R30): each is written by the one operation that returns it. -/

namespace Sys2Proof.Machine

/-- `INV.ok` (40_prime_field.md R145). -/
def setInvOk (b : Bool) : M Unit := update fun s => s.setFlags { s.flags with invOk := some b }

/-- `SQRT.ok` (40_prime_field.md R150). -/
def setSqrtOk (b : Bool) : M Unit := update fun s => s.setFlags { s.flags with sqrtOk := some b }

/-- `NRES.ok` (40_prime_field.md R152). -/
def setNresOk (b : Bool) : M Unit := update fun s => s.setFlags { s.flags with nresOk := some b }

/-- `EX.INV.ok` (41_extension_tower.md R175). -/
def setExInvOk (b : Bool) : M Unit := update fun s => s.setFlags { s.flags with exInvOk := some b }

/-- `FROB.ok` (41_extension_tower.md R177). -/
def setFrobOk (b : Bool) : M Unit := update fun s => s.setFlags { s.flags with frobOk := some b }

/-- `PT.is_zero` (42_curve_group.md R222). -/
def setPtIsZero (b : Bool) : M Unit := update fun s => s.setFlags { s.flags with ptIsZero := some b }

/-- `PT.on_curve` (42_curve_group.md R223). -/
def setPtOnCurve (b : Bool) : M Unit := update fun s => s.setFlags { s.flags with ptOnCurve := some b }

/-- `PT.in_subgroup` (42_curve_group.md R238). -/
def setPtInSubgroup (b : Bool) : M Unit := update fun s => s.setFlags { s.flags with ptInSubgroup := some b }

/-- `PAIR.check_g1` (44_decoder.md R350). -/
def setCheckG1 (b : Bool) : M Unit := update fun s => s.setFlags { s.flags with checkG1 := some b }

/-- `PAIR.check_g2` (44_decoder.md R350). -/
def setCheckG2 (b : Bool) : M Unit := update fun s => s.setFlags { s.flags with checkG2 := some b }

/-- `RES.is_one` (45_dispatcher.md R394). -/
def setIsOne (b : Bool) : M Unit := update fun s => s.setFlags { s.flags with isOne := some b }

end Sys2Proof.Machine
end

