-- ==== Sys2Proof/Machine/Field.lean ====
section
/-! DEFINITION. The prime-field unit's arithmetic (40_prime_field.md) on stored integers, and the arithmetic surface
that every level of the tower offers (41_extension_tower.md R173). -/

namespace Sys2Proof.Machine

/-! ## Construction (40_prime_field.md R130 to R133) -/

/-- The low `k` bits of `-p^-1`, built bit by bit: the number `m < 2^k` with `p * m ≡ -1 (mod 2^k)`, for odd `p`. -/
def negInvPow2 (p : Nat) : Nat → Nat
  | 0 => 0
  | k + 1 =>
    if (p * negInvPow2 p k + 1) / 2 ^ k % 2 = 0 then negInvPow2 p k else negInvPow2 p k + 2 ^ k

/-- `limb_count` (00_scope.md R9, 40_prime_field.md R131). -/
def limbCount (p : Nat) : Nat :=
  max Config.limbFloor (ceilDiv (bitlen p) Config.limbBits)

/-- The `PF` block of a modulus of `lp` bytes (40_prime_field.md R130, R132, R133). -/
def PrimeField.ofModulus (p lp : Nat) : PrimeField :=
  { p := p
    lp := lp
    bitlen := Sys2Proof.bitlen p
    limbs := limbCount p
    r := 2 ^ (Config.limbBits * limbCount p) % p
    r2 := 2 ^ (2 * (Config.limbBits * limbCount p)) % p
    inv := negInvPow2 p 64
    zero := 0
    one := 2 ^ (Config.limbBits * limbCount p) % p }

/-- `W = 64 * PF.limbs` (10_state.md R21). -/
def PrimeField.width (f : PrimeField) : Nat := Config.limbBits * f.limbs

/-- `Rinv = (2^W)^-1 mod p` (40_prime_field.md R138): `(p+1)/2` is the inverse of 2 modulo an odd `p`. -/
def PrimeField.rinv (f : PrimeField) : Nat := ((f.p + 1) / 2) ^ f.width % f.p

/-! ## Operations (40_prime_field.md R134 to R152) -/

/-- `PF.ADD` (R140). -/
def PrimeField.add (f : PrimeField) (a b : Nat) : Nat := (a + b) % f.p

/-- `PF.SUB`, the least non-negative residue (R141). -/
def PrimeField.sub (f : PrimeField) (a b : Nat) : Nat := (a + (f.p - b % f.p)) % f.p

/-- `PF.DOUBLE` (R142). -/
def PrimeField.double (f : PrimeField) (a : Nat) : Nat := 2 * a % f.p

/-- `PF.NEGATE` (R143). -/
def PrimeField.negate (f : PrimeField) (a : Nat) : Nat := if a = 0 then 0 else f.p - a

/-- `PF.MUL`, the Montgomery multiplier (R138). -/
def PrimeField.mul (f : PrimeField) (a b : Nat) : Nat := a * b * f.rinv % f.p

/-- `PF.SQUARE` (R144). -/
def PrimeField.square (f : PrimeField) (a : Nat) : Nat := f.mul a a

/-- `PF.TO_MONT` (R134). -/
def PrimeField.toMont (f : PrimeField) (a : Nat) : Nat := a * 2 ^ f.width % f.p

/-- `PF.FROM_MONT` (R135). -/
def PrimeField.fromMont (f : PrimeField) (a : Nat) : Nat := a * f.rinv % f.p

/-- Square and multiply, most significant bit first (R146, 41_extension_tower.md R176), over bits `n-1 .. 0` of `e`. -/
def powBits {α : Type} (mul : α → α → α) (a : α) (e : Nat) : Nat → α → α
  | 0, acc => acc
  | n + 1, acc =>
    powBits mul a e n (if e.testBit n then mul (mul acc acc) a else mul acc acc)

/-- `PF.EXP` (R146). -/
def PrimeField.exp (f : PrimeField) (a e : Nat) : Nat := powBits f.mul a e (Sys2Proof.bitlen e) f.one

/-- One pass of phase 1 of the inverse engine and the passes after it (R147): `u`, `v`, `r`, `s`, `k`, at most `n` passes
while `v != 0`. The result is the last `u`, `v`, `r`, `k`. -/
def invPhase1 : Nat → Nat → Nat → Nat → Nat → Nat → Nat × Nat × Nat × Nat
  | 0, u, v, r, _, k => (u, v, r, k)
  | n + 1, u, v, r, s, k =>
    if v = 0 then (u, v, r, k)
    else if u % 2 = 0 then invPhase1 n (u / 2) v r (2 * s) (k + 1)
    else if v % 2 = 0 then invPhase1 n u (v / 2) (2 * r) s (k + 1)
    else if u > v then invPhase1 n ((u - v) / 2) v (r + s) (2 * s) (k + 1)
    else invPhase1 n u ((v - u) / 2) (2 * r) (s + r) (k + 1)

/-- `n` doublings (R148). -/
def PrimeField.doubleTimes (f : PrimeField) : Nat → Nat → Nat
  | 0, y => y
  | n + 1, y => f.doubleTimes n (f.double y)

/-- `PF.INVERT` (R145, R147, R148): the boolean and the destination's value. -/
def PrimeField.invert (f : PrimeField) (a : Nat) : Bool × Nat :=
  if a = 0 then (false, 0)
  else
    match invPhase1 (2 * f.width) f.p a 0 1 0 with
    | (u, v, r, k) =>
      if v = 0 ∧ u = 1 ∧ f.bitlen ≤ k ∧ k ≤ 2 * f.width then
        (true, f.doubleTimes (2 * f.width - k) (f.p - (if r ≥ f.p then r - f.p else r)))
      else (false, 0)

/-- `PF.SQRT` for `p ≡ 3 (mod 4)` (R150). -/
def PrimeField.sqrt (f : PrimeField) (a : Nat) : Bool × Nat :=
  let t := f.exp a ((f.p - 3) / 4)
  let b := f.mul (f.mul t t) a
  if b = f.negate f.one then (false, 0) else (true, f.mul t a)

/-- `PF.NRES` (R152). -/
def PrimeField.nres (f : PrimeField) (a n : Nat) : Bool :=
  if (f.p - 1) % n ≠ 0 then false else f.exp a ((f.p - 1) / n) != f.one

/-- `PF.TO_BYTES` (R154). -/
def PrimeField.toBytes (f : PrimeField) (a : Nat) : List Byte := natToBytes (f.fromMont a) (8 * f.limbs)

/-- `PF.TO_BYTES_DENSE` (R156). -/
def PrimeField.toBytesDense (f : PrimeField) (a : Nat) : List Byte := natToBytes (f.fromMont a) f.lp

/-! ## The arithmetic surface of a level (41_extension_tower.md R173) -/

/-- The operations of one level, on elements of type `α` whose base-field coordinates are stored integers. `inv` gives
the boolean and the destination's value (R175); `scale` multiplies every base-field coordinate by a base-field element. -/
structure Fld (α : Type) where
  zero : α
  one : α
  add : α → α → α
  sub : α → α → α
  neg : α → α
  dbl : α → α
  mul : α → α → α
  inv : α → Bool × α
  beq : α → α → Bool
  scale : Nat → α → α
  deg : Nat
  coords : α → List Nat
  ofCoords : List Nat → α

/-- `SQUARE(a) = MUL(a, a)` (40_prime_field.md R144, 41_extension_tower.md R174). -/
def Fld.sq {α : Type} (F : Fld α) (a : α) : α := F.mul a a

/-- `is_zero` (40_prime_field.md R136, 41_extension_tower.md R173). -/
def Fld.isZero {α : Type} (F : Fld α) (a : α) : Bool := F.beq a F.zero

/-- `EXP` (40_prime_field.md R146, 41_extension_tower.md R176). -/
def Fld.exp {α : Type} (F : Fld α) (a : α) (e : Nat) : α := powBits F.mul a e (bitlen e) F.one

/-- Three times an element. -/
def Fld.triple {α : Type} (F : Fld α) (a : α) : α := F.add (F.dbl a) a

/-- The base-field element `c` in the level: coordinate 0 is `c`, the others are 0. -/
def Fld.embed {α : Type} (F : Fld α) (c : Nat) : α := F.ofCoords (c :: List.replicate (F.deg - 1) 0)

/-- The generator of a level over `Fp`: coordinate 1 is one, the others are 0 (41_extension_tower.md R170). -/
def Fld.generator {α : Type} (F : Fld α) (one : Nat) : α :=
  F.ofCoords (0 :: one :: List.replicate (F.deg - 2) 0)

/-- The base field of the call on Montgomery forms (40_prime_field.md). -/
def fpFld (f : PrimeField) : Fld Nat :=
  { zero := f.zero
    one := f.one
    add := f.add
    sub := f.sub
    neg := f.negate
    dbl := f.double
    mul := f.mul
    inv := f.invert
    beq := fun a b => a == b
    scale := fun c a => f.mul a c
    deg := 1
    coords := fun a => [a]
    ofCoords := fun l => l.headD 0 }

/-- A level of degree 2 over `B`, `nr` the multiplication by its constant (41_extension_tower.md R173 to R175). -/
def quadFld {α : Type} (B : Fld α) (nr : α → α) : Fld (α × α) :=
  { zero := (B.zero, B.zero)
    one := (B.one, B.zero)
    add := fun a b => (B.add a.1 b.1, B.add a.2 b.2)
    sub := fun a b => (B.sub a.1 b.1, B.sub a.2 b.2)
    neg := fun a => (B.neg a.1, B.neg a.2)
    dbl := fun a => (B.dbl a.1, B.dbl a.2)
    mul := fun a b =>
      let v0 := B.mul a.1 b.1
      let v1 := B.mul a.2 b.2
      (B.add v0 (nr v1), B.sub (B.sub (B.mul (B.add a.1 a.2) (B.add b.1 b.2)) v0) v1)
    inv := fun a =>
      let n := B.sub (B.mul a.1 a.1) (nr (B.mul a.2 a.2))
      match B.inv n with
      | (false, _) => (false, (B.zero, B.zero))
      | (true, ni) => (true, (B.mul a.1 ni, B.neg (B.mul a.2 ni)))
    beq := fun a b => B.beq a.1 b.1 && B.beq a.2 b.2
    scale := fun c a => (B.scale c a.1, B.scale c a.2)
    deg := 2 * B.deg
    coords := fun a => B.coords a.1 ++ B.coords a.2
    ofCoords := fun l => (B.ofCoords (l.take B.deg), B.ofCoords (l.drop B.deg)) }

/-- A level of degree 3 over `B`, `nr` the multiplication by its constant (41_extension_tower.md R173 to R175). -/
def cubicFld {α : Type} (B : Fld α) (nr : α → α) : Fld (α × α × α) :=
  { zero := (B.zero, B.zero, B.zero)
    one := (B.one, B.zero, B.zero)
    add := fun a b => (B.add a.1 b.1, B.add a.2.1 b.2.1, B.add a.2.2 b.2.2)
    sub := fun a b => (B.sub a.1 b.1, B.sub a.2.1 b.2.1, B.sub a.2.2 b.2.2)
    neg := fun a => (B.neg a.1, B.neg a.2.1, B.neg a.2.2)
    dbl := fun a => (B.dbl a.1, B.dbl a.2.1, B.dbl a.2.2)
    mul := fun a b =>
      (B.add (B.mul a.1 b.1) (nr (B.add (B.mul a.2.1 b.2.2) (B.mul a.2.2 b.2.1))),
       B.add (B.add (B.mul a.1 b.2.1) (B.mul a.2.1 b.1)) (nr (B.mul a.2.2 b.2.2)),
       B.add (B.add (B.mul a.1 b.2.2) (B.mul a.2.1 b.2.1)) (B.mul a.2.2 b.1))
    inv := fun a =>
      let t0 := B.sub (B.mul a.1 a.1) (nr (B.mul a.2.1 a.2.2))
      let t1 := B.sub (nr (B.mul a.2.2 a.2.2)) (B.mul a.1 a.2.1)
      let t2 := B.sub (B.mul a.2.1 a.2.1) (B.mul a.1 a.2.2)
      let n := B.add (B.mul a.1 t0) (nr (B.add (B.mul a.2.2 t1) (B.mul a.2.1 t2)))
      match B.inv n with
      | (false, _) => (false, (B.zero, B.zero, B.zero))
      | (true, ni) => (true, (B.mul t0 ni, B.mul t1 ni, B.mul t2 ni))
    beq := fun a b => B.beq a.1 b.1 && B.beq a.2.1 b.2.1 && B.beq a.2.2 b.2.2
    scale := fun c a => (B.scale c a.1, B.scale c a.2.1, B.scale c a.2.2)
    deg := 3 * B.deg
    coords := fun a => B.coords a.1 ++ B.coords a.2.1 ++ B.coords a.2.2
    ofCoords := fun l =>
      (B.ofCoords (l.take B.deg), B.ofCoords ((l.drop B.deg).take B.deg), B.ofCoords (l.drop (2 * B.deg))) }

end Sys2Proof.Machine
end

