-- ==== Sys2Proof/Machine/Curve.lean ====
section
/-! DEFINITION. The curve-group unit's arithmetic (42_curve_group.md) over any field of G1 or G2 (R249). -/

namespace Sys2Proof.Machine

/-- A point in Jacobian coordinates (10_state.md R25). -/
structure Pt (α : Type) where
  x : α
  y : α
  z : α
deriving DecidableEq, Repr

section
variable {α : Type} (F : Fld α)

/-- The canonical identity `(0, 1, 0)` (10_state.md R25). -/
def ptIdentity : Pt α := { x := F.zero, y := F.one, z := F.zero }

/-- A point from affine coordinates (42_curve_group.md R225). -/
def ptAffine (x y : α) : Pt α := { x := x, y := y, z := F.one }

/-- `IS_ZERO` (R222). -/
def ptIsZero (p : Pt α) : Bool := F.isZero p.z

/-- `IS_ON_CURVE` (R223). -/
def ptOnCurve (a b : α) (p : Pt α) : Bool :=
  if ptIsZero F p then true
  else
    let z2 := F.sq p.z
    let z4 := F.sq z2
    let rhs := F.add (F.mul (F.sq p.x) p.x) (F.mul b (F.mul z4 z2))
    let rhs' := if F.isZero a then rhs else F.add rhs (F.mul (F.mul a p.x) z4)
    F.beq (F.sq p.y) rhs'

/-- The doubling formulas (R229); `E` takes its second term only when `a` is not zero. -/
def ptDoubleFormula (a : α) (p : Pt α) : Pt α :=
  let A := F.sq p.x
  let B := F.sq p.y
  let C := F.sq B
  let D := F.dbl (F.sub (F.sub (F.sq (F.add p.x B)) A) C)
  let E := if F.isZero a then F.triple A else F.add (F.triple A) (F.mul a (F.sq (F.sq p.z)))
  let x3 := F.sub (F.sq E) (F.dbl D)
  let y3 := F.sub (F.mul E (F.sub D x3)) (F.dbl (F.dbl (F.dbl C)))
  { x := x3, y := y3, z := F.mul (F.dbl p.y) p.z }

/-- `DOUBLE` (R228). -/
def ptDouble (a : α) (p : Pt α) : Pt α :=
  if ptIsZero F p || F.isZero p.y then ptIdentity F else ptDoubleFormula F a p

/-- `ADD` (R226). -/
def ptAdd (a : α) (p1 p2 : Pt α) : Pt α :=
  if ptIsZero F p1 then p2
  else if ptIsZero F p2 then p1
  else
    let z1z1 := F.sq p1.z
    let z2z2 := F.sq p2.z
    let u1 := F.mul p1.x z2z2
    let u2 := F.mul p2.x z1z1
    let s1 := F.mul (F.mul p1.y p2.z) z2z2
    let s2 := F.mul (F.mul p2.y p1.z) z1z1
    if F.beq u1 u2 then
      if F.beq s1 s2 then ptDouble F a p1 else ptIdentity F
    else
      let h := F.sub u2 u1
      let r := F.sub s2 s1
      let hh := F.sq h
      let hhh := F.mul h hh
      let v := F.mul u1 hh
      let x3 := F.sub (F.sub (F.sq r) hhh) (F.dbl v)
      { x := x3
        y := F.sub (F.mul r (F.sub v x3)) (F.mul s1 hhh)
        z := F.mul (F.mul p1.z p2.z) h }

/-- `NEGATE` (R232). -/
def ptNegate (p : Pt α) : Pt α := { x := p.x, y := F.neg p.y, z := p.z }

/-- Bits `i, i+1, ...` of `e`, `n` of them, least significant first (R234). -/
def scalarMulFrom (a : α) (e : Nat) : Nat → Nat → Pt α → Pt α → Pt α
  | 0, _, acc, _ => acc
  | n + 1, i, acc, t =>
    scalarMulFrom a e n (i + 1) (if e.testBit i then ptAdd F a acc t else acc) (ptDouble F a t)

/-- `SCALAR_MUL` (R234). -/
def ptScalarMul (a : α) (p : Pt α) (e : Nat) : Pt α :=
  scalarMulFrom F a e (bitlen e) 0 (ptIdentity F) p

end

/-- The signed digit of an odd `e` for window `w` (R236). -/
def wnafDigit (e w : Nat) : Int :=
  let z := e % 2 ^ w
  if z > 2 ^ (w - 1) then (z : Int) - (2 ^ w : Nat) else (z : Int)

/-- The digits of `e`, least significant first, at most `n` of them (R236). -/
def wnafDigits (w : Nat) : Nat → Nat → List Int
  | 0, _ => []
  | n + 1, e =>
    if e = 0 then []
    else if e % 2 = 1 then wnafDigit e w :: wnafDigits w n (((e : Int) - wnafDigit e w).toNat / 2)
    else 0 :: wnafDigits w n (e / 2)

/-- `wnaf(e, w)` (R236): a recoding has at most one digit more than `e` has bits. -/
def wnaf (e w : Nat) : List Int := wnafDigits w (bitlen e + 2) e

section
variable {α : Type} (F : Fld α)

/-- The loop of `WNAF_MUL` over digits, most significant first, with the table `P, 3P` (R237). -/
def wnafMulLoop (a : α) (t0 t1 : Pt α) : List Int → Pt α → Pt α
  | [], acc => acc
  | z :: zs, acc =>
    let d := ptDouble F a acc
    let entry := if z.natAbs / 2 = 0 then t0 else t1
    let acc' := if 0 < z then ptAdd F a d entry else if z < 0 then ptAdd F a d (ptNegate F entry) else d
    wnafMulLoop a t0 t1 zs acc'

/-- `WNAF_MUL`, window 3 (R237). -/
def ptWnafMul (a : α) (p : Pt α) (e : Nat) : Pt α :=
  wnafMulLoop F a p (ptAdd F a p (ptDouble F a p)) (wnaf e Config.wnafWindow).reverse (ptIdentity F)

/-- `SUBGROUP_CHECK` (R238). -/
def ptSubgroupCheck (a : α) (q : Nat) (p : Pt α) : Bool := ptIsZero F (ptWnafMul F a p q)

/-! ## Multi-exponentiation (R240 to R243) -/

/-- The least `k >= k0` with `10^k >= n`, found in `fuel` tries (R241, D29). -/
def ceilLog10 (n : Nat) : Nat → Nat → Nat
  | 0, k => k
  | fuel + 1, k => if 10 ^ k ≥ n then k else ceilLog10 n fuel (k + 1)

/-- The bucket window of `n` pairs (R241). -/
def mexpWindow (n : Nat) : Nat :=
  if n ≤ Config.mexpSmallN then Config.mexpSmallC else ceilLog10 n (bitlen n) 0

/-- Bucket `d` of window `w`: the sum of the points whose digit is `d` (R242). -/
def bucketSum (a : α) (c w d : Nat) : List (Pt α × Nat) → Pt α → Pt α
  | [], acc => acc
  | (p, e) :: rest, acc =>
    bucketSum a c w d rest (if e / 2 ^ (w * c) % 2 ^ c = d then ptAdd F a acc p else acc)

/-- The sweep from bucket `d` down to 1 (R242). -/
def bucketSweep (a : α) (c w : Nat) (list : List (Pt α × Nat)) : Nat → Pt α → Pt α → Pt α
  | 0, _, total => total
  | d + 1, running, total =>
    let running' := ptAdd F a running (bucketSum F a c w (d + 1) list (ptIdentity F))
    bucketSweep a c w list d running' (ptAdd F a total running')

/-- `window_sum(w)` (R242). -/
def windowSum (a : α) (c w : Nat) (list : List (Pt α × Nat)) : Pt α :=
  bucketSweep F a c w list (2 ^ c - 1) (ptIdentity F) (ptIdentity F)

/-- `n` doublings. -/
def ptDoubleTimes (a : α) : Nat → Pt α → Pt α
  | 0, p => p
  | n + 1, p => ptDoubleTimes a n (ptDouble F a p)

/-- The windows `n-1 .. 0` combined, most significant first (R243). -/
def combineWindows (a : α) (c : Nat) (list : List (Pt α × Nat)) : Nat → Pt α → Pt α
  | 0, acc => acc
  | w + 1, acc =>
    combineWindows a c list w (ptAdd F a (ptDoubleTimes F a c acc) (windowSum F a c w list))

/-- `MULTI_EXP` of lists of one length (R240). -/
def ptMultiExp (a : α) (q : Nat) (list : List (Pt α × Nat)) : Pt α :=
  let c := mexpWindow list.length
  combineWindows F a c list (ceilDiv (bitlen q) c) (ptIdentity F)

/-- `TO_AFFINE` (R246). A false of the inverse is no error (60_exceptions.md R413), and the
zero it leaves is used (log 22). -/
def ptToAffine (p : Pt α) : α × α :=
  if ptIsZero F p then (F.zero, F.zero)
  else
    let zi := (F.inv p.z).2
    let zi2 := F.sq zi
    (F.mul p.x zi2, F.mul p.y (F.mul zi2 zi))

/-- Equality of points (R224). -/
def ptSame (p1 p2 : Pt α) : Bool :=
  if ptIsZero F p1 || ptIsZero F p2 then ptIsZero F p1 && ptIsZero F p2
  else
    F.beq (F.mul p1.x (F.sq p2.z)) (F.mul p2.x (F.sq p1.z))
      && F.beq (F.mul p1.y (F.mul (F.sq p2.z) p2.z)) (F.mul p2.y (F.mul (F.sq p1.z) p1.z))

end

end Sys2Proof.Machine
end

