-- ==== Sys2Proof/Machine/Tower.lean ====
section
/-! DEFINITION. The six levels (41_extension_tower.md R170, R182), their Frobenius maps (R178) and tables (R184 to R213),
conjugation (R180) and the sparse products (R214, R215). Elements are on Montgomery forms (R171). -/

namespace Sys2Proof.Machine

/-- An element of `Fq2`. -/
abbrev E2 := Nat × Nat
/-- An element of `Fq3`. -/
abbrev E3 := Nat × Nat × Nat
/-- An element of `Fq4`. -/
abbrev E4 := E2 × E2
/-- An element of `Fq6c`. -/
abbrev E6 := E2 × E2 × E2
/-- An element of `Fq6q`. -/
abbrev E6q := E3 × E3
/-- An element of `Fq12`. -/
abbrev E12 := E6 × E6

/-- `FQ2`: `u² = β` (41_extension_tower.md R170, R182). -/
def fq2Fld (F : Fld Nat) (beta : Nat) : Fld E2 := quadFld F (fun x => F.mul beta x)

/-- `FQ3`: `u³ = β`. -/
def fq3Fld (F : Fld Nat) (beta : Nat) : Fld E3 := cubicFld F (fun x => F.mul beta x)

/-- `FQ4`: `w² = u`, with `u·(x0, x1) = (β·x1, x0)`. -/
def fq4Fld (F : Fld Nat) (beta : Nat) : Fld E4 := quadFld (fq2Fld F beta) (fun x => (F.mul beta x.2, x.1))

/-- `FQ6C`: `v³ = ξ`. -/
def fq6cFld (F2 : Fld E2) (xi : E2) : Fld E6 := cubicFld F2 (fun x => F2.mul xi x)

/-- `FQ6Q`: `w² = u`, with `u·(x0, x1, x2) = (β·x2, x0, x1)`. -/
def fq6qFld (F : Fld Nat) (beta : Nat) : Fld E6q :=
  quadFld (fq3Fld F beta) (fun x => (F.mul beta x.2.2, x.1, x.2.1))

/-- `FQ12`: `w² = v`, with `v·(x0, x1, x2) = (ξ·x2, x0, x1)`. -/
def fq12Fld (F2 : Fld E2) (xi : E2) : Fld E12 :=
  quadFld (fq6cFld F2 xi) (fun x => (F2.mul xi x.2.2, x.1, x.2.1))

/-- `CONJUGATE` on a level of degree 2 over its base (41_extension_tower.md R180). -/
def conjugate {α : Type} (B : Fld α) (a : α × α) : α × α := (a.1, B.neg a.2)

/-! ## Frobenius maps (41_extension_tower.md R178) -/

/-- Entry `i` of a table whose entries lie in `Fp`. -/
def tableFp (t : List (List Nat)) (i : Nat) : Nat := (t.getD i []).headD 0

/-- Entry `i` of a table whose entries lie in `Fq2`. -/
def tableFq2 (F2 : Fld E2) (t : List (List Nat)) (i : Nat) : E2 := F2.ofCoords (t.getD i [])

/-- The map on `FQ2`: `k = 2`, coefficients in `Fp`. -/
def frobFq2 (F : Fld Nat) (e2 : ExtField) (a : E2) (power : Nat) : E2 :=
  (a.1, F.mul a.2 (tableFp e2.frob1 (power % 2)))

/-- The map on `FQ3`: `k = 3`, coefficients in `Fp`. -/
def frobFq3 (F : Fld Nat) (e3 : ExtField) (a : E3) (power : Nat) : E3 :=
  (a.1, F.mul a.2.1 (tableFp e3.frob1 (power % 3)), F.mul a.2.2 (tableFp e3.frob2 (power % 3)))

/-- The map on a quadratic level whose coefficients lie in `Fp` (`FQ4`, `FQ6Q`), `k` its degree over `Fp`. -/
def frobQuadFp {α : Type} (B : Fld α) (phi : α → Nat → α) (k : Nat) (e : ExtField) (a : α × α) (power : Nat) : α × α :=
  (phi a.1 power, B.scale (tableFp e.frob1 (power % k)) (phi a.2 power))

/-- The map on `FQ6C`: `k = 6`, coefficients in `Fq2`. -/
def frobFq6c (F2 : Fld E2) (phi : E2 → Nat → E2) (e6 : ExtField) (a : E6) (power : Nat) : E6 :=
  (phi a.1 power,
   F2.mul (phi a.2.1 power) (tableFq2 F2 e6.frob1 (power % 6)),
   F2.mul (phi a.2.2 power) (tableFq2 F2 e6.frob2 (power % 6)))

/-- Multiply every `Fq2` coordinate of an `Fq6c` element by one of `Fq2`. -/
def scaleFq6c (F2 : Fld E2) (c : E2) (a : E6) : E6 := (F2.mul a.1 c, F2.mul a.2.1 c, F2.mul a.2.2 c)

/-- The map on `FQ12`: `k = 12`, coefficients in `Fq2`. -/
def frobFq12 (F2 : Fld E2) (phi : E6 → Nat → E6) (e12 : ExtField) (a : E12) (power : Nat) : E12 :=
  (phi a.1 power, scaleFq6c F2 (tableFq2 F2 e12.frob1 (power % 12)) (phi a.2 power))

/-- A level with its Frobenius map. `valid` says that the tables of the level and of every level below it are computed. -/
structure Tow (α : Type) where
  fld : Fld α
  frob : α → Nat → α
  valid : Bool

/-- The number of a level, as the free value names it. -/
def levelNumber : Level → Nat
  | .fq2 => 0 | .fq3 => 1 | .fq4 => 2 | .fq6c => 3 | .fq6q => 4 | .fq12 => 5

/-- DESIGN CHOICE (log 5): the element `FROBENIUS_MAP` gives without its tables, "any element" (70_reset_and_hazards.md
R472). Each coordinate is a free value reduced below the modulus. -/
def freeElement {α : Type} (F : Fld α) (p ctr : Nat) (l : Level) (a : α) (power : Nat) : α :=
  F.ofCoords ((List.range F.deg).map
    (fun i => Config.freeCoordinate ctr (levelNumber l) power (F.coords a) i % p))

/-- A level whose map is `real` when the tables are valid and a free element when not. -/
def mkTow {α : Type} (F : Fld α) (p ctr : Nat) (l : Level) (valid : Bool) (real : α → Nat → α) : Tow α :=
  { fld := F
    frob := fun a power => if valid then real a power else freeElement F p ctr l a power
    valid := valid }

/-- `FQ2` from its block. -/
def towFq2 (f : PrimeField) (ctr : Nat) (e2 : ExtField) : Tow E2 :=
  let F := fpFld f
  mkTow (fq2Fld F (e2.nonResidue.headD 0)) f.p ctr .fq2 e2.frobValid (frobFq2 F e2)

/-- `FQ3` from its block. -/
def towFq3 (f : PrimeField) (ctr : Nat) (e3 : ExtField) : Tow E3 :=
  let F := fpFld f
  mkTow (fq3Fld F (e3.nonResidue.headD 0)) f.p ctr .fq3 e3.frobValid (frobFq3 F e3)

/-- `FQ4` from the blocks of `FQ2` and `FQ4`. -/
def towFq4 (f : PrimeField) (ctr : Nat) (e2 e4 : ExtField) : Tow E4 :=
  let F := fpFld f
  let T2 := towFq2 f ctr e2
  mkTow (fq4Fld F (e2.nonResidue.headD 0)) f.p ctr .fq4 (T2.valid && e4.frobValid)
    (frobQuadFp T2.fld T2.frob 4 e4)

/-- `FQ6C` from the blocks of `FQ2` and `FQ6C`. -/
def towFq6c (f : PrimeField) (ctr : Nat) (e2 e6 : ExtField) : Tow E6 :=
  let T2 := towFq2 f ctr e2
  mkTow (fq6cFld T2.fld (T2.fld.ofCoords e6.nonResidue)) f.p ctr .fq6c (T2.valid && e6.frobValid)
    (frobFq6c T2.fld T2.frob e6)

/-- `FQ6Q` from the blocks of `FQ3` and `FQ6Q`. -/
def towFq6q (f : PrimeField) (ctr : Nat) (e3 e6 : ExtField) : Tow E6q :=
  let F := fpFld f
  let T3 := towFq3 f ctr e3
  mkTow (fq6qFld F (e3.nonResidue.headD 0)) f.p ctr .fq6q (T3.valid && e6.frobValid)
    (frobQuadFp T3.fld T3.frob 6 e6)

/-- `FQ12` from the blocks of `FQ2`, `FQ6C` and `FQ12`. -/
def towFq12 (f : PrimeField) (ctr : Nat) (e2 e6 e12 : ExtField) : Tow E12 :=
  let T2 := towFq2 f ctr e2
  let T6 := towFq6c f ctr e2 e6
  mkTow (fq12Fld T2.fld (T2.fld.ofCoords e6.nonResidue)) f.p ctr .fq12 (T6.valid && e12.frobValid)
    (frobFq12 T2.fld T6.frob e12)

/-! ## Frobenius tables (41_extension_tower.md R177, R179) -/

/-- `CALC_FROB` (R177): entries `constant ^ (m * (p^i - 1) / n)` for `i < k`, or none when a division is not exact.
`m` is 1 for the table and 2 for the companion of a degree-3 level. -/
def frobTable {α : Type} (F : Fld α) (p : Nat) (c : α) (n m k : Nat) : Option (List (List Nat)) :=
  if (List.range k).all (fun i => (p ^ i - 1) % n == 0) then
    some ((List.range k).map (fun i => F.coords (F.exp c (m * (p ^ i - 1) / n))))
  else none

/-- The running product of R203 and R213: entry `i` is `cur`, and the next one is `FROBENIUS_MAP(cur, 1) * g`. -/
def preEntries (T2 : Tow E2) (g : E2) : Nat → E2 → List E2
  | 0, _ => []
  | n + 1, cur => cur :: preEntries T2 g n (T2.fld.mul (T2.frob cur 1) g)

/-- `FQ6C.CALC_FROB_PRE(f1)` (R203): the two tables, or none when 6 does not divide `p - 1`. -/
def preTablesFq6c (T2 : Tow E2) (p : Nat) (f1 : E2) : Option (List (List Nat) × List (List Nat)) :=
  if (p - 1) % 6 ≠ 0 then none
  else
    let g := T2.fld.sq f1
    let es := preEntries T2 g 5 g
    some (T2.fld.coords T2.fld.one :: es.map T2.fld.coords,
          T2.fld.coords T2.fld.one :: es.map (fun e => T2.fld.coords (T2.fld.sq e)))

/-- `FQ12.CALC_FROB_PRE(f1)` (R213): the table, or none when 6 does not divide `p - 1`. -/
def preTableFq12 (T2 : Tow E2) (p : Nat) (f1 : E2) : Option (List (List Nat)) :=
  if (p - 1) % 6 ≠ 0 then none
  else some (T2.fld.coords T2.fld.one :: (preEntries T2 f1 11 f1).map T2.fld.coords)

/-! ## Products of `FQ12` -/

/-- `MUL_BY_014` (41_extension_tower.md R214). -/
def mulBy014 (F2 : Fld E2) (F12 : Fld E12) (a : E12) (e0 e1 e4 : E2) : E12 :=
  F12.mul a ((e0, e1, F2.zero), (F2.zero, e4, F2.zero))

/-- `MUL_BY_034` (41_extension_tower.md R215). -/
def mulBy034 (F2 : Fld E2) (F12 : Fld E12) (a : E12) (e0 e3 e4 : E2) : E12 :=
  F12.mul a ((e0, F2.zero, F2.zero), (e3, e4, F2.zero))

/-- `CYCLOTOMIC_SQUARE` (41_extension_tower.md R216, D27). -/
def cyclotomicSquare (F12 : Fld E12) (a : E12) : E12 := F12.sq a

end Sys2Proof.Machine
end

