-- ==== Sys2Proof/Machine/Pairing.lean ====
section
/-! DEFINITION. The pairing engines' arithmetic (43_pairing.md): traversal, steps, line evaluation, Miller loops and final
exponentiations, as the reference realisations give them. -/

namespace Sys2Proof.Machine

/-! ## Traversal (43_pairing.md R266 to R268) -/

/-- Binary digits of `e`, most significant first, over bits `n-1 .. 0` (R268). -/
def binaryDigitsFrom (e : Nat) : Nat → List Int
  | 0 => []
  | n + 1 => (if e.testBit n then 1 else 0) :: binaryDigitsFrom e n

/-- Binary digits of `e`, most significant first (R268). -/
def binaryDigits (e : Nat) : List Int := binaryDigitsFrom e (bitlen e)

/-- `naf(e)`, least significant first (R266). -/
def naf (e : Nat) : List Int := wnaf e 2

/-- How many digits are not 0. -/
def nonZeroDigits (d : List Int) : Nat := (d.filter (· != 0)).length

/-- `cost(d)` (R268); the leading digit costs nothing. -/
def traversalCost (d : List Int) : Int := ((d.length : Int) - 1) + ((nonZeroDigits d : Int) - 1)

/-- `traversal(e)` (R268): the digits and `use_naf`. -/
def traversal (forceBinary : Bool) (e : Nat) : List Int × Bool :=
  let bin := binaryDigits e
  let nf := (naf e).reverse
  if !forceBinary && decide (traversalCost nf < traversalCost bin) then (nf, true) else (bin, false)

/-- `weight(e)` (R267). -/
def hammingWeight (e : Nat) : Nat := nonZeroDigits (binaryDigits e)

/-- The signed `6u + 2` (R262, D30). -/
def bnLoopValue (x : Nat) (xNeg : Bool) : Int := 6 * (if xNeg then -(x : Int) else x) + 2

/-! ## BN and BLS12 -/

/-- One `(P, Q)` of a Miller loop with its running point (R263, R270). -/
structure MillerPair (α ρ : Type) where
  px : Nat
  py : Nat
  qx : α
  qy : α
  acc : ρ
deriving DecidableEq, Repr

/-- A coefficient triple `(c0, c1, c2)` (R270). -/
structure Line3 where
  c0 : E2
  c1 : E2
  c2 : E2
deriving DecidableEq, Repr

/-- What the BN and BLS12 engine reads: `Fq2`, `Fq6c`, `Fq12` with their maps, `ξ` and `p`. -/
structure BnTower where
  p : Nat
  t2 : Tow E2
  t6 : Tow E6
  t12 : Tow E12
  xi : E2

/-- `DOUBLING_STEP` for BN and BLS12 (R273). -/
def bnDoublingStep (F : Fld E2) (r : Pt E2) : Pt E2 × Line3 :=
  let t0 := F.sq r.x
  let t1 := F.sq r.y
  let t2 := F.sq t1
  let t3 := F.dbl (F.sub (F.sub (F.sq (F.add t1 r.x)) t0) t2)
  let t4 := F.triple t0
  let t6 := F.add r.x t4
  let t5 := F.sq t4
  let zz := F.sq r.z
  let x' := F.sub t5 (F.dbl t3)
  let z' := F.sub (F.sub (F.sq (F.add r.z r.y)) t1) zz
  let y' := F.sub (F.mul (F.sub t3 x') t4) (F.dbl (F.dbl (F.dbl t2)))
  ({ x := x', y := y', z := z' },
   { c0 := F.dbl (F.mul z' zz)
     c1 := F.neg (F.dbl (F.mul t4 zz))
     c2 := F.sub (F.sub (F.sub (F.sq t6) t0) t5) (F.dbl (F.dbl t1)) })

/-- `ADDITION_STEP` for BN and BLS12 (R274). -/
def bnAdditionStep (F : Fld E2) (r : Pt E2) (qx qy : E2) : Pt E2 × Line3 :=
  let zz := F.sq r.z
  let yy := F.sq qy
  let t0 := F.mul zz qx
  let t1 := F.mul (F.sub (F.sub (F.sq (F.add qy r.z)) yy) zz) zz
  let t2 := F.sub t0 r.x
  let t3 := F.sq t2
  let t4 := F.dbl (F.dbl t3)
  let t5 := F.mul t4 t2
  let t6 := F.sub t1 (F.dbl r.y)
  let t9 := F.mul t6 qx
  let t7 := F.mul t4 r.x
  let x' := F.sub (F.sub (F.sq t6) t5) (F.dbl t7)
  let z' := F.sub (F.sub (F.sq (F.add r.z t2)) zz) t3
  let t10 := F.add qy z'
  let t8 := F.mul (F.sub t7 x') t6
  let y' := F.sub t8 (F.dbl (F.mul r.y t5))
  let t10' := F.sub (F.sub (F.sq t10) yy) (F.sq z')
  ({ x := x', y := y', z := z' },
   { c0 := F.dbl z'
     c1 := F.neg (F.dbl t6)
     c2 := F.sub (F.dbl t9) t10' })

/-- `ELL` for BN and BLS12 (R276). -/
def bnEll (t : BnTower) (twist : Twist) (f : E12) (co : Line3) (px py : Nat) : E12 :=
  let c0 := t.t2.fld.scale py co.c0
  let c1 := t.t2.fld.scale px co.c1
  match twist with
  | .m => mulBy014 t.t2.fld t.t12.fld f co.c2 c1 c0
  | .d => mulBy034 t.t2.fld t.t12.fld f c0 c1 co.c2

/-- One doubling step of every pair, its line folded in (R279). -/
def bnDoubleAll (t : BnTower) (tw : Twist) : E12 → List (MillerPair E2 (Pt E2)) → E12 × List (MillerPair E2 (Pt E2))
  | f, [] => (f, [])
  | f, m :: ms =>
    let st := bnDoublingStep t.t2.fld m.acc
    let rest := bnDoubleAll t tw (bnEll t tw f st.2 m.px m.py) ms
    (rest.1, { m with acc := st.1 } :: rest.2)

/-- One addition step of every pair with the point `sel` picks for it (R279). -/
def bnAddAll (t : BnTower) (tw : Twist) (sel : E2 × E2 → E2 × E2) :
    E12 → List (MillerPair E2 (Pt E2)) → E12 × List (MillerPair E2 (Pt E2))
  | f, [] => (f, [])
  | f, m :: ms =>
    let q := sel (m.qx, m.qy)
    let st := bnAdditionStep t.t2.fld m.acc q.1 q.2
    let rest := bnAddAll t tw sel (bnEll t tw f st.2 m.px m.py) ms
    (rest.1, { m with acc := st.1 } :: rest.2)

/-- The digits after the first (R279). -/
def bnLoop (t : BnTower) (tw : Twist) :
    List Int → E12 → List (MillerPair E2 (Pt E2)) → E12 × List (MillerPair E2 (Pt E2))
  | [], f, ms => (f, ms)
  | d :: ds, f, ms =>
    let a := bnDoubleAll t tw (t.t12.fld.sq f) ms
    let b :=
      if d = 0 then a
      else bnAddAll t tw (fun q => if 0 < d then q else (q.1, t.t2.fld.neg q.2)) a.1 a.2
    bnLoop t tw ds b.1 b.2

/-- `π_k(Q)` (R277). DESIGN CHOICE (log 22): under the M twist with a `ξ` power that has no inverse (a composite modulus, or
a unit operation's own `ξ`) the model goes on with the zero that a failed `INVERSE` writes (41_extension_tower.md R175).
DESIGN CHOICE (log 23): R277 calls the two divisions exact when the tower was built; where they are not (levels built at the
port while 6 does not divide `p - 1`) the exponents are the quotients rounded down. -/
def bnEndo (t : BnTower) (tw : Twist) (k : Nat) (q : E2 × E2) : E2 × E2 :=
  let F := t.t2.fld
  let gx := F.exp t.xi ((t.p ^ k - 1) / 3)
  let gy := F.exp t.xi ((t.p ^ k - 1) / 2)
  let gx' := match tw with | .m => (F.inv gx).2 | .d => gx
  let gy' := match tw with | .m => (F.inv gy).2 | .d => gy
  (F.mul (t.t2.frob q.1 k) gx', F.mul (t.t2.frob q.2 k) gy')

/-- The endomorphism steps of BN, `π(Q)` then `-π²(Q)`, pair by pair (R282). -/
def bnEndoAll (t : BnTower) (tw : Twist) : E12 → List (MillerPair E2 (Pt E2)) → E12
  | f, [] => f
  | f, m :: ms =>
    let q1 := bnEndo t tw 1 (m.qx, m.qy)
    let q2 := bnEndo t tw 2 (m.qx, m.qy)
    let s1 := bnAdditionStep t.t2.fld m.acc q1.1 q1.2
    let f1 := bnEll t tw f s1.2 m.px m.py
    let s2 := bnAdditionStep t.t2.fld s1.1 q2.1 (t.t2.fld.neg q2.2)
    let f2 := bnEll t tw f1 s2.2 m.px m.py
    bnEndoAll t tw f2 ms

/-- `MILLER_LOOP` for BN and BLS12 (R279, R281, R282); `isBn` is `PE.family == BN`. -/
def bnMillerLoop (t : BnTower) (tw : Twist) (isBn : Bool) (digits : List Int) (loopNeg : Bool)
    (pairs : List (MillerPair E2 Unit)) : E12 :=
  let start := pairs.map (fun m =>
    ({ px := m.px, py := m.py, qx := m.qx, qy := m.qy, acc := ptAffine t.t2.fld m.qx m.qy } : MillerPair E2 (Pt E2)))
  let a := bnLoop t tw digits.tail t.t12.fld.one start
  let f := if loopNeg then conjugate t.t6.fld a.1 else a.1
  let ms := if loopNeg then a.2.map (fun m => { m with acc := ptNegate t.t2.fld m.acc }) else a.2
  if isBn then bnEndoAll t tw f ms else f

/-- `EXP_BY_X` (R288), over bits `bitlen(x)-1 .. 0`. -/
def expByX (t : BnTower) (x : Nat) (xNeg : Bool) (a : E12) : E12 :=
  let c := powBits t.t12.fld.mul a x (bitlen x) t.t12.fld.one
  if xNeg then conjugate t.t6.fld c else c

/-- `HARD_BLS12` (R290). -/
def hardBls12 (t : BnTower) (x : Nat) (xNeg : Bool) (r : E12) : E12 :=
  let mul := t.t12.fld.mul
  let sq := cyclotomicSquare t.t12.fld
  let cj := conjugate t.t6.fld
  let fr := t.t12.frob
  let ex := expByX t x xNeg
  let t1a := cj (sq r)
  let t3a := ex r
  let t4a := sq t3a
  let t5a := mul t1a t3a
  let t1b := ex t5a
  let t0 := ex t1b
  let t6a := ex t0
  let t6b := mul t6a t4a
  let t4b := ex t6b
  let t5b := cj t5a
  let t4c := mul (mul t4b t5b) r
  let t5c := cj r
  let t1c := fr (mul t1b r) 3
  let t6c := fr (mul t6b t5c) 1
  let t3b := fr (mul t3a t0) 2
  let t3c := mul t3b t1c
  let t3d := mul t3c t6c
  mul t3d t4c

/-- `HARD_BN` (R292). -/
def hardBn (t : BnTower) (x : Nat) (xNeg : Bool) (r : E12) : E12 :=
  let mul := t.t12.fld.mul
  let sq := cyclotomicSquare t.t12.fld
  let cj := conjugate t.t6.fld
  let fr := t.t12.frob
  let ex := expByX t x xNeg
  let fp1 := fr r 1
  let fp2 := fr r 2
  let fp3 := fr fp2 1
  let fu := ex r
  let fu2 := ex fu
  let fu3 := ex fu2
  let y3 := cj (fr fu 1)
  let fu2p := fr fu2 1
  let fu3p := fr fu3 1
  let y2 := fr fu2 2
  let y0 := mul (mul fp1 fp2) fp3
  let y1 := cj r
  let y5 := cj fu2
  let y4 := cj (mul fu fu2p)
  let y6a := cj (mul fu3 fu3p)
  let y6b := mul (mul (sq y6a) y4) y5
  let t1a := mul (mul y3 y5) y6b
  let y6c := mul y6b y2
  let t1b := sq (mul (sq t1a) y6c)
  let t0 := mul t1b y1
  let t1c := mul t1b y0
  mul (sq t0) t1c

/-- The easy part (R286): none when `f` has no inverse. -/
def bnEasyPart (t : BnTower) (f : E12) : Option E12 :=
  match t.t12.fld.inv f with
  | (false, _) => none
  | (true, fi) =>
    let a := t.t12.fld.mul (conjugate t.t6.fld f) fi
    some (t.t12.fld.mul (t.t12.frob a 2) a)

/-- `FINAL_EXP` for BN and BLS12 (R286); zero when `f` has no inverse (D32). -/
def bnFinalExp (t : BnTower) (isBn : Bool) (x : Nat) (xNeg : Bool) (f : E12) : E12 :=
  match bnEasyPart t f with
  | none => t.t12.fld.zero
  | some r => if isBn then hardBn t x xNeg r else hardBls12 t x xNeg r

/-- `MULTI_PAIR` for BN and BLS12 (R264): one for no pairs (D31). -/
def bnMultiPair (t : BnTower) (tw : Twist) (isBn : Bool) (digits : List Int) (loopNeg : Bool) (x : Nat) (xNeg : Bool)
    (pairs : List (MillerPair E2 Unit)) : E12 :=
  if pairs.isEmpty then t.t12.fld.one
  else bnFinalExp t isBn x xNeg (bnMillerLoop t tw isBn digits loopNeg pairs)

/-! ## MNT4 and MNT6 -/

/-- A point `(X, Y, Z, T)` with `T = Z²` (10_state.md R26, 43_pairing.md R300). -/
structure Pt4 (α : Type) where
  x : α
  y : α
  z : α
  t : α
deriving DecidableEq, Repr

/-- The coefficients of an MNT doubling step (R302). -/
structure Line4 (α : Type) where
  cH : α
  c4C : α
  cJ : α
  cL : α
deriving DecidableEq, Repr

/-- The coefficients of an MNT addition step (R303). -/
structure Line2 (α : Type) where
  l1 : α
  rz : α
deriving DecidableEq, Repr

/-- What the MNT engine reads: `Fe` and `Ft` with their maps, `tw`, `tw_inv`, `a'`; `isMnt6` is `PE.family == MNT6`. -/
structure MntTower (α : Type) where
  te : Tow α
  tt : Tow (α × α)
  tw : α
  twInv : α
  a' : α
  isMnt6 : Bool

/-- The per-pair constants (R301). -/
structure MntConsts (α : Type) where
  pxTw : α
  pyTw : α
  qxOt : α
  qyOt : α
  l1c : α
deriving DecidableEq, Repr

section
variable {α : Type}

/-- The per-pair constants of `P` and `Q` (R301). -/
def mntConsts (t : MntTower α) (px py : Nat) (qx qy : α) : MntConsts α :=
  let F := t.te.fld
  let qxOt := F.mul qx t.twInv
  { pxTw := F.scale px t.tw
    pyTw := F.scale py t.tw
    qxOt := qxOt
    qyOt := F.mul qy t.twInv
    l1c := F.sub (F.embed px) qxOt }

/-- `DOUBLING_STEP` for MNT (R302). -/
def mntDoublingStep (F : Fld α) (a' : α) (r : Pt4 α) : Pt4 α × Line4 α :=
  let A := F.sq r.t
  let B := F.sq r.x
  let C := F.sq r.y
  let D := F.sq C
  let E := F.sub (F.sub (F.sq (F.add r.x C)) B) D
  let FF := F.add (F.triple B) (F.mul a' A)
  let G := F.sq FF
  let x' := F.sub G (F.dbl (F.dbl E))
  let y' := F.sub (F.mul FF (F.sub (F.dbl E) x')) (F.dbl (F.dbl (F.dbl D)))
  let z' := F.sub (F.sub (F.sq (F.add r.y r.z)) C) (F.sq r.z)
  let t' := F.sq z'
  ({ x := x', y := y', z := z', t := t' },
   { cH := F.sub (F.sub (F.sq (F.add z' r.t)) t') A
     c4C := F.dbl (F.dbl C)
     cJ := F.sub (F.sub (F.sq (F.add FF r.t)) G) A
     cL := F.sub (F.sub (F.sq (F.add FF r.x)) G) B })

/-- `ADDITION_STEP` for MNT (R303). -/
def mntAdditionStep (F : Fld α) (r : Pt4 α) (qx qy : α) : Pt4 α × Line2 α :=
  let B := F.mul qx r.t
  let D := F.mul (F.sub (F.sub (F.sq (F.add qy r.z)) (F.sq qy)) r.t) r.t
  let H := F.sub B r.x
  let I := F.sq H
  let E := F.dbl (F.dbl I)
  let J := F.mul H E
  let V := F.mul r.x E
  let l1 := F.sub D (F.dbl r.y)
  let x' := F.sub (F.sub (F.sq l1) J) (F.dbl V)
  let y' := F.sub (F.mul l1 (F.sub V x')) (F.dbl (F.mul r.y J))
  let z' := F.sub (F.sub (F.sq (F.add r.z H)) r.t) I
  ({ x := x', y := y', z := z', t := F.sq z' }, { l1 := l1, rz := z' })

/-- The line value after a doubling step (R304). -/
def mntLineDouble (F : Fld α) (k : MntConsts α) (co : Line4 α) : α × α :=
  (F.add (F.sub (F.neg co.c4C) (F.mul co.cJ k.pxTw)) co.cL, F.mul co.cH k.pyTw)

/-- The line value after an addition step (R304). -/
def mntLineAdd (F : Fld α) (k : MntConsts α) (co : Line2 α) : α × α :=
  (F.mul co.rz k.pyTw, F.neg (F.add (F.mul k.qyOt co.rz) (F.mul k.l1c co.l1)))

/-- One doubling step of every pair, its line folded in (R306). -/
def mntDoubleAll (t : MntTower α) : α × α → List (MillerPair α (Pt4 α)) → (α × α) × List (MillerPair α (Pt4 α))
  | f, [] => (f, [])
  | f, m :: ms =>
    let st := mntDoublingStep t.te.fld t.a' m.acc
    let g := mntLineDouble t.te.fld (mntConsts t m.px m.py m.qx m.qy) st.2
    let rest := mntDoubleAll t (t.tt.fld.mul f g) ms
    (rest.1, { m with acc := st.1 } :: rest.2)

/-- One addition step of every pair, its line folded in (R306). -/
def mntAddAll (t : MntTower α) : α × α → List (MillerPair α (Pt4 α)) → (α × α) × List (MillerPair α (Pt4 α))
  | f, [] => (f, [])
  | f, m :: ms =>
    let st := mntAdditionStep t.te.fld m.acc m.qx m.qy
    let g := mntLineAdd t.te.fld (mntConsts t m.px m.py m.qx m.qy) st.2
    let rest := mntAddAll t (t.tt.fld.mul f g) ms
    (rest.1, { m with acc := st.1 } :: rest.2)

/-- Bits `n-1 .. 0` of `x` (R306). -/
def mntLoop (t : MntTower α) (x : Nat) : Nat → α × α → List (MillerPair α (Pt4 α)) → α × α
  | 0, f, _ => f
  | n + 1, f, ms =>
    let a := mntDoubleAll t (t.tt.fld.sq f) ms
    let b := if x.testBit n then mntAddAll t a.1 a.2 else a
    mntLoop t x n b.1 b.2

/-- `MILLER_LOOP` for MNT (R306): a negative `x` negates each `Q` before the loop. DESIGN CHOICE (log 21): 90_conflicts.md C5
says that the sign is applied to the Miller value by inversion, R306 that `Q` is negated and nothing is inverted afterwards;
the model follows R306, and its running point starts from the negated `Q`. -/
def mntMillerLoop (t : MntTower α) (x : Nat) (xNeg : Bool) (pairs : List (MillerPair α Unit)) : α × α :=
  let F := t.te.fld
  let start := pairs.map (fun m =>
    let qy := if xNeg then F.neg m.qy else m.qy
    ({ px := m.px, py := m.py, qx := m.qx, qy := qy
       acc := { x := m.qx, y := qy, z := F.one, t := F.one } } : MillerPair α (Pt4 α)))
  mntLoop t x (bitlen x - 1) t.tt.fld.one start

/-- `first_chunk` (R310). -/
def mntFirstChunk (t : MntTower α) (e ei : α × α) : α × α :=
  if t.isMnt6 then
    let w := t.tt.fld.mul (t.tt.frob e 3) ei
    t.tt.fld.mul (t.tt.frob w 1) w
  else t.tt.fld.mul (t.tt.frob e 2) ei

/-- `FINAL_EXP` for MNT (R310, R312); zero when `f` has no inverse (D32). -/
def mntFinalExp (t : MntTower α) (w0 w1 : Nat) (w0Neg : Bool) (f : α × α) : α × α :=
  match t.tt.fld.inv f with
  | (false, _) => t.tt.fld.zero
  | (true, fi) =>
    let a := mntFirstChunk t f fi
    let ai := mntFirstChunk t fi f
    t.tt.fld.mul (t.tt.fld.exp (t.tt.frob a 1) w1) (t.tt.fld.exp (if w0Neg then ai else a) w0)

/-- `MULTI_PAIR` for MNT (R264): one for no pairs (D31). -/
def mntMultiPair (t : MntTower α) (x : Nat) (xNeg : Bool) (w0 w1 : Nat) (w0Neg : Bool)
    (pairs : List (MillerPair α Unit)) : α × α :=
  if pairs.isEmpty then t.tt.fld.one
  else mntFinalExp t w0 w1 w0Neg (mntMillerLoop t x xNeg pairs)

end

end Sys2Proof.Machine
end

