-- ==== Sys2Proof/Machine/Operands.lean ====
section
/-! DEFINITION. Operand forms of the unit operations: a slot, a group of slots holding an element, a point or a pair
(10_state.md R22, R24, R25), the level or group an operation works in, and the engine's operands. Every source is read
before a destination is written (40_prime_field.md R139, 70_reset_and_hazards.md R473). -/

namespace Sys2Proof.Machine

/-- `x[i]`; reading an unset slot is a fault of the model (00_scope.md R16, 70_reset_and_hazards.md R452). -/
def readSlot (i : Nat) : M Nat := getSet (.slot i) (fun s => regGet i s.slots)

/-- `x[i] <- v`. -/
def writeSlot (i v : Nat) : M Unit := update fun s => s.setSlots (regSet i v s.slots)

/-- `n` consecutive slots. -/
def readGroup (a n : Nat) : M (List Nat) := fun s =>
  match regGetGroup s.slots a n with
  | .error i => .error (.fault (.unset (.slot i))) s
  | .ok vs => .ok vs s

/-- Write consecutive slots. -/
def writeGroup (a : Nat) (vs : List Nat) : M Unit := update fun s => s.setSlots (regSetGroup a vs s.slots)

section
variable {α : Type} (F : Fld α)

/-- An element in the slots from `a` (10_state.md R24). -/
def readElem (a : Nat) : M α := do
  let vs ← readGroup a F.deg
  pure (F.ofCoords vs)

/-- Write an element to the slots from `c`. -/
def writeElem (c : Nat) (v : α) : M Unit := writeGroup c (F.coords v)

/-- A point in the slots from `a`: `X`, then `Y`, then `Z` (10_state.md R25). -/
def readPt (a : Nat) : M (Pt α) := do
  let x ← readElem F a
  let y ← readElem F (a + F.deg)
  let z ← readElem F (a + 2 * F.deg)
  pure { x := x, y := y, z := z }

/-- The `Z` of a point in the slots from `a`, for a rule that tests nothing else of it (10_state.md R25). -/
def readPtZ (a : Nat) : M α := readElem F (a + 2 * F.deg)

/-- Write a point to the slots from `c`. -/
def writePt (c : Nat) (p : Pt α) : M Unit := writeGroup c (F.coords p.x ++ F.coords p.y ++ F.coords p.z)

/-- `n` points in consecutive slots. -/
def readPts : Nat → Nat → M (List (Pt α))
  | _, 0 => pure []
  | a, n + 1 => do
    let p ← readPt F a
    let ps ← readPts (a + 3 * F.deg) n
    pure (p :: ps)

/-- An affine pair `(x, y)` in the slots from `a`. -/
def readXY (a : Nat) : M (α × α) := do
  let x ← readElem F a
  let y ← readElem F (a + F.deg)
  pure (x, y)

/-- A point `(X, Y, Z, T)` in the slots from `a` (10_state.md R26). -/
def readPt4 (a : Nat) : M (Pt4 α) := do
  let x ← readElem F a
  let y ← readElem F (a + F.deg)
  let z ← readElem F (a + 2 * F.deg)
  let t ← readElem F (a + 3 * F.deg)
  pure { x := x, y := y, z := z, t := t }

/-- `n` pairs in consecutive slots, each `px`, `py`, `qx`, `qy` (43_pairing.md R263; log 9). -/
def readPairs : Nat → Nat → M (List (MillerPair α Unit))
  | _, 0 => pure []
  | a, n + 1 => do
    let px ← readSlot a
    let py ← readSlot (a + 1)
    let q ← readXY F (a + 2)
    let ms ← readPairs (a + 2 + 2 * F.deg) n
    pure ({ px := px, py := py, qx := q.1, qy := q.2, acc := () } :: ms)

end

/-- What an operation at a level works in: the level's arithmetic and maps, from the blocks of the level and of those
below it. -/
def withLevel {β : Type} (l : Level) (k : {α : Type} → Tow α → M β) : M β := do
  let f ← getPF
  let ctr ← look (fun s => s.freeCtr)
  match l with
  | .fq2 => do
    let e2 ← getEX .fq2
    k (towFq2 f ctr e2)
  | .fq3 => do
    let e3 ← getEX .fq3
    k (towFq3 f ctr e3)
  | .fq4 => do
    let e2 ← getEX .fq2
    let e4 ← getEX .fq4
    k (towFq4 f ctr e2 e4)
  | .fq6c => do
    let e2 ← getEX .fq2
    let e6 ← getEX .fq6c
    k (towFq6c f ctr e2 e6)
  | .fq6q => do
    let e3 ← getEX .fq3
    let e6 ← getEX .fq6q
    k (towFq6q f ctr e3 e6)
  | .fq12 => do
    let e2 ← getEX .fq2
    let e6 ← getEX .fq6c
    let e12 ← getEX .fq12
    k (towFq12 f ctr e2 e6 e12)

/-- The field of a reference (10_state.md R32, R34). -/
def withFieldRef {β : Type} (r : FieldRef) (k : {α : Type} → Fld α → M β) : M β :=
  match r with
  | .fp => do
    let f ← getPF
    k (fpFld f)
  | .level l => withLevel l (fun t => k t.fld)

/-- What an operation of a group works in: the group's field and block (42_curve_group.md R249). -/
def withGroup {β : Type} (g : Group) (k : {α : Type} → Fld α → CurveGroup → M β) : M β := do
  let c ← getCG g
  withFieldRef c.field (fun F => k F c)

/-- The BN and BLS12 tower: `FQ2`, `FQ6C`, `FQ12` (41_extension_tower.md R170). -/
def getBnTower : M BnTower := do
  let f ← getPF
  let ctr ← look (fun s => s.freeCtr)
  let e2 ← getEX .fq2
  let e6 ← getEX .fq6c
  let e12 ← getEX .fq12
  let t2 := towFq2 f ctr e2
  pure { p := f.p
         t2 := t2
         t6 := towFq6c f ctr e2 e6
         t12 := towFq12 f ctr e2 e6 e12
         xi := t2.fld.ofCoords e6.nonResidue }

/-- The MNT4 tower: `FQ2`, `FQ4`, with the engine's constants and the G2 group's `a`. -/
def getMnt4Tower (pe : Engine) : M (MntTower E2) := do
  let f ← getPF
  let ctr ← look (fun s => s.freeCtr)
  let e2 ← getEX .fq2
  let e4 ← getEX .fq4
  let c ← getCG .g2
  let tw ← getPEField pe.tw
  let twInv ← getPEField pe.twInv
  let te := towFq2 f ctr e2
  pure { te := te
         tt := towFq4 f ctr e2 e4
         tw := te.fld.ofCoords tw
         twInv := te.fld.ofCoords twInv
         a' := te.fld.ofCoords c.a
         isMnt6 := false }

/-- The MNT6 tower: `FQ3`, `FQ6Q`, with the engine's constants and the G2 group's `a`. -/
def getMnt6Tower (pe : Engine) : M (MntTower E3) := do
  let f ← getPF
  let ctr ← look (fun s => s.freeCtr)
  let e3 ← getEX .fq3
  let e6 ← getEX .fq6q
  let c ← getCG .g2
  let tw ← getPEField pe.tw
  let twInv ← getPEField pe.twInv
  let te := towFq3 f ctr e3
  pure { te := te
         tt := towFq6q f ctr e3 e6
         tw := te.fld.ofCoords tw
         twInv := te.fld.ofCoords twInv
         a' := te.fld.ofCoords c.a
         isMnt6 := true }

/-- Stop when an operation of one family meets objects of another (30_encoding.md R101, 70_reset_and_hazards.md R476). -/
def demand (ok : Bool) : M Unit := fun s => if ok then .ok () s else .error (.fault .mismatch) s

/-- What an MNT engine operation works in; `PE.family` chooses, and the G2 group must lie over the family's `Fe`. -/
def withMnt {β : Type} (k : {α : Type} → MntTower α → Engine → M β) : M β := do
  let pe ← getPE
  let c ← getCG .g2
  match pe.family with
  | .mnt4 => do
    demand (c.field == .level .fq2)
    let t ← getMnt4Tower pe
    k t pe
  | .mnt6 => do
    demand (c.field == .level .fq3)
    let t ← getMnt6Tower pe
    k t pe
  | .bls12 => faultWith .mismatch
  | .bn => faultWith .mismatch

/-- What a BN or BLS12 engine operation works in, and whether the family is BN. -/
def withBn {β : Type} (k : BnTower → Engine → Bool → M β) : M β := do
  let pe ← getPE
  match pe.family with
  | .bls12 => do
    let t ← getBnTower
    k t pe false
  | .bn => do
    let t ← getBnTower
    k t pe true
  | .mnt4 => faultWith .mismatch
  | .mnt6 => faultWith .mismatch

/-- Advance the free-value counter when an operation may have used a free value (log 5). -/
def noteFree (valid : Bool) : M Unit := update fun s => if valid then s else s.bumpFree

end Sys2Proof.Machine
end

