-- ==== Sys2Proof/Machine/Objects.lean ====
section
/-! DEFINITION. Construction of the object blocks and of their tables, shared by the calls and the unit operations:
`PF.NEW`, `EX.NEW`, `CALC_FROB`, `CALC_FROB_PRE`, `CG.NEW`, `PE.NEW`, and the engine's whole operations. -/

namespace Sys2Proof.Machine

/-- `PF.NEW` (40_prime_field.md R130). -/
def newPF (mb : List Byte) : M Unit := do
  require (mb.length != 0) .zeroLen
  require (mb.length ≤ Config.maxModulusLen) .lenBound
  require (mb.headD 0 != 0) .noncanon
  require (bytesToNat mb % 2 == 1) .modEven
  require (!(mb.length == 1 && bytesToNat mb ≤ 3)) .modSmall
  let f := PrimeField.ofModulus (bytesToNat mb) mb.length
  require (1 ≤ f.limbs && f.limbs ≤ Config.limbMax) .internalLimbs
  construct .pf (fun s => s.pf.isSome) (fun s => s.setPF f)

/-- The level below (41_extension_tower.md R170). -/
def levelBase : Level → FieldRef
  | .fq2 => .fp
  | .fq3 => .fp
  | .fq4 => .level .fq2
  | .fq6c => .level .fq2
  | .fq6q => .level .fq3
  | .fq12 => .level .fq6c

/-- The degree over the level below (41_extension_tower.md R170). -/
def levelDegree : Level → Nat
  | .fq2 => 2
  | .fq3 => 3
  | .fq4 => 2
  | .fq6c => 3
  | .fq6q => 2
  | .fq12 => 2

/-- `EX.NEW` (41_extension_tower.md R172). -/
def newEX (l : Level) (nr : List Nat) : M Unit :=
  construct (.ex l) (fun s => (s.ex.get l).isSome)
    (fun s => s.setEX l
      { base := levelBase l, degree := levelDegree l, nonResidue := nr, frob1 := [], frob2 := [], frobValid := false })

/-- Stop when the table of a level was computed before (10_state.md R44: "at most once per level"). -/
def demandNoTable (l : Level) (e : ExtField) : M Unit := fun s =>
  if e.frobValid then .error (.fault (.frozen (.ex l))) s else .ok () s

/-- Write computed tables, or leave the block as it is (41_extension_tower.md R177). -/
def writeTables (l : Level) (e : ExtField) (t : Option (List (List Nat) × List (List Nat))) : M Bool :=
  match t with
  | none => pure false
  | some tt => do
    update (fun s => s.setEX l { e with frob1 := tt.1, frob2 := tt.2, frobValid := true })
    pure true

/-- A table without a companion. -/
def quadTables (t : Option (List (List Nat))) : Option (List (List Nat) × List (List Nat)) :=
  t.map (fun x => (x, []))

/-- A table with its companion. -/
def cubicTables (t1 t2 : Option (List (List Nat))) : Option (List (List Nat) × List (List Nat)) :=
  match t1, t2 with
  | some a, some b => some (a, b)
  | _, _ => none

/-- The tables of `CALC_FROB` at a level (41_extension_tower.md R184, R192, R198, R202, R207, R212). -/
def frobTables (l : Level) : M (Option (List (List Nat) × List (List Nat))) := do
  let f ← getPF
  let F := fpFld f
  match l with
  | .fq2 => do
    let e2 ← getEX .fq2
    pure (quadTables (frobTable F f.p (e2.nonResidue.headD 0) 2 1 2))
  | .fq3 => do
    let e3 ← getEX .fq3
    let beta := e3.nonResidue.headD 0
    pure (cubicTables (frobTable F f.p beta 3 1 3) (frobTable F f.p beta 3 2 3))
  | .fq4 => do
    let e2 ← getEX .fq2
    pure (quadTables (frobTable F f.p (e2.nonResidue.headD 0) 4 1 4))
  | .fq6c => do
    let e2 ← getEX .fq2
    let e6 ← getEX .fq6c
    let F2 := fq2Fld F (e2.nonResidue.headD 0)
    let xi := F2.ofCoords e6.nonResidue
    pure (cubicTables (frobTable F2 f.p xi 3 1 6) (frobTable F2 f.p xi 3 2 6))
  | .fq6q => do
    let e3 ← getEX .fq3
    pure (quadTables (frobTable F f.p (e3.nonResidue.headD 0) 6 1 6))
  | .fq12 => do
    let e2 ← getEX .fq2
    let e6 ← getEX .fq6c
    let F2 := fq2Fld F (e2.nonResidue.headD 0)
    pure (quadTables (frobTable F2 f.p (F2.ofCoords e6.nonResidue) 6 1 12))

/-- `CALC_FROB` (41_extension_tower.md R177). -/
def calcFrob (l : Level) : M Bool := do
  let e ← getEX l
  demandNoTable l e
  let t ← frobTables l
  let ok ← writeTables l e t
  setFrobOk ok
  pure ok

/-- The level of a `PreLevel`. -/
def preLevelLevel : PreLevel → Level
  | .fq6c => .fq6c | .fq12 => .fq12

/-- `CALC_FROB_PRE(f1)` (41_extension_tower.md R179, R203, R213). -/
def calcFrobPre (l : PreLevel) (f1 : E2) : M Bool := do
  let f ← getPF
  let ctr ← look (fun s => s.freeCtr)
  let e2 ← getEX .fq2
  let e ← getEX (preLevelLevel l)
  demandNoTable (preLevelLevel l) e
  let T2 := towFq2 f ctr e2
  let t :=
    match l with
    | .fq6c => preTablesFq6c T2 f.p f1
    | .fq12 => quadTables (preTableFq12 T2 f.p f1)
  let ok ← writeTables (preLevelLevel l) e t
  noteFree T2.valid
  setFrobOk ok
  pure ok

/-- `CG.NEW` (42_curve_group.md R220); the coefficients are given whole, zero for nil. -/
def newCG (g : Group) (c : CurveGroup) : M Unit :=
  construct (.cg g) (fun s => (s.cg g).isSome) (fun s => s.setCG g c)

/-- The one mutation of a group (10_state.md R35): the twist writes the coefficients of G2. -/
def twistCG2 (a b : List Nat) : M Unit := do
  let c ← getCG .g2
  update (fun s => s.setCG .g2 { c with a := a, b := b })

/-- The target level of a family (43_pairing.md R261). -/
def familyTarget : Family → Level
  | .bls12 => .fq12
  | .bn => .fq12
  | .mnt4 => .fq4
  | .mnt6 => .fq6q

/-- The fields of `PE` for BLS12 and BN (43_pairing.md R262). -/
def twistedEngine (forceBinary isBn : Bool) (twist : Twist) (x : Nat) (xNeg : Bool) : Engine :=
  let s := bnLoopValue x xNeg
  let tr := traversal forceBinary (if isBn then s.natAbs else x)
  { family := if isBn then .bn else .bls12
    g1 := .g1
    g2 := .g2
    target := .fq12
    twist := some twist
    x := x
    xNeg := xNeg
    loop := if isBn then some s.natAbs else none
    loopNeg := if isBn then some (decide (s < 0)) else none
    w0 := none
    w1 := none
    w0Neg := none
    digits := some tr.1
    useNaf := some tr.2
    tw := none
    twInv := none }

/-- The fields of `PE` for MNT4 and MNT6 (43_pairing.md R262). DESIGN CHOICE (log 22): where `tw` has no inverse, `tw_inv` is
the zero that a failed `INVERSE` writes (41_extension_tower.md R175). -/
def mntEngine {α : Type} (F : Fld α) (one : Nat) (family : Family) (x : Nat) (xNeg : Bool) (w0 w1 : Nat)
    (w0Neg : Bool) : Engine :=
  let tw := F.generator one
  { family := family
    g1 := .g1
    g2 := .g2
    target := familyTarget family
    twist := none
    x := x
    xNeg := xNeg
    loop := none
    loopNeg := none
    w0 := some w0
    w1 := some w1
    w0Neg := some w0Neg
    digits := none
    useNaf := none
    tw := some (F.coords tw)
    twInv := some (F.coords (F.inv tw).2) }

/-- Write the `PE` block once. -/
def constructPE (e : Engine) : M Unit :=
  construct .pe (fun s => s.pe.isSome) (fun s => s.setPE e)

/-- `PE.NEW` (43_pairing.md R262): its references are the two groups and the target level, which must exist. -/
def newPE (family : Family) (twist : Twist) (x : Nat) (xNeg : Bool) (w0 w1 : Nat) (w0Neg : Bool) : M Unit := do
  let _ ← getCG .g1
  let _ ← getCG .g2
  let _ ← getEX (familyTarget family)
  let fb ← look (fun s => s.cfg.forceBinary)
  match family with
  | .bls12 => constructPE (twistedEngine fb false twist x xNeg)
  | .bn => constructPE (twistedEngine fb true twist x xNeg)
  | .mnt4 => do
    let f ← getPF
    withLevel .fq2 (fun t => constructPE (mntEngine t.fld f.one .mnt4 x xNeg w0 w1 w0Neg))
  | .mnt6 => do
    let f ← getPF
    withLevel .fq3 (fun t => constructPE (mntEngine t.fld f.one .mnt6 x xNeg w0 w1 w0Neg))

/-- The sign of the loop: `PE.loop_neg` for BN, `PE.x_neg` for BLS12 (43_pairing.md R262, R281). -/
def loopSign (pe : Engine) (isBn : Bool) : M Bool :=
  if isBn then getPEField pe.loopNeg else pure pe.xNeg

/-- `MILLER_LOOP` for BN and BLS12 (43_pairing.md R279). -/
def millerBn (t : BnTower) (pe : Engine) (isBn : Bool) (pairs : List (MillerPair E2 Unit)) : M E12 := do
  let tw ← getPEField pe.twist
  let ds ← getPEField pe.digits
  let neg ← loopSign pe isBn
  pure (bnMillerLoop t tw isBn ds neg pairs)

/-- `MULTI_PAIR` for BN and BLS12 (43_pairing.md R264). -/
def multiPairBn (t : BnTower) (pe : Engine) (isBn : Bool) (pairs : List (MillerPair E2 Unit)) : M E12 := do
  let tw ← getPEField pe.twist
  let ds ← getPEField pe.digits
  let neg ← loopSign pe isBn
  noteFree t.t12.valid
  pure (bnMultiPair t tw isBn ds neg pe.x pe.xNeg pairs)

/-- `MULTI_PAIR` for MNT (43_pairing.md R264). -/
def multiPairMnt {α : Type} (t : MntTower α) (pe : Engine) (pairs : List (MillerPair α Unit)) : M (α × α) := do
  let w0 ← getPEField pe.w0
  let w1 ← getPEField pe.w1
  let w0n ← getPEField pe.w0Neg
  noteFree t.tt.valid
  pure (mntMultiPair t pe.x pe.xNeg w0 w1 w0n pairs)

/-- `MULTI_EXP` (42_curve_group.md R240). -/
def multiExp {α : Type} (F : Fld α) (a : α) (q : Nat) (points : List (Pt α)) (scalars : List Nat) : M (Pt α) := do
  require (points.length == scalars.length) .multiexpLen
  pure (ptMultiExp F a q (points.zip scalars))

end Sys2Proof.Machine
end

