-- ==== Sys2Proof/Machine/Decoder.lean ====
section
/-! DEFINITION. The parse steps of a call (44_decoder.md): each reads its bytes through the cursor, makes its checks in
the order written, and builds the objects and values later steps use. And the bytes of a result (45_dispatcher.md R393 to
R396). Decoded elements are in Montgomery form (41_extension_tower.md R171). -/

namespace Sys2Proof.Machine

/-! ## Base field (R330 to R332) -/

/-- `DEC.BASE` (R330, R331, R332). The modulus checks of R331 are those of `PF.NEW` (40_prime_field.md R130). -/
def decBase : M Unit := do
  let lp ← readByte
  require (lp != 0) .zeroLen
  require (lp ≤ Config.maxModulusLen) .lenBound
  let mb ← tapeRead lp
  newPF mb
  update (fun s => s.setField lp)

/-! ## Elements, curves, points, scalars (R335 to R343) -/

/-- `DEC.FE` (R335). -/
def decFE : M Nat := do
  let f ← getCurField
  let lp ← getLp
  let bs ← tapeRead lp
  require (bytesToNat bs < f.p) .feRange
  pure (f.toMont (bytesToNat bs))

/-- `n` calls of `DEC.FE`. -/
def decFEs : Nat → M (List Nat)
  | 0 => pure []
  | n + 1 => do
    let v ← decFE
    let vs ← decFEs n
    pure (v :: vs)

/-- `DEC.FE(F)`: the coordinates, coordinate 0 first (R336). -/
def decElem {α : Type} (F : Fld α) : M α := do
  let vs ← decFEs F.deg
  pure (F.ofCoords vs)

/-- `DEC.ORDER` (R338). The order bytes are given back: the pairing calls construct `CG[G2]` from the same bytes (R344). -/
def decOrder : M (List Byte) := do
  let lq ← readByte
  require (lq != 0) .zeroLen
  require (lq ≤ Config.maxOrderLen) .lenBound
  let ob ← tapeRead lq
  require (bytesToNat ob != 0) .orderZero
  update (fun s => s.setLq lq)
  pure ob

/-- `DEC.CURVE(F)` (R337, R339). -/
def decCurve {α : Type} (F : Fld α) (g : Group) (field : FieldRef) : M (List Byte) := do
  let a ← decElem F
  let b ← decElem F
  let ob ← decOrder
  newCG g { field := field, a := F.coords a, b := F.coords b, q := bytesToNat ob }
  pure ob

/-- The level an extension degree names (R340). -/
def degreeLevel (d : Nat) : Level := if d = 2 then .fq2 else .fq3

/-- `DEC.EXTHDR(allowed, n)` (R340); `n` may depend on the degree read. -/
def decExtHdr (allowed : List Nat) (n : Nat → Nat) : M Nat := do
  let d ← readByte
  require (allowed.contains d) .extDegree
  let nu ← decFE
  let f ← getPF
  require (nu != f.zero) .nonres
  setNresOk (f.nres nu (n d))
  require (f.nres nu (n d)) .nonres
  newEX (degreeLevel d) [nu]
  pure d

/-- `DEC.POINT(g)` (R342): `F` and `c` are the field and the block of the group. -/
def decPoint {α : Type} (F : Fld α) (c : CurveGroup) : M (Pt α) := do
  let x ← decElem F
  let y ← decElem F
  if F.isZero x && F.isZero y then pure (ptIdentity F)
  else do
    let ok := ptOnCurve F (F.ofCoords c.a) (F.ofCoords c.b) (ptAffine F x y)
    setPtOnCurve ok
    require ok .notOnCurve
    pure (ptAffine F x y)

/-- `DEC.SCALAR(g)` (R343). -/
def decScalar (c : CurveGroup) : M Nat := do
  let lq ← getLq
  let bs ← tapeRead lq
  require (bytesToNat bs < c.q) .scalarRange
  pure (bytesToNat bs)

/-! ## Pairing set-up, BLS12 and BN (R341, R344 to R348) -/

/-- `DEC.XI` (R341). -/
def decXi : M E2 := do
  let f ← getPF
  let e2 ← getEX .fq2
  let F2 := fq2Fld (fpFld f) (e2.nonResidue.headD 0)
  let xi ← decElem F2
  require (!F2.isZero xi) .nonres
  require ((f.p ^ 2 - 1) % 6 == 0) .nonres
  require (!F2.beq (F2.exp xi ((f.p ^ 2 - 1) / 6)) F2.one) .nonres
  pure xi

/-- The twist a tape byte names (R344). -/
def twistOfByte (t : Nat) : Option Twist :=
  match t with
  | 1 => some .m
  | 2 => some .d
  | _ => none

/-- A value, or `raise E` when there is none. -/
def requireSome {α : Type} (o : Option α) (e : Err) : M α := fun s =>
  match o with
  | some v => .ok v s
  | none => .error (.raise e) s

/-- The multiplier of the twist (R344): `ξ` for M, its inverse for D. -/
def twistMultiplier (F2 : Fld E2) (t : Twist) (xi : E2) : M E2 :=
  match t with
  | .m => pure xi
  | .d => do
    let r := F2.inv xi
    setExInvOk r.1
    require r.1 .twist
    pure r.2

/-- `DEC.TWIST` (R344). -/
def decTwist (xi : E2) : M Twist := do
  let f ← getPF
  let e2 ← getEX .fq2
  let F2 := fq2Fld (fpFld f) (e2.nonResidue.headD 0)
  let b ← readByte
  let t ← requireSome (twistOfByte b) .twist
  let c ← getCG .g1
  newCG .g2 { field := .level .fq2, a := F2.coords F2.zero, b := F2.coords F2.zero, q := c.q }
  let k ← twistMultiplier F2 t xi
  twistCG2 (F2.coords (F2.mul (F2.embed (c.a.headD 0)) k)) (F2.coords (F2.mul (F2.embed (c.b.headD 0)) k))
  pure t

/-- `DEC.TOWER` (R345). -/
def decTower (xi : E2) : M Unit := do
  let f ← getPF
  let e2 ← getEX .fq2
  let F2 := fq2Fld (fpFld f) (e2.nonResidue.headD 0)
  let ok2 ← calcFrob .fq2
  require ok2 .frob
  require ((f.p - 1) % 6 == 0) .frob
  let f1 := F2.exp xi ((f.p - 1) / 6)
  newEX .fq6c (F2.coords xi)
  let ok6 ← calcFrobPre .fq6c f1
  require ok6 .frob
  newEX .fq12 ((fq6cFld F2 xi).coords (F2.zero, F2.one, F2.zero))
  let ok12 ← calcFrobPre .fq12 f1
  require ok12 .frob

/-- `DEC.LOOP` (R346); `DEC.W0` and `DEC.W1` are the same (R353). -/
def decLoop : M Nat := do
  let lx ← readByte
  require (lx != 0) .zeroLen
  let bs ← tapeRead lx
  require (bs.headD 0 != 0) .noncanon
  require (bitlen (bytesToNat bs) ≤ Config.maxLoopBits) .loopBits
  pure (bytesToNat bs)

/-- `DEC.BN_WEIGHT` (R348). -/
def decBnWeight (x : Nat) (xNeg : Bool) : M Unit :=
  require (hammingWeight (bnLoopValue x xNeg).natAbs ≤ Config.maxBnWeight) .loopWeight

/-! ## Pairs and lists (R349, R350, R355) -/

/-- `DEC.COUNT` (R349). -/
def decCount : M Nat := do
  let n ← readByte
  require (n != 0) .zeroLen
  pure n

/-- A requested subgroup check of a decoded point (R350). -/
def checkSubgroup {α : Type} (F : Fld α) (c : CurveGroup) (wanted : Bool) (p : Pt α) : M Unit :=
  if wanted then do
    let ok := ptSubgroupCheck F (F.ofCoords c.a) c.q p
    setPtInSubgroup ok
    require ok .subgroup
  else pure ()

/-- One pair (R350): none when it is dropped. -/
def decPair {α : Type} (F1 : Fld Nat) (c1 : CurveGroup) (F : Fld α) (c2 : CurveGroup) : M (Option (MillerPair α Unit)) := do
  let chk1 ← readFlag
  setCheckG1 chk1
  let p ← decPoint F1 c1
  checkSubgroup F1 c1 chk1 p
  let chk2 ← readFlag
  setCheckG2 chk2
  let q ← decPoint F c2
  checkSubgroup F c2 chk2 q
  setPtIsZero (ptIsZero F1 p || ptIsZero F q)
  pure (if ptIsZero F1 p || ptIsZero F q then none
        else some { px := p.x, py := p.y, qx := q.x, qy := q.y, acc := () })

/-- `DEC.PAIRS(n)` (R350). -/
def decPairs {α : Type} (F1 : Fld Nat) (c1 : CurveGroup) (F : Fld α) (c2 : CurveGroup) :
    Nat → M (List (MillerPair α Unit))
  | 0 => pure []
  | n + 1 => do
    let m ← decPair F1 c1 F c2
    let ms ← decPairs F1 c1 F c2 n
    pure (m.toList ++ ms)

/-- The entries of `DEC.MEXP_LIST(g)` (R355). -/
def decEntries {α : Type} (F : Fld α) (c : CurveGroup) : Nat → M (List (Pt α × Nat))
  | 0 => pure []
  | n + 1 => do
    let p ← decPoint F c
    let e ← decScalar c
    let rest ← decEntries F c n
    pure ((p, e) :: rest)

/-- `DEC.MEXP_LIST(g)` (R355). -/
def decMexpList {α : Type} (F : Fld α) (c : CurveGroup) : M (List (Pt α × Nat)) := do
  let n ← decCount
  decEntries F c n

/-! ## Pairing set-up, MNT4 and MNT6 (R351, R352) -/

/-- `DEC.MNT_TWIST` (R352): `a' = tw² * a`, `b' = tw³ * b`, `tw` the generator of `Fe`. -/
def decMntTwist {α : Type} (F : Fld α) (l : Level) : M Unit := do
  let f ← getPF
  let c ← getCG .g1
  let tw := F.generator f.one
  let tw2 := F.mul tw tw
  newCG .g2 { field := .level l, a := F.coords F.zero, b := F.coords F.zero, q := c.q }
  twistCG2 (F.coords (F.scale (c.a.headD 0) tw2)) (F.coords (F.scale (c.b.headD 0) (F.mul tw2 tw)))

/-- `DEC.MNT_TOWER` (R351): `l` is the level of `Fe`, `t` that of `Ft`. -/
def decMntTower {α : Type} (F : Fld α) (l t : Level) : M Unit := do
  let f ← getPF
  let ok1 ← calcFrob l
  require ok1 .frob
  newEX t (F.coords (F.generator f.one))
  let ok2 ← calcFrob t
  require ok2 .frob

/-! ## End of input and results -/

/-- `DEC.END` (R356). -/
def decEnd : M Unit := do
  let ok ← look (fun s => s.cur.off == s.inp.len)
  require ok .trailing

/-- `FEBytes(v)` of an element: each coordinate out of Montgomery form in exactly `CUR.Lp` bytes (45_dispatcher.md R396). -/
def elemBytes {α : Type} (f : PrimeField) (lp : Nat) (F : Fld α) (v : α) : List Byte :=
  (F.coords v).flatMap (fun c => natToBytes (f.fromMont c) lp)

/-- `PointBytes(g, R)` (45_dispatcher.md R393). -/
def pointBytes {α : Type} (F : Fld α) (r : Pt α) : M (List Byte) := do
  let f ← getPF
  let lp ← getLp
  let xy := ptToAffine F r
  pure (elemBytes f lp F xy.1 ++ elemBytes f lp F xy.2)

/-- The result byte of a pairing call (45_dispatcher.md R394). -/
def pairingResult (isOne : Bool) : M (List Byte) := do
  setIsOne isOne
  pure [if isOne then 0x01 else 0x00]

end Sys2Proof.Machine
end

