-- ==== Sys2Proof/Machine/Calls.lean ====
section
/-! DEFINITION. The meanings of the ten operations of a call (45_dispatcher.md R381 to R390), one definition each. Each
runs after byte 0 has been read, takes its step list of 44_decoder.md R357, and gives the bytes of the result. -/

namespace Sys2Proof.Machine

/-- The field of G2 after `DEC.EXTHDR` read degree `d` (45_dispatcher.md R384). -/
def withDegree {β : Type} (d : Nat) (k : {α : Type} → Fld α → M β) : M β := do
  let f ← getPF
  if d = 2 then do
    let e2 ← getEX .fq2
    k (fq2Fld (fpFld f) (e2.nonResidue.headD 0))
  else do
    let e3 ← getEX .fq3
    k (fq3Fld (fpFld f) (e3.nonResidue.headD 0))

/-- `BASE ; CURVE(Fp)`. -/
def decG1 : M (PrimeField × CurveGroup) := do
  decBase
  let f ← getPF
  let _ ← decCurve (fpFld f) .g1 .fp
  let c ← getCG .g1
  pure (f, c)

/-- `CURVE(Fqd)` of the G2 operations. -/
def decG2 {α : Type} (F : Fld α) (d : Nat) : M CurveGroup := do
  let _ ← decCurve F .g2 (.level (degreeLevel d))
  getCG .g2

/-- Two points and their sum (R381, R384). -/
def callAdd {α : Type} (F : Fld α) (c : CurveGroup) : M (List Byte) := do
  let p1 ← decPoint F c
  let p2 ← decPoint F c
  decEnd
  pointBytes F (ptAdd F (F.ofCoords c.a) p1 p2)

/-- A point and a scalar, and their product (R382, R385). -/
def callMul {α : Type} (F : Fld α) (c : CurveGroup) : M (List Byte) := do
  let p ← decPoint F c
  let e ← decScalar c
  decEnd
  pointBytes F (ptScalarMul F (F.ofCoords c.a) p e)

/-- A list of points and scalars, and the sum of their products (R383, R386). -/
def callMexp {α : Type} (F : Fld α) (c : CurveGroup) : M (List Byte) := do
  let list ← decMexpList F c
  decEnd
  let r ← multiExp F (F.ofCoords c.a) c.q (list.map Prod.fst) (list.map Prod.snd)
  pointBytes F r

/-- `G1ADD` (R381). -/
def execG1Add (s : State) : Host.Outcome State Fault Refusal :=
  runCall (do
    let fc ← decG1
    callAdd (fpFld fc.1) fc.2) s

/-- `G1MUL` (R382). -/
def execG1Mul (s : State) : Host.Outcome State Fault Refusal :=
  runCall (do
    let fc ← decG1
    callMul (fpFld fc.1) fc.2) s

/-- `G1MEXP` (R383). -/
def execG1Mexp (s : State) : Host.Outcome State Fault Refusal :=
  runCall (do
    let fc ← decG1
    callMexp (fpFld fc.1) fc.2) s

/-- `G2ADD` (R384). -/
def execG2Add (s : State) : Host.Outcome State Fault Refusal :=
  runCall (do
    decBase
    let d ← decExtHdr [2, 3] (fun d => d)
    withDegree d (fun F => do
      let c ← decG2 F d
      callAdd F c)) s

/-- `G2MUL` (R385). -/
def execG2Mul (s : State) : Host.Outcome State Fault Refusal :=
  runCall (do
    decBase
    let d ← decExtHdr [2, 3] (fun d => d)
    withDegree d (fun F => do
      let c ← decG2 F d
      callMul F c)) s

/-- `G2MEXP` (R386). -/
def execG2Mexp (s : State) : Host.Outcome State Fault Refusal :=
  runCall (do
    decBase
    let d ← decExtHdr [2, 3] (fun d => d)
    withDegree d (fun F => do
      let c ← decG2 F d
      callMexp F c)) s

/-- The common body of the BLS12 and BN calls (R387, R388). -/
def callTwisted (isBn : Bool) : M (List Byte) := do
  let fc ← decG1
  let _ ← decExtHdr [2] (fun _ => 2)
  let xi ← decXi
  let t ← decTwist xi
  decTower xi
  let x ← decLoop
  let xNeg ← readFlag
  if isBn then decBnWeight x xNeg else pure ()
  let n ← decCount
  let tower ← getBnTower
  let c2 ← getCG .g2
  let pairs ← decPairs (fpFld fc.1) fc.2 tower.t2.fld c2 n
  decEnd
  newPE (if isBn then .bn else .bls12) t x xNeg 0 0 false
  let pe ← getPE
  let v ← multiPairBn tower pe isBn pairs
  pairingResult (tower.t12.fld.beq v tower.t12.fld.one)

/-- `BLS12` (R387). -/
def execBls12 (s : State) : Host.Outcome State Fault Refusal := runCall (callTwisted false) s

/-- `BN` (R388). -/
def execBn (s : State) : Host.Outcome State Fault Refusal := runCall (callTwisted true) s

/-- `LOOP ; SIGN ; W0 ; W1 ; W0_SIGN` of an MNT call: `x`, `x_neg`, `w0`, `w1`, `w0_neg` (44_decoder.md R346, R347, R353, R354). -/
def decMntLoops : M (Nat × Bool × Nat × Nat × Bool) := do
  let x ← decLoop
  let xNeg ← readFlag
  let w0 ← decLoop
  let w1 ← decLoop
  let w0Neg ← readFlag
  pure (x, xNeg, w0, w1, w0Neg)

/-- An MNT call from `MNT_TWIST` to `PE.NEW` (R389, R390): the pairs kept. `F` and `l` are the field and level of G2,
`target` the level of `Ft`. -/
def decMntCall {α : Type} (f : PrimeField) (c1 : CurveGroup) (F : Fld α) (l target : Level) (family : Family) :
    M (List (MillerPair α Unit)) := do
  decMntTwist F l
  decMntTower F l target
  let w ← decMntLoops
  let n ← decCount
  let c2 ← getCG .g2
  let pairs ← decPairs (fpFld f) c1 F c2 n
  decEnd
  newPE family .m w.1 w.2.1 w.2.2.1 w.2.2.2.1 w.2.2.2.2
  pure pairs

/-- The body of an MNT4 call (R389). -/
def mnt4Body : M (List Byte) := do
  let fc ← decG1
  let _ ← decExtHdr [2] (fun _ => 4)
  let e2 ← getEX .fq2
  let pairs ← decMntCall fc.1 fc.2 (fq2Fld (fpFld fc.1) (e2.nonResidue.headD 0)) .fq2 .fq4 .mnt4
  let pe ← getPE
  let t ← getMnt4Tower pe
  let v ← multiPairMnt t pe pairs
  pairingResult (t.tt.fld.beq v t.tt.fld.one)

/-- The body of an MNT6 call (R390). -/
def mnt6Body : M (List Byte) := do
  let fc ← decG1
  let _ ← decExtHdr [3] (fun _ => 6)
  let e3 ← getEX .fq3
  let pairs ← decMntCall fc.1 fc.2 (fq3Fld (fpFld fc.1) (e3.nonResidue.headD 0)) .fq3 .fq6q .mnt6
  let pe ← getPE
  let t ← getMnt6Tower pe
  let v ← multiPairMnt t pe pairs
  pairingResult (t.tt.fld.beq v t.tt.fld.one)

/-- `MNT4` (R389). -/
def execMnt4 (s : State) : Host.Outcome State Fault Refusal := runCall mnt4Body s

/-- `MNT6` (R390). -/
def execMnt6 (s : State) : Host.Outcome State Fault Refusal := runCall mnt6Body s

end Sys2Proof.Machine
end

