-- ==== Sys2Proof/Machine/CurveOps.lean ====
section
/-! DEFINITION. The meanings of the eleven curve-group operations (42_curve_group.md), one definition each. A point
operand names the first slot of its `X`, `Y`, `Z` (10_state.md R25); sources are read before the destination is written
(R226). -/

namespace Sys2Proof.Machine

/-- The group a curve over a field is: over `Fp` it is G1, over `Fq2` or `Fq3` it is G2 (10_state.md R34). -/
def groupOfField : CurveField → Group
  | .fp => .g1
  | .fq2 => .g2
  | .fq3 => .g2

/-- The field reference of a curve. -/
def refOfField : CurveField → FieldRef
  | .fp => .fp
  | .fq2 => .level .fq2
  | .fq3 => .level .fq3

/-- A coefficient operand: `nil` is the field's zero (R220). -/
def readCoeff {α : Type} (F : Fld α) : Option Nat → M α
  | none => pure F.zero
  | some a => readElem F a

/-- An operation of a group that gives a point. -/
def groupOp1 (g : Group) (op : {α : Type} → Fld α → CurveGroup → Pt α → Pt α) (r p : Nat) : M Unit :=
  withGroup g (fun F c => do
    let x ← readPt F p
    writePt F r (op F c x))

/-- `CG.NEW` (R220). -/
def execCgNew (field : CurveField) (a b : Option Nat) (ob : List Byte) (s : State) : Host.Outcome State Fault Refusal :=
  runUnit (withFieldRef (refOfField field) (fun F => do
    let va ← readCoeff F a
    let vb ← readCoeff F b
    newCG (groupOfField field)
      { field := refOfField field, a := F.coords va, b := F.coords vb, q := bytesToNat ob })) s

/-- `CG.IS_ZERO` (R222): it writes `PT.is_zero`. "Nothing else is tested" than `Z`, and nothing else is read. -/
def execCgIsZero (g : Group) (p : Nat) (s : State) : Host.Outcome State Fault Refusal :=
  runUnit (withGroup g (fun F _ => do
    let z ← readPtZ F p
    setPtIsZero (F.isZero z))) s

/-- `CG.IS_ON_CURVE` (R223): it writes `PT.on_curve`. At infinity it is true before `X` and `Y` are read. -/
def execCgIsOnCurve (g : Group) (p : Nat) (s : State) : Host.Outcome State Fault Refusal :=
  runUnit (withGroup g (fun F c => do
    let z ← readPtZ F p
    if F.isZero z then setPtOnCurve true
    else do
      let x ← readPt F p
      setPtOnCurve (ptOnCurve F (F.ofCoords c.a) (F.ofCoords c.b) x))) s

/-- `CG.ADD` (R226). -/
def execCgAdd (g : Group) (r p1 p2 : Nat) (s : State) : Host.Outcome State Fault Refusal :=
  runUnit (withGroup g (fun F c => do
    let x ← readPt F p1
    let y ← readPt F p2
    writePt F r (ptAdd F (F.ofCoords c.a) x y))) s

/-- `CG.DOUBLE` (R228). -/
def execCgDouble (g : Group) (r p : Nat) (s : State) : Host.Outcome State Fault Refusal :=
  runUnit (groupOp1 g (fun F c x => ptDouble F (F.ofCoords c.a) x) r p) s

/-- `CG.NEGATE` (R232). -/
def execCgNegate (g : Group) (r p : Nat) (s : State) : Host.Outcome State Fault Refusal :=
  runUnit (groupOp1 g (fun F _ x => ptNegate F x) r p) s

/-- `CG.SCALAR_MUL` (R234). -/
def execCgScalarMul (g : Group) (r p e : Nat) (s : State) : Host.Outcome State Fault Refusal :=
  runUnit (groupOp1 g (fun F c x => ptScalarMul F (F.ofCoords c.a) x e) r p) s

/-- `CG.WNAF_MUL` (R237). -/
def execCgWnafMul (g : Group) (r p e : Nat) (s : State) : Host.Outcome State Fault Refusal :=
  runUnit (groupOp1 g (fun F c x => ptWnafMul F (F.ofCoords c.a) x e) r p) s

/-- `CG.SUBGROUP_CHECK` (R238): it writes `PT.in_subgroup`. -/
def execCgSubgroupCheck (g : Group) (p : Nat) (s : State) : Host.Outcome State Fault Refusal :=
  runUnit (withGroup g (fun F c => do
    let x ← readPt F p
    setPtInSubgroup (ptSubgroupCheck F (F.ofCoords c.a) c.q x))) s

/-- `CG.MULTI_EXP` (R240): `n` points in consecutive slots, and scalars. -/
def execCgMultiExp (g : Group) (r points n : Nat) (scalars : List Nat) (s : State) : Host.Outcome State Fault Refusal :=
  runUnit (withGroup g (fun F c => do
    require (n == scalars.length) .multiexpLen
    let ps ← readPts F points n
    let v ← multiExp F (F.ofCoords c.a) c.q ps scalars
    writePt F r v)) s

/-- `CG.TO_AFFINE` (R246): `x` then `y` in the slots from `r` (log 9). -/
def execCgToAffine (g : Group) (r p : Nat) (s : State) : Host.Outcome State Fault Refusal :=
  runUnit (withGroup g (fun F _ => do
    let x ← readPt F p
    let xy := ptToAffine F x
    writeGroup r (F.coords xy.1 ++ F.coords xy.2))) s

end Sys2Proof.Machine
end

