-- ==== Sys2Proof/Machine/EngineOps.lean ====
section
/-! DEFINITION. The meanings of the twelve engine operations (43_pairing.md), one definition each. Operands lie in
consecutive slots: a running point, then coefficients in the order the rule lists them (log 9). -/

namespace Sys2Proof.Machine

/-- `PE.NEW` (R262). -/
def execPeNew (family : Family) (twist : Twist) (x : Nat) (xNeg : Bool) (w0 w1 : Nat) (w0Neg : Bool) (s : State) :
    Host.Outcome State Fault Refusal :=
  runUnit (newPE family twist x xNeg w0 w1 w0Neg) s

/-- Write a coefficient triple. -/
def writeLine3 (F : Fld E2) (co : Nat) (l : Line3) : M Unit :=
  writeGroup co (F.coords l.c0 ++ F.coords l.c1 ++ F.coords l.c2)

/-- Read a coefficient triple. -/
def readLine3 (F : Fld E2) (co : Nat) : M Line3 := do
  let c0 ← readElem F co
  let c1 ← readElem F (co + F.deg)
  let c2 ← readElem F (co + 2 * F.deg)
  pure { c0 := c0, c1 := c1, c2 := c2 }

/-- `PE.DOUBLING_STEP` for BN and BLS12 (R273): the new point at `r`, the triple at `co`. -/
def execPeDoublingStep (r co src : Nat) (s : State) : Host.Outcome State Fault Refusal :=
  runUnit (withBn (fun t _ _ => do
    let x ← readPt t.t2.fld src
    writePt t.t2.fld r (bnDoublingStep t.t2.fld x).1
    writeLine3 t.t2.fld co (bnDoublingStep t.t2.fld x).2)) s

/-- `PE.ADDITION_STEP` for BN and BLS12 (R274). -/
def execPeAdditionStep (r co src q : Nat) (s : State) : Host.Outcome State Fault Refusal :=
  runUnit (withBn (fun t _ _ => do
    let x ← readPt t.t2.fld src
    let qq ← readXY t.t2.fld q
    writePt t.t2.fld r (bnAdditionStep t.t2.fld x qq.1 qq.2).1
    writeLine3 t.t2.fld co (bnAdditionStep t.t2.fld x qq.1 qq.2).2)) s

/-- `PE.ELL` for BN and BLS12 (R276). -/
def execPeEll (c f co p : Nat) (s : State) : Host.Outcome State Fault Refusal :=
  runUnit (withBn (fun t pe _ => do
    let tw ← getPEField pe.twist
    let x ← readElem t.t12.fld f
    let l ← readLine3 t.t2.fld co
    let px ← readSlot p
    let py ← readSlot (p + 1)
    writeElem t.t12.fld c (bnEll t tw x l px py))) s

/-- `PE.MILLER_LOOP` for BN and BLS12 (R279). -/
def execPeMillerLoop (c pairs n : Nat) (s : State) : Host.Outcome State Fault Refusal :=
  runUnit (withBn (fun t pe isBn => do
    let ms ← readPairs t.t2.fld pairs n
    let f ← millerBn t pe isBn ms
    writeElem t.t12.fld c f
    noteFree t.t12.valid)) s

/-- `PE.FINAL_EXP` for BN and BLS12 (R286). -/
def execPeFinalExp (c f : Nat) (s : State) : Host.Outcome State Fault Refusal :=
  runUnit (withBn (fun t pe isBn => do
    let x ← readElem t.t12.fld f
    writeElem t.t12.fld c (bnFinalExp t isBn pe.x pe.xNeg x)
    noteFree t.t12.valid)) s

/-- `PE.MULTI_PAIR` (R264) for the family of the engine. -/
def execPeMultiPair (c pairs n : Nat) (s : State) : Host.Outcome State Fault Refusal :=
  runUnit (do
    let pe ← getPE
    match pe.family with
    | .bls12 => withBn (fun t e isBn => do
        let ms ← readPairs t.t2.fld pairs n
        let v ← multiPairBn t e isBn ms
        writeElem t.t12.fld c v)
    | .bn => withBn (fun t e isBn => do
        let ms ← readPairs t.t2.fld pairs n
        let v ← multiPairBn t e isBn ms
        writeElem t.t12.fld c v)
    | .mnt4 => withMnt (fun t e => do
        let ms ← readPairs t.te.fld pairs n
        let v ← multiPairMnt t e ms
        writeElem t.tt.fld c v)
    | .mnt6 => withMnt (fun t e => do
        let ms ← readPairs t.te.fld pairs n
        let v ← multiPairMnt t e ms
        writeElem t.tt.fld c v)) s

/-- Write a point `(X, Y, Z, T)`. -/
def writePt4 {α : Type} (F : Fld α) (r : Nat) (p : Pt4 α) : M Unit :=
  writeGroup r (F.coords p.x ++ F.coords p.y ++ F.coords p.z ++ F.coords p.t)

/-- Write the coefficients `(cH, c4C, cJ, cL)`. -/
def writeLine4 {α : Type} (F : Fld α) (co : Nat) (l : Line4 α) : M Unit :=
  writeGroup co (F.coords l.cH ++ F.coords l.c4C ++ F.coords l.cJ ++ F.coords l.cL)

/-- Write the coefficients `(L1, RZ)`. -/
def writeLine2 {α : Type} (F : Fld α) (co : Nat) (l : Line2 α) : M Unit :=
  writeGroup co (F.coords l.l1 ++ F.coords l.rz)

/-- `PE.DOUBLING_STEP` for MNT (R302). -/
def execPeDoublingStepMnt (r co src : Nat) (s : State) : Host.Outcome State Fault Refusal :=
  runUnit (withMnt (fun t _ => do
    let x ← readPt4 t.te.fld src
    writePt4 t.te.fld r (mntDoublingStep t.te.fld t.a' x).1
    writeLine4 t.te.fld co (mntDoublingStep t.te.fld t.a' x).2)) s

/-- `PE.ADDITION_STEP` for MNT (R303). The operand `Q` is the one after the negation of R306 (log 24). -/
def execPeAdditionStepMnt (r co src q : Nat) (s : State) : Host.Outcome State Fault Refusal :=
  runUnit (withMnt (fun t _ => do
    let x ← readPt4 t.te.fld src
    let qq ← readXY t.te.fld q
    writePt4 t.te.fld r (mntAdditionStep t.te.fld x qq.1 qq.2).1
    writeLine2 t.te.fld co (mntAdditionStep t.te.fld x qq.1 qq.2).2)) s

/-- The line value of the coefficients at `co` (R304). -/
def readLineValue {α : Type} (t : MntTower α) (kind : LineKind) (co : Nat) (k : MntConsts α) : M (α × α) :=
  match kind with
  | .doubling => do
    let p ← readPt4 t.te.fld co
    pure (mntLineDouble t.te.fld k { cH := p.x, c4C := p.y, cJ := p.z, cL := p.t })
  | .addition => do
    let p ← readXY t.te.fld co
    pure (mntLineAdd t.te.fld k { l1 := p.1, rz := p.2 })

/-- `PE.ELL` for MNT (R304): `f * g`, the constants of R301 from `P` at `p` and `Q` at `q`. DESIGN CHOICE (log 24): the operand
`Q` is the one R301 works on, after the negation of R306; the operation does not negate it again when `PE.x_neg` is 1. -/
def execPeEllMnt (kind : LineKind) (c f co p q : Nat) (s : State) : Host.Outcome State Fault Refusal :=
  runUnit (withMnt (fun t _ => do
    let x ← readElem t.tt.fld f
    let px ← readSlot p
    let py ← readSlot (p + 1)
    let qq ← readXY t.te.fld q
    let g ← readLineValue t kind co (mntConsts t px py qq.1 qq.2)
    writeElem t.tt.fld c (t.tt.fld.mul x g))) s

/-- `PE.MILLER_LOOP` for MNT (R306). -/
def execPeMillerLoopMnt (c pairs n : Nat) (s : State) : Host.Outcome State Fault Refusal :=
  runUnit (withMnt (fun t pe => do
    let ms ← readPairs t.te.fld pairs n
    writeElem t.tt.fld c (mntMillerLoop t pe.x pe.xNeg ms))) s

/-- `PE.FINAL_EXP` for MNT (R310). -/
def execPeFinalExpMnt (c f : Nat) (s : State) : Host.Outcome State Fault Refusal :=
  runUnit (withMnt (fun t pe => do
    let w0 ← getPEField pe.w0
    let w1 ← getPEField pe.w1
    let w0n ← getPEField pe.w0Neg
    let x ← readElem t.tt.fld f
    writeElem t.tt.fld c (mntFinalExp t w0 w1 w0n x)
    noteFree t.tt.valid)) s

end Sys2Proof.Machine
end

