-- ==== Sys2Proof/Machine/ExtOps.lean ====
section
/-! DEFINITION. The meanings of the sixteen extension-field operations (41_extension_tower.md), one definition each. An
operand names the first slot of its element (10_state.md R24); sources are read before the destination is written (R174). -/

namespace Sys2Proof.Machine

/-- A one-operand operation at a level: `c <- op(a)`. -/
def levelOp1 (l : Level) (op : {α : Type} → Fld α → α → α) (c a : Nat) : M Unit :=
  withLevel l (fun t => do
    let x ← readElem t.fld a
    writeElem t.fld c (op t.fld x))

/-- A two-operand operation at a level: `c <- op(a, b)`. -/
def levelOp2 (l : Level) (op : {α : Type} → Fld α → α → α → α) (c a b : Nat) : M Unit :=
  withLevel l (fun t => do
    let x ← readElem t.fld a
    let y ← readElem t.fld b
    writeElem t.fld c (op t.fld x y))

/-- The number of base-field coordinates of the constant of a level (41_extension_tower.md R170). -/
def constantSlots : Level → Nat
  | .fq2 => 1
  | .fq3 => 1
  | .fq4 => 2
  | .fq6c => 2
  | .fq6q => 3
  | .fq12 => 6

/-- The base of a level must exist before the level (41_extension_tower.md R172). -/
def demandBase (l : Level) : M Unit :=
  match levelBase l with
  | .fp => do
    let _ ← getPF
    pure ()
  | .level b => do
    let _ ← getPF
    let _ ← getEX b
    pure ()

/-- `EX.NEW` (R172); the constant is read from slots. -/
def execExNew (l : Level) (nr : Nat) (s : State) : Host.Outcome State Fault Refusal :=
  runUnit (do
    demandBase l
    let vs ← readGroup nr (constantSlots l)
    newEX l vs) s

/-- `EX.ADD` (R173). -/
def execExAdd (l : Level) (c a b : Nat) (s : State) : Host.Outcome State Fault Refusal :=
  runUnit (levelOp2 l (fun F => F.add) c a b) s

/-- `EX.SUB` (R173). -/
def execExSub (l : Level) (c a b : Nat) (s : State) : Host.Outcome State Fault Refusal :=
  runUnit (levelOp2 l (fun F => F.sub) c a b) s

/-- `EX.NEG` (R173). -/
def execExNeg (l : Level) (c a : Nat) (s : State) : Host.Outcome State Fault Refusal :=
  runUnit (levelOp1 l (fun F => F.neg) c a) s

/-- `EX.DOUBLE` (R173). -/
def execExDouble (l : Level) (c a : Nat) (s : State) : Host.Outcome State Fault Refusal :=
  runUnit (levelOp1 l (fun F => F.dbl) c a) s

/-- `EX.MUL` (R174). -/
def execExMul (l : Level) (c a b : Nat) (s : State) : Host.Outcome State Fault Refusal :=
  runUnit (levelOp2 l (fun F => F.mul) c a b) s

/-- `EX.SQUARE` (R174). -/
def execExSquare (l : Level) (c a : Nat) (s : State) : Host.Outcome State Fault Refusal :=
  runUnit (levelOp1 l (fun F => F.sq) c a) s

/-- `EX.INVERSE` (R175): the destination and `EX.INV.ok`. -/
def execExInverse (l : Level) (c a : Nat) (s : State) : Host.Outcome State Fault Refusal :=
  runUnit (withLevel l (fun t => do
    let x ← readElem t.fld a
    writeElem t.fld c (t.fld.inv x).2
    setExInvOk (t.fld.inv x).1)) s

/-- `EX.EXP` (R176). -/
def execExExp (l : Level) (c a e : Nat) (s : State) : Host.Outcome State Fault Refusal :=
  runUnit (levelOp1 l (fun F x => F.exp x e) c a) s

/-- Negate the odd coordinate of an element held as two halves (R180). -/
def conjOp {α : Type} (B : Fld α) (F : Fld (α × α)) (c a : Nat) : M Unit := do
  let x ← readElem F a
  writeElem F c (conjugate B x)

/-- `EX.CONJUGATE` (R180). -/
def execExConjugate (l : QuadLevel) (c a : Nat) (s : State) : Host.Outcome State Fault Refusal :=
  runUnit (do
    let f ← getPF
    let F := fpFld f
    match l with
    | .fq2 => do
      let e2 ← getEX .fq2
      conjOp F (fq2Fld F (e2.nonResidue.headD 0)) c a
    | .fq4 => do
      let e2 ← getEX .fq2
      let _ ← getEX .fq4
      let beta := e2.nonResidue.headD 0
      conjOp (fq2Fld F beta) (fq4Fld F beta) c a
    | .fq6q => do
      let e3 ← getEX .fq3
      let _ ← getEX .fq6q
      let beta := e3.nonResidue.headD 0
      conjOp (fq3Fld F beta) (fq6qFld F beta) c a
    | .fq12 => do
      let t ← getBnTower
      conjOp t.t6.fld t.t12.fld c a) s

/-- `EX.FROBENIUS_MAP` (R178); without its tables the result is a free element (70_reset_and_hazards.md R472, log 5). -/
def execExFrobeniusMap (l : Level) (c a power : Nat) (s : State) : Host.Outcome State Fault Refusal :=
  runUnit (withLevel l (fun t => do
    let x ← readElem t.fld a
    writeElem t.fld c (t.frob x power)
    noteFree t.valid)) s

/-- `EX.CALC_FROB` (R177). -/
def execExCalcFrob (l : Level) (s : State) : Host.Outcome State Fault Refusal :=
  runUnit (do
    let _ ← calcFrob l
    pure ()) s

/-- `EX.CALC_FROB_PRE` (R179, R203, R213). -/
def execExCalcFrobPre (l : PreLevel) (f1 : Nat) (s : State) : Host.Outcome State Fault Refusal :=
  runUnit (do
    let f ← getPF
    let e2 ← getEX .fq2
    let v ← readElem (fq2Fld (fpFld f) (e2.nonResidue.headD 0)) f1
    let _ ← calcFrobPre l v
    pure ()) s

/-- `EX.MUL_BY_014` (R214). -/
def execExMulBy014 (c a e0 e1 e4 : Nat) (s : State) : Host.Outcome State Fault Refusal :=
  runUnit (do
    let t ← getBnTower
    let x ← readElem t.t12.fld a
    let y0 ← readElem t.t2.fld e0
    let y1 ← readElem t.t2.fld e1
    let y4 ← readElem t.t2.fld e4
    writeElem t.t12.fld c (mulBy014 t.t2.fld t.t12.fld x y0 y1 y4)) s

/-- `EX.MUL_BY_034` (R215). -/
def execExMulBy034 (c a e0 e3 e4 : Nat) (s : State) : Host.Outcome State Fault Refusal :=
  runUnit (do
    let t ← getBnTower
    let x ← readElem t.t12.fld a
    let y0 ← readElem t.t2.fld e0
    let y3 ← readElem t.t2.fld e3
    let y4 ← readElem t.t2.fld e4
    writeElem t.t12.fld c (mulBy034 t.t2.fld t.t12.fld x y0 y3 y4)) s

/-- `EX.CYCLOTOMIC_SQUARE` (R216): the square of every element, as decision D27 of the spec has it. -/
def execExCyclotomicSquare (c a : Nat) (s : State) : Host.Outcome State Fault Refusal :=
  runUnit (do
    let t ← getBnTower
    let x ← readElem t.t12.fld a
    writeElem t.t12.fld c (cyclotomicSquare t.t12.fld x)) s

end Sys2Proof.Machine
end

