-- ==== Sys2Proof/Machine/PrimeOps.lean ====
section
/-! DEFINITION. The meanings of the sixteen prime-field operations (40_prime_field.md), one definition each. Every
operation reads its sources before it writes its destination (R139). -/

namespace Sys2Proof.Machine

/-- A one-operand operation on slots: `x[c] <- op(x[a])`. -/
def slotOp1 (op : PrimeField → Nat → Nat) (c a : Nat) : M Unit := do
  let f ← getPF
  let x ← readSlot a
  writeSlot c (op f x)

/-- A two-operand operation on slots: `x[c] <- op(x[a], x[b])`. -/
def slotOp2 (op : PrimeField → Nat → Nat → Nat) (c a b : Nat) : M Unit := do
  let f ← getPF
  let x ← readSlot a
  let y ← readSlot b
  writeSlot c (op f x y)

/-- `PF.NEW` (R130). -/
def execPfNew (mb : List Byte) (s : State) : Host.Outcome State Fault Refusal := runUnit (newPF mb) s

/-- `PF.ADD` (R140). -/
def execPfAdd (c a b : Nat) (s : State) : Host.Outcome State Fault Refusal := runUnit (slotOp2 PrimeField.add c a b) s

/-- `PF.SUB` (R141). -/
def execPfSub (c a b : Nat) (s : State) : Host.Outcome State Fault Refusal := runUnit (slotOp2 PrimeField.sub c a b) s

/-- `PF.DOUBLE` (R142). -/
def execPfDouble (c a : Nat) (s : State) : Host.Outcome State Fault Refusal := runUnit (slotOp1 PrimeField.double c a) s

/-- `PF.NEGATE` (R143). -/
def execPfNegate (c a : Nat) (s : State) : Host.Outcome State Fault Refusal := runUnit (slotOp1 PrimeField.negate c a) s

/-- `PF.MUL` (R138). -/
def execPfMul (c a b : Nat) (s : State) : Host.Outcome State Fault Refusal := runUnit (slotOp2 PrimeField.mul c a b) s

/-- `PF.SQUARE` (R144). -/
def execPfSquare (c a : Nat) (s : State) : Host.Outcome State Fault Refusal := runUnit (slotOp1 PrimeField.square c a) s

/-- `PF.EXP` (R146). -/
def execPfExp (c a e : Nat) (s : State) : Host.Outcome State Fault Refusal :=
  runUnit (slotOp1 (fun f x => f.exp x e) c a) s

/-- `PF.INVERT` (R145): the destination and `INV.ok`. -/
def execPfInvert (c a : Nat) (s : State) : Host.Outcome State Fault Refusal :=
  runUnit (do
    let f ← getPF
    let x ← readSlot a
    writeSlot c (f.invert x).2
    setInvOk (f.invert x).1) s

/-- `PF.SQRT` (R150), refused when the modulus is not 3 modulo 4 (R151, 93_implementation_defined.md U5). -/
def execPfSqrt (c a : Nat) (s : State) : Host.Outcome State Fault Refusal :=
  runUnit (do
    let f ← getPF
    let x ← readSlot a
    if f.p % 4 = 3 then do
      writeSlot c (f.sqrt x).2
      setSqrtOk (f.sqrt x).1
    else refuseWith .sqrtModulus) s

/-- `PF.NRES` (R152): it writes `NRES.ok` and no slot. -/
def execPfNres (a n : Nat) (s : State) : Host.Outcome State Fault Refusal :=
  runUnit (do
    let f ← getPF
    let x ← readSlot a
    setNresOk (f.nres x n)) s

/-- `PF.FROM_BYTES` (R153). -/
def execPfFromBytes (c : Nat) (bs : List Byte) (s : State) : Host.Outcome State Fault Refusal :=
  runUnit (do
    let f ← getPF
    require (bs.length == 8 * f.limbs) .short
    require (bytesToNat bs < f.p) .feRange
    writeSlot c (f.toMont (bytesToNat bs))) s

/-- `PF.TO_BYTES` (R154); the bytes go to the unit byte result (log 4). -/
def execPfToBytes (a : Nat) (s : State) : Host.Outcome State Fault Refusal :=
  runUnit (do
    let f ← getPF
    let x ← readSlot a
    update (fun s => s.setRet (f.toBytes x))) s

/-- `PF.TO_BYTES_DENSE` (R156); the bytes go to the unit byte result (log 4). -/
def execPfToBytesDense (a : Nat) (s : State) : Host.Outcome State Fault Refusal :=
  runUnit (do
    let f ← getPF
    let x ← readSlot a
    update (fun s => s.setRet (f.toBytesDense x))) s

/-- `PF.TO_MONT` (R134). -/
def execPfToMont (c a : Nat) (s : State) : Host.Outcome State Fault Refusal := runUnit (slotOp1 PrimeField.toMont c a) s

/-- `PF.FROM_MONT` (R135). -/
def execPfFromMont (c a : Nat) (s : State) : Host.Outcome State Fault Refusal :=
  runUnit (slotOp1 PrimeField.fromMont c a) s

end Sys2Proof.Machine
end

