-- ==== Sys2Proof/Machine/Dispatch.lean ====
section
/-! DEFINITION. One arm per instruction, each one direct call of its meaning. -/

namespace Sys2Proof.Machine

def exec (i : Instr) (s : State) : Host.Outcome State Fault Refusal :=
  match i with
  | .g1add => Sys2Proof.Machine.execG1Add s
  | .g1mul => Sys2Proof.Machine.execG1Mul s
  | .g1mexp => Sys2Proof.Machine.execG1Mexp s
  | .g2add => Sys2Proof.Machine.execG2Add s
  | .g2mul => Sys2Proof.Machine.execG2Mul s
  | .g2mexp => Sys2Proof.Machine.execG2Mexp s
  | .bls12 => Sys2Proof.Machine.execBls12 s
  | .bn => Sys2Proof.Machine.execBn s
  | .mnt4 => Sys2Proof.Machine.execMnt4 s
  | .mnt6 => Sys2Proof.Machine.execMnt6 s
  | .pfNew mb => Sys2Proof.Machine.execPfNew mb s
  | .pfAdd c a b => Sys2Proof.Machine.execPfAdd c a b s
  | .pfSub c a b => Sys2Proof.Machine.execPfSub c a b s
  | .pfDouble c a => Sys2Proof.Machine.execPfDouble c a s
  | .pfNegate c a => Sys2Proof.Machine.execPfNegate c a s
  | .pfMul c a b => Sys2Proof.Machine.execPfMul c a b s
  | .pfSquare c a => Sys2Proof.Machine.execPfSquare c a s
  | .pfExp c a e => Sys2Proof.Machine.execPfExp c a e s
  | .pfInvert c a => Sys2Proof.Machine.execPfInvert c a s
  | .pfSqrt c a => Sys2Proof.Machine.execPfSqrt c a s
  | .pfNres a n => Sys2Proof.Machine.execPfNres a n s
  | .pfFromBytes c bs => Sys2Proof.Machine.execPfFromBytes c bs s
  | .pfToBytes a => Sys2Proof.Machine.execPfToBytes a s
  | .pfToBytesDense a => Sys2Proof.Machine.execPfToBytesDense a s
  | .pfToMont c a => Sys2Proof.Machine.execPfToMont c a s
  | .pfFromMont c a => Sys2Proof.Machine.execPfFromMont c a s
  | .exNew l nr => Sys2Proof.Machine.execExNew l nr s
  | .exAdd l c a b => Sys2Proof.Machine.execExAdd l c a b s
  | .exSub l c a b => Sys2Proof.Machine.execExSub l c a b s
  | .exNeg l c a => Sys2Proof.Machine.execExNeg l c a s
  | .exDouble l c a => Sys2Proof.Machine.execExDouble l c a s
  | .exMul l c a b => Sys2Proof.Machine.execExMul l c a b s
  | .exSquare l c a => Sys2Proof.Machine.execExSquare l c a s
  | .exInverse l c a => Sys2Proof.Machine.execExInverse l c a s
  | .exExp l c a e => Sys2Proof.Machine.execExExp l c a e s
  | .exConjugate l c a => Sys2Proof.Machine.execExConjugate l c a s
  | .exFrobeniusMap l c a power => Sys2Proof.Machine.execExFrobeniusMap l c a power s
  | .exCalcFrob l => Sys2Proof.Machine.execExCalcFrob l s
  | .exCalcFrobPre l f1 => Sys2Proof.Machine.execExCalcFrobPre l f1 s
  | .exMulBy014 c a e0 e1 e4 => Sys2Proof.Machine.execExMulBy014 c a e0 e1 e4 s
  | .exMulBy034 c a e0 e3 e4 => Sys2Proof.Machine.execExMulBy034 c a e0 e3 e4 s
  | .exCyclotomicSquare c a => Sys2Proof.Machine.execExCyclotomicSquare c a s
  | .cgNew field a b ob => Sys2Proof.Machine.execCgNew field a b ob s
  | .cgIsZero g p => Sys2Proof.Machine.execCgIsZero g p s
  | .cgIsOnCurve g p => Sys2Proof.Machine.execCgIsOnCurve g p s
  | .cgAdd g r p1 p2 => Sys2Proof.Machine.execCgAdd g r p1 p2 s
  | .cgDouble g r p => Sys2Proof.Machine.execCgDouble g r p s
  | .cgNegate g r p => Sys2Proof.Machine.execCgNegate g r p s
  | .cgScalarMul g r p e => Sys2Proof.Machine.execCgScalarMul g r p e s
  | .cgWnafMul g r p e => Sys2Proof.Machine.execCgWnafMul g r p e s
  | .cgSubgroupCheck g p => Sys2Proof.Machine.execCgSubgroupCheck g p s
  | .cgMultiExp g r points n scalars => Sys2Proof.Machine.execCgMultiExp g r points n scalars s
  | .cgToAffine g r p => Sys2Proof.Machine.execCgToAffine g r p s
  | .peNew family twist x xNeg w0 w1 w0Neg => Sys2Proof.Machine.execPeNew family twist x xNeg w0 w1 w0Neg s
  | .peDoublingStep r co src => Sys2Proof.Machine.execPeDoublingStep r co src s
  | .peAdditionStep r co src q => Sys2Proof.Machine.execPeAdditionStep r co src q s
  | .peEll c f co p => Sys2Proof.Machine.execPeEll c f co p s
  | .peMillerLoop c pairs n => Sys2Proof.Machine.execPeMillerLoop c pairs n s
  | .peFinalExp c f => Sys2Proof.Machine.execPeFinalExp c f s
  | .peMultiPair c pairs n => Sys2Proof.Machine.execPeMultiPair c pairs n s
  | .peDoublingStepMnt r co src => Sys2Proof.Machine.execPeDoublingStepMnt r co src s
  | .peAdditionStepMnt r co src q => Sys2Proof.Machine.execPeAdditionStepMnt r co src q s
  | .peEllMnt kind c f co p q => Sys2Proof.Machine.execPeEllMnt kind c f co p q s
  | .peMillerLoopMnt c pairs n => Sys2Proof.Machine.execPeMillerLoopMnt c pairs n s
  | .peFinalExpMnt c f => Sys2Proof.Machine.execPeFinalExpMnt c f s

end Sys2Proof.Machine
end

