-- ==== Sys2Proof/WellFormed.lean ====
section
/-! DEFINITION. Which instructions the unit port can carry: each slot number, length and small integer fits its 16-bit
word (log 3), and the residue degree of `PF.NRES` is positive (40_prime_field.md R152). And the fields of a whole call: the
ranges its format asks of them, and the widths it writes them in (30_encoding.md R86 to R99). -/

namespace Sys2Proof

/-- A slot number, a power or a count that fits one port word. -/
def fitsWord (n : Nat) : Bool :=
  n < 65536

/-- A big integer whose words can be counted by one port word. -/
def bigFits (v : Nat) : Bool :=
  wordCount v < 65536

/-- A byte string whose length fits one port word. -/
def bytesFit (bs : List Byte) : Bool :=
  bs.length < 65536

/-- An instruction the unit port or the tape can carry. -/
def Instr.wellFormed : Instr → Bool
  | .g1add | .g1mul | .g1mexp | .g2add | .g2mul | .g2mexp => true
  | .bls12 | .bn | .mnt4 | .mnt6 => true
  | .pfNew mb => bytesFit mb
  | .pfAdd c a b | .pfSub c a b | .pfMul c a b => fitsWord c && fitsWord a && fitsWord b
  | .pfDouble c a | .pfNegate c a | .pfSquare c a | .pfInvert c a | .pfSqrt c a => fitsWord c && fitsWord a
  | .pfExp c a e => fitsWord c && fitsWord a && bigFits e
  | .pfNres a n => fitsWord a && (1 ≤ n && n ≤ 65536)
  | .pfFromBytes c bs => fitsWord c && bytesFit bs
  | .pfToBytes a | .pfToBytesDense a => fitsWord a
  | .pfToMont c a | .pfFromMont c a => fitsWord c && fitsWord a
  | .exNew _ nr => fitsWord nr
  | .exAdd _ c a b | .exSub _ c a b | .exMul _ c a b => fitsWord c && fitsWord a && fitsWord b
  | .exNeg _ c a | .exDouble _ c a | .exSquare _ c a | .exInverse _ c a => fitsWord c && fitsWord a
  | .exExp _ c a e => fitsWord c && fitsWord a && bigFits e
  | .exConjugate _ c a => fitsWord c && fitsWord a
  | .exFrobeniusMap _ c a power => fitsWord c && fitsWord a && fitsWord power
  | .exCalcFrob _ => true
  | .exCalcFrobPre _ f1 => fitsWord f1
  | .exMulBy014 c a e0 e1 e4 => fitsWord c && fitsWord a && fitsWord e0 && fitsWord e1 && fitsWord e4
  | .exMulBy034 c a e0 e3 e4 => fitsWord c && fitsWord a && fitsWord e0 && fitsWord e3 && fitsWord e4
  | .exCyclotomicSquare c a => fitsWord c && fitsWord a
  | .cgNew _ a b ob => a.all fitsWord && b.all fitsWord && bytesFit ob
  | .cgIsZero _ p | .cgIsOnCurve _ p | .cgSubgroupCheck _ p => fitsWord p
  | .cgAdd _ r p1 p2 => fitsWord r && fitsWord p1 && fitsWord p2
  | .cgDouble _ r p | .cgNegate _ r p | .cgToAffine _ r p => fitsWord r && fitsWord p
  | .cgScalarMul _ r p e | .cgWnafMul _ r p e => fitsWord r && fitsWord p && bigFits e
  | .cgMultiExp _ r points n scalars =>
    fitsWord r && fitsWord points && fitsWord n && fitsWord scalars.length && scalars.all bigFits
  | .peNew _ _ x _ w0 w1 _ => bigFits x && bigFits w0 && bigFits w1
  | .peDoublingStep r co src => fitsWord r && fitsWord co && fitsWord src
  | .peAdditionStep r co src q => fitsWord r && fitsWord co && fitsWord src && fitsWord q
  | .peEll c f co p => fitsWord c && fitsWord f && fitsWord co && fitsWord p
  | .peMillerLoop c pairs n | .peMultiPair c pairs n => fitsWord c && fitsWord pairs && fitsWord n
  | .peFinalExp c f => fitsWord c && fitsWord f
  | .peDoublingStepMnt r co src => fitsWord r && fitsWord co && fitsWord src
  | .peAdditionStepMnt r co src q => fitsWord r && fitsWord co && fitsWord src && fitsWord q
  | .peEllMnt _ c f co p q => fitsWord c && fitsWord f && fitsWord co && fitsWord p && fitsWord q
  | .peMillerLoopMnt c pairs n => fitsWord c && fitsWord pairs && fitsWord n
  | .peFinalExpMnt c f => fitsWord c && fitsWord f

/-! The checks below are those of 30_encoding.md R86 and R87, on the fields of a call. They are what the format itself
asks; the curve, subgroup, non-residue and tower checks of 44_decoder.md are not among them. -/

/-- `MOD`: 1 to 128 bytes, first byte non-zero, value odd, and above 3 when one byte (30_encoding.md R87). -/
def modulusFits (mb : List Byte) : Bool :=
  1 ≤ mb.length && mb.length ≤ 128 && mb.headD 0 != 0 && bytesToNat mb % 2 == 1
    && (mb.length != 1 || 3 < bytesToNat mb)

/-- An element of a field of degree `d`: `d` coordinates, each below the modulus (30_encoding.md R86). -/
def elementFits (p d : Nat) (v : List Nat) : Bool :=
  v.length == d && v.all (· < p)

/-- `ORD`: 1 to 128 bytes, value not 0 (30_encoding.md R87). -/
def orderFits (ob : List Byte) : Bool :=
  1 ≤ ob.length && ob.length ≤ 128 && bytesToNat ob != 0

/-- `LOOP`: a length byte's worth of bytes, first byte non-zero, at most 2032 bits (30_encoding.md R87). -/
def loopFits (bs : List Byte) : Bool :=
  1 ≤ bs.length && bs.length ≤ 255 && bs.headD 0 != 0 && bitlen (bytesToNat bs) ≤ 2032

/-- `CURVE(F)` for `F` of degree `d` (30_encoding.md R88). -/
def curveFits (p d : Nat) (c : CurveFields) : Bool :=
  elementFits p d c.a && elementFits p d c.b && orderFits c.ord

/-- `POINT(F)` for `F` of degree `d` (30_encoding.md R88). -/
def pointFits (p d : Nat) (pt : PointFields) : Bool :=
  elementFits p d pt.x && elementFits p d pt.y

/-- `SCALAR`: below the order (30_encoding.md R86). -/
def scalarFits (c : CurveFields) (e : Nat) : Bool :=
  e < bytesToNat c.ord

/-- `COUNT`: 1 to 255 entries (30_encoding.md R86). -/
def countFits (n : Nat) : Bool :=
  1 ≤ n && n ≤ 255

/-- The list of a multi-exponentiation (30_encoding.md R92, R95). -/
def mexpListFits (p d : Nat) (c : CurveFields) (list : List (PointFields × Nat)) : Bool :=
  countFits list.length && list.all (fun pe => pointFits p d pe.1 && scalarFits c pe.2)

/-! A call that can be written at all, good or bad: every field fits the bytes its format gives it. -/

/-- A byte of a call. -/
def byteFits (n : Nat) : Bool :=
  n ≤ 255

/-- A byte string whose length fits its one length byte (30_encoding.md R87). -/
def prefixFits (bs : List Byte) : Bool :=
  bs.length ≤ 255

/-- `d` coordinates, each of which `lp` bytes can hold (30_encoding.md R86). -/
def elementWidth (lp d : Nat) (v : List Nat) : Bool :=
  v.length == d && v.all (· < 256 ^ lp)

/-- The widths of `POINT(F)` for `F` of degree `d` (30_encoding.md R88). -/
def pointWidth (lp d : Nat) (pt : PointFields) : Bool :=
  elementWidth lp d pt.x && elementWidth lp d pt.y

/-- The widths of `CURVE(F)` (30_encoding.md R88). -/
def curveWidth (lp d : Nat) (c : CurveFields) : Bool :=
  elementWidth lp d c.a && elementWidth lp d c.b && prefixFits c.ord

/-- The widths of `EXTHDR` (30_encoding.md R88). -/
def extWidth (lp : Nat) (h : ExtHeader) : Bool :=
  byteFits h.deg && h.nr < 256 ^ lp

/-- The width of `SCALAR` (30_encoding.md R86). -/
def scalarWidth (c : CurveFields) (e : Nat) : Bool :=
  e < 256 ^ c.ord.length

/-- The widths of a multi-exponentiation's list (30_encoding.md R92, R95). -/
def mexpListWidth (lp d : Nat) (c : CurveFields) (list : List (PointFields × Nat)) : Bool :=
  byteFits list.length && list.all (fun pe => pointWidth lp d pe.1 && scalarWidth c pe.2)

/-- The widths of `COUNT` and the pairs, G2 of degree `d` (30_encoding.md R96, R98). -/
def pairsWidth (lp d : Nat) (prs : List PairFields) : Bool :=
  byteFits prs.length &&
    prs.all (fun pr => byteFits pr.chk1 && pointWidth lp 1 pr.p && byteFits pr.chk2 && pointWidth lp d pr.q)

/-- The widths of fields 4 to 11 of a BLS12 or BN call (30_encoding.md R96). -/
def twistedWidth (lp : Nat) (t : TwistedFields) : Bool :=
  extWidth lp t.ext && elementWidth lp 2 t.xi && byteFits t.twist && prefixFits t.loop && byteFits t.neg
    && pairsWidth lp 2 t.pairs

/-- The widths of fields 4 to 12 of an MNT call whose G2 lies over a field of degree `d` (30_encoding.md R98, R99). -/
def mntWidth (lp d : Nat) (t : MntFields) : Bool :=
  extWidth lp t.ext && prefixFits t.loop && byteFits t.neg && prefixFits t.w0 && prefixFits t.w1 && byteFits t.w0Neg
    && pairsWidth lp d t.pairs

/-- A call that its format can write, whatever the values of its fields (30_encoding.md R86 to R99). -/
def Call.encodable : Call → Bool
  | .g1add mb c p1 p2 => prefixFits mb && curveWidth mb.length 1 c && pointWidth mb.length 1 p1 && pointWidth mb.length 1 p2
  | .g1mul mb c pt e => prefixFits mb && curveWidth mb.length 1 c && pointWidth mb.length 1 pt && scalarWidth c e
  | .g1mexp mb c list => prefixFits mb && curveWidth mb.length 1 c && mexpListWidth mb.length 1 c list
  | .g2add mb h c p1 p2 =>
    prefixFits mb && extWidth mb.length h && curveWidth mb.length h.deg c && pointWidth mb.length h.deg p1
      && pointWidth mb.length h.deg p2
  | .g2mul mb h c pt e =>
    prefixFits mb && extWidth mb.length h && curveWidth mb.length h.deg c && pointWidth mb.length h.deg pt && scalarWidth c e
  | .g2mexp mb h c list =>
    prefixFits mb && extWidth mb.length h && curveWidth mb.length h.deg c && mexpListWidth mb.length h.deg c list
  | .bls12 mb c t | .bn mb c t => prefixFits mb && curveWidth mb.length 1 c && twistedWidth mb.length t
  | .mnt4 mb c t => prefixFits mb && curveWidth mb.length 1 c && mntWidth mb.length 2 t
  | .mnt6 mb c t => prefixFits mb && curveWidth mb.length 1 c && mntWidth mb.length 3 t

end Sys2Proof
end

