-- ==== Sys2Proof/Decode.lean ====
section
/-! DEFINITION. The decoder and the encoder of an instruction, and the bytes of a whole call.

An instruction comes from one of two places. A call is selected by byte 0 of the input tape (30_encoding.md R100); its
operand bytes follow and are read by its meaning through the cursor. A unit operation comes through the model's unit port
as 16-bit words (log 3): the selector of R101, then operand words in the order of the constructor's arguments:

* a slot, power or count is one word; a residue degree `n` is the word `n - 1`;
* a byte string is its length, then one word per byte; a big integer is its word count, then its words, most
  significant first, the first not 0; a list of big integers is its length, then each;
* a flag is 0 or 1; an optional slot is a flag, then the slot; a level, group, field, family, twist or line kind is its
  index in the order of its constructors.

Words after the last operand must be 0. -/

namespace Sys2Proof

/-- Where an instruction stands: byte 0 of the tape, or the words of the unit port. -/
inductive Code where
  | tape (op : Byte)
  | port (ws : List Word)
deriving DecidableEq, Repr

/-- Why a code is no instruction. -/
inductive DecodeErr where
  /-- a tape byte outside `0x01 .. 0x0a` (30_encoding.md R102) -/
  | badOpcode
  /-- a word that is no selector of 30_encoding.md R101 -/
  | unknownSelector
  /-- the port's words end inside an operand -/
  | truncated
  /-- an operand word outside its field's values -/
  | badField
  /-- a word that is not 0 after the last operand -/
  | trailing
deriving DecidableEq, Repr

/-- A reader of port words. -/
abbrev PortReader := EStateM DecodeErr (List Word)

/-- The next port word. -/
def readWord : PortReader Nat := fun ws =>
  match ws with
  | [] => .error .truncated ws
  | w :: rest => .ok w.toNat rest

/-- `n` port words. -/
def readWords : Nat → PortReader (List Word)
  | 0 => pure []
  | n + 1 => do
    let w ← readWord
    let ws ← readWords n
    pure (BitVec.ofNat 16 w :: ws)

/-- `pure` of an optional value, `badField` of none. -/
def fieldOf {α : Type} (o : Option α) : PortReader α := fun ws =>
  match o with
  | none => .error .badField ws
  | some v => .ok v ws

/-- A byte held in the low half of one word. -/
def byteOfWord (w : Word) : Option Byte :=
  if w.toNat < 256 then some (BitVec.ofNat 8 w.toNat) else none

/-- A length-prefixed byte string. -/
def readBytes : PortReader (List Byte) := do
  let n ← readWord
  let ws ← readWords n
  fieldOf (ws.mapM byteOfWord)

/-- A length-prefixed big integer without leading zero words. -/
def readBig : PortReader Nat := do
  let n ← readWord
  let ws ← readWords n
  fieldOf (if ws.head? = some 0 then none else some (wordsToNat ws))

/-- `n` big integers. -/
def readBigsN : Nat → PortReader (List Nat)
  | 0 => pure []
  | n + 1 => do
    let v ← readBig
    let vs ← readBigsN n
    pure (v :: vs)

/-- A length-prefixed list of big integers. -/
def readBigs : PortReader (List Nat) := do
  let n ← readWord
  readBigsN n

/-- A flag word. -/
def readBool : PortReader Bool := do
  let v ← readWord
  fieldOf (match v with | 0 => some false | 1 => some true | _ => none)

/-- A flag word and a slot; the slot counts when the flag is 1. -/
def readOptSlot : PortReader (Option Nat) := do
  let present ← readBool
  let v ← readWord
  fieldOf (if present then some (some v) else if v = 0 then some none else none)

/-- The level of an index word. -/
def readLevel : PortReader Level := do
  let v ← readWord
  fieldOf (match v with
    | 0 => some .fq2 | 1 => some .fq3 | 2 => some .fq4 | 3 => some .fq6c | 4 => some .fq6q | 5 => some .fq12
    | _ => none)

/-- The quadratic level of an index word. -/
def readQuadLevel : PortReader QuadLevel := do
  let v ← readWord
  fieldOf (match v with | 0 => some .fq2 | 1 => some .fq4 | 2 => some .fq6q | 3 => some .fq12 | _ => none)

/-- The `CALC_FROB_PRE` level of an index word. -/
def readPreLevel : PortReader PreLevel := do
  let v ← readWord
  fieldOf (match v with | 0 => some .fq6c | 1 => some .fq12 | _ => none)

/-- The group of an index word. -/
def readGroup : PortReader Group := do
  let v ← readWord
  fieldOf (match v with | 0 => some .g1 | 1 => some .g2 | _ => none)

/-- The curve field of an index word. -/
def readCurveField : PortReader CurveField := do
  let v ← readWord
  fieldOf (match v with | 0 => some .fp | 1 => some .fq2 | 2 => some .fq3 | _ => none)

/-- The family of an index word. -/
def readFamily : PortReader Family := do
  let v ← readWord
  fieldOf (match v with | 0 => some .bls12 | 1 => some .bn | 2 => some .mnt4 | 3 => some .mnt6 | _ => none)

/-- The twist of an index word. -/
def readTwist : PortReader Twist := do
  let v ← readWord
  fieldOf (match v with | 0 => some .m | 1 => some .d | _ => none)

/-- The line kind of an index word. -/
def readLineKind : PortReader LineKind := do
  let v ← readWord
  fieldOf (match v with | 0 => some .doubling | 1 => some .addition | _ => none)

/-- One slot operand. -/
def read1 (k : Nat → Instr) : PortReader Instr := do
  let a ← readWord
  pure (k a)

/-- Two slot operands. -/
def read2 (k : Nat → Nat → Instr) : PortReader Instr := do
  let a ← readWord
  let b ← readWord
  pure (k a b)

/-- Three slot operands. -/
def read3 (k : Nat → Nat → Nat → Instr) : PortReader Instr := do
  let a ← readWord
  let b ← readWord
  let c ← readWord
  pure (k a b c)

/-- Four slot operands. -/
def read4 (k : Nat → Nat → Nat → Nat → Instr) : PortReader Instr := do
  let a ← readWord
  let b ← readWord
  let c ← readWord
  let d ← readWord
  pure (k a b c d)

/-- Five slot operands. -/
def read5 (k : Nat → Nat → Nat → Nat → Nat → Instr) : PortReader Instr := do
  let a ← readWord
  let b ← readWord
  let c ← readWord
  let d ← readWord
  let e ← readWord
  pure (k a b c d e)

/-- Two slots and a big integer. -/
def read2Big (k : Nat → Nat → Nat → Instr) : PortReader Instr := do
  let a ← readWord
  let b ← readWord
  let e ← readBig
  pure (k a b e)

/-- A level and what follows it. -/
def readAtLevel (k : Level → PortReader Instr) : PortReader Instr := do
  let l ← readLevel
  k l

/-- A group and what follows it. -/
def readAtGroup (k : Group → PortReader Instr) : PortReader Instr := do
  let g ← readGroup
  k g

/-- The operands of a selector (30_encoding.md R101), read into its instruction. -/
def readOperands (selector : Nat) : PortReader Instr :=
  match selector with
  | 0x1001 => do
    let mb ← readBytes
    pure (.pfNew mb)
  | 0x1002 => read3 .pfAdd
  | 0x1003 => read3 .pfSub
  | 0x1004 => read2 .pfDouble
  | 0x1005 => read2 .pfNegate
  | 0x1006 => read3 .pfMul
  | 0x1007 => read2 .pfSquare
  | 0x1008 => read2Big .pfExp
  | 0x1009 => read2 .pfInvert
  | 0x100a => read2 .pfSqrt
  | 0x100b => read2 (fun a n => .pfNres a (n + 1))
  | 0x100c => do
    let c ← readWord
    let bs ← readBytes
    pure (.pfFromBytes c bs)
  | 0x100d => read1 .pfToBytes
  | 0x100e => read1 .pfToBytesDense
  | 0x100f => read2 .pfToMont
  | 0x1010 => read2 .pfFromMont
  | 0x2001 => readAtLevel fun l => read1 (.exNew l)
  | 0x2002 => readAtLevel fun l => read3 (.exAdd l)
  | 0x2003 => readAtLevel fun l => read3 (.exSub l)
  | 0x2004 => readAtLevel fun l => read2 (.exNeg l)
  | 0x2005 => readAtLevel fun l => read2 (.exDouble l)
  | 0x2006 => readAtLevel fun l => read3 (.exMul l)
  | 0x2007 => readAtLevel fun l => read2 (.exSquare l)
  | 0x2008 => readAtLevel fun l => read2 (.exInverse l)
  | 0x2009 => readAtLevel fun l => read2Big (.exExp l)
  | 0x200a => do
    let l ← readQuadLevel
    read2 (.exConjugate l)
  | 0x200b => readAtLevel fun l => read3 (.exFrobeniusMap l)
  | 0x200c => readAtLevel fun l => pure (.exCalcFrob l)
  | 0x200d => do
    let l ← readPreLevel
    read1 (.exCalcFrobPre l)
  | 0x200e => read5 .exMulBy014
  | 0x200f => read5 .exMulBy034
  | 0x2010 => read2 .exCyclotomicSquare
  | 0x3001 => do
    let f ← readCurveField
    let a ← readOptSlot
    let b ← readOptSlot
    let ob ← readBytes
    pure (.cgNew f a b ob)
  | 0x3002 => readAtGroup fun g => read1 (.cgIsZero g)
  | 0x3003 => readAtGroup fun g => read1 (.cgIsOnCurve g)
  | 0x3004 => readAtGroup fun g => read3 (.cgAdd g)
  | 0x3005 => readAtGroup fun g => read2 (.cgDouble g)
  | 0x3006 => readAtGroup fun g => read2 (.cgNegate g)
  | 0x3007 => readAtGroup fun g => read2Big (.cgScalarMul g)
  | 0x3008 => readAtGroup fun g => read2Big (.cgWnafMul g)
  | 0x3009 => readAtGroup fun g => read1 (.cgSubgroupCheck g)
  | 0x300a => do
    let g ← readGroup
    let r ← readWord
    let points ← readWord
    let n ← readWord
    let scalars ← readBigs
    pure (.cgMultiExp g r points n scalars)
  | 0x300b => readAtGroup fun g => read2 (.cgToAffine g)
  | 0x4001 => do
    let f ← readFamily
    let t ← readTwist
    let x ← readBig
    let xn ← readBool
    let w0 ← readBig
    let w1 ← readBig
    let w0n ← readBool
    pure (.peNew f t x xn w0 w1 w0n)
  | 0x4002 => read3 .peDoublingStep
  | 0x4003 => read4 .peAdditionStep
  | 0x4004 => read4 .peEll
  | 0x4005 => read3 .peMillerLoop
  | 0x4006 => read2 .peFinalExp
  | 0x4007 => read3 .peMultiPair
  | 0x4012 => read3 .peDoublingStepMnt
  | 0x4013 => read4 .peAdditionStepMnt
  | 0x4014 => do
    let k ← readLineKind
    read5 (.peEllMnt k)
  | 0x4015 => read3 .peMillerLoopMnt
  | 0x4016 => read2 .peFinalExpMnt
  | _ => fun ws => .error .unknownSelector ws

/-- The unit operation of the port's words. -/
def decodePort (ws : List Word) : Except DecodeErr Instr :=
  match ws with
  | [] => .error .truncated
  | sel :: rest =>
    match readOperands sel.toNat rest with
    | .error e _ => .error e
    | .ok i more => if more.all (· == 0) then .ok i else .error .trailing

/-- The call that byte 0 of the tape selects (30_encoding.md R100); any other byte is no operation (R102). -/
def decodeOpcode (op : Byte) : Option Instr :=
  match op.toNat with
  | 0x01 => some .g1add
  | 0x02 => some .g1mul
  | 0x03 => some .g1mexp
  | 0x04 => some .g2add
  | 0x05 => some .g2mul
  | 0x06 => some .g2mexp
  | 0x07 => some .bls12
  | 0x08 => some .bn
  | 0x09 => some .mnt4
  | 0x0a => some .mnt6
  | _ => none

/-- The decoder: total on any tape byte and any port words. -/
def decode : Code → Except DecodeErr Instr
  | .tape op =>
    match decodeOpcode op with
    | none => .error .badOpcode
    | some i => .ok i
  | .port ws => decodePort ws

/-! The encoder. -/

/-- A word of a number below 65536. -/
def wordOf (n : Nat) : Word :=
  BitVec.ofNat 16 n

/-- The words of a byte string. -/
def wordsOfBytes (bs : List Byte) : List Word :=
  wordOf bs.length :: bs.map (fun b => wordOf b.toNat)

/-- The words of a big integer. -/
def wordsOfBig (v : Nat) : List Word :=
  wordOf (wordCount v) :: natToWords v (wordCount v)

/-- The words of a list of big integers. -/
def wordsOfBigs (vs : List Nat) : List Word :=
  wordOf vs.length :: vs.flatMap wordsOfBig

/-- The word of a flag. -/
def wordOfBool (b : Bool) : Word :=
  if b then 1 else 0

/-- The words of an optional slot. -/
def wordsOfOptSlot : Option Nat → List Word
  | none => [0, 0]
  | some v => [1, wordOf v]

/-- The index word of a level. -/
def wordOfLevel : Level → Word
  | .fq2 => 0 | .fq3 => 1 | .fq4 => 2 | .fq6c => 3 | .fq6q => 4 | .fq12 => 5

/-- The index word of a quadratic level. -/
def wordOfQuadLevel : QuadLevel → Word
  | .fq2 => 0 | .fq4 => 1 | .fq6q => 2 | .fq12 => 3

/-- The index word of a `CALC_FROB_PRE` level. -/
def wordOfPreLevel : PreLevel → Word
  | .fq6c => 0 | .fq12 => 1

/-- The index word of a group. -/
def wordOfGroup : Group → Word
  | .g1 => 0 | .g2 => 1

/-- The index word of a curve field. -/
def wordOfCurveField : CurveField → Word
  | .fp => 0 | .fq2 => 1 | .fq3 => 2

/-- The index word of a family. -/
def wordOfFamily : Family → Word
  | .bls12 => 0 | .bn => 1 | .mnt4 => 2 | .mnt6 => 3

/-- The index word of a twist. -/
def wordOfTwist : Twist → Word
  | .m => 0 | .d => 1

/-- The index word of a line kind. -/
def wordOfLineKind : LineKind → Word
  | .doubling => 0 | .addition => 1

/-- A selector and slot operands. -/
def unitCode (selector : Word) (slots : List Nat) : Code :=
  .port (selector :: slots.map wordOf)

/-- A selector, a leading index word and slot operands. -/
def unitCodeAt (selector index : Word) (slots : List Nat) : Code :=
  .port (selector :: index :: slots.map wordOf)

/-- The code of an instruction: its opcode (30_encoding.md R100) or its selector (R101) and operand words. -/
def encode : Instr → Code
  | .g1add => .tape 0x01
  | .g1mul => .tape 0x02
  | .g1mexp => .tape 0x03
  | .g2add => .tape 0x04
  | .g2mul => .tape 0x05
  | .g2mexp => .tape 0x06
  | .bls12 => .tape 0x07
  | .bn => .tape 0x08
  | .mnt4 => .tape 0x09
  | .mnt6 => .tape 0x0a
  | .pfNew mb => .port (0x1001 :: wordsOfBytes mb)
  | .pfAdd c a b => unitCode 0x1002 [c, a, b]
  | .pfSub c a b => unitCode 0x1003 [c, a, b]
  | .pfDouble c a => unitCode 0x1004 [c, a]
  | .pfNegate c a => unitCode 0x1005 [c, a]
  | .pfMul c a b => unitCode 0x1006 [c, a, b]
  | .pfSquare c a => unitCode 0x1007 [c, a]
  | .pfExp c a e => .port (0x1008 :: wordOf c :: wordOf a :: wordsOfBig e)
  | .pfInvert c a => unitCode 0x1009 [c, a]
  | .pfSqrt c a => unitCode 0x100a [c, a]
  | .pfNres a n => unitCode 0x100b [a, n - 1]
  | .pfFromBytes c bs => .port (0x100c :: wordOf c :: wordsOfBytes bs)
  | .pfToBytes a => unitCode 0x100d [a]
  | .pfToBytesDense a => unitCode 0x100e [a]
  | .pfToMont c a => unitCode 0x100f [c, a]
  | .pfFromMont c a => unitCode 0x1010 [c, a]
  | .exNew l nr => unitCodeAt 0x2001 (wordOfLevel l) [nr]
  | .exAdd l c a b => unitCodeAt 0x2002 (wordOfLevel l) [c, a, b]
  | .exSub l c a b => unitCodeAt 0x2003 (wordOfLevel l) [c, a, b]
  | .exNeg l c a => unitCodeAt 0x2004 (wordOfLevel l) [c, a]
  | .exDouble l c a => unitCodeAt 0x2005 (wordOfLevel l) [c, a]
  | .exMul l c a b => unitCodeAt 0x2006 (wordOfLevel l) [c, a, b]
  | .exSquare l c a => unitCodeAt 0x2007 (wordOfLevel l) [c, a]
  | .exInverse l c a => unitCodeAt 0x2008 (wordOfLevel l) [c, a]
  | .exExp l c a e => .port (0x2009 :: wordOfLevel l :: wordOf c :: wordOf a :: wordsOfBig e)
  | .exConjugate l c a => unitCodeAt 0x200a (wordOfQuadLevel l) [c, a]
  | .exFrobeniusMap l c a power => unitCodeAt 0x200b (wordOfLevel l) [c, a, power]
  | .exCalcFrob l => unitCodeAt 0x200c (wordOfLevel l) []
  | .exCalcFrobPre l f1 => unitCodeAt 0x200d (wordOfPreLevel l) [f1]
  | .exMulBy014 c a e0 e1 e4 => unitCode 0x200e [c, a, e0, e1, e4]
  | .exMulBy034 c a e0 e3 e4 => unitCode 0x200f [c, a, e0, e3, e4]
  | .exCyclotomicSquare c a => unitCode 0x2010 [c, a]
  | .cgNew f a b ob => .port (0x3001 :: wordOfCurveField f :: (wordsOfOptSlot a ++ wordsOfOptSlot b ++ wordsOfBytes ob))
  | .cgIsZero g p => unitCodeAt 0x3002 (wordOfGroup g) [p]
  | .cgIsOnCurve g p => unitCodeAt 0x3003 (wordOfGroup g) [p]
  | .cgAdd g r p1 p2 => unitCodeAt 0x3004 (wordOfGroup g) [r, p1, p2]
  | .cgDouble g r p => unitCodeAt 0x3005 (wordOfGroup g) [r, p]
  | .cgNegate g r p => unitCodeAt 0x3006 (wordOfGroup g) [r, p]
  | .cgScalarMul g r p e => .port (0x3007 :: wordOfGroup g :: wordOf r :: wordOf p :: wordsOfBig e)
  | .cgWnafMul g r p e => .port (0x3008 :: wordOfGroup g :: wordOf r :: wordOf p :: wordsOfBig e)
  | .cgSubgroupCheck g p => unitCodeAt 0x3009 (wordOfGroup g) [p]
  | .cgMultiExp g r points n scalars =>
    .port (0x300a :: wordOfGroup g :: wordOf r :: wordOf points :: wordOf n :: wordsOfBigs scalars)
  | .cgToAffine g r p => unitCodeAt 0x300b (wordOfGroup g) [r, p]
  | .peNew f t x xn w0 w1 w0n =>
    .port (0x4001 :: wordOfFamily f :: wordOfTwist t ::
      (wordsOfBig x ++ (wordOfBool xn :: (wordsOfBig w0 ++ (wordsOfBig w1 ++ [wordOfBool w0n])))))
  | .peDoublingStep r co src => unitCode 0x4002 [r, co, src]
  | .peAdditionStep r co src q => unitCode 0x4003 [r, co, src, q]
  | .peEll c f co p => unitCode 0x4004 [c, f, co, p]
  | .peMillerLoop c pairs n => unitCode 0x4005 [c, pairs, n]
  | .peFinalExp c f => unitCode 0x4006 [c, f]
  | .peMultiPair c pairs n => unitCode 0x4007 [c, pairs, n]
  | .peDoublingStepMnt r co src => unitCode 0x4012 [r, co, src]
  | .peAdditionStepMnt r co src q => unitCode 0x4013 [r, co, src, q]
  | .peEllMnt k c f co p q => unitCodeAt 0x4014 (wordOfLineKind k) [c, f, co, p, q]
  | .peMillerLoopMnt c pairs n => unitCode 0x4015 [c, pairs, n]
  | .peFinalExpMnt c f => unitCode 0x4016 [c, f]

/-! The bytes of a whole call (30_encoding.md R86 to R99), written from the formats' tables. -/

/-- A byte of a number below 256. -/
def byteOf (n : Nat) : Byte :=
  BitVec.ofNat 8 n

/-- `FE`, `FE2`, `FE3`: each coordinate in `lp` bytes, coordinate 0 first (30_encoding.md R86, 20_memory.md R63). -/
def elementBytes (lp : Nat) (v : List Nat) : List Byte :=
  v.flatMap (fun c => natToBytes c lp)

/-- A length-prefixed integer: `MOD`, `ORD`, `LOOP` (30_encoding.md R87). -/
def prefixedBytes (bs : List Byte) : List Byte :=
  byteOf bs.length :: bs

/-- `POINT(F)` (30_encoding.md R88). -/
def pointFieldBytes (lp : Nat) (pt : PointFields) : List Byte :=
  elementBytes lp pt.x ++ elementBytes lp pt.y

/-- `CURVE(F)` (30_encoding.md R88). -/
def curveBytes (lp : Nat) (c : CurveFields) : List Byte :=
  elementBytes lp c.a ++ elementBytes lp c.b ++ prefixedBytes c.ord

/-- `EXTHDR` (30_encoding.md R88). -/
def extBytes (lp : Nat) (h : ExtHeader) : List Byte :=
  byteOf h.deg :: natToBytes h.nr lp

/-- `SCALAR` in `lq` bytes (30_encoding.md R86). -/
def scalarBytes (c : CurveFields) (e : Nat) : List Byte :=
  natToBytes e c.ord.length

/-- `COUNT`, then the `(point, scalar)` entries (30_encoding.md R92, R95). -/
def mexpListBytes (lp : Nat) (c : CurveFields) (list : List (PointFields × Nat)) : List Byte :=
  byteOf list.length :: list.flatMap (fun pe => pointFieldBytes lp pe.1 ++ scalarBytes c pe.2)

/-- `PAIR(F2)` (30_encoding.md R88). -/
def pairBytes (lp : Nat) (pr : PairFields) : List Byte :=
  byteOf pr.chk1 :: (pointFieldBytes lp pr.p ++ byteOf pr.chk2 :: pointFieldBytes lp pr.q)

/-- `COUNT`, then the pairs (30_encoding.md R96, R98). -/
def pairsBytes (lp : Nat) (prs : List PairFields) : List Byte :=
  byteOf prs.length :: prs.flatMap (pairBytes lp)

/-- Fields 4 to 11 of a BLS12 or BN call (30_encoding.md R96). -/
def twistedBytes (lp : Nat) (t : TwistedFields) : List Byte :=
  extBytes lp t.ext ++ elementBytes lp t.xi ++ byteOf t.twist :: prefixedBytes t.loop
    ++ byteOf t.neg :: pairsBytes lp t.pairs

/-- Fields 4 to 12 of an MNT call (30_encoding.md R98). -/
def mntBytes (lp : Nat) (t : MntFields) : List Byte :=
  extBytes lp t.ext ++ prefixedBytes t.loop ++ byteOf t.neg :: prefixedBytes t.w0
    ++ prefixedBytes t.w1 ++ byteOf t.w0Neg :: pairsBytes lp t.pairs

/-- The instruction a call runs. -/
def Call.instr : Call → Instr
  | .g1add .. => .g1add
  | .g1mul .. => .g1mul
  | .g1mexp .. => .g1mexp
  | .g2add .. => .g2add
  | .g2mul .. => .g2mul
  | .g2mexp .. => .g2mexp
  | .bls12 .. => .bls12
  | .bn .. => .bn
  | .mnt4 .. => .mnt4
  | .mnt6 .. => .mnt6

/-- The bytes after byte 0 of a call. -/
def callPayload : Call → List Byte
  | .g1add mb c p1 p2 =>
    prefixedBytes mb ++ curveBytes mb.length c ++ pointFieldBytes mb.length p1 ++ pointFieldBytes mb.length p2
  | .g1mul mb c pt e =>
    prefixedBytes mb ++ curveBytes mb.length c ++ pointFieldBytes mb.length pt ++ scalarBytes c e
  | .g1mexp mb c list => prefixedBytes mb ++ curveBytes mb.length c ++ mexpListBytes mb.length c list
  | .g2add mb h c p1 p2 =>
    prefixedBytes mb ++ extBytes mb.length h ++ curveBytes mb.length c
      ++ pointFieldBytes mb.length p1 ++ pointFieldBytes mb.length p2
  | .g2mul mb h c pt e =>
    prefixedBytes mb ++ extBytes mb.length h ++ curveBytes mb.length c
      ++ pointFieldBytes mb.length pt ++ scalarBytes c e
  | .g2mexp mb h c list =>
    prefixedBytes mb ++ extBytes mb.length h ++ curveBytes mb.length c ++ mexpListBytes mb.length c list
  | .bls12 mb c t => prefixedBytes mb ++ curveBytes mb.length c ++ twistedBytes mb.length t
  | .bn mb c t => prefixedBytes mb ++ curveBytes mb.length c ++ twistedBytes mb.length t
  | .mnt4 mb c t => prefixedBytes mb ++ curveBytes mb.length c ++ mntBytes mb.length t
  | .mnt6 mb c t => prefixedBytes mb ++ curveBytes mb.length c ++ mntBytes mb.length t

/-- The opcode of a call (30_encoding.md R100). -/
def Call.opcode : Call → Byte
  | .g1add .. => 0x01
  | .g1mul .. => 0x02
  | .g1mexp .. => 0x03
  | .g2add .. => 0x04
  | .g2mul .. => 0x05
  | .g2mexp .. => 0x06
  | .bls12 .. => 0x07
  | .bn .. => 0x08
  | .mnt4 .. => 0x09
  | .mnt6 .. => 0x0a

/-- The input buffer of a call, byte 0 first (30_encoding.md R90 to R99). -/
def encodeCall (c : Call) : List Byte :=
  c.opcode :: callPayload c

/-! The host's view: an instruction as a number, bit 0 the least significant bit of its first word. -/

/-- The code whose first `nbits` bits are `w`: a row of 8 bits is a tape byte, a wider one a selector word, followed by
zero words. -/
def tableCode (nbits w : Nat) : Code :=
  if nbits ≤ 8 then .tape (BitVec.ofNat 8 w) else .port (BitVec.ofNat 16 w :: List.replicate 16 0)

/-- The instruction the decoder reads from a table row's word (the host's question). -/
def decodeTableWord (nbits w : Nat) : Option Instr :=
  match decode (tableCode nbits w) with
  | .ok i => some i
  | .error _ => none

end Sys2Proof
end

