-- ==== Sys2Proof/Machine/Fetch.lean ====
section
/-! DEFINITION. Where the next instruction comes from: the unit port when it holds words (log 3), and otherwise byte 0 of
the input tape at the start of a call (45_dispatcher.md R380). -/

namespace Sys2Proof.Machine

/-- A step ends without an instruction: the error, fault or refusal (60_exceptions.md R420). -/
def stopped (p : Stop) (t : State) : Host.Outcome State Fault Refusal :=
  match p with
  | .raise e => .next (t.raiseErr e)
  | .fault f => .fault f
  | .refuse r => .refused r

/-- The refusal of port words that are no instruction. -/
def portRefusal : DecodeErr → Refusal
  | .unknownSelector => .unknownSelector
  | .badOpcode => .malformedCommand
  | .truncated => .malformedCommand
  | .badField => .malformedCommand
  | .trailing => .malformedCommand

/-- The instruction a step runs and the state it runs on, or how the step ends without one. With words at the port: the
unit operation they are, the port emptied. With none: the reset of the call state, the read of byte 0 and the operation it
selects, `E_SHORT` on an empty buffer and `E_OPCODE` for any other byte (45_dispatcher.md R380). -/
def fetch (s : State) : Except (Host.Outcome State Fault Refusal) (Instr × State) :=
  if s.port.isEmpty then
    match readByte s.resetCall with
    | .error p t => .error (stopped p t)
    | .ok v t =>
      match decode (.tape (BitVec.ofNat 8 v)) with
      | .ok i => .ok (i, t)
      | .error _ => .error (stopped (.raise .opcode) t)
  else
    match decode (.port s.port) with
    | .ok i => .ok (i, s.clearPort)
    | .error e => .error (.refused (portRefusal e))

/-- Place code where the next step fetches it: a tape byte as a buffer the host presents (byte 0, then zero bytes), port
words at the port. -/
def placeCode (s : State) : Code → State
  | .tape op => { s with inp := Memory.ofBytes (op :: List.replicate 16 0), port := [] }
  | .port ws => { s with port := ws }

end Sys2Proof.Machine
end

