-- ==== Sys2Proof/Machine/Step.lean ====
section
/-! DEFINITION. One step: a whole call, or one unit operation of the port (log 3). -/

namespace Sys2Proof.Machine

/-- Fetch an instruction and run it. -/
def step (s : State) : Host.Outcome State Fault Refusal :=
  match fetch s with
  | .error o => o
  | .ok it => exec it.1 it.2

/-- The state with an instruction's word where the next step fetches it: a row of 8 bits is byte 0 of a buffer the host
presents, a wider one stands at the unit port, zero words after it (log 2, log 3). -/
def State.withFetchWord (s : State) (nbits w : Nat) : State :=
  placeCode s (tableCode nbits w)

end Sys2Proof.Machine
end

