-- ==== Sys2Proof/Safety.lean ====
section
/-! DEFINITION. The terms claims use: which blocks, levels and operands a state holds, what an operation may leave changed,
what a legal state is, and when the input of a call is accepted and what bytes it then gives. -/

namespace Sys2Proof.Machine

/-! ## Operands in the slots -/

/-- An element of `F` stands in the slots from `a` (10_state.md R24). -/
def ElemAt {α : Type} (s : State) (F : Fld α) (a : Nat) (v : α) : Prop :=
  ∃ vs, regGetGroup s.slots a F.deg = .ok vs ∧ F.ofCoords vs = v

/-- A point stands in the slots from `a` (10_state.md R25). -/
def PtAt {α : Type} (s : State) (F : Fld α) (a : Nat) (p : Pt α) : Prop :=
  ElemAt s F a p.x ∧ ElemAt s F (a + F.deg) p.y ∧ ElemAt s F (a + 2 * F.deg) p.z

/-- An affine pair stands in the slots from `a`. -/
def XYAt {α : Type} (s : State) (F : Fld α) (a : Nat) (q : α × α) : Prop :=
  ElemAt s F a q.1 ∧ ElemAt s F (a + F.deg) q.2

/-- A point `(X, Y, Z, T)` stands in the slots from `a` (10_state.md R26). -/
def Pt4At {α : Type} (s : State) (F : Fld α) (a : Nat) (p : Pt4 α) : Prop :=
  ElemAt s F a p.x ∧ ElemAt s F (a + F.deg) p.y ∧ ElemAt s F (a + 2 * F.deg) p.z ∧ ElemAt s F (a + 3 * F.deg) p.t

/-- Points stand one after another from `a`. -/
def PtsAt {α : Type} (s : State) (F : Fld α) : Nat → List (Pt α) → Prop
  | _, [] => True
  | a, p :: ps => PtAt s F a p ∧ PtsAt s F (a + 3 * F.deg) ps

/-- Pairs stand one after another from `a`, each `px`, `py`, `qx`, `qy` (43_pairing.md R263; log 9). -/
def PairsAt {α : Type} (s : State) (F : Fld α) : Nat → List (MillerPair α Unit) → Prop
  | _, [] => True
  | a, m :: ms =>
    regGet a s.slots = some m.px ∧ regGet (a + 1) s.slots = some m.py ∧ XYAt s F (a + 2) (m.qx, m.qy)
      ∧ PairsAt s F (a + 2 + 2 * F.deg) ms

/-- The slots from `a` are written with the base-field coordinates `vs`, and nothing else changes. -/
def State.store (s : State) (a : Nat) (vs : List Nat) : State := s.setSlots (regSetGroup a vs s.slots)

/-- The base-field coordinates of a point. -/
def ptCoords {α : Type} (F : Fld α) (p : Pt α) : List Nat := F.coords p.x ++ F.coords p.y ++ F.coords p.z

/-- The base-field coordinates of a point `(X, Y, Z, T)`. -/
def pt4Coords {α : Type} (F : Fld α) (p : Pt4 α) : List Nat :=
  F.coords p.x ++ F.coords p.y ++ F.coords p.z ++ F.coords p.t

/-! ## Which blocks a state holds -/

/-- Level `l` of the state is the tower `t`: the blocks of the level and of those below it exist. -/
inductive LevelIs (s : State) : Level → (α : Type) → Tow α → Prop
  | fq2 (f : PrimeField) (e2 : ExtField) : s.pf = some f → s.ex.fq2 = some e2 →
      LevelIs s .fq2 E2 (towFq2 f s.freeCtr e2)
  | fq3 (f : PrimeField) (e3 : ExtField) : s.pf = some f → s.ex.fq3 = some e3 →
      LevelIs s .fq3 E3 (towFq3 f s.freeCtr e3)
  | fq4 (f : PrimeField) (e2 e4 : ExtField) : s.pf = some f → s.ex.fq2 = some e2 → s.ex.fq4 = some e4 →
      LevelIs s .fq4 E4 (towFq4 f s.freeCtr e2 e4)
  | fq6c (f : PrimeField) (e2 e6 : ExtField) : s.pf = some f → s.ex.fq2 = some e2 → s.ex.fq6c = some e6 →
      LevelIs s .fq6c E6 (towFq6c f s.freeCtr e2 e6)
  | fq6q (f : PrimeField) (e3 e6 : ExtField) : s.pf = some f → s.ex.fq3 = some e3 → s.ex.fq6q = some e6 →
      LevelIs s .fq6q E6q (towFq6q f s.freeCtr e3 e6)
  | fq12 (f : PrimeField) (e2 e6 e12 : ExtField) : s.pf = some f → s.ex.fq2 = some e2 → s.ex.fq6c = some e6 →
      s.ex.fq12 = some e12 → LevelIs s .fq12 E12 (towFq12 f s.freeCtr e2 e6 e12)

/-- Group `g` of the state is the block `c` over the field `F` (10_state.md R34). -/
inductive GroupIs (s : State) : Group → (α : Type) → Fld α → CurveGroup → Prop
  | g1 (f : PrimeField) (c : CurveGroup) : s.pf = some f → s.cg1 = some c → c.field = .fp →
      GroupIs s .g1 Nat (fpFld f) c
  | g2 (l : Level) (α : Type) (t : Tow α) (c : CurveGroup) : s.cg2 = some c → c.field = .level l → LevelIs s l α t →
      GroupIs s .g2 α t.fld c

/-- The engine is a BN (`isBn`) or BLS12 engine with the tower `t`. -/
def TwistedIs (s : State) (t : BnTower) (pe : Engine) (isBn : Bool) : Prop :=
  s.pe = some pe ∧ pe.family = (if isBn then Family.bn else Family.bls12) ∧
  ∃ f e2 e6 e12, s.pf = some f ∧ s.ex.fq2 = some e2 ∧ s.ex.fq6c = some e6 ∧ s.ex.fq12 = some e12 ∧
    t = { p := f.p
          t2 := towFq2 f s.freeCtr e2
          t6 := towFq6c f s.freeCtr e2 e6
          t12 := towFq12 f s.freeCtr e2 e6 e12
          xi := (towFq2 f s.freeCtr e2).fld.ofCoords e6.nonResidue }

/-- The towers of `FQ2`, `FQ6C`, `FQ12` exist, whatever the engine (41_extension_tower.md R214 to R216). -/
def TowerIs (s : State) (t : BnTower) : Prop :=
  ∃ f e2 e6 e12, s.pf = some f ∧ s.ex.fq2 = some e2 ∧ s.ex.fq6c = some e6 ∧ s.ex.fq12 = some e12 ∧
    t = { p := f.p
          t2 := towFq2 f s.freeCtr e2
          t6 := towFq6c f s.freeCtr e2 e6
          t12 := towFq12 f s.freeCtr e2 e6 e12
          xi := (towFq2 f s.freeCtr e2).fld.ofCoords e6.nonResidue }

/-- The engine is an MNT engine with the tower `t`: MNT4 over `FQ2` and `FQ4`, MNT6 over `FQ3` and `FQ6Q`. -/
inductive MntIs (s : State) : (α : Type) → MntTower α → Engine → Prop
  | mnt4 (f : PrimeField) (e2 e4 : ExtField) (c : CurveGroup) (pe : Engine) (tw twInv : List Nat) :
      s.pf = some f → s.ex.fq2 = some e2 → s.ex.fq4 = some e4 → s.cg2 = some c → c.field = .level .fq2 →
      s.pe = some pe → pe.family = .mnt4 → pe.tw = some tw → pe.twInv = some twInv →
      MntIs s E2 { te := towFq2 f s.freeCtr e2
                   tt := towFq4 f s.freeCtr e2 e4
                   tw := (towFq2 f s.freeCtr e2).fld.ofCoords tw
                   twInv := (towFq2 f s.freeCtr e2).fld.ofCoords twInv
                   a' := (towFq2 f s.freeCtr e2).fld.ofCoords c.a
                   isMnt6 := false } pe
  | mnt6 (f : PrimeField) (e3 e6 : ExtField) (c : CurveGroup) (pe : Engine) (tw twInv : List Nat) :
      s.pf = some f → s.ex.fq3 = some e3 → s.ex.fq6q = some e6 → s.cg2 = some c → c.field = .level .fq3 →
      s.pe = some pe → pe.family = .mnt6 → pe.tw = some tw → pe.twInv = some twInv →
      MntIs s E3 { te := towFq3 f s.freeCtr e3
                   tt := towFq6q f s.freeCtr e3 e6
                   tw := (towFq3 f s.freeCtr e3).fld.ofCoords tw
                   twInv := (towFq3 f s.freeCtr e3).fld.ofCoords twInv
                   a' := (towFq3 f s.freeCtr e3).fld.ofCoords c.a
                   isMnt6 := true } pe

/-! ## Legal states -/

/-- A `PF` block as its constructor leaves it (10_state.md R31, 40_prime_field.md R130). -/
def PrimeField.legal (f : PrimeField) : Bool :=
  f == PrimeField.ofModulus f.p f.lp && f.p % 2 == 1 && 3 < f.p && 1 ≤ f.lp && f.lp ≤ Config.maxModulusLen
    && 256 ^ (f.lp - 1) ≤ f.p && f.p < 256 ^ f.lp

/-- Every value below the modulus (10_state.md R21). -/
def belowModulus (p : Nat) (vs : List Nat) : Bool := vs.all (· < p)

/-- Every slot holds a legal element (10_state.md R21). -/
def slotsLegal (p : Nat) (rf : RegFile) : Bool := rf.all (fun e => e.2 < p)

/-- How many base-field coordinates an element of a level has (10_state.md R24). -/
def levelSlots : Level → Nat
  | .fq2 => 2
  | .fq3 => 3
  | .fq4 => 4
  | .fq6c => 6
  | .fq6q => 6
  | .fq12 => 12

/-! ## A call's input, accepted or not -/

/-- The `PF` block of a call. -/
def callField (mb : List Byte) : PrimeField := PrimeField.ofModulus (bytesToNat mb) mb.length

/-- An element from its plain coordinates (44_decoder.md R336). -/
def elemOf {α : Type} (f : PrimeField) (F : Fld α) (v : List Nat) : α := F.ofCoords (v.map f.toMont)

/-- A decoded point: `(0, 0)` is the identity (44_decoder.md R342). -/
def pointOf {α : Type} (f : PrimeField) (F : Fld α) (pt : PointFields) : Pt α :=
  if F.isZero (elemOf f F pt.x) && F.isZero (elemOf f F pt.y) then ptIdentity F
  else ptAffine F (elemOf f F pt.x) (elemOf f F pt.y)

/-- A point the decoder lets pass (44_decoder.md R342). -/
def pointPasses {α : Type} (f : PrimeField) (F : Fld α) (a b : α) (pt : PointFields) : Bool :=
  (F.isZero (elemOf f F pt.x) && F.isZero (elemOf f F pt.y))
    || ptOnCurve F a b (ptAffine F (elemOf f F pt.x) (elemOf f F pt.y))

/-- The bytes of a point result (45_dispatcher.md R393, R396). -/
def pointResult {α : Type} (f : PrimeField) (F : Fld α) (r : Pt α) : List Byte :=
  let xy := ptToAffine F r
  (F.coords xy.1).flatMap (fun v => natToBytes (f.fromMont v) f.lp)
    ++ (F.coords xy.2).flatMap (fun v => natToBytes (f.fromMont v) f.lp)

/-- The block of a decoded curve (44_decoder.md R339). -/
def groupOf {α : Type} (f : PrimeField) (F : Fld α) (field : FieldRef) (c : CurveFields) : CurveGroup :=
  { field := field, a := F.coords (elemOf f F c.a), b := F.coords (elemOf f F c.b), q := bytesToNat c.ord }

/-- The entries of a multi-exponentiation as points and scalars. -/
def entriesOf {α : Type} (f : PrimeField) (F : Fld α) (list : List (PointFields × Nat)) : List (Pt α × Nat) :=
  list.map (fun pe => (pointOf f F pe.1, pe.2))

/-- A pair as the engine receives it, none when it is dropped (44_decoder.md R350). -/
def pairOf {α : Type} (f : PrimeField) (F : Fld α) (pr : PairFields) : Option (MillerPair α Unit) :=
  let p := pointOf f (fpFld f) pr.p
  let q := pointOf f F pr.q
  if ptIsZero (fpFld f) p || ptIsZero F q then none
  else some { px := p.x, py := p.y, qx := q.x, qy := q.y, acc := () }

/-- The pairs the engine receives. -/
def pairsOf {α : Type} (f : PrimeField) (F : Fld α) (prs : List PairFields) : List (MillerPair α Unit) :=
  prs.filterMap (pairOf f F)

/-- A constructed level without tables. -/
def freshLevel (l : Level) (nr : List Nat) : ExtField :=
  { base := levelBase l, degree := levelDegree l, nonResidue := nr, frob1 := [], frob2 := [], frobValid := false }

/-- A level with its tables; a level whose tables cannot be computed keeps none. -/
def tabledLevel (l : Level) (nr : List Nat) (t : Option (List (List Nat) × List (List Nat))) : ExtField :=
  match t with
  | none => freshLevel l nr
  | some tt => { freshLevel l nr with frob1 := tt.1, frob2 := tt.2, frobValid := true }

/-- `FQ2` of a pairing call, its table computed (44_decoder.md R345, R351). -/
def callFq2 (f : PrimeField) (beta : Nat) : ExtField :=
  tabledLevel .fq2 [beta] (quadTables (frobTable (fpFld f) f.p beta 2 1 2))

/-- The twist of a twist byte: 1 is M, 2 is D (44_decoder.md R344). -/
def twistOf (b : Nat) : Twist := if b = 1 then .m else .d

/-- The multiplier of the twist: `ξ` for M, its inverse for D (44_decoder.md R344). -/
def twistFactor (F2 : Fld E2) (b : Nat) (xi : E2) : E2 := if b = 1 then xi else (F2.inv xi).2

/-- The blocks of a BLS12 or BN call after its header is read: `FQ2`, `FQ6C`, `FQ12` with their tables. -/
def twistedLevels (f : PrimeField) (beta : Nat) (xi : E2) : ExtField × ExtField × ExtField :=
  let e2 := callFq2 f beta
  let F2 := fq2Fld (fpFld f) beta
  let f1 := F2.exp xi ((f.p - 1) / 6)
  (e2,
   tabledLevel .fq6c (F2.coords xi) (preTablesFq6c (towFq2 f 0 e2) f.p f1),
   tabledLevel .fq12 ((fq6cFld F2 xi).coords (F2.zero, F2.one, F2.zero)) (quadTables (preTableFq12 (towFq2 f 0 e2) f.p f1)))

/-- The engine's tower in a BLS12 or BN call. -/
def twistedTower (f : PrimeField) (beta : Nat) (xi : E2) : BnTower :=
  let l := twistedLevels f beta xi
  { p := f.p
    t2 := towFq2 f 0 l.1
    t6 := towFq6c f 0 l.1 l.2.1
    t12 := towFq12 f 0 l.1 l.2.1 l.2.2
    xi := (towFq2 f 0 l.1).fld.ofCoords l.2.1.nonResidue }

/-- The G2 block of a BLS12 or BN call after the twist write (44_decoder.md R344). -/
def twistedGroup (F2 : Fld E2) (c1 : CurveGroup) (k : E2) : CurveGroup :=
  { field := .level .fq2
    a := F2.coords (F2.mul (F2.embed (c1.a.headD 0)) k)
    b := F2.coords (F2.mul (F2.embed (c1.b.headD 0)) k)
    q := c1.q }

/-- The result byte of a BLS12 or BN call: is the product of its pairs one (45_dispatcher.md R387, R388, R394). -/
def twistedResult (forceBinary : Bool) (mb : List Byte) (t : TwistedFields) (isBn : Bool) : Bool :=
  let f := callField mb
  let beta := f.toMont t.ext.nr
  let F2 := fq2Fld (fpFld f) beta
  let tower := twistedTower f beta (elemOf f F2 t.xi)
  let x := bytesToNat t.loop
  let xNeg := t.neg == 1
  let pe := twistedEngine forceBinary isBn (twistOf t.twist) x xNeg
  let v := bnMultiPair tower (twistOf t.twist) isBn (pe.digits.getD []) (if isBn then pe.loopNeg.getD false else xNeg) x xNeg
    (pairsOf f F2 t.pairs)
  tower.t12.fld.beq v tower.t12.fld.one

/-- The G2 block of an MNT call after the twist write (44_decoder.md R352). -/
def mntGroup {α : Type} (f : PrimeField) (F : Fld α) (l : Level) (c1 : CurveGroup) : CurveGroup :=
  let tw := F.generator f.one
  { field := .level l
    a := F.coords (F.scale (c1.a.headD 0) (F.mul tw tw))
    b := F.coords (F.scale (c1.b.headD 0) (F.mul (F.mul tw tw) tw))
    q := c1.q }

/-- The tower of an MNT engine from the levels of its call. -/
def mntTowerOf {α : Type} (f : PrimeField) (te : Tow α) (tt : Tow (α × α)) (l : Level) (c1 : CurveGroup) (isMnt6 : Bool) :
    MntTower α :=
  { te := te
    tt := tt
    tw := te.fld.ofCoords (te.fld.coords (te.fld.generator f.one))
    twInv := te.fld.ofCoords (te.fld.coords (te.fld.inv (te.fld.generator f.one)).2)
    a' := te.fld.ofCoords (mntGroup f te.fld l c1).a
    isMnt6 := isMnt6 }

/-- The tower of an MNT4 call, tables computed (44_decoder.md R351). -/
def mnt4Tower (f : PrimeField) (beta : Nat) (c1 : CurveGroup) : MntTower E2 :=
  let F2 := fq2Fld (fpFld f) beta
  let e2 := callFq2 f beta
  let e4 := tabledLevel .fq4 (F2.coords (F2.generator f.one)) (quadTables (frobTable (fpFld f) f.p beta 4 1 4))
  mntTowerOf f (towFq2 f 0 e2) (towFq4 f 0 e2 e4) .fq2 c1 false

/-- The tower of an MNT6 call, tables computed (44_decoder.md R351). -/
def mnt6Tower (f : PrimeField) (beta : Nat) (c1 : CurveGroup) : MntTower E3 :=
  let F3 := fq3Fld (fpFld f) beta
  let e3 := tabledLevel .fq3 [beta]
    (cubicTables (frobTable (fpFld f) f.p beta 3 1 3) (frobTable (fpFld f) f.p beta 3 2 3))
  let e6 := tabledLevel .fq6q (F3.coords (F3.generator f.one)) (quadTables (frobTable (fpFld f) f.p beta 6 1 6))
  mntTowerOf f (towFq3 f 0 e3) (towFq6q f 0 e3 e6) .fq3 c1 true

/-- The result byte of an MNT call: is the product of its pairs one (45_dispatcher.md R389, R390, R394). -/
def mntResult {α : Type} (f : PrimeField) (tower : MntTower α) (t : MntFields) : Bool :=
  let v := mntMultiPair tower (bytesToNat t.loop) (t.neg == 1) (bytesToNat t.w0) (bytesToNat t.w1) (t.w0Neg == 1)
    (pairsOf f tower.te.fld t.pairs)
  tower.tt.fld.beq v tower.tt.fld.one

/-- The result byte (45_dispatcher.md R394). -/
def oneByte (b : Bool) : List Byte := [if b then 0x01 else 0x00]

/-- What a G2 call works in: the field of its extension header (45_dispatcher.md R384). -/
def withExt {β : Type} (f : PrimeField) (h : ExtHeader) (k : {α : Type} → Fld α → β) : β :=
  if h.deg = 2 then k (fq2Fld (fpFld f) (f.toMont h.nr)) else k (fq3Fld (fpFld f) (f.toMont h.nr))

/-! ### The checks of the decoder, in order

A call's checks are a list in the order of 44_decoder.md R357, and inside a step in the order of its pseudocode (R358): the
first that fails is the error of the call. -/

/-- Checks in order, each with the error it raises. -/
abbrev Checks := List (Bool × Err)

/-- The error of the first check that fails (44_decoder.md R358). -/
def firstError : Checks → Option Err
  | [] => none
  | (ok, e) :: cs => if ok then firstError cs else some e

/-- `DEC.BASE` (44_decoder.md R330, R331). -/
def modulusChecks (mb : List Byte) : Checks :=
  [(mb.length != 0, .zeroLen), (mb.length ≤ 128, .lenBound), (mb.headD 0 != 0, .noncanon),
   (bytesToNat mb % 2 == 1, .modEven), (!(mb.length == 1 && bytesToNat mb ≤ 3), .modSmall)]

/-- `DEC.FE` of each coordinate (44_decoder.md R335, R336). -/
def elemChecks (f : PrimeField) (v : List Nat) : Checks := v.map (fun x => (decide (x < f.p), .feRange))

/-- `DEC.ORDER` (44_decoder.md R338). -/
def orderChecks (ob : List Byte) : Checks :=
  [(ob.length != 0, .zeroLen), (ob.length ≤ 128, .lenBound), (bytesToNat ob != 0, .orderZero)]

/-- `DEC.CURVE(F)` (44_decoder.md R337). -/
def curveChecks (f : PrimeField) (c : CurveFields) : Checks :=
  elemChecks f c.a ++ elemChecks f c.b ++ orderChecks c.ord

/-- `DEC.EXTHDR(allowed, n)` (44_decoder.md R340). -/
def extChecks (f : PrimeField) (allowed : List Nat) (n : Nat) (h : ExtHeader) : Checks :=
  [(allowed.contains h.deg, .extDegree), (h.nr < f.p, .feRange), (h.nr != 0, .nonres), (f.nres (f.toMont h.nr) n, .nonres)]

/-- `DEC.POINT(g)` (44_decoder.md R342). -/
def pointChecks {α : Type} (f : PrimeField) (F : Fld α) (a b : α) (pt : PointFields) : Checks :=
  elemChecks f pt.x ++ elemChecks f pt.y ++ [(pointPasses f F a b pt, .notOnCurve)]

/-- `DEC.SCALAR(g)` (44_decoder.md R343). -/
def scalarChecks (c : CurveFields) (e : Nat) : Checks := [(e < bytesToNat c.ord, .scalarRange)]

/-- `DEC.LOOP` (44_decoder.md R346, R353). -/
def loopChecks (bs : List Byte) : Checks :=
  [(bs.length != 0, .zeroLen), (bs.headD 0 != 0, .noncanon), (bitlen (bytesToNat bs) ≤ 2032, .loopBits)]

/-- `ReadFlag` (44_decoder.md R324, R347, R354). -/
def flagChecks (v : Nat) : Checks := [(v ≤ 1, .flag)]

/-- `DEC.COUNT` (44_decoder.md R349). -/
def countChecks (n : Nat) : Checks := [(n != 0, .zeroLen)]

/-- `DEC.MEXP_LIST(g)` (44_decoder.md R355). -/
def mexpChecks {α : Type} (f : PrimeField) (F : Fld α) (c : CurveFields) (list : List (PointFields × Nat)) : Checks :=
  countChecks list.length ++ list.flatMap (fun pe =>
    pointChecks f F (elemOf f F c.a) (elemOf f F c.b) pe.1 ++ scalarChecks c pe.2)

/-- `DEC.XI` (44_decoder.md R341). -/
def xiChecks (f : PrimeField) (F2 : Fld E2) (v : List Nat) : Checks :=
  let xi := elemOf f F2 v
  elemChecks f v ++ [(!F2.isZero xi, .nonres), ((f.p ^ 2 - 1) % 6 == 0, .nonres),
    (!F2.beq (F2.exp xi ((f.p ^ 2 - 1) / 6)) F2.one, .nonres)]

/-- `DEC.TWIST` (44_decoder.md R344). -/
def twistChecks (F2 : Fld E2) (b : Nat) (xi : E2) : Checks :=
  [(b == 1 || b == 2, .twist), (b == 1 || (F2.inv xi).1, .twist)]

/-- `DEC.TOWER` (44_decoder.md R345: `E_FROB` exactly when 6 does not divide `p - 1`). -/
def towerChecks (f : PrimeField) : Checks := [((f.p - 1) % 6 == 0, .frob)]

/-- `DEC.BN_WEIGHT` (44_decoder.md R348). -/
def weightChecks (loop : List Byte) (neg : Nat) : Checks :=
  [(hammingWeight (bnLoopValue (bytesToNat loop) (neg == 1)).natAbs ≤ 128, .loopWeight)]

/-- One pair of `DEC.PAIRS` (44_decoder.md R350). -/
def pairChecks {α : Type} (f : PrimeField) (c1 : CurveGroup) (F : Fld α) (c2 : CurveGroup) (pr : PairFields) : Checks :=
  let F1 := fpFld f
  flagChecks pr.chk1 ++ pointChecks f F1 (F1.ofCoords c1.a) (F1.ofCoords c1.b) pr.p
    ++ [(pr.chk1 == 0 || ptSubgroupCheck F1 (F1.ofCoords c1.a) c1.q (pointOf f F1 pr.p), .subgroup)]
    ++ flagChecks pr.chk2 ++ pointChecks f F (F.ofCoords c2.a) (F.ofCoords c2.b) pr.q
    ++ [(pr.chk2 == 0 || ptSubgroupCheck F (F.ofCoords c2.a) c2.q (pointOf f F pr.q), .subgroup)]

/-- `COUNT`, `PAIRS` (44_decoder.md R349, R350). -/
def pairsChecks {α : Type} (f : PrimeField) (c1 : CurveGroup) (F : Fld α) (c2 : CurveGroup) (prs : List PairFields) :
    Checks :=
  countChecks prs.length ++ prs.flatMap (pairChecks f c1 F c2)

/-- The steps of a BLS12 or BN call (44_decoder.md R357). -/
def twistedChecks (mb : List Byte) (c : CurveFields) (t : TwistedFields) (isBn : Bool) : Checks :=
  let f := callField mb
  let F2 := fq2Fld (fpFld f) (f.toMont t.ext.nr)
  let xi := elemOf f F2 t.xi
  let c1 := groupOf f (fpFld f) .fp c
  modulusChecks mb ++ curveChecks f c ++ extChecks f [2] 2 t.ext ++ xiChecks f F2 t.xi ++ twistChecks F2 t.twist xi
    ++ towerChecks f ++ loopChecks t.loop ++ flagChecks t.neg ++ (if isBn then weightChecks t.loop t.neg else [])
    ++ pairsChecks f c1 F2 (twistedGroup F2 c1 (twistFactor F2 t.twist xi)) t.pairs

/-- The steps of an MNT call, `F` the field of its G2, `d` the degree of `F`, `n` the residue degree (44_decoder.md R357). -/
def mntChecks {α : Type} (mb : List Byte) (F : Fld α) (l : Level) (d n : Nat) (c : CurveFields) (t : MntFields) : Checks :=
  let f := callField mb
  let c1 := groupOf f (fpFld f) .fp c
  modulusChecks mb ++ curveChecks f c ++ extChecks f [d] n t.ext ++ loopChecks t.loop ++ flagChecks t.neg
    ++ loopChecks t.w0 ++ loopChecks t.w1 ++ flagChecks t.w0Neg ++ pairsChecks f c1 F (mntGroup f F l c1) t.pairs

/-- The field of the curve's points, checked up to and with the curve, in a G1 call. -/
def g1Checks (mb : List Byte) (c : CurveFields) (rest : (f : PrimeField) → Checks) : Checks :=
  modulusChecks mb ++ curveChecks (callField mb) c ++ rest (callField mb)

/-- The same for a G2 call, over the field of its extension header. -/
def g2Checks (mb : List Byte) (h : ExtHeader) (c : CurveFields) (rest : {α : Type} → PrimeField → Fld α → Checks) : Checks :=
  let f := callField mb
  modulusChecks mb ++ extChecks f [2, 3] h.deg h ++ curveChecks f c ++ withExt f h (fun F => rest f F)

/-- Every check of a call, in order (44_decoder.md R357). The length of the buffer and `END` are not among them: a buffer that
is exactly a call has neither too few bytes nor too many. -/
def callChecks : Call → Checks
  | .g1add mb c p1 p2 => g1Checks mb c (fun f =>
      let F := fpFld f
      pointChecks f F (elemOf f F c.a) (elemOf f F c.b) p1 ++ pointChecks f F (elemOf f F c.a) (elemOf f F c.b) p2)
  | .g1mul mb c p e => g1Checks mb c (fun f =>
      let F := fpFld f
      pointChecks f F (elemOf f F c.a) (elemOf f F c.b) p ++ scalarChecks c e)
  | .g1mexp mb c list => g1Checks mb c (fun f => mexpChecks f (fpFld f) c list)
  | .g2add mb h c p1 p2 => g2Checks mb h c (fun f F =>
      pointChecks f F (elemOf f F c.a) (elemOf f F c.b) p1 ++ pointChecks f F (elemOf f F c.a) (elemOf f F c.b) p2)
  | .g2mul mb h c p e => g2Checks mb h c (fun f F =>
      pointChecks f F (elemOf f F c.a) (elemOf f F c.b) p ++ scalarChecks c e)
  | .g2mexp mb h c list => g2Checks mb h c (fun f F => mexpChecks f F c list)
  | .bls12 mb c t => twistedChecks mb c t false
  | .bn mb c t => twistedChecks mb c t true
  | .mnt4 mb c t => mntChecks mb (fq2Fld (fpFld (callField mb)) ((callField mb).toMont t.ext.nr)) .fq2 2 4 c t
  | .mnt6 mb c t => mntChecks mb (fq3Fld (fpFld (callField mb)) ((callField mb).toMont t.ext.nr)) .fq3 3 6 c t

/-- Every check of the call passes. -/
def callPasses (c : Call) : Bool := (firstError (callChecks c)).isNone

/-- The bytes an accepted call gives (45_dispatcher.md R381 to R396). -/
def callResult (forceBinary : Bool) : Call → List Byte
  | .g1add mb c p1 p2 =>
    let f := callField mb
    let F := fpFld f
    pointResult f F (ptAdd F (elemOf f F c.a) (pointOf f F p1) (pointOf f F p2))
  | .g1mul mb c p e =>
    let f := callField mb
    let F := fpFld f
    pointResult f F (ptScalarMul F (elemOf f F c.a) (pointOf f F p) e)
  | .g1mexp mb c list =>
    let f := callField mb
    let F := fpFld f
    pointResult f F (ptMultiExp F (elemOf f F c.a) (bytesToNat c.ord) (entriesOf f F list))
  | .g2add mb h c p1 p2 =>
    let f := callField mb
    withExt f h (fun F => pointResult f F (ptAdd F (elemOf f F c.a) (pointOf f F p1) (pointOf f F p2)))
  | .g2mul mb h c p e =>
    let f := callField mb
    withExt f h (fun F => pointResult f F (ptScalarMul F (elemOf f F c.a) (pointOf f F p) e))
  | .g2mexp mb h c list =>
    let f := callField mb
    withExt f h (fun F => pointResult f F (ptMultiExp F (elemOf f F c.a) (bytesToNat c.ord) (entriesOf f F list)))
  | .bls12 mb _ t => oneByte (twistedResult forceBinary mb t false)
  | .bn mb _ t => oneByte (twistedResult forceBinary mb t true)
  | .mnt4 mb c t =>
    let f := callField mb
    oneByte (mntResult f (mnt4Tower f (f.toMont t.ext.nr) (groupOf f (fpFld f) .fp c)) t)
  | .mnt6 mb c t =>
    let f := callField mb
    oneByte (mntResult f (mnt6Tower f (f.toMont t.ext.nr) (groupOf f (fpFld f) .fp c)) t)

/-- What stands after a call that ends ok with the bytes `bs`: `RES`, `OUT`, `CUR.OFF = IN_LEN` (10_state.md R28), what the
host presented, the port and the free-value counter of the model; everything else is as the reset of a call leaves it
(10_state.md R45, 60_exceptions.md R446). -/
def State.okWith (s : State) (bs : List Byte) : State :=
  { s.resetCall with res := .ok, out := Memory.ofBytes bs, cur := { Cursor.initial with off := s.inp.len } }

/-- What stands after a call that ends with the error `e`: the same with `RES` the error and no output (60_exceptions.md
R420). -/
def State.errorWith (s : State) (e : Err) : State := { s.resetCall with res := .error e }

/-! ## Operands and blocks of single operations -/

/-- The field a new group lies over exists (42_curve_group.md R220). -/
inductive FieldIs (s : State) : CurveField → (α : Type) → Fld α → Prop
  | fp (f : PrimeField) : s.pf = some f → FieldIs s .fp Nat (fpFld f)
  | fq2 (t : Tow E2) : LevelIs s .fq2 E2 t → FieldIs s .fq2 E2 t.fld
  | fq3 (t : Tow E3) : LevelIs s .fq3 E3 t → FieldIs s .fq3 E3 t.fld

/-- A coefficient operand: zero for nil, an element in slots otherwise (42_curve_group.md R220). -/
def CoeffAt {α : Type} (s : State) (F : Fld α) (o : Option Nat) (v : α) : Prop :=
  match o with
  | none => v = F.zero
  | some a => ElemAt s F a v

/-- The level below `l` exists (41_extension_tower.md R172). -/
def BaseExists (s : State) (l : Level) : Prop :=
  s.pf.isSome = true ∧
  match levelBase l with
  | .fp => True
  | .level b => (s.ex.get b).isSome = true

/-- The tables `CALC_FROB` computes at a level, none when a division is not exact (41_extension_tower.md R184, R192, R198,
R202, R207, R212). -/
inductive TablesOf (s : State) : Level → Option (List (List Nat) × List (List Nat)) → Prop
  | fq2 (f : PrimeField) (e2 : ExtField) : s.pf = some f → s.ex.fq2 = some e2 →
      TablesOf s .fq2 (quadTables (frobTable (fpFld f) f.p (e2.nonResidue.headD 0) 2 1 2))
  | fq3 (f : PrimeField) (e3 : ExtField) : s.pf = some f → s.ex.fq3 = some e3 →
      TablesOf s .fq3 (cubicTables (frobTable (fpFld f) f.p (e3.nonResidue.headD 0) 3 1 3)
        (frobTable (fpFld f) f.p (e3.nonResidue.headD 0) 3 2 3))
  | fq4 (f : PrimeField) (e2 : ExtField) : s.pf = some f → s.ex.fq2 = some e2 →
      TablesOf s .fq4 (quadTables (frobTable (fpFld f) f.p (e2.nonResidue.headD 0) 4 1 4))
  | fq6c (f : PrimeField) (e2 e6 : ExtField) (t : Tow E2) : s.pf = some f → LevelIs s .fq2 E2 t → s.ex.fq2 = some e2 →
      s.ex.fq6c = some e6 →
      TablesOf s .fq6c (cubicTables (frobTable t.fld f.p (t.fld.ofCoords e6.nonResidue) 3 1 6)
        (frobTable t.fld f.p (t.fld.ofCoords e6.nonResidue) 3 2 6))
  | fq6q (f : PrimeField) (e3 : ExtField) : s.pf = some f → s.ex.fq3 = some e3 →
      TablesOf s .fq6q (quadTables (frobTable (fpFld f) f.p (e3.nonResidue.headD 0) 6 1 6))
  | fq12 (f : PrimeField) (e2 e6 : ExtField) (t : Tow E2) : s.pf = some f → LevelIs s .fq2 E2 t → s.ex.fq2 = some e2 →
      s.ex.fq6c = some e6 →
      TablesOf s .fq12 (quadTables (frobTable t.fld f.p (t.fld.ofCoords e6.nonResidue) 6 1 12))

/-- The state after tables are computed, or after they could not be (41_extension_tower.md R177). -/
def State.withTables (s : State) (l : Level) (e : ExtField) (t : Option (List (List Nat) × List (List Nat))) : State :=
  match t with
  | none => s.setFlags { s.flags with frobOk := some false }
  | some tt =>
    (s.setEX l { e with frob1 := tt.1, frob2 := tt.2, frobValid := true }).setFlags { s.flags with frobOk := some true }

/-- The tables `CALC_FROB_PRE` computes (41_extension_tower.md R203, R213). -/
def preTablesOf (T2 : Tow E2) (p : Nat) (l : PreLevel) (f1 : E2) : Option (List (List Nat) × List (List Nat)) :=
  match l with
  | .fq6c => preTablesFq6c T2 p f1
  | .fq12 => quadTables (preTableFq12 T2 p f1)

/-- The free-value counter moves on when tables an operation asked for were not there (log 5). -/
def State.noted (s : State) (valid : Bool) : State := if valid then s else s.bumpFree

/-- The value of signed binary digits, most significant first. -/
def digitsValue (ds : List Int) : Int := ds.foldl (fun acc d => 2 * acc + d) 0

/-- Non-zero digits are odd, below `2^(w-1)` in magnitude, and each is followed by at least `w - 1` zeros (least
significant first) (42_curve_group.md R236). -/
def WnafForm (w : Nat) (ds : List Int) : Prop :=
  ∀ i, ds.getD i 0 ≠ 0 →
    ds.getD i 0 % 2 = 1 ∧ (ds.getD i 0).natAbs < 2 ^ (w - 1) ∧ ∀ j, i < j → j < i + w → ds.getD j 0 = 0

/-- Nothing of a call stands but `RES`, `OUT` and `CUR.OFF`: the other items of 10_state.md R45, and the model's byte register
(log 4), are unset (00_scope.md R6, 60_exceptions.md R446). -/
def State.idle (s : State) : Prop :=
  s.cur.fieldSet = false ∧ s.cur.lp = none ∧ s.cur.lq = none ∧ s.pf = none ∧ (∀ l, s.ex.get l = none) ∧ (∀ g, s.cg g = none) ∧ s.pe = none ∧
  s.flags = Flags.unset ∧ s.slots = [] ∧ s.ret = none

/-! ## Levels and curves as algebra -/

/-- An element whose coordinates are all below the modulus (10_state.md R21). -/
abbrev IsElem {α : Type} (F : Fld α) (p : Nat) (a : α) : Prop := belowModulus p (F.coords a) = true

/-- A level is a commutative ring on its elements, `EXP` its power, and `INVERSE` finds an inverse exactly where there is one;
where every non-zero element has one, the power is that of a field with `p^k` elements (41_extension_tower.md R173 to R176,
R219). -/
structure LevelLaws {α : Type} (F : Fld α) (p : Nat) : Prop where
  closed : ∀ a b, IsElem F p a → IsElem F p b → IsElem F p (F.add a b) ∧ IsElem F p (F.neg a) ∧ IsElem F p (F.mul a b)
  constants : IsElem F p F.zero ∧ IsElem F p F.one
  add_comm : ∀ a b, IsElem F p a → IsElem F p b → F.add a b = F.add b a
  add_assoc : ∀ a b c, IsElem F p a → IsElem F p b → IsElem F p c → F.add (F.add a b) c = F.add a (F.add b c)
  add_zero : ∀ a, IsElem F p a → F.add a F.zero = a
  add_neg : ∀ a, IsElem F p a → F.add a (F.neg a) = F.zero
  sub_eq : ∀ a b, IsElem F p a → IsElem F p b → F.sub a b = F.add a (F.neg b)
  dbl_eq : ∀ a, IsElem F p a → F.dbl a = F.add a a
  mul_comm : ∀ a b, IsElem F p a → IsElem F p b → F.mul a b = F.mul b a
  mul_assoc : ∀ a b c, IsElem F p a → IsElem F p b → IsElem F p c → F.mul (F.mul a b) c = F.mul a (F.mul b c)
  mul_add : ∀ a b c, IsElem F p a → IsElem F p b → IsElem F p c → F.mul a (F.add b c) = F.add (F.mul a b) (F.mul a c)
  mul_one : ∀ a, IsElem F p a → F.mul a F.one = a
  exp_zero : ∀ a, IsElem F p a → F.exp a 0 = F.one
  exp_succ : ∀ a e, IsElem F p a → F.exp a (e + 1) = F.mul (F.exp a e) a
  inv_true : ∀ a, IsElem F p a → ((F.inv a).1 = true ↔ ∃ b, IsElem F p b ∧ F.mul b a = F.one)
  inv_mul : ∀ a, IsElem F p a → (F.inv a).1 = true → IsElem F p (F.inv a).2 ∧ F.mul (F.inv a).2 a = F.one
  inv_false : ∀ a, IsElem F p a → (F.inv a).1 = false → (F.inv a).2 = F.zero
  exp_units : (∀ b, IsElem F p b → b ≠ F.zero → (F.inv b).1 = true) →
    ∀ a, IsElem F p a → a ≠ F.zero → F.exp a (p ^ F.deg - 1) = F.one

/-- `F` is `B` with an element whose square is `c` (41_extension_tower.md R170, R174). -/
def QuadraticOver {α : Type} (B : Fld α) (F : Fld (α × α)) (c : α) (p : Nat) : Prop :=
  ∀ a0 a1 b0 b1, IsElem B p a0 → IsElem B p a1 → IsElem B p b0 → IsElem B p b1 →
    F.mul (a0, a1) (b0, b1) =
      (B.add (B.mul a0 b0) (B.mul c (B.mul a1 b1)), B.add (B.mul a0 b1) (B.mul a1 b0))

/-- `F` is `B` with an element whose cube is `c` (41_extension_tower.md R170, R174). -/
def CubicOver {α : Type} (B : Fld α) (F : Fld (α × α × α)) (c : α) (p : Nat) : Prop :=
  ∀ a0 a1 a2 b0 b1 b2, IsElem B p a0 → IsElem B p a1 → IsElem B p a2 → IsElem B p b0 → IsElem B p b1 → IsElem B p b2 →
    F.mul (a0, a1, a2) (b0, b1, b2) =
      (B.add (B.mul a0 b0) (B.mul c (B.add (B.mul a1 b2) (B.mul a2 b1))),
       B.add (B.add (B.mul a0 b1) (B.mul a1 b0)) (B.mul c (B.mul a2 b2)),
       B.add (B.add (B.mul a0 b2) (B.mul a1 b1)) (B.mul a2 b0))

/-- Where its tables are computed, the map of a level is the power `p^n` (41_extension_tower.md R178, R219). -/
def FrobeniusIsThePower {α : Type} (t : Tow α) (p : Nat) : Prop :=
  t.valid = true → ∀ a n, IsElem t.fld p a → t.frob a n = t.fld.exp a (p ^ n)

/-- The fields a group may lie over when they are fields: `Fp`, `Fq2` when `β` is no square, `Fq3` when `β` is no cube
(10_state.md R34, 42_curve_group.md R249). -/
inductive CurveFieldOver (f : PrimeField) : (α : Type) → Fld α → Prop
  | fp : CurveFieldOver f Nat (fpFld f)
  | fq2 (β : Nat) : β < f.p → (¬ ∃ y, y ^ 2 % f.p = f.fromMont β) → CurveFieldOver f E2 (fq2Fld (fpFld f) β)
  | fq3 (β : Nat) : β < f.p → (¬ ∃ y, y ^ 3 % f.p = f.fromMont β) → CurveFieldOver f E3 (fq3Fld (fpFld f) β)

/-- A point whose coordinates are elements. -/
abbrev IsPt {α : Type} (F : Fld α) (p : Nat) (P : Pt α) : Prop := IsElem F p P.x ∧ IsElem F p P.y ∧ IsElem F p P.z

/-- `4a³ + 27b²` (42_curve_group.md R248). -/
def curveDiscriminant {α : Type} (F : Fld α) (a b : α) : α :=
  F.add (F.dbl (F.dbl (F.mul a (F.sq a)))) (F.triple (F.triple (F.triple (F.sq b))))

/-- The sum of the multiples of a list of points (42_curve_group.md R240). -/
def sumOfMultiples {α : Type} (F : Fld α) (a : α) (list : List (Pt α × Nat)) : Pt α :=
  list.foldl (fun acc pe => ptAdd F a acc (ptScalarMul F a pe.1 pe.2)) (ptIdentity F)

/-! ## Invariants -/

/-- Both tapes and the slot file are in canonical form. -/
def State.canonical (s : State) : Prop :=
  s.inp.wf = true ∧ s.out.wf = true ∧ regsCanonical 0 s.slots = true

/-- The field block is one a constructor writes, and every slot holds an element below its modulus; with no field no slot
is set (10_state.md R21, R31, R45). -/
def State.elementsLegal (s : State) : Prop :=
  match s.pf with
  | none => s.slots = []
  | some f => f.legal = true ∧ slotsLegal f.p s.slots = true

/-- Only an ok result comes with output bytes, and the cursor is inside the tape (10_state.md R28, R40, 20_memory.md R77). -/
def State.resultShape (s : State) : Prop :=
  (s.res ≠ .ok → s.out = Memory.empty) ∧ s.cur.off ≤ s.inp.len

/-- What no unit operation changes: the inputs, the cursor, and every constructed object, but for a level's tables while
they are not computed (10_state.md R44, 70_reset_and_hazards.md R475). -/
def ObjectsKept (s t : State) : Prop :=
  t.cfg = s.cfg ∧ t.inp = s.inp ∧ t.cur = s.cur ∧
  (∀ f, s.pf = some f → t.pf = some f) ∧
  (∀ l e, s.ex.get l = some e → ∃ e', t.ex.get l = some e' ∧ e'.base = e.base ∧ e'.degree = e.degree
    ∧ e'.nonResidue = e.nonResidue ∧ (e.frobValid = true → e' = e)) ∧
  (∀ g c, s.cg g = some c → t.cg g = some c) ∧
  (∀ e, s.pe = some e → t.pe = some e)

/-- Two states the next call cannot tell apart: the same input buffer and the same `CFG.force_binary`
(45_dispatcher.md R397). -/
def SameInput (s t : State) : Prop :=
  s.inp = t.inp ∧ s.cfg.forceBinary = t.cfg.forceBinary ∧ s.port = [] ∧ t.port = []

end Sys2Proof.Machine
end

