-- ==== Sys2Proof/Certificates/Slice0/Obligations.lean ====
section
/-! DEFINITION. The statements about the model of EIP1962-PAB. A statement that rests on a choice of the model says so
and names the log entry. -/

section

open Sys2Proof Sys2Proof.Machine

/-! ## Encoding -/

/-- Decoding an encoded well-formed instruction gives it back, with every operand at every value its code admits. The
operand words of the unit port are the model's own (log 3); the opcodes and selectors are those of R100 and R101. -/
def Obligations.DecodeEncodeRoundTrip : Prop :=
  ∀ i : Instr, i.wellFormed = true → decode (encode i) = .ok i

/-- Codes written out from R100 and R101 decode to their instructions (operand words: log 3). -/
def Obligations.DecodedWords : Prop :=
  decode (.tape 0x01) = .ok .g1add ∧
  decode (.tape 0x0a) = .ok .mnt6 ∧
  decode (.port [0x1002, 7, 8, 9]) = .ok (.pfAdd 7 8 9) ∧
  decode (.port [0x2006, 5, 0, 12, 24]) = .ok (.exMul .fq12 0 12 24) ∧
  decode (.port [0x3004, 1, 0, 6, 12]) = .ok (.cgAdd .g2 0 6 12) ∧
  decode (.port [0x4012, 1, 2, 3]) = .ok (.peDoublingStepMnt 1 2 3)

/-- R100 and R102: byte 0 selects the operation, the whole byte is the opcode, and every other byte is no operation. -/
def Obligations.OpcodeByteSelectsOperation : Prop :=
  ∀ op : Byte, decode (.tape op) =
    if op = 0x01 then .ok .g1add
    else if op = 0x02 then .ok .g1mul
    else if op = 0x03 then .ok .g1mexp
    else if op = 0x04 then .ok .g2add
    else if op = 0x05 then .ok .g2mul
    else if op = 0x06 then .ok .g2mexp
    else if op = 0x07 then .ok .bls12
    else if op = 0x08 then .ok .bn
    else if op = 0x09 then .ok .mnt4
    else if op = 0x0a then .ok .mnt6
    else .error .badOpcode

/-- The lengths of R90 to R99, for every call its format can write. -/
def Obligations.CallLengths : Prop :=
  ∀ c : Call, c.encodable = true → (encodeCall c).length =
    match c with
    | .g1add mb cv _ _ => 3 + 7 * mb.length + cv.ord.length
    | .g1mul mb cv _ _ => 3 + 5 * mb.length + 2 * cv.ord.length
    | .g1mexp mb cv list => 4 + 3 * mb.length + cv.ord.length + list.length * (2 * mb.length + cv.ord.length)
    | .g2add mb h cv _ _ => 4 + 2 * mb.length + 6 * h.deg * mb.length + cv.ord.length
    | .g2mul mb h cv _ _ => 4 + 2 * mb.length + 4 * h.deg * mb.length + 2 * cv.ord.length
    | .g2mexp mb h cv list => 5 + 2 * mb.length + 2 * h.deg * mb.length + cv.ord.length
        + list.length * (2 * h.deg * mb.length + cv.ord.length)
    | .bls12 mb cv t => 8 + 6 * mb.length + cv.ord.length + t.loop.length + t.pairs.length * (2 + 6 * mb.length)
    | .bn mb cv t => 8 + 6 * mb.length + cv.ord.length + t.loop.length + t.pairs.length * (2 + 6 * mb.length)
    | .mnt4 mb cv t => 10 + 4 * mb.length + cv.ord.length + t.loop.length + t.w0.length + t.w1.length
        + t.pairs.length * (2 + 6 * mb.length)
    | .mnt6 mb cv t => 10 + 4 * mb.length + cv.ord.length + t.loop.length + t.w0.length + t.w1.length
        + t.pairs.length * (2 + 8 * mb.length)

/-- R14: `be(v, n)` is `n` bytes, the most significant first; `int` is its inverse, and 0 on the empty string. -/
def Obligations.BigEndianCodec : Prop :=
  (∀ v n : Nat, (natToBytes v n).length = n) ∧
  (∀ v n : Nat, v < 256 ^ n → bytesToNat (natToBytes v n) = v) ∧
  (∀ bs : List Byte, natToBytes (bytesToNat bs) bs.length = bs) ∧
  (∀ v n : Nat, ∀ i, i < n → ((natToBytes v n).getD i 0).toNat = v / 256 ^ (n - 1 - i) % 256) ∧
  bytesToNat [] = 0

/-! ## One step -/

/-- A step with no words at the port resets the call state, reads byte 0 and runs the operation it selects (R380). That a
step with words at the port runs the unit operation they decode to, with the port emptied, and refuses words that decode to
none, is the model's choice (log 3). -/
def Obligations.StepRunsTheDecodedInstruction : Prop :=
  (∀ (s : State) (i : Instr), s.port = [] → 0 < s.inp.len → decode (.tape (s.inp.read 0)) = .ok i →
    step s = exec i s.beginCall) ∧
  (∀ (s : State) (i : Instr), s.port ≠ [] → decode (.port s.port) = .ok i → step s = exec i s.clearPort) ∧
  (∀ (s : State) (e : DecodeErr), s.port ≠ [] → decode (.port s.port) = .error e → step s = .refused (portRefusal e))

/-- R380, R102, R71: an empty buffer is `E_SHORT`, and any byte 0 that is no operation is `E_OPCODE`. -/
def Obligations.NoOperationIsAnError : Prop :=
  (∀ s : State, s.port = [] → s.inp.len = 0 → step s = .next (s.errorWith .short)) ∧
  (∀ s : State, s.port = [] → 0 < s.inp.len → ¬ (1 ≤ (s.inp.read 0).toNat ∧ (s.inp.read 0).toNat ≤ 10) →
    step s = .next (s.errorWith .opcode))

/-- R45, R450: what every call begins with, and what the block holds before any buffer is presented. That the power-on
buffer is empty, `CFG.metering_mode` false and `CFG.capability` 0 is the model's choice (log 2). -/
def Obligations.CallStartState : Prop :=
  (∀ s : State,
    s.resetCall.inp = s.inp ∧ s.resetCall.cfg = s.cfg ∧ s.resetCall.cur = { off := 0, fieldSet := false, lp := none, lq := none } ∧
    s.resetCall.pf = none ∧ (∀ l, s.resetCall.ex.get l = none) ∧ (∀ g, s.resetCall.cg g = none) ∧ s.resetCall.pe = none ∧
    (∀ i, regGet i s.resetCall.slots = none) ∧ s.resetCall.flags = Flags.unset ∧ s.resetCall.out = Memory.ofBytes [] ∧
    s.resetCall.res = .unset) ∧
  (State.reset.resetCall = State.reset ∧ State.reset.inp.len = 0 ∧ State.reset.cfg.forceBinary = false)

/-- R397: the output tape and the result of a call depend on the input buffer and `CFG.force_binary` only: not on what an
earlier call or unit operation left, not on the other configuration inputs, not on the model's free values. -/
def Obligations.CallIsAFunctionOfItsInput : Prop :=
  ∀ s1 s2 t1 : State, SameInput s1 s2 → step s1 = .next t1 →
    ∃ t2, step s2 = .next t2 ∧ t2.out = t1.out ∧ t2.res = t1.res

/-- R414, R420, R28: whatever the input buffer, a call ends with `RES` set: ok, with `CUR.OFF = IN_LEN`, or one of the errors
with an empty output and the cursor back at 0; and nothing else of the call outlives it: the cursor's cache, every object,
every flag and every slot are unset, and what the host presented is as it was. That the model's byte register is unset too
is log 4. -/
def Obligations.EveryCallEndsWithAResult : Prop :=
  ∀ s : State, s.port = [] →
    ∃ t, step s = .next t ∧
      (t.res = .ok ∧ t.cur.off = s.inp.len ∨ (∃ e, t.res = .error e) ∧ t.out = Memory.empty ∧ t.cur.off = 0) ∧
      t.idle ∧ t.inp = s.inp ∧ t.cfg = s.cfg

/-! ## Invariants -/

/-- Every step keeps both tapes and the slot file in canonical form. The canonical form is the model's representation of a
byte string and of a slot file, its own choice (log 15); no rule of the spec speaks of it. -/
def Obligations.CanonicalFormsKept : Prop :=
  ∀ s t : State, s.canonical → step s = .next t → t.canonical

/-- R21, R31: every step keeps the field block as its constructor left it and every slot below the modulus. -/
def Obligations.ElementsStayLegal : Prop :=
  ∀ s t : State, s.elementsLegal → step s = .next t → t.elementsLegal

/-- Every step keeps the shape of the result: only an ok result has output bytes, and the cursor is inside the tape. -/
def Obligations.ResultShapeKept : Prop :=
  ∀ s t : State, s.resultShape → step s = .next t → t.resultShape

/-- The three invariants hold at reset. -/
def Obligations.ResetMeetsInvariants : Prop :=
  State.reset.canonical ∧ State.reset.elementsLegal ∧ State.reset.resultShape

/-- R37, R38: no step writes the input tape or the configuration inputs. R31, R44, R475: a unit operation leaves the cursor
and every constructed object as they are, but for the tables of a level that were not computed before. That a unit operation
which raises an error at the port leaves nothing standing but `RES`, what the host presented and the model's counter is the
model's choice (log 8, DESIGN CHOICE), by analogy with what R420 says of a call. -/
def Obligations.InputsAndObjectsKept : Prop :=
  (∀ s t : State, step s = .next t → t.inp = s.inp ∧ t.cfg = s.cfg) ∧
  (∀ s t : State, s.port ≠ [] → step s = .next t → ObjectsKept s t ∨ ∃ e, t = s.clearPort.errorWith e)

/-! ## Tapes, cursor and slots -/

/-- R62, R64: after bytes are written at an offset, reading gives them there and what stood before everywhere else, and the
length is the larger of the old one and the end of the write, also for no bytes. The canonical form is the model's (log 15). -/
def Obligations.TapeWriteThenRead : Prop :=
  ∀ (m : Memory) (a : Nat) (bs : List Byte), m.wf = true →
    (∀ k, a ≤ k → k < a + bs.length → (m.write a bs).read k = bs.getD (k - a) 0) ∧
    (∀ k, k < a ∨ a + bs.length ≤ k → (m.write a bs).read k = m.read k) ∧
    (m.write a bs).len = max m.len (a + bs.length) ∧
    (m.write a bs).wf = true

/-- R321: a read past the end raises `E_SHORT` and consumes nothing; any other gives the bytes, lowest offset first, and
moves the cursor by exactly their number. -/
def Obligations.TapeReadAllOrNothing : Prop :=
  ∀ (s : State) (n : Nat),
    (s.inp.len < s.cur.off + n → tapeRead n s = .error (.raise .short) s) ∧
    (s.cur.off + n ≤ s.inp.len → ∃ bs, tapeRead n s = .ok bs (s.setOff (s.cur.off + n)) ∧ bs.length = n ∧
      ∀ i, i < n → bs.getD i 0 = s.inp.read (s.cur.off + i))

/-- R22, R24: a group of slots written reads back, every other slot is as before, and nothing else of the state changes. -/
def Obligations.SlotWriteThenRead : Prop :=
  ∀ (s : State) (a : Nat) (vs : List Nat),
    regGetGroup (s.store a vs).slots a vs.length = .ok vs ∧
    (∀ j, j < a ∨ a + vs.length ≤ j → regGet j (s.store a vs).slots = regGet j s.slots) ∧
    s.store a vs = { s with slots := (s.store a vs).slots }

/-! ## The prime-field unit -/

/-- R130, R132: `PF.NEW` raises the first error its operand has, and otherwise writes the block the rule gives. That after the
error of a unit operation nothing else stands is the model's choice (log 8, DESIGN CHOICE). -/
def Obligations.PfNewAcceptsOrRejects : Prop :=
  ∀ (s : State) (mb : List Byte), s.pf = none →
    if mb.length = 0 then exec (.pfNew mb) s = .next (s.errorWith .zeroLen)
    else if 128 < mb.length then exec (.pfNew mb) s = .next (s.errorWith .lenBound)
    else if mb.headD 0 = 0 then exec (.pfNew mb) s = .next (s.errorWith .noncanon)
    else if bytesToNat mb % 2 = 0 then exec (.pfNew mb) s = .next (s.errorWith .modEven)
    else if mb.length = 1 ∧ bytesToNat mb ≤ 3 then exec (.pfNew mb) s = .next (s.errorWith .modSmall)
    else ∃ f : PrimeField, exec (.pfNew mb) s = .next (s.setPF f) ∧
      f.p = bytesToNat mb ∧ f.lp = mb.length ∧ f.bitlen = bitlen (bytesToNat mb) ∧
      f.limbs = max 4 ((bitlen (bytesToNat mb) + 63) / 64) ∧ 1 ≤ f.limbs ∧ f.limbs ≤ 16 ∧
      f.inv < 2 ^ 64 ∧ (f.p * f.inv + 1) % 2 ^ 64 = 0 ∧
      f.r = 2 ^ (64 * f.limbs) % f.p ∧ f.r2 = 2 ^ (2 * (64 * f.limbs)) % f.p ∧ f.zero = 0 ∧ f.one = f.r

/-- R140 to R143: `PF.ADD`, `PF.SUB`, `PF.DOUBLE`, `PF.NEGATE` write the destination slot and nothing else. -/
def Obligations.PfAddSubDoubleNegate : Prop :=
  ∀ (s : State) (f : PrimeField) (c a b x y : Nat), s.pf = some f → 0 < f.p →
    regGet a s.slots = some x → regGet b s.slots = some y →
    exec (.pfAdd c a b) s = .next (s.store c [(x + y) % f.p]) ∧
    exec (.pfSub c a b) s = .next (s.store c [(((x : Int) - (y : Int)) % (f.p : Int)).toNat]) ∧
    exec (.pfDouble c a) s = .next (s.store c [2 * x % f.p]) ∧
    exec (.pfNegate c a) s = .next (s.store c [if x = 0 then 0 else f.p - x])

/-- R138, R144, R134, R135: the Montgomery multiplier and the conversions, by what the written value is modulo `p`: the
factor `2^W` is undone by multiplying with it. That the radix is `2^W` is the spec's own choice (R133, decision D18). -/
def Obligations.PfMontgomery : Prop :=
  ∀ (s : State) (f : PrimeField) (c a b x y : Nat), s.pf = some f → f.legal = true →
    regGet a s.slots = some x → regGet b s.slots = some y →
    (∃ v, v < f.p ∧ v * 2 ^ (64 * f.limbs) % f.p = x * y % f.p ∧ exec (.pfMul c a b) s = .next (s.store c [v])) ∧
    (∃ v, v < f.p ∧ v * 2 ^ (64 * f.limbs) % f.p = x * x % f.p ∧ exec (.pfSquare c a) s = .next (s.store c [v])) ∧
    exec (.pfToMont c a) s = .next (s.store c [x * 2 ^ (64 * f.limbs) % f.p]) ∧
    (∃ v, v < f.p ∧ v * 2 ^ (64 * f.limbs) % f.p = x % f.p ∧ exec (.pfFromMont c a) s = .next (s.store c [v]))

/-- R146: `PF.EXP` writes the Montgomery form of the power of the plain value. -/
def Obligations.PfExpIsThePower : Prop :=
  ∀ (s : State) (f : PrimeField) (c a e x : Nat), s.pf = some f → f.legal = true → regGet a s.slots = some x → x < f.p →
    exec (.pfExp c a e) s = .next (s.store c [f.toMont (f.fromMont x ^ e % f.p)])

/-- R145: `PF.INVERT` writes the Montgomery form of the inverse and true when there is one, zero and false when there is
none; the operand zero is one of those. That the boolean is true exactly for the operands coprime to a composite modulus is
read from the steps R147 to R149 of the reference realisation (log 17). -/
def Obligations.PfInvertIsTheInverse : Prop :=
  ∀ (s : State) (f : PrimeField) (c a x : Nat), s.pf = some f → f.legal = true → regGet a s.slots = some x → x < f.p →
    if Nat.Coprime x f.p then
      ∃ v, v < f.p ∧ v * x % f.p = 2 ^ (2 * (64 * f.limbs)) % f.p ∧ f.mul v x = f.one ∧
        exec (.pfInvert c a) s = .next ((s.store c [v]).setFlags { s.flags with invOk := some true })
    else exec (.pfInvert c a) s = .next ((s.store c [0]).setFlags { s.flags with invOk := some false })

/-- R150, R151: `PF.SQRT` by its pseudocode when `p` is 3 modulo 4, and refused for any other modulus. R151 speaks of `p` 1
modulo 4; that the refusal is for every modulus that is not 3 modulo 4, even ones in states no run reaches included, is the
model's (log 16, DEDUCED). -/
def Obligations.PfSqrtOrRefusal : Prop :=
  ∀ (s : State) (f : PrimeField) (c a x : Nat), s.pf = some f → regGet a s.slots = some x →
    if f.p % 4 = 3 then
      exec (.pfSqrt c a) s =
        if f.mul (f.mul (f.exp x ((f.p - 3) / 4)) (f.exp x ((f.p - 3) / 4))) x = f.negate f.one then
          .next ((s.store c [0]).setFlags { s.flags with sqrtOk := some false })
        else .next ((s.store c [f.mul (f.exp x ((f.p - 3) / 4)) x]).setFlags { s.flags with sqrtOk := some true })
    else exec (.pfSqrt c a) s = .refused .sqrtModulus

/-- R150: over a prime modulus that is 3 modulo 4 the answer of `PF.SQRT` is true exactly for the squares, and the value
written then is a root. -/
def Obligations.PfSqrtFindsRoots : Prop :=
  ∀ (f : PrimeField) (x : Nat), f.legal = true → Nat.Prime f.p → f.p % 4 = 3 → x < f.p →
    ((f.sqrt x).1 = true ↔ ∃ y, y * y % f.p = f.fromMont x) ∧
    ((f.sqrt x).1 = true → f.mul (f.sqrt x).2 (f.sqrt x).2 = x)

/-- R152: `PF.NRES` answers false when `n` does not divide `p - 1`, and otherwise whether the power is not one; it writes
no slot. -/
def Obligations.PfNresIsEulersCriterion : Prop :=
  ∀ (s : State) (f : PrimeField) (a n x : Nat), s.pf = some f → f.legal = true → regGet a s.slots = some x → x < f.p →
    exec (.pfNres a n) s = .next (s.setFlags { s.flags with
      nresOk := some (decide (n ∣ f.p - 1 ∧ f.fromMont x ^ ((f.p - 1) / n) % f.p ≠ 1)) })

/-- R153, R154, R156: the byte codec of the unit. That the bytes of `PF.TO_BYTES` go to a register of the model is log 4
(DESIGN CHOICE); that after an error of `PF.FROM_BYTES` at the port nothing else stands is log 8 (DESIGN CHOICE). -/
def Obligations.PfByteCodec : Prop :=
  (∀ (s : State) (f : PrimeField) (c : Nat) (bs : List Byte), s.pf = some f →
    exec (.pfFromBytes c bs) s =
      if bs.length ≠ 8 * f.limbs then .next (s.errorWith .short)
      else if f.p ≤ bytesToNat bs then .next (s.errorWith .feRange)
      else .next (s.store c [f.toMont (bytesToNat bs)])) ∧
  (∀ (s : State) (f : PrimeField) (a x : Nat), s.pf = some f → f.legal = true → regGet a s.slots = some x →
    ∃ v, v < f.p ∧ v * 2 ^ (64 * f.limbs) % f.p = x % f.p ∧
      exec (.pfToBytes a) s = .next (s.setRet (natToBytes v (8 * f.limbs))) ∧
      exec (.pfToBytesDense a) s = .next (s.setRet (natToBytes v f.lp)) ∧
      bytesToNat (natToBytes v (8 * f.limbs)) = v ∧ bytesToNat (natToBytes v f.lp) = v)

/-- R160: the algebraic contract of the unit over a prime modulus. -/
def Obligations.PrimeFieldContract : Prop :=
  ∀ f : PrimeField, f.legal = true → Nat.Prime f.p → ∀ a b c : Nat, a < f.p → b < f.p → c < f.p →
    f.add a f.zero = a ∧ f.mul a f.one = a ∧ f.add a b = f.add b a ∧
    f.add (f.add a b) c = f.add a (f.add b c) ∧
    f.mul a (f.add b c) = f.add (f.mul a b) (f.mul a c) ∧
    (a ≠ 0 → f.exp a (f.p - 1) = f.one) ∧
    (a ≠ 0 → f.invert a = (true, f.exp a (f.p - 2)) ∧ f.mul (f.invert a).2 a = f.one) ∧
    f.fromMont (f.toMont a) = a

/-! ## Stops of the model -/

/-- R452 and the model's own faults (logs 1, 7): an operation that reads what nothing has written, writes a frozen object,
or meets an engine of another family, stops with a fault that is no error code. -/
def Obligations.StopsOutsideTheRules : Prop :=
  (∀ (s : State) (c a b : Nat), s.pf = none → exec (.pfAdd c a b) s = .fault (.unset .pf)) ∧
  (∀ (s : State) (f : PrimeField) (c a b : Nat), s.pf = some f → regGet a s.slots = none →
    exec (.pfMul c a b) s = .fault (.unset (.slot a))) ∧
  (∀ (s : State) (f : PrimeField) (c a b : Nat), s.pf = some f → s.ex.fq2 = none →
    exec (.exMul .fq2 c a b) s = .fault (.unset (.ex .fq2))) ∧
  (∀ (s : State) (g : Group) (r p : Nat), s.cg g = none → exec (.cgDouble g r p) s = .fault (.unset (.cg g))) ∧
  (∀ (s : State) (c f : Nat), s.pe = none → exec (.peFinalExp c f) s = .fault (.unset .pe)) ∧
  (∀ (s : State) (f : PrimeField) (mb : List Byte), s.pf = some f → modulusFits mb = true →
    exec (.pfNew mb) s = .fault (.frozen .pf)) ∧
  (∀ (s : State) (l : Level) (e : ExtField), s.ex.get l = some e → e.frobValid = true →
    exec (.exCalcFrob l) s = .fault (.frozen (.ex l))) ∧
  (∀ (s : State) (pe : Engine) (r co src : Nat), s.pe = some pe → pe.family = .mnt4 →
    exec (.peDoublingStep r co src) s = .fault .mismatch) ∧
  (∀ (s : State) (pe : Engine) (g : CurveGroup) (r co src : Nat), s.pe = some pe → s.cg2 = some g → pe.family = .bn →
    exec (.peDoublingStepMnt r co src) s = .fault .mismatch)

/-! ## The extension unit -/

/-- R172: `EX.NEW` writes the block of a level that does not exist yet over the level below. That the constant is read from
slots is log 9 (DESIGN CHOICE), that the level below must exist is log 14 (DEDUCED). -/
def Obligations.ExNewBuildsALevel : Prop :=
  ∀ (s : State) (l : Level) (nr : Nat) (vs : List Nat), s.ex.get l = none → BaseExists s l →
    regGetGroup s.slots nr (constantSlots l) = .ok vs →
    exec (.exNew l nr) s = .next (s.setEX l
      { base := levelBase l, degree := levelDegree l, nonResidue := vs, frob1 := [], frob2 := [], frobValid := false })

/-- R173: `EX.ADD`, `EX.SUB`, `EX.NEG` and `EX.DOUBLE` act on each base-field coordinate by the rules R140 to R143. -/
def Obligations.ExCoordinatewise : Prop :=
  ∀ (s : State) (f : PrimeField) (l : Level) (α : Type) (t : Tow α) (c a b : Nat) (vs ws : List Nat),
    s.pf = some f → LevelIs s l α t →
    regGetGroup s.slots a (levelSlots l) = .ok vs → regGetGroup s.slots b (levelSlots l) = .ok ws →
    exec (.exAdd l c a b) s = .next (s.store c (List.zipWith f.add vs ws)) ∧
    exec (.exSub l c a b) s = .next (s.store c (List.zipWith f.sub vs ws)) ∧
    exec (.exNeg l c a) s = .next (s.store c (vs.map f.negate)) ∧
    exec (.exDouble l c a) s = .next (s.store c (vs.map f.double))

/-- R174 to R176: `EX.MUL`, `EX.SQUARE`, `EX.INVERSE` and `EX.EXP` write the level's product, square, inverse and power
over the whole element; `EX.INVERSE` also its boolean. What the level's product, inverse and power are is
`LevelsAreTheQuotientRings`. -/
def Obligations.ExProducts : Prop :=
  ∀ (s : State) (l : Level) (α : Type) (t : Tow α) (c a b e : Nat) (x y : α), LevelIs s l α t →
    ElemAt s t.fld a x → ElemAt s t.fld b y →
    exec (.exMul l c a b) s = .next (s.store c (t.fld.coords (t.fld.mul x y))) ∧
    exec (.exSquare l c a) s = .next (s.store c (t.fld.coords (t.fld.mul x x))) ∧
    exec (.exInverse l c a) s = .next ((s.store c (t.fld.coords (t.fld.inv x).2)).setFlags
      { s.flags with exInvOk := some (t.fld.inv x).1 }) ∧
    exec (.exExp l c a e) s = .next (s.store c (t.fld.coords (t.fld.exp x e)))

/-- The six levels are the quotients of R170, for every modulus `PF.NEW` accepts and every constants: each level's product is
that of the polynomials over the level below with the square or the cube of its generator replaced by the constant (R174), it
is a commutative ring, `EXP` is its power (R176), and `INVERSE` finds an inverse exactly where there is one (R175). Over a
prime modulus, when `β` is no square, every non-zero element of `FQ2` has one. -/
def Obligations.LevelsAreTheQuotientRings : Prop :=
  ∀ (f : PrimeField) (β : Nat) (ξ : E2), f.legal = true → β < f.p →
    let F := fpFld f
    let F2 := fq2Fld F β
    let F3 := fq3Fld F β
    let F6 := fq6cFld F2 ξ
    IsElem F2 f.p ξ →
    (LevelLaws F2 f.p ∧ QuadraticOver F F2 β f.p) ∧
    (LevelLaws F3 f.p ∧ CubicOver F F3 β f.p) ∧
    (LevelLaws (fq4Fld F β) f.p ∧ QuadraticOver F2 (fq4Fld F β) (f.zero, f.one) f.p) ∧
    (LevelLaws F6 f.p ∧ CubicOver F2 F6 ξ f.p) ∧
    (LevelLaws (fq6qFld F β) f.p ∧ QuadraticOver F3 (fq6qFld F β) (f.zero, f.one, f.zero) f.p) ∧
    (LevelLaws (fq12Fld F2 ξ) f.p ∧ QuadraticOver F6 (fq12Fld F2 ξ) (F2.zero, F2.one, F2.zero) f.p) ∧
    (Nat.Prime f.p → (¬ ∃ y, y * y % f.p = f.fromMont β) → ∀ a, IsElem F2 f.p a → a ≠ F2.zero → (F2.inv a).1 = true)

/-- R180: `EX.CONJUGATE` keeps the first half of the coordinates and negates the second. -/
def Obligations.ExConjugateNegatesTheOddHalf : Prop :=
  ∀ (s : State) (f : PrimeField) (l : QuadLevel) (α : Type) (t : Tow α) (c a : Nat) (vs : List Nat) (n : Nat),
    s.pf = some f →
    LevelIs s (match l with | .fq2 => .fq2 | .fq4 => .fq4 | .fq6q => .fq6q | .fq12 => .fq12) α t →
    n = (match l with | .fq2 => 1 | .fq4 => 2 | .fq6q => 3 | .fq12 => 6) →
    regGetGroup s.slots a (2 * n) = .ok vs →
    exec (.exConjugate l c a) s = .next (s.store c (vs.take n ++ (vs.drop n).map f.negate))

/-- R214, R215: the sparse products of `FQ12` are its products with the sparse elements. R216: the cyclotomic square is the
square for every element. Outside the cyclotomic subgroup that is the spec's own choice (decision D27: "`CYCLOTOMIC_SQUARE(a) =
SQUARE(a)` for all `a`"); R216 calls a formula that is valid only inside it conformant too (R477, U9; log 17). -/
def Obligations.ExTowerProducts : Prop :=
  ∀ (s : State) (t : BnTower) (c a e1 e2 e3 : Nat) (x : E12) (y1 y2 y3 : E2), TowerIs s t →
    ElemAt s t.t12.fld a x → ElemAt s t.t2.fld e1 y1 → ElemAt s t.t2.fld e2 y2 → ElemAt s t.t2.fld e3 y3 →
    exec (.exMulBy014 c a e1 e2 e3) s = .next (s.store c (t.t12.fld.coords
      (t.t12.fld.mul x ((y1, y2, t.t2.fld.zero), (t.t2.fld.zero, y3, t.t2.fld.zero))))) ∧
    exec (.exMulBy034 c a e1 e2 e3) s = .next (s.store c (t.t12.fld.coords
      (t.t12.fld.mul x ((y1, t.t2.fld.zero, t.t2.fld.zero), (y2, y3, t.t2.fld.zero))))) ∧
    exec (.exCyclotomicSquare c a) s = .next (s.store c (t.t12.fld.coords (t.t12.fld.mul x x)))

/-- R178, R472: `EX.FROBENIUS_MAP` writes the level's map of the operand when the tables it needs are computed; when they
are not, it writes some element of the level, of which nothing more is known (log 5), and the counter moves on. That the map
is the power is `FrobeniusMapIsThePower`. -/
def Obligations.ExFrobeniusMapOrAnyElement : Prop :=
  ∀ (s : State) (f : PrimeField) (l : Level) (α : Type) (t : Tow α) (c a power : Nat) (x : α), s.pf = some f → 0 < f.p →
    LevelIs s l α t → ElemAt s t.fld a x →
    (t.valid = true → exec (.exFrobeniusMap l c a power) s = .next (s.store c (t.fld.coords (t.frob x power)))) ∧
    (t.valid = false → ∃ vs : List Nat, vs.length = levelSlots l ∧ belowModulus f.p vs = true ∧
      exec (.exFrobeniusMap l c a power) s = .next ((s.store c vs).bumpFree))

/-- R178, R219: at every level whose tables, and those of the levels below, are the ones `CALC_FROB` computes, the map is
`EXP(a, p^n)`: for a prime modulus and constants that are not zero divisors. -/
def Obligations.FrobeniusMapIsThePower : Prop :=
  ∀ (f : PrimeField) (β ctr : Nat) (ξ : E2), f.legal = true → Nat.Prime f.p → 0 < β → β < f.p →
    let F := fpFld f
    let F2 := fq2Fld F β
    let e2 := tabledLevel .fq2 [β] (quadTables (frobTable F f.p β 2 1 2))
    let e3 := tabledLevel .fq3 [β] (cubicTables (frobTable F f.p β 3 1 3) (frobTable F f.p β 3 2 3))
    let e4 := tabledLevel .fq4 [f.zero, f.one] (quadTables (frobTable F f.p β 4 1 4))
    let e6q := tabledLevel .fq6q [f.zero, f.one, f.zero] (quadTables (frobTable F f.p β 6 1 6))
    let e6c := tabledLevel .fq6c (F2.coords ξ) (cubicTables (frobTable F2 f.p ξ 3 1 6) (frobTable F2 f.p ξ 3 2 6))
    let e12 := tabledLevel .fq12 ((fq6cFld F2 ξ).coords (F2.zero, F2.one, F2.zero)) (quadTables (frobTable F2 f.p ξ 6 1 12))
    IsElem F2 f.p ξ → (F2.inv ξ).1 = true →
    FrobeniusIsThePower (towFq2 f ctr e2) f.p ∧
    FrobeniusIsThePower (towFq3 f ctr e3) f.p ∧
    FrobeniusIsThePower (towFq4 f ctr e2 e4) f.p ∧
    FrobeniusIsThePower (towFq6c f ctr e2 e6c) f.p ∧
    FrobeniusIsThePower (towFq6q f ctr e3 e6q) f.p ∧
    FrobeniusIsThePower (towFq12 f ctr e2 e6c e12) f.p

/-- R177: `EX.CALC_FROB` writes the tables of the level's rule when every division is exact, and otherwise only the
boolean; and a table of `frobTable` has the entries of the rule and exists exactly when its divisions are exact. -/
def Obligations.ExCalcFrobWritesTheTables : Prop :=
  (∀ (s : State) (l : Level) (e : ExtField) (o : Option (List (List Nat) × List (List Nat))), s.ex.get l = some e →
    e.frobValid = false → TablesOf s l o → exec (.exCalcFrob l) s = .next (s.withTables l e o)) ∧
  (∀ (α : Type) (F : Fld α) (p : Nat) (c : α) (n m k : Nat), 0 < n →
    (match frobTable F p c n m k with
     | none => ∃ i, i < k ∧ ¬ n ∣ p ^ i - 1
     | some tbl => (∀ i, i < k → n ∣ p ^ i - 1) ∧ tbl.length = k ∧
         ∀ i, i < k → tbl.getD i [] = F.coords (F.exp c (m * (p ^ i - 1) / n))))

/-- R179, R203, R213: `EX.CALC_FROB_PRE` writes the tables its realisation computes from `f1`, or only the boolean. That it
writes `FROB.ok` is deduced (log 11); when `FQ2` has no table the entries are free values and the model's counter moves on
(log 5). -/
def Obligations.ExCalcFrobPreWritesTheTables : Prop :=
  ∀ (s : State) (f : PrimeField) (t : Tow E2) (l : PreLevel) (e : ExtField) (f1 : Nat) (v : E2),
    s.pf = some f → LevelIs s .fq2 E2 t → s.ex.get (preLevelLevel l) = some e → e.frobValid = false → ElemAt s t.fld f1 v →
    exec (.exCalcFrobPre l f1) s = .next ((s.withTables (preLevelLevel l) e (preTablesOf t f.p l v)).noted t.valid)

/-- R179: over a prime modulus with `6 ∣ p - 1` and the table of `FQ2` computed, the tables of `CALC_FROB_PRE` from
`f1 = ξ^((p-1)/6)` are those of `CALC_FROB`, entry for entry. That this `f1` is the operand is the spec's own choice (decision
D26). -/
def Obligations.PrecomputedTablesAgree : Prop :=
  ∀ (f : PrimeField) (β : Nat) (ctr : Nat) (tbl : List (List Nat)) (ξ0 ξ1 : Nat), f.legal = true → Nat.Prime f.p →
    β < f.p → 6 ∣ f.p - 1 → ξ0 < f.p → ξ1 < f.p →
    frobTable (fpFld f) f.p β 2 1 2 = some tbl →
    let t := towFq2 f ctr { base := .fp, degree := 2, nonResidue := [β], frob1 := tbl, frob2 := [], frobValid := true }
    preTablesFq6c t f.p (t.fld.exp (ξ0, ξ1) ((f.p - 1) / 6)) =
      cubicTables (frobTable t.fld f.p (ξ0, ξ1) 3 1 6) (frobTable t.fld f.p (ξ0, ξ1) 3 2 6) ∧
    preTableFq12 t f.p (t.fld.exp (ξ0, ξ1) ((f.p - 1) / 6)) = frobTable t.fld f.p (ξ0, ξ1) 6 1 12

/-! ## The curve-group unit -/

/-- R220: `CG.NEW` writes the block of a group that does not exist yet, zero for a nil coefficient. That the coefficients are
read from slots is log 9 (DESIGN CHOICE), that the level the group lies over must exist is log 14 (DEDUCED). -/
def Obligations.CgNewBuildsAGroup : Prop :=
  ∀ (s : State) (field : CurveField) (α : Type) (F : Fld α) (a b : Option Nat) (ob : List Byte) (va vb : α),
    FieldIs s field α F → s.cg (groupOfField field) = none → CoeffAt s F a va → CoeffAt s F b vb →
    exec (.cgNew field a b ob) s = .next (s.setCG (groupOfField field)
      { field := refOfField field, a := F.coords va, b := F.coords vb, q := bytesToNat ob })

/-- R222, R223, R238: the three predicates write their flag and nothing else. Of a point whose `X` and `Y` stand in no slot,
`IS_ZERO` still answers, and `IS_ON_CURVE` when it is at infinity: they read nothing else than `Z` there. -/
def Obligations.CgPredicates : Prop :=
  (∀ (s : State) (g : Group) (α : Type) (F : Fld α) (cg : CurveGroup) (p : Nat) (z : α), GroupIs s g α F cg →
    ElemAt s F (p + 2 * F.deg) z →
    exec (.cgIsZero g p) s = .next (s.setFlags { s.flags with ptIsZero := some (F.beq z F.zero) }) ∧
    (F.beq z F.zero = true → exec (.cgIsOnCurve g p) s = .next (s.setFlags { s.flags with ptOnCurve := some true }))) ∧
  ∀ (s : State) (g : Group) (α : Type) (F : Fld α) (cg : CurveGroup) (p : Nat) (P : Pt α), GroupIs s g α F cg →
    PtAt s F p P →
    exec (.cgIsOnCurve g p) s = .next (s.setFlags { s.flags with
      ptOnCurve := some (ptOnCurve F (F.ofCoords cg.a) (F.ofCoords cg.b) P) }) ∧
    exec (.cgSubgroupCheck g p) s = .next (s.setFlags { s.flags with
      ptInSubgroup := some (F.beq (ptWnafMul F (F.ofCoords cg.a) P cg.q).z F.zero) })

/-- R223 over the base field: the test is the curve equation in Jacobian form on plain residues, whatever `a` is. -/
def Obligations.OnCurveIsTheEquation : Prop :=
  ∀ (f : PrimeField) (a b : Nat) (P : Pt Nat), f.legal = true → a < f.p → b < f.p → P.x < f.p → P.y < f.p → P.z < f.p →
    (ptOnCurve (fpFld f) a b P = true ↔ P.z = 0 ∨
      f.fromMont P.y ^ 2 % f.p =
        (f.fromMont P.x ^ 3 + f.fromMont a * f.fromMont P.x * f.fromMont P.z ^ 4 + f.fromMont b * f.fromMont P.z ^ 6) % f.p)

/-- R226, R228, R232, R234, R237, R246: the operations that give a point, or its affine coordinates, whose place is log 9
(DESIGN CHOICE). The Jacobian triples of the sum, the double and the multiples as such are those of the spec's reference
realisation (log 17, DEDUCED); the affine coordinates of a point whose `Z` has no inverse are log 22 (DESIGN CHOICE). -/
def Obligations.CgPointOperations : Prop :=
  ∀ (s : State) (g : Group) (α : Type) (F : Fld α) (cg : CurveGroup) (r p1 p2 e : Nat) (P Q : Pt α),
    GroupIs s g α F cg → PtAt s F p1 P → PtAt s F p2 Q →
    exec (.cgAdd g r p1 p2) s = .next (s.store r (ptCoords F (ptAdd F (F.ofCoords cg.a) P Q))) ∧
    exec (.cgDouble g r p1) s = .next (s.store r (ptCoords F (ptDouble F (F.ofCoords cg.a) P))) ∧
    exec (.cgNegate g r p1) s = .next (s.store r (F.coords P.x ++ F.coords (F.neg P.y) ++ F.coords P.z)) ∧
    exec (.cgScalarMul g r p1 e) s = .next (s.store r (ptCoords F (ptScalarMul F (F.ofCoords cg.a) P e))) ∧
    exec (.cgWnafMul g r p1 e) s = .next (s.store r (ptCoords F (ptWnafMul F (F.ofCoords cg.a) P e))) ∧
    exec (.cgToAffine g r p1) s = .next (s.store r
      (F.coords (ptToAffine F P).1 ++ F.coords (ptToAffine F P).2))

/-- R240: `CG.MULTI_EXP` raises on lists of different lengths, and otherwise writes its sum, the identity for no points. That
the points stand in consecutive slots is log 9 (DESIGN CHOICE), that a mismatch is raised whether or not those slots are set
is log 19 (DEDUCED), that nothing else stands after that error is log 8 (DESIGN CHOICE), and the Jacobian triple of the sum as
such is that of the reference realisation (log 17, DEDUCED). That the sum is the sum of the multiples is `MultiplesAgree`. -/
def Obligations.CgMultiExpOrMismatch : Prop :=
  (∀ (s : State) (g : Group) (α : Type) (F : Fld α) (cg : CurveGroup) (r points n : Nat) (scalars : List Nat),
    GroupIs s g α F cg → n ≠ scalars.length →
    exec (.cgMultiExp g r points n scalars) s = .next (s.errorWith .multiexpLen)) ∧
  (∀ (s : State) (g : Group) (α : Type) (F : Fld α) (cg : CurveGroup) (r points : Nat) (scalars : List Nat)
    (ps : List (Pt α)), GroupIs s g α F cg → PtsAt s F points ps → ps.length = scalars.length →
    exec (.cgMultiExp g r points ps.length scalars) s =
      .next (s.store r (ptCoords F (ptMultiExp F (F.ofCoords cg.a) cg.q (ps.zip scalars)))))

/-- R248, the first three of its laws, over each field a group may lie over: `P + O` is `P`, `P + (-P)` is at infinity, and
the double is `P + P`, all in the sense of R224, for every triple of coordinates. -/
def Obligations.CurveGroupLaws : Prop :=
  ∀ (f : PrimeField) (α : Type) (F : Fld α) (a : α) (P : Pt α), f.legal = true → Nat.Prime f.p → CurveFieldOver f α F →
    IsElem F f.p a → IsPt F f.p P →
    ptSame F (ptAdd F a P (ptIdentity F)) P = true ∧
    ptIsZero F (ptAdd F a P (ptNegate F P)) = true ∧
    ptSame F (ptDouble F a P) (ptAdd F a P P) = true

/-- R248, R234, R237, R240, over each field a group may lie over and every curve that is not singular: the multiple of 0 is at
infinity, that of 1 is the point, and `(k1 + k2) P` is `k1 P + k2 P`; `WNAF_MUL` gives the same multiple as `SCALAR_MUL`; and
`MULTI_EXP` gives the sum of the multiples, for scalars below the order. All in the sense of R224. -/
def Obligations.MultiplesAgree : Prop :=
  ∀ (f : PrimeField) (α : Type) (F : Fld α) (a b : α), f.legal = true → Nat.Prime f.p → CurveFieldOver f α F →
    IsElem F f.p a → IsElem F f.p b → curveDiscriminant F a b ≠ F.zero →
    (∀ P : Pt α, IsPt F f.p P → ptOnCurve F a b P = true →
      ptIsZero F (ptScalarMul F a P 0) = true ∧
      ptSame F (ptScalarMul F a P 1) P = true ∧
      (∀ k1 k2 : Nat, ptSame F (ptScalarMul F a P (k1 + k2)) (ptAdd F a (ptScalarMul F a P k1) (ptScalarMul F a P k2)) = true) ∧
      (∀ e : Nat, ptSame F (ptWnafMul F a P e) (ptScalarMul F a P e) = true)) ∧
    (∀ (q : Nat) (list : List (Pt α × Nat)),
      (∀ pe ∈ list, IsPt F f.p pe.1 ∧ ptOnCurve F a b pe.1 = true ∧ pe.2 < q) →
      ptSame F (ptMultiExp F a q list) (sumOfMultiples F a list) = true)

/-- R236, R266: the digits of a recoding denote the number and have the form of a non-adjacent form; 0 has none. -/
def Obligations.WnafDenotesTheNumber : Prop :=
  (∀ w e : Nat, 2 ≤ w → digitsValue (wnaf e w).reverse = (e : Int) ∧ WnafForm w (wnaf e w)) ∧
  (∀ w e : Nat, 2 ≤ w → 0 < e → 0 < (wnaf e w).getLastD 0) ∧
  (∀ w : Nat, wnaf 0 w = [])

/-- R241: the bucket window is 3 up to 32 pairs and otherwise the least `k` with `10^k >= n`, the exact integer form
of the source's `⌈log10(n)⌉` (decision D29). -/
def Obligations.MultiExpWindow : Prop :=
  (∀ n : Nat, n ≤ 32 → mexpWindow n = 3) ∧
  (∀ n : Nat, 32 < n → n ≤ 10 ^ mexpWindow n ∧ ∀ k, k < mexpWindow n → 10 ^ k < n)

/-! ## The pairing engine -/

/-- R262: `PE.NEW` writes the engine of its family: the loop of BN is the signed `6u + 2`, the digits are the traversal of
the loop, and the MNT constants are the generator and its inverse; fields another family has are unset. R262 takes `x`, `w0`
and `w1` from 1 on: that 0 gives the engine of the same formulas is log 10 (DESIGN CHOICE). Where the generator
has no inverse, `tw_inv` is the zero of log 22 (DESIGN CHOICE). -/
def Obligations.PeNewBuildsTheEngine : Prop :=
  (∀ (s : State) (c1 c2 : CurveGroup) (e12 : ExtField) (tw : Twist) (x : Nat) (xNeg : Bool) (w0 w1 : Nat) (w0Neg : Bool),
    s.cg1 = some c1 → s.cg2 = some c2 → s.ex.fq12 = some e12 → s.pe = none →
    (∃ e : Engine, exec (.peNew .bls12 tw x xNeg w0 w1 w0Neg) s = .next (s.setPE e) ∧ e.family = .bls12 ∧ e.g1 = .g1 ∧
      e.g2 = .g2 ∧ e.target = .fq12 ∧ e.twist = some tw ∧ e.x = x ∧ e.xNeg = xNeg ∧
      e.digits = some (traversal s.cfg.forceBinary x).1 ∧ e.useNaf = some (traversal s.cfg.forceBinary x).2 ∧
      e.loop = none ∧ e.loopNeg = none ∧ e.w0 = none ∧ e.w1 = none ∧ e.w0Neg = none ∧ e.tw = none ∧ e.twInv = none) ∧
    (∃ (e : Engine) (u : Int), u = 6 * (if xNeg then -(x : Int) else x) + 2 ∧
      exec (.peNew .bn tw x xNeg w0 w1 w0Neg) s = .next (s.setPE e) ∧ e.family = .bn ∧ e.g1 = .g1 ∧
      e.g2 = .g2 ∧ e.target = .fq12 ∧ e.twist = some tw ∧ e.x = x ∧ e.xNeg = xNeg ∧ e.loop = some u.natAbs ∧
      e.loopNeg = some (decide (u < 0)) ∧ e.digits = some (traversal s.cfg.forceBinary u.natAbs).1 ∧
      e.useNaf = some (traversal s.cfg.forceBinary u.natAbs).2 ∧ e.w0 = none ∧ e.w1 = none ∧ e.w0Neg = none ∧
      e.tw = none ∧ e.twInv = none)) ∧
  (∀ (s : State) (f : PrimeField) (c1 c2 : CurveGroup) (e4 : ExtField) (t : Tow E2) (tw : Twist) (x : Nat) (xNeg : Bool)
    (w0 w1 : Nat) (w0Neg : Bool), s.pf = some f → s.cg1 = some c1 → s.cg2 = some c2 → s.ex.fq4 = some e4 →
    LevelIs s .fq2 E2 t → s.pe = none →
    ∃ e : Engine, exec (.peNew .mnt4 tw x xNeg w0 w1 w0Neg) s = .next (s.setPE e) ∧ e.family = .mnt4 ∧ e.g1 = .g1 ∧
      e.g2 = .g2 ∧ e.target = .fq4 ∧ e.x = x ∧ e.xNeg = xNeg ∧ e.w0 = some w0 ∧ e.w1 = some w1 ∧ e.w0Neg = some w0Neg ∧
      e.tw = some [0, f.one] ∧ e.twInv = some (t.fld.coords (t.fld.inv (0, f.one)).2) ∧
      e.twist = none ∧ e.loop = none ∧ e.loopNeg = none ∧ e.digits = none ∧ e.useNaf = none) ∧
  (∀ (s : State) (f : PrimeField) (c1 c2 : CurveGroup) (e6 : ExtField) (t : Tow E3) (tw : Twist) (x : Nat) (xNeg : Bool)
    (w0 w1 : Nat) (w0Neg : Bool), s.pf = some f → s.cg1 = some c1 → s.cg2 = some c2 → s.ex.fq6q = some e6 →
    LevelIs s .fq3 E3 t → s.pe = none →
    ∃ e : Engine, exec (.peNew .mnt6 tw x xNeg w0 w1 w0Neg) s = .next (s.setPE e) ∧ e.family = .mnt6 ∧ e.g1 = .g1 ∧
      e.g2 = .g2 ∧ e.target = .fq6q ∧ e.x = x ∧ e.xNeg = xNeg ∧ e.w0 = some w0 ∧ e.w1 = some w1 ∧ e.w0Neg = some w0Neg ∧
      e.tw = some [0, f.one, 0] ∧ e.twInv = some (t.fld.coords (t.fld.inv (0, f.one, 0)).2) ∧
      e.twist = none ∧ e.loop = none ∧ e.loopNeg = none ∧ e.digits = none ∧ e.useNaf = none)

/-- R268: the traversal digits denote the loop count, the first is 1, every digit is -1, 0 or 1, and the non-adjacent form
is chosen exactly when it costs less and binary is not forced: the digits are then those of `naf(e)` (R266), and else binary. -/
def Obligations.TraversalDenotesTheLoop : Prop :=
  ∀ (forceBinary : Bool) (e : Nat), 0 < e →
    digitsValue (traversal forceBinary e).1 = (e : Int) ∧
    (traversal forceBinary e).1.headD 0 = 1 ∧
    (∀ d ∈ (traversal forceBinary e).1, d = -1 ∨ d = 0 ∨ d = 1) ∧
    ((traversal forceBinary e).2 = true ↔
      forceBinary = false ∧ traversalCost (naf e).reverse < traversalCost (binaryDigits e)) ∧
    ((traversal forceBinary e).2 = true → (traversal forceBinary e).1 = (naf e).reverse ∧ WnafForm 2 (naf e)) ∧
    ((traversal forceBinary e).2 = false → ∀ d ∈ (traversal forceBinary e).1, d = 0 ∨ d = 1)

/-- R273, R274, R276: the steps and the line evaluation of the BN and BLS12 engine, each with its own operands. That
operands and results lie in consecutive slots in the order of the rules is log 9 (DESIGN CHOICE); the steps may write
coefficients to slots nothing has written. The new point, the coefficients and the line product as such are those of the spec's
reference realisation (log 17, DEDUCED); R317 leaves them free. -/
def Obligations.TwistedEngineSteps : Prop :=
  (∀ (s : State) (t : BnTower) (pe : Engine) (isBn : Bool) (r co src : Nat) (R : Pt E2), TwistedIs s t pe isBn →
    PtAt s t.t2.fld src R →
    ∃ (R' : Pt E2) (l : Line3), (R', l) = bnDoublingStep t.t2.fld R ∧
      exec (.peDoublingStep r co src) s = .next ((s.store r (ptCoords t.t2.fld R')).store co
        (t.t2.fld.coords l.c0 ++ t.t2.fld.coords l.c1 ++ t.t2.fld.coords l.c2))) ∧
  (∀ (s : State) (t : BnTower) (pe : Engine) (isBn : Bool) (r co src q : Nat) (R : Pt E2) (Q : E2 × E2),
    TwistedIs s t pe isBn → PtAt s t.t2.fld src R → XYAt s t.t2.fld q Q →
    ∃ (R' : Pt E2) (l : Line3), (R', l) = bnAdditionStep t.t2.fld R Q.1 Q.2 ∧
      exec (.peAdditionStep r co src q) s = .next ((s.store r (ptCoords t.t2.fld R')).store co
        (t.t2.fld.coords l.c0 ++ t.t2.fld.coords l.c1 ++ t.t2.fld.coords l.c2))) ∧
  (∀ (s : State) (t : BnTower) (pe : Engine) (isBn : Bool) (tw : Twist) (co c f p : Nat) (x : E12) (l0 l1 l2 : E2)
    (px py : Nat), TwistedIs s t pe isBn → pe.twist = some tw → ElemAt s t.t12.fld f x →
    ElemAt s t.t2.fld co l0 → ElemAt s t.t2.fld (co + 2) l1 → ElemAt s t.t2.fld (co + 4) l2 →
    regGet p s.slots = some px → regGet (p + 1) s.slots = some py →
    exec (.peEll c f co p) s = .next (s.store c (t.t12.fld.coords
      (match tw with
       | .m => mulBy014 t.t2.fld t.t12.fld x l2 (t.t2.fld.scale px l1) (t.t2.fld.scale py l0)
       | .d => mulBy034 t.t2.fld t.t12.fld x (t.t2.fld.scale py l0) (t.t2.fld.scale px l1) l2))))

/-- R279, R286, R264: the Miller loop, the final exponentiation and the pairing product of the BN and BLS12 engine, each with
its own operands, with `x_neg` or `loop_neg` the sign of the loop; no pairs give one. That the pairs stand in consecutive slots
is log 9 (DESIGN CHOICE); the model's counter moves when a table is missing (log 5). The Miller value as such is that
of the reference realisation (log 17, DEDUCED; R317 leaves it free); for BN it also rests on log 22 where a power of `ξ` has no
inverse under the M twist, and on log 23 where 6 does not divide `p - 1` (both DESIGN CHOICE). -/
def Obligations.TwistedEngineLoops : Prop :=
  (∀ (s : State) (t : BnTower) (pe : Engine) (isBn : Bool) (tw : Twist) (ds : List Int) (neg : Bool) (c pairs : Nat)
    (ms : List (MillerPair E2 Unit)), TwistedIs s t pe isBn → pe.twist = some tw → pe.digits = some ds →
    (if isBn then pe.loopNeg = some neg else pe.xNeg = neg) → PairsAt s t.t2.fld pairs ms →
    exec (.peMillerLoop c pairs ms.length) s =
      .next ((s.store c (t.t12.fld.coords (bnMillerLoop t tw isBn ds neg ms))).noted t.t12.valid) ∧
    exec (.peMultiPair c pairs ms.length) s =
      .next ((s.store c (t.t12.fld.coords
        (if ms = [] then t.t12.fld.one
         else bnFinalExp t isBn pe.x pe.xNeg (bnMillerLoop t tw isBn ds neg ms)))).noted t.t12.valid)) ∧
  (∀ (s : State) (t : BnTower) (pe : Engine) (isBn : Bool) (c f : Nat) (x : E12), TwistedIs s t pe isBn →
    ElemAt s t.t12.fld f x →
    exec (.peFinalExp c f) s =
      .next ((s.store c (t.t12.fld.coords (bnFinalExp t isBn pe.x pe.xNeg x))).noted t.t12.valid))

/-- R302 to R304: the steps and the line values of the MNT engine, each with its own operands. That operands and results lie
in consecutive slots in the order of the rules is log 9 (DESIGN CHOICE), that the operand `Q` is the one after the negation of
R306 is log 24 (DESIGN CHOICE). The new points, coefficients and line values as such are those of the spec's reference
realisation (log 17, DEDUCED); R317 leaves them free. -/
def Obligations.MntEngineSteps : Prop :=
  (∀ (s : State) (α : Type) (t : MntTower α) (pe : Engine) (r co src : Nat) (R : Pt4 α), MntIs s α t pe →
    Pt4At s t.te.fld src R →
    ∃ (R' : Pt4 α) (l : Line4 α), (R', l) = mntDoublingStep t.te.fld t.a' R ∧
      exec (.peDoublingStepMnt r co src) s = .next ((s.store r (pt4Coords t.te.fld R')).store co
        (t.te.fld.coords l.cH ++ t.te.fld.coords l.c4C ++ t.te.fld.coords l.cJ ++ t.te.fld.coords l.cL))) ∧
  (∀ (s : State) (α : Type) (t : MntTower α) (pe : Engine) (r co src q : Nat) (R : Pt4 α) (Q : α × α), MntIs s α t pe →
    Pt4At s t.te.fld src R → XYAt s t.te.fld q Q →
    ∃ (R' : Pt4 α) (l : Line2 α), (R', l) = mntAdditionStep t.te.fld R Q.1 Q.2 ∧
      exec (.peAdditionStepMnt r co src q) s = .next ((s.store r (pt4Coords t.te.fld R')).store co
        (t.te.fld.coords l.l1 ++ t.te.fld.coords l.rz))) ∧
  (∀ (s : State) (α : Type) (t : MntTower α) (pe : Engine) (co q c f p : Nat) (Q : α × α) (x : α × α) (px py : Nat),
    MntIs s α t pe → XYAt s t.te.fld q Q → ElemAt s t.tt.fld f x →
    regGet p s.slots = some px → regGet (p + 1) s.slots = some py →
    (∀ l : Line4 α, Pt4At s t.te.fld co { x := l.cH, y := l.c4C, z := l.cJ, t := l.cL } →
      exec (.peEllMnt .doubling c f co p q) s = .next (s.store c (t.tt.fld.coords
        (t.tt.fld.mul x (mntLineDouble t.te.fld (mntConsts t px py Q.1 Q.2) l))))) ∧
    (∀ l : Line2 α, XYAt s t.te.fld co (l.l1, l.rz) →
      exec (.peEllMnt .addition c f co p q) s = .next (s.store c (t.tt.fld.coords
        (t.tt.fld.mul x (mntLineAdd t.te.fld (mntConsts t px py Q.1 Q.2) l))))))

/-- R306, R310, R264: the Miller loop, the final exponentiation and the pairing product of the MNT engine, each with its own
operands; no pairs give one. That the pairs stand in consecutive slots is log 9 (DESIGN CHOICE), that a negative `x` negates
each `Q` before the loop is R306 as the model reads it (log 21, DESIGN CHOICE); the counter moves when a table is missing (log 5).
The Miller value as such is that of the reference realisation (log 17, DEDUCED; R317 leaves it free). -/
def Obligations.MntEngineLoops : Prop :=
  (∀ (s : State) (α : Type) (t : MntTower α) (pe : Engine) (c pairs : Nat) (ms : List (MillerPair α Unit)),
    MntIs s α t pe → PairsAt s t.te.fld pairs ms →
    exec (.peMillerLoopMnt c pairs ms.length) s =
      .next (s.store c (t.tt.fld.coords (mntMillerLoop t pe.x pe.xNeg ms)))) ∧
  (∀ (s : State) (α : Type) (t : MntTower α) (pe : Engine) (w0 w1 : Nat) (w0Neg : Bool) (c f : Nat) (x : α × α),
    MntIs s α t pe → pe.w0 = some w0 → pe.w1 = some w1 → pe.w0Neg = some w0Neg → ElemAt s t.tt.fld f x →
    exec (.peFinalExpMnt c f) s =
      .next ((s.store c (t.tt.fld.coords (mntFinalExp t w0 w1 w0Neg x))).noted t.tt.valid)) ∧
  (∀ (s : State) (α : Type) (t : MntTower α) (pe : Engine) (w0 w1 : Nat) (w0Neg : Bool) (c pairs : Nat)
    (ms : List (MillerPair α Unit)), MntIs s α t pe → pe.w0 = some w0 → pe.w1 = some w1 →
    pe.w0Neg = some w0Neg → PairsAt s t.te.fld pairs ms →
    exec (.peMultiPair c pairs ms.length) s =
      .next ((s.store c (t.tt.fld.coords
        (if ms.isEmpty then t.tt.fld.one
         else mntFinalExp t w0 w1 w0Neg (mntMillerLoop t pe.x pe.xNeg ms)))).noted t.tt.valid))

/-! ## Whole calls

Each statement takes every buffer the operation's format can write, with good or bad fields, and says how the call ends: ok with
the bytes of its result and `CUR.OFF = IN_LEN` (R28) when every check of the decoder passes, else with the error of the first
that fails (R357, R358). Nothing else of the call stands after it (R420, R446): that the slots are unset too is log 12, the
model's byte register log 4. -/

/-- R381 to R383, R335 to R343, R355: how a G1 call ends. That the slots are unset afterwards is log 12 (DESIGN CHOICE), the
model's byte register log 4; over a composite modulus the bytes of a result whose `Z` has no inverse are log 22 (DESIGN CHOICE). -/
def Obligations.G1CallsGiveTheirResult : Prop :=
  ∀ (s : State) (c : Call), c.instr = .g1add ∨ c.instr = .g1mul ∨ c.instr = .g1mexp →
    c.encodable = true → s.inp = Memory.ofBytes (encodeCall c) →
    (callPasses c = true → exec c.instr s.beginCall = .next (s.okWith (callResult s.cfg.forceBinary c))) ∧
    (∀ e, firstError (callChecks c) = some e → exec c.instr s.beginCall = .next (s.errorWith e)) ∧
    (s.port = [] → step s = exec c.instr s.beginCall)

/-- R384 to R386, R335 to R343, R355: how a G2 call ends, over either degree or with a degree that is none. That the slots are
unset afterwards is log 12 (DESIGN CHOICE), the model's byte register log 4; the bytes of a result whose `Z` has no inverse are
log 22 (DESIGN CHOICE). -/
def Obligations.G2CallsGiveTheirResult : Prop :=
  ∀ (s : State) (c : Call), c.instr = .g2add ∨ c.instr = .g2mul ∨ c.instr = .g2mexp →
    c.encodable = true → s.inp = Memory.ofBytes (encodeCall c) →
    (callPasses c = true → exec c.instr s.beginCall = .next (s.okWith (callResult s.cfg.forceBinary c))) ∧
    (∀ e, firstError (callChecks c) = some e → exec c.instr s.beginCall = .next (s.errorWith e)) ∧
    (s.port = [] → step s = exec c.instr s.beginCall)

/-- R387, R388, R335 to R350: how a BLS12 or BN call ends; its result is one byte: is the pairing product of the pairs kept one.
Before the call's end `RES.is_one` holds the same (R394); no flag survives the call (R30), `CUR.OFF = IN_LEN` does (R28). That
the slots are unset afterwards is log 12 (DESIGN CHOICE), the model's byte register log 4. The result byte of a BN call with the
M twist over a composite modulus, where a power of `ξ` has no inverse, rests on log 22 (DESIGN CHOICE). -/
def Obligations.TwistedCallsGiveTheirResult : Prop :=
  ∀ (s : State) (c : Call), c.instr = .bls12 ∨ c.instr = .bn →
    c.encodable = true → s.inp = Memory.ofBytes (encodeCall c) →
    (callPasses c = true → exec c.instr s.beginCall = .next (s.okWith (callResult s.cfg.forceBinary c))) ∧
    (∀ e, firstError (callChecks c) = some e → exec c.instr s.beginCall = .next (s.errorWith e)) ∧
    (s.port = [] → step s = exec c.instr s.beginCall) ∧
    (callPasses c = true → ∃ t, callTwisted (c.instr == .bn) s.beginCall = .ok (callResult s.cfg.forceBinary c) t ∧
      t.flags.isOne = some (callResult s.cfg.forceBinary c == [0x01]) ∧ t.cur.off = s.inp.len)

/-- R389, R390, R335 to R354: how an MNT4 or MNT6 call ends, and what `RES.is_one` holds before its end (R394).
That the slots are unset afterwards is log 12 (DESIGN CHOICE), the model's byte register log 4; the sign of the loop is
read as log 21 says (DESIGN CHOICE). Over a composite modulus with a `β` that is no unit, `tw_inv` is the zero of log 22
(DESIGN CHOICE), and the result byte rests on it. -/
def Obligations.MntCallsGiveTheirResult : Prop :=
  ∀ (s : State) (c : Call), c.instr = .mnt4 ∨ c.instr = .mnt6 →
    c.encodable = true → s.inp = Memory.ofBytes (encodeCall c) →
    (callPasses c = true → exec c.instr s.beginCall = .next (s.okWith (callResult s.cfg.forceBinary c))) ∧
    (∀ e, firstError (callChecks c) = some e → exec c.instr s.beginCall = .next (s.errorWith e)) ∧
    (s.port = [] → step s = exec c.instr s.beginCall) ∧
    (callPasses c = true → ∃ t, (if c.instr = .mnt4 then mnt4Body else mnt6Body) s.beginCall =
        .ok (callResult s.cfg.forceBinary c) t ∧
      t.flags.isOne = some (callResult s.cfg.forceBinary c == [0x01]) ∧ t.cur.off = s.inp.len)

/-- R356: any bytes after the last field of an otherwise accepted call end it with `E_TRAILING`; R321: any number of its bytes
cut off from the end, with `E_SHORT`. -/
def Obligations.BufferMustBeExactlyTheCall : Prop :=
  ∀ (s : State) (c : Call), c.encodable = true → callPasses c = true →
    (∀ extra : List Byte, extra ≠ [] → s.inp = Memory.ofBytes (encodeCall c ++ extra) →
      exec c.instr s.beginCall = .next (s.errorWith .trailing)) ∧
    (∀ n : Nat, n < (encodeCall c).length → s.inp = Memory.ofBytes ((encodeCall c).take n) →
      exec c.instr s.beginCall = .next (s.errorWith .short))

end
end

