-- ==== Sys2Proof/Laws/Bytes.lean ====
section
/-! SUPPORT. Byte strings and integers: `int` and `be` are inverse (00_scope.md R14), and the same for port words. -/

namespace Sys2Proof

theorem bytesToNat_foldl (bs : List Byte) : ∀ acc : Nat,
    bs.foldl (fun acc b => acc * 256 + b.toNat) acc = acc * 256 ^ bs.length + bytesToNat bs := by
  induction bs with
  | nil => intro acc; simp [bytesToNat]
  | cons b bs ih =>
    intro acc
    simp only [bytesToNat, List.foldl_cons, List.length_cons]
    rw [ih, ih (0 * 256 + b.toNat), Nat.pow_succ, Nat.zero_mul, Nat.zero_add, Nat.add_mul, Nat.mul_assoc, Nat.add_assoc,
      Nat.mul_comm 256]

@[simp] theorem bytesToNat_nil : bytesToNat [] = 0 := rfl

theorem bytesToNat_cons (b : Byte) (bs : List Byte) : bytesToNat (b :: bs) = b.toNat * 256 ^ bs.length + bytesToNat bs := by
  show List.foldl _ _ _ = _
  rw [List.foldl_cons, bytesToNat_foldl]
  simp

theorem bytesToNat_append (xs ys : List Byte) : bytesToNat (xs ++ ys) = bytesToNat xs * 256 ^ ys.length + bytesToNat ys := by
  show List.foldl _ _ _ = _
  rw [List.foldl_append, bytesToNat_foldl]
  rfl

/-- An `n`-byte string is below `256^n`. -/
theorem bytesToNat_lt (bs : List Byte) : bytesToNat bs < 256 ^ bs.length := by
  induction bs with
  | nil => simp
  | cons b bs ih =>
    rw [bytesToNat_cons, List.length_cons, Nat.pow_succ]
    have hb : b.toNat < 256 := b.isLt
    have : b.toNat * 256 ^ bs.length ≤ 255 * 256 ^ bs.length := Nat.mul_le_mul_right _ (by omega)
    omega

@[simp] theorem natToBytes_length (v : Nat) : ∀ n : Nat, (natToBytes v n).length = n
  | 0 => rfl
  | n + 1 => by simp [natToBytes, natToBytes_length v n]

/-- `int(be(v, n))` keeps the low `n` bytes. -/
theorem bytesToNat_natToBytes (v : Nat) : ∀ n : Nat, bytesToNat (natToBytes v n) = v % 256 ^ n
  | 0 => by simp [natToBytes, Nat.mod_one]
  | n + 1 => by
    rw [natToBytes, bytesToNat_cons, natToBytes_length, bytesToNat_natToBytes v n, BitVec.toNat_ofNat]
    rw [show (2 : Nat) ^ 8 = 256 from rfl, Nat.pow_succ, Nat.mod_mul]
    rw [Nat.mul_comm (256 ^ n)]
    omega

/-- `int(be(v, n)) = v` for a value that fits (00_scope.md R14). -/
theorem bytesToNat_natToBytes_of_lt {v n : Nat} (h : v < 256 ^ n) : bytesToNat (natToBytes v n) = v := by
  rw [bytesToNat_natToBytes, Nat.mod_eq_of_lt h]

/-- One byte of a number below 256. -/
theorem bytesToNat_one (b : Byte) : bytesToNat [b] = b.toNat := by
  rw [bytesToNat_cons]; simp

theorem wordsToNat_foldl (ws : List Word) : ∀ acc : Nat,
    ws.foldl (fun acc w => acc * 65536 + w.toNat) acc = acc * 65536 ^ ws.length + wordsToNat ws := by
  induction ws with
  | nil => intro acc; simp [wordsToNat]
  | cons b bs ih =>
    intro acc
    simp only [wordsToNat, List.foldl_cons, List.length_cons]
    rw [ih, ih (0 * 65536 + b.toNat), Nat.pow_succ, Nat.zero_mul, Nat.zero_add, Nat.add_mul, Nat.mul_assoc, Nat.add_assoc,
      Nat.mul_comm 65536]

theorem wordsToNat_cons (w : Word) (ws : List Word) : wordsToNat (w :: ws) = w.toNat * 65536 ^ ws.length + wordsToNat ws := by
  show List.foldl _ _ _ = _
  rw [List.foldl_cons, wordsToNat_foldl]
  simp

@[simp] theorem natToWords_length (v : Nat) : ∀ n : Nat, (natToWords v n).length = n
  | 0 => rfl
  | n + 1 => by simp [natToWords, natToWords_length v n]

/-- The words of a number keep its low words. -/
theorem wordsToNat_natToWords (v : Nat) : ∀ n : Nat, wordsToNat (natToWords v n) = v % 65536 ^ n
  | 0 => by simp [natToWords, Nat.mod_one, wordsToNat]
  | n + 1 => by
    rw [natToWords, wordsToNat_cons, natToWords_length, wordsToNat_natToWords v n, BitVec.toNat_ofNat]
    rw [show (2 : Nat) ^ 16 = 65536 from rfl, Nat.pow_succ, Nat.mod_mul]
    rw [Nat.mul_comm (65536 ^ n)]
    omega

/-! ## `bitlen` (00_scope.md R13) -/

@[simp] theorem bitlen_zero : bitlen 0 = 0 := rfl

/-- A number is below the power of two of its bit length. -/
theorem lt_two_pow_bitlen (n : Nat) : n < 2 ^ bitlen n := by
  unfold bitlen
  split
  · next h => simp [h]
  · exact Nat.lt_log2_self

/-- A positive number is at least half the power of two of its bit length. -/
theorem two_pow_bitlen_le {n : Nat} (h : 0 < n) : 2 ^ (bitlen n - 1) ≤ n := by
  unfold bitlen
  rw [if_neg (by omega)]
  exact Nat.log2_self_le (by omega)

/-- The bit length bounds the number and conversely. -/
theorem bitlen_le_iff (n k : Nat) : bitlen n ≤ k ↔ n < 2 ^ k := by
  constructor
  · intro h
    exact Nat.lt_of_lt_of_le (lt_two_pow_bitlen n) (Nat.pow_le_pow_right (by omega) h)
  · intro h
    rcases Nat.eq_zero_or_pos n with h0 | h0
    · simp [h0]
    · have := Nat.lt_of_le_of_lt (two_pow_bitlen_le h0) h
      have := (Nat.pow_lt_pow_iff_right (by omega)).mp this
      have hb : bitlen n ≠ 0 := by unfold bitlen; rw [if_neg (by omega)]; omega
      omega

/-- The words a big integer takes hold all of it. -/
theorem lt_wordCount (v : Nat) : v < 65536 ^ wordCount v := by
  have h : bitlen v ≤ 16 * wordCount v := by unfold wordCount ceilDiv; omega
  have := (bitlen_le_iff v _).mp h
  rwa [Nat.pow_mul] at this

/-- A big integer's words give it back. -/
theorem wordsToNat_big (v : Nat) : wordsToNat (natToWords v (wordCount v)) = v := by
  rw [wordsToNat_natToWords, Nat.mod_eq_of_lt (lt_wordCount v)]

/-- A big integer has no leading zero word. -/
theorem natToWords_head (v : Nat) : (natToWords v (wordCount v)).head? ≠ some 0 := by
  rcases Nat.eq_zero_or_pos v with h | h
  · subst h; simp [wordCount, ceilDiv, natToWords]
  · have hb : bitlen v ≠ 0 := by unfold bitlen; rw [if_neg (by omega)]; omega
    obtain ⟨n, hn⟩ : ∃ n, wordCount v = n + 1 := ⟨wordCount v - 1, by unfold wordCount ceilDiv; omega⟩
    have hle : 16 * n ≤ bitlen v - 1 := by unfold wordCount ceilDiv at hn; omega
    have h1 : 65536 ^ n ≤ v := by
      have := Nat.le_trans (Nat.pow_le_pow_right (n := 2) (by omega) hle) (two_pow_bitlen_le h)
      rwa [Nat.pow_mul] at this
    have h2 := lt_wordCount v
    rw [hn, Nat.pow_succ] at h2
    have hq : v / 65536 ^ n < 65536 := Nat.div_lt_of_lt_mul (by rw [Nat.mul_comm]; omega)
    have hq1 : 1 ≤ v / 65536 ^ n := Nat.div_pos h1 (Nat.pow_pos (by omega))
    rw [hn, natToWords]
    simp only [List.head?_cons, ne_eq, Option.some.injEq]
    intro he
    have := congrArg BitVec.toNat he
    rw [BitVec.toNat_ofNat, Nat.mod_eq_of_lt hq] at this
    simp at this
    omega

end Sys2Proof
end

