-- ==== Sys2Proof/Laws/Checks.lean ====
section
/-! SUPPORT. The first error of a list of checks: what it is of a list put together, and when there is none. -/

namespace Sys2Proof.Machine

@[simp] theorem firstError_nil : firstError [] = none := rfl

@[simp] theorem firstError_pass (e : Err) (cs : Checks) : firstError ((true, e) :: cs) = firstError cs := rfl

@[simp] theorem firstError_fail (e : Err) (cs : Checks) : firstError ((false, e) :: cs) = some e := rfl

/-- The checks of the first list come first. -/
theorem firstError_append (xs ys : Checks) :
    firstError (xs ++ ys) = match firstError xs with | some e => some e | none => firstError ys := by
  induction xs with
  | nil => rfl
  | cons x xs ih =>
    obtain ⟨ok, e⟩ := x
    cases ok
    · rfl
    · simpa using ih

theorem firstError_append_none (xs ys : Checks) :
    firstError (xs ++ ys) = none ↔ firstError xs = none ∧ firstError ys = none := by
  rw [firstError_append]
  cases firstError xs <;> simp

/-- There is no error exactly when every check passes. -/
theorem firstError_none_iff (cs : Checks) : firstError cs = none ↔ ∀ c ∈ cs, c.1 = true := by
  induction cs with
  | nil => simp
  | cons x xs ih =>
    obtain ⟨ok, e⟩ := x
    cases ok <;> simp [ih]

theorem firstError_flatMap_none {β : Type} (l : List β) (g : β → Checks) :
    firstError (l.flatMap g) = none ↔ ∀ x ∈ l, firstError (g x) = none := by
  simp only [firstError_none_iff, List.mem_flatMap]
  exact ⟨fun h x hx c hc => h c ⟨x, hx, hc⟩, fun h c ⟨x, hx, hc⟩ => h x hx c hc⟩

theorem callPasses_iff (c : Call) : callPasses c = true ↔ firstError (callChecks c) = none := Option.isNone_iff_eq_none

/-! ## What the checks of a field ask, as the format writes it -/

theorem firstError_modulus_none (mb : List Byte) : firstError (modulusChecks mb) = none ↔ modulusFits mb = true := by
  have h : ∀ n : Nat, n ≠ 0 ↔ 1 ≤ n := by omega
  simp only [firstError_none_iff, modulusChecks, modulusFits, List.forall_mem_cons, List.not_mem_nil, false_implies,
    implies_true, and_true, Bool.and_eq_true, bne_iff_ne, h, decide_eq_true_eq, Bool.not_eq_true', Bool.and_eq_false_iff,
    beq_eq_false_iff_ne, decide_eq_false_iff_not, Nat.not_le, Bool.or_eq_true, and_assoc]

theorem firstError_elem_none (f : PrimeField) (v : List Nat) : firstError (elemChecks f v) = none ↔ v.all (· < f.p) = true := by
  simp [firstError_none_iff, elemChecks]

theorem firstError_order_none (ob : List Byte) : firstError (orderChecks ob) = none ↔ orderFits ob = true := by
  have h : ∀ n : Nat, n ≠ 0 ↔ 1 ≤ n := by omega
  simp only [firstError_none_iff, orderChecks, orderFits, List.forall_mem_cons, List.not_mem_nil, false_implies,
    implies_true, and_true, Bool.and_eq_true, bne_iff_ne, h, decide_eq_true_eq, and_assoc]

/-- A call either passes or has a first error. -/
theorem callPasses_or (c : Call) : callPasses c = true ∨ ∃ e, firstError (callChecks c) = some e := by
  unfold callPasses
  cases firstError (callChecks c) <;> simp

/-- What an error leaves is written from the reset of the call alone (60_exceptions.md R420). -/
@[simp] theorem State.raiseErr_beginCall (s : State) (e : Err) : s.beginCall.raiseErr e = s.errorWith e := rfl
@[simp] theorem State.raiseErr_resetCall (s : State) (e : Err) : s.resetCall.raiseErr e = s.errorWith e := rfl
theorem State.raiseErr_eq (s : State) (e : Err) : s.raiseErr e = s.errorWith e := rfl
/-- A call that ends ok with every byte of the tape read leaves what `okWith` says (10_state.md R28). -/
theorem State.finish_eq {s : State} (h : s.cur.off = s.inp.len) (bs : List Byte) : s.finish bs = s.okWith bs := by
  simp only [State.finish, State.okWith, h]

theorem State.okWith_idle (s : State) (bs : List Byte) : (s.okWith bs).idle :=
  ⟨rfl, rfl, rfl, rfl, fun l => by cases l <;> rfl, fun g => by cases g <;> rfl, rfl, rfl, rfl, rfl⟩
theorem State.errorWith_idle (s : State) (e : Err) : (s.errorWith e).idle :=
  ⟨rfl, rfl, rfl, rfl, fun l => by cases l <;> rfl, fun g => by cases g <;> rfl, rfl, rfl, rfl, rfl⟩

end Sys2Proof.Machine
end

