-- ==== Sys2Proof/Laws/Codec.lean ====
section
/-! SUPPORT. Each reader of the port gives back what its writer wrote, and leaves the words after it. -/

namespace Sys2Proof

@[simp] theorem PortReader.pure_apply {α : Type} (a : α) (ws : List Word) : (pure a : PortReader α) ws = .ok a ws := rfl

@[simp] theorem PortReader.bind_apply {α β : Type} (m : PortReader α) (k : α → PortReader β) (ws : List Word) :
    (m >>= k) ws = match m ws with | .ok a t => k a t | .error e t => .error e t := by
  show EStateM.bind m k ws = _
  unfold EStateM.bind
  cases m ws <;> rfl

@[simp] theorem PortReader.map_apply {α β : Type} (m : PortReader α) (k : α → β) (ws : List Word) :
    (k <$> m) ws = match m ws with | .ok a t => .ok (k a) t | .error e t => .error e t := by
  show EStateM.map k m ws = _
  unfold EStateM.map
  cases m ws <;> rfl

@[simp] theorem fieldOf_some {α : Type} (a : α) (ws : List Word) : fieldOf (some a) ws = .ok a ws := rfl
@[simp] theorem fieldOf_none {α : Type} (ws : List Word) : (fieldOf (none : Option α)) ws = .error .badField ws := rfl

@[simp] theorem readWord_cons (w : Word) (rest : List Word) : readWord (w :: rest) = .ok w.toNat rest := rfl

/-- The word of a number that fits is that number. -/
theorem wordOf_toNat {n : Nat} (h : fitsWord n = true) : (wordOf n).toNat = n := by
  unfold fitsWord at h
  unfold wordOf
  rw [BitVec.toNat_ofNat, Nat.mod_eq_of_lt (by simpa using h)]

/-- A slot word. -/
theorem readWord_wordOf {n : Nat} (h : fitsWord n = true) (rest : List Word) : readWord (wordOf n :: rest) = .ok n rest := by
  rw [readWord_cons, wordOf_toNat h]

/-- A run of words. -/
theorem readWords_append : ∀ (ws rest : List Word), readWords ws.length (ws ++ rest) = .ok ws rest
  | [], _ => rfl
  | w :: ws, rest => by
    simp only [List.length_cons, List.cons_append, readWords, PortReader.bind_apply, readWord_cons, readWords_append ws rest,
      PortReader.pure_apply, BitVec.ofNat_toNat, BitVec.setWidth_eq]

/-- A byte held in one word. -/
theorem byteOfWord_wordOf (b : Byte) : byteOfWord (wordOf b.toNat) = some b := by
  have hb : b.toNat < 256 := b.isLt
  unfold byteOfWord
  rw [wordOf_toNat (by unfold fitsWord; simp; omega), if_pos hb]
  simp

theorem mapM_byteOfWord : ∀ bs : List Byte, (bs.map (fun b => wordOf b.toNat)).mapM byteOfWord = some bs
  | [] => rfl
  | b :: bs => by
    simp only [List.map_cons, List.mapM_cons, byteOfWord_wordOf, mapM_byteOfWord bs, Option.bind_eq_bind, Option.bind_some,
      Option.pure_def]

/-- A byte string. -/
theorem readBytes_wordsOfBytes {bs : List Byte} (h : bytesFit bs = true) (rest : List Word) :
    readBytes (wordsOfBytes bs ++ rest) = .ok bs rest := by
  have h1 : fitsWord bs.length = true := h
  have h2 := readWords_append (bs.map (fun b => wordOf b.toNat)) rest
  rw [List.length_map] at h2
  simp only [readBytes, wordsOfBytes, List.cons_append, PortReader.bind_apply, readWord_wordOf h1, h2, mapM_byteOfWord,
    fieldOf_some]

/-- A big integer. -/
theorem readBig_wordsOfBig {v : Nat} (h : bigFits v = true) (rest : List Word) :
    readBig (wordsOfBig v ++ rest) = .ok v rest := by
  have h1 : fitsWord (wordCount v) = true := h
  have h2 := readWords_append (natToWords v (wordCount v)) rest
  rw [natToWords_length] at h2
  simp only [readBig, wordsOfBig, List.cons_append, PortReader.bind_apply, readWord_wordOf h1, h2, if_neg (natToWords_head v),
    wordsToNat_big, fieldOf_some]

/-- Big integers one after another. -/
theorem readBigsN_append : ∀ (vs : List Nat) (rest : List Word), vs.all bigFits = true →
    readBigsN vs.length (vs.flatMap wordsOfBig ++ rest) = .ok vs rest
  | [], _, _ => rfl
  | v :: vs, rest, h => by
    simp only [List.all_cons, Bool.and_eq_true] at h
    simp only [List.length_cons, List.flatMap_cons, List.append_assoc, readBigsN, PortReader.bind_apply,
      readBig_wordsOfBig h.1, readBigsN_append vs rest h.2, PortReader.pure_apply]

/-- A list of big integers. -/
theorem readBigs_wordsOfBigs {vs : List Nat} (h1 : fitsWord vs.length = true) (h2 : vs.all bigFits = true)
    (rest : List Word) : readBigs (wordsOfBigs vs ++ rest) = .ok vs rest := by
  simp only [readBigs, wordsOfBigs, List.cons_append, PortReader.bind_apply, readWord_wordOf h1, readBigsN_append vs rest h2]

/-- The last operand of a code leaves no words. -/
theorem readBytes_last {bs : List Byte} (h : bytesFit bs = true) : readBytes (wordsOfBytes bs) = .ok bs [] := by
  have := readBytes_wordsOfBytes h []
  rwa [List.append_nil] at this

theorem readBig_last {v : Nat} (h : bigFits v = true) : readBig (wordsOfBig v) = .ok v [] := by
  have := readBig_wordsOfBig h []
  rwa [List.append_nil] at this

theorem readBigs_last {vs : List Nat} (h1 : fitsWord vs.length = true) (h2 : vs.all bigFits = true) :
    readBigs (wordsOfBigs vs) = .ok vs [] := by
  have := readBigs_wordsOfBigs h1 h2 []
  rwa [List.append_nil] at this

/-- A flag. -/
theorem readBool_wordOfBool (b : Bool) (rest : List Word) : readBool (wordOfBool b :: rest) = .ok b rest := by
  cases b <;> rfl

/-- An optional slot. -/
theorem readOptSlot_wordsOfOptSlot {o : Option Nat} (h : o.all fitsWord = true) (rest : List Word) :
    readOptSlot (wordsOfOptSlot o ++ rest) = .ok o rest := by
  cases o with
  | none => rfl
  | some v =>
    have hv : fitsWord v = true := by simpa using h
    have : readBool ((1 : Word) :: wordOf v :: rest) = .ok true (wordOf v :: rest) := rfl
    simp only [readOptSlot, wordsOfOptSlot, List.cons_append, List.nil_append, PortReader.bind_apply, this,
      readWord_wordOf hv, if_true, fieldOf_some]

theorem readLevel_wordOf (l : Level) (rest : List Word) : readLevel (wordOfLevel l :: rest) = .ok l rest := by cases l <;> rfl
theorem readQuadLevel_wordOf (l : QuadLevel) (rest : List Word) : readQuadLevel (wordOfQuadLevel l :: rest) = .ok l rest := by
  cases l <;> rfl
theorem readPreLevel_wordOf (l : PreLevel) (rest : List Word) : readPreLevel (wordOfPreLevel l :: rest) = .ok l rest := by
  cases l <;> rfl
theorem readGroup_wordOf (g : Group) (rest : List Word) : readGroup (wordOfGroup g :: rest) = .ok g rest := by cases g <;> rfl
theorem readCurveField_wordOf (f : CurveField) (rest : List Word) :
    readCurveField (wordOfCurveField f :: rest) = .ok f rest := by cases f <;> rfl
theorem readFamily_wordOf (f : Family) (rest : List Word) : readFamily (wordOfFamily f :: rest) = .ok f rest := by
  cases f <;> rfl
theorem readTwist_wordOf (t : Twist) (rest : List Word) : readTwist (wordOfTwist t :: rest) = .ok t rest := by cases t <;> rfl
theorem readLineKind_wordOf (k : LineKind) (rest : List Word) : readLineKind (wordOfLineKind k :: rest) = .ok k rest := by
  cases k <;> rfl

/-- A port word list that its readers take whole decodes to the instruction they read. -/
theorem decodePort_of_read {sel : Word} {ws : List Word} {i : Instr} (h : readOperands sel.toNat ws = .ok i []) :
    decodePort (sel :: ws) = .ok i := by
  simp only [decodePort, h, List.all_nil, if_true]

/-! ## The operands of each selector (30_encoding.md R101) -/

@[simp] theorem readOperands_1001 : readOperands 0x1001 = (do
    let mb ← readBytes
    pure (.pfNew mb)) := rfl
@[simp] theorem readOperands_1002 : readOperands 0x1002 = read3 .pfAdd := rfl
@[simp] theorem readOperands_1003 : readOperands 0x1003 = read3 .pfSub := rfl
@[simp] theorem readOperands_1004 : readOperands 0x1004 = read2 .pfDouble := rfl
@[simp] theorem readOperands_1005 : readOperands 0x1005 = read2 .pfNegate := rfl
@[simp] theorem readOperands_1006 : readOperands 0x1006 = read3 .pfMul := rfl
@[simp] theorem readOperands_1007 : readOperands 0x1007 = read2 .pfSquare := rfl
@[simp] theorem readOperands_1008 : readOperands 0x1008 = read2Big .pfExp := rfl
@[simp] theorem readOperands_1009 : readOperands 0x1009 = read2 .pfInvert := rfl
@[simp] theorem readOperands_100a : readOperands 0x100a = read2 .pfSqrt := rfl
@[simp] theorem readOperands_100b : readOperands 0x100b = read2 (fun a n => .pfNres a (n + 1)) := rfl
@[simp] theorem readOperands_100c : readOperands 0x100c = (do
    let c ← readWord
    let bs ← readBytes
    pure (.pfFromBytes c bs)) := rfl
@[simp] theorem readOperands_100d : readOperands 0x100d = read1 .pfToBytes := rfl
@[simp] theorem readOperands_100e : readOperands 0x100e = read1 .pfToBytesDense := rfl
@[simp] theorem readOperands_100f : readOperands 0x100f = read2 .pfToMont := rfl
@[simp] theorem readOperands_1010 : readOperands 0x1010 = read2 .pfFromMont := rfl
@[simp] theorem readOperands_2001 : readOperands 0x2001 = readAtLevel fun l => read1 (.exNew l) := rfl
@[simp] theorem readOperands_2002 : readOperands 0x2002 = readAtLevel fun l => read3 (.exAdd l) := rfl
@[simp] theorem readOperands_2003 : readOperands 0x2003 = readAtLevel fun l => read3 (.exSub l) := rfl
@[simp] theorem readOperands_2004 : readOperands 0x2004 = readAtLevel fun l => read2 (.exNeg l) := rfl
@[simp] theorem readOperands_2005 : readOperands 0x2005 = readAtLevel fun l => read2 (.exDouble l) := rfl
@[simp] theorem readOperands_2006 : readOperands 0x2006 = readAtLevel fun l => read3 (.exMul l) := rfl
@[simp] theorem readOperands_2007 : readOperands 0x2007 = readAtLevel fun l => read2 (.exSquare l) := rfl
@[simp] theorem readOperands_2008 : readOperands 0x2008 = readAtLevel fun l => read2 (.exInverse l) := rfl
@[simp] theorem readOperands_2009 : readOperands 0x2009 = readAtLevel fun l => read2Big (.exExp l) := rfl
@[simp] theorem readOperands_200a : readOperands 0x200a = (do
    let l ← readQuadLevel
    read2 (.exConjugate l)) := rfl
@[simp] theorem readOperands_200b : readOperands 0x200b = readAtLevel fun l => read3 (.exFrobeniusMap l) := rfl
@[simp] theorem readOperands_200c : readOperands 0x200c = readAtLevel fun l => pure (.exCalcFrob l) := rfl
@[simp] theorem readOperands_200d : readOperands 0x200d = (do
    let l ← readPreLevel
    read1 (.exCalcFrobPre l)) := rfl
@[simp] theorem readOperands_200e : readOperands 0x200e = read5 .exMulBy014 := rfl
@[simp] theorem readOperands_200f : readOperands 0x200f = read5 .exMulBy034 := rfl
@[simp] theorem readOperands_2010 : readOperands 0x2010 = read2 .exCyclotomicSquare := rfl
@[simp] theorem readOperands_3001 : readOperands 0x3001 = (do
    let f ← readCurveField
    let a ← readOptSlot
    let b ← readOptSlot
    let ob ← readBytes
    pure (.cgNew f a b ob)) := rfl
@[simp] theorem readOperands_3002 : readOperands 0x3002 = readAtGroup fun g => read1 (.cgIsZero g) := rfl
@[simp] theorem readOperands_3003 : readOperands 0x3003 = readAtGroup fun g => read1 (.cgIsOnCurve g) := rfl
@[simp] theorem readOperands_3004 : readOperands 0x3004 = readAtGroup fun g => read3 (.cgAdd g) := rfl
@[simp] theorem readOperands_3005 : readOperands 0x3005 = readAtGroup fun g => read2 (.cgDouble g) := rfl
@[simp] theorem readOperands_3006 : readOperands 0x3006 = readAtGroup fun g => read2 (.cgNegate g) := rfl
@[simp] theorem readOperands_3007 : readOperands 0x3007 = readAtGroup fun g => read2Big (.cgScalarMul g) := rfl
@[simp] theorem readOperands_3008 : readOperands 0x3008 = readAtGroup fun g => read2Big (.cgWnafMul g) := rfl
@[simp] theorem readOperands_3009 : readOperands 0x3009 = readAtGroup fun g => read1 (.cgSubgroupCheck g) := rfl
@[simp] theorem readOperands_300a : readOperands 0x300a = (do
    let g ← readGroup
    let r ← readWord
    let points ← readWord
    let n ← readWord
    let scalars ← readBigs
    pure (.cgMultiExp g r points n scalars)) := rfl
@[simp] theorem readOperands_300b : readOperands 0x300b = readAtGroup fun g => read2 (.cgToAffine g) := rfl
@[simp] theorem readOperands_4001 : readOperands 0x4001 = (do
    let f ← readFamily
    let t ← readTwist
    let x ← readBig
    let xn ← readBool
    let w0 ← readBig
    let w1 ← readBig
    let w0n ← readBool
    pure (.peNew f t x xn w0 w1 w0n)) := rfl
@[simp] theorem readOperands_4002 : readOperands 0x4002 = read3 .peDoublingStep := rfl
@[simp] theorem readOperands_4003 : readOperands 0x4003 = read4 .peAdditionStep := rfl
@[simp] theorem readOperands_4004 : readOperands 0x4004 = read4 .peEll := rfl
@[simp] theorem readOperands_4005 : readOperands 0x4005 = read3 .peMillerLoop := rfl
@[simp] theorem readOperands_4006 : readOperands 0x4006 = read2 .peFinalExp := rfl
@[simp] theorem readOperands_4007 : readOperands 0x4007 = read3 .peMultiPair := rfl
@[simp] theorem readOperands_4012 : readOperands 0x4012 = read3 .peDoublingStepMnt := rfl
@[simp] theorem readOperands_4013 : readOperands 0x4013 = read4 .peAdditionStepMnt := rfl
@[simp] theorem readOperands_4014 : readOperands 0x4014 = (do
    let k ← readLineKind
    read5 (.peEllMnt k)) := rfl
@[simp] theorem readOperands_4015 : readOperands 0x4015 = read3 .peMillerLoopMnt := rfl
@[simp] theorem readOperands_4016 : readOperands 0x4016 = read2 .peFinalExpMnt := rfl

end Sys2Proof
end

