-- ==== Sys2Proof/Laws/Fields.lean ====
section
/-! SUPPORT. The levels as data: an element is its coordinates and back, and how many there are (41_extension_tower.md
R170). And the constants of a constructed prime field. -/

namespace Sys2Proof.Machine

/-- A level whose elements are their coordinates. -/
structure Fld.Coordinates {α : Type} (F : Fld α) : Prop where
  back : ∀ x, F.ofCoords (F.coords x) = x
  length : ∀ x, (F.coords x).length = F.deg

theorem fpFld_coordinates (f : PrimeField) : (fpFld f).Coordinates := ⟨fun _ => rfl, fun _ => rfl⟩

theorem quadFld_coordinates {α : Type} {B : Fld α} (h : B.Coordinates) (nr : α → α) : (quadFld B nr).Coordinates := by
  refine ⟨fun x => ?_, fun x => ?_⟩
  · show (B.ofCoords ((B.coords x.1 ++ B.coords x.2).take B.deg), B.ofCoords ((B.coords x.1 ++ B.coords x.2).drop B.deg)) = x
    rw [List.take_left' (h.length _), List.drop_left' (h.length _), h.back, h.back]
  · show (B.coords x.1 ++ B.coords x.2).length = 2 * B.deg
    rw [List.length_append, h.length, h.length]; omega

theorem cubicFld_coordinates {α : Type} {B : Fld α} (h : B.Coordinates) (nr : α → α) : (cubicFld B nr).Coordinates := by
  refine ⟨fun x => ?_, fun x => ?_⟩
  · have h1 : (B.coords x.1 ++ B.coords x.2.1 ++ B.coords x.2.2).take B.deg = B.coords x.1 := by
      rw [List.append_assoc, List.take_left' (h.length _)]
    have h2 : ((B.coords x.1 ++ B.coords x.2.1 ++ B.coords x.2.2).drop B.deg).take B.deg = B.coords x.2.1 := by
      rw [List.append_assoc, List.drop_left' (h.length _), List.take_left' (h.length _)]
    have h3 : (B.coords x.1 ++ B.coords x.2.1 ++ B.coords x.2.2).drop (2 * B.deg) = B.coords x.2.2 :=
      List.drop_left' (by rw [List.length_append, h.length, h.length]; omega)
    show (B.ofCoords ((B.coords x.1 ++ B.coords x.2.1 ++ B.coords x.2.2).take B.deg),
      B.ofCoords (((B.coords x.1 ++ B.coords x.2.1 ++ B.coords x.2.2).drop B.deg).take B.deg),
      B.ofCoords ((B.coords x.1 ++ B.coords x.2.1 ++ B.coords x.2.2).drop (2 * B.deg))) = x
    rw [h1, h2, h3, h.back, h.back, h.back]
  · show (B.coords x.1 ++ B.coords x.2.1 ++ B.coords x.2.2).length = 3 * B.deg
    rw [List.length_append, List.length_append, h.length, h.length, h.length]; omega

theorem fq2Fld_coordinates (f : PrimeField) (beta : Nat) : (fq2Fld (fpFld f) beta).Coordinates :=
  quadFld_coordinates (fpFld_coordinates f) _
theorem fq3Fld_coordinates (f : PrimeField) (beta : Nat) : (fq3Fld (fpFld f) beta).Coordinates :=
  cubicFld_coordinates (fpFld_coordinates f) _
theorem fq4Fld_coordinates (f : PrimeField) (beta : Nat) : (fq4Fld (fpFld f) beta).Coordinates :=
  quadFld_coordinates (fq2Fld_coordinates f beta) _
theorem fq6cFld_coordinates (f : PrimeField) (beta : Nat) (xi : E2) : (fq6cFld (fq2Fld (fpFld f) beta) xi).Coordinates :=
  cubicFld_coordinates (fq2Fld_coordinates f beta) _
theorem fq6qFld_coordinates (f : PrimeField) (beta : Nat) : (fq6qFld (fpFld f) beta).Coordinates :=
  quadFld_coordinates (fq3Fld_coordinates f beta) _
theorem fq12Fld_coordinates (f : PrimeField) (beta : Nat) (xi : E2) : (fq12Fld (fq2Fld (fpFld f) beta) xi).Coordinates :=
  quadFld_coordinates (fq6cFld_coordinates f beta xi) _

@[simp] theorem fpFld_deg (f : PrimeField) : (fpFld f).deg = 1 := rfl
@[simp] theorem fq2Fld_deg (f : PrimeField) (beta : Nat) : (fq2Fld (fpFld f) beta).deg = 2 := rfl
@[simp] theorem fq3Fld_deg (f : PrimeField) (beta : Nat) : (fq3Fld (fpFld f) beta).deg = 3 := rfl
@[simp] theorem fq4Fld_deg (f : PrimeField) (beta : Nat) : (fq4Fld (fpFld f) beta).deg = 4 := rfl
@[simp] theorem fq6cFld_deg (f : PrimeField) (beta : Nat) (xi : E2) : (fq6cFld (fq2Fld (fpFld f) beta) xi).deg = 6 := rfl
@[simp] theorem fq6qFld_deg (f : PrimeField) (beta : Nat) : (fq6qFld (fpFld f) beta).deg = 6 := rfl
@[simp] theorem fq12Fld_deg (f : PrimeField) (beta : Nat) (xi : E2) : (fq12Fld (fq2Fld (fpFld f) beta) xi).deg = 12 := rfl

/-! ## The constants of a constructed field (40_prime_field.md R130) -/

@[simp] theorem PrimeField.ofModulus_p (p lp : Nat) : (PrimeField.ofModulus p lp).p = p := rfl
@[simp] theorem PrimeField.ofModulus_lp (p lp : Nat) : (PrimeField.ofModulus p lp).lp = lp := rfl
@[simp] theorem PrimeField.ofModulus_limbs (p lp : Nat) : (PrimeField.ofModulus p lp).limbs = limbCount p := rfl
@[simp] theorem PrimeField.ofModulus_zero (p lp : Nat) : (PrimeField.ofModulus p lp).zero = 0 := rfl
@[simp] theorem PrimeField.ofModulus_one (p lp : Nat) :
    (PrimeField.ofModulus p lp).one = 2 ^ (Config.limbBits * limbCount p) % p := rfl

/-- A modulus of at most 128 bytes has 4 to 16 limbs (40_prime_field.md R131). -/
theorem limbCount_bounds {p lp : Nat} (h : p < 256 ^ lp) (hl : lp ≤ Config.maxModulusLen) :
    Config.limbFloor ≤ limbCount p ∧ limbCount p ≤ Config.limbMax := by
  have hb : bitlen p ≤ 8 * lp := by
    rw [bitlen_le_iff, Nat.pow_mul]
    exact h
  unfold Config.maxModulusLen at hl
  unfold limbCount ceilDiv Config.limbFloor Config.limbBits Config.limbMax
  omega

/-! ## Reduced results -/

theorem PrimeField.add_lt {f : PrimeField} (h : 0 < f.p) (a b : Nat) : f.add a b < f.p := Nat.mod_lt _ h
theorem PrimeField.sub_lt {f : PrimeField} (h : 0 < f.p) (a b : Nat) : f.sub a b < f.p := Nat.mod_lt _ h
theorem PrimeField.double_lt {f : PrimeField} (h : 0 < f.p) (a : Nat) : f.double a < f.p := Nat.mod_lt _ h
theorem PrimeField.mul_lt {f : PrimeField} (h : 0 < f.p) (a b : Nat) : f.mul a b < f.p := Nat.mod_lt _ h
theorem PrimeField.toMont_lt {f : PrimeField} (h : 0 < f.p) (a : Nat) : f.toMont a < f.p := Nat.mod_lt _ h
theorem PrimeField.fromMont_lt {f : PrimeField} (h : 0 < f.p) (a : Nat) : f.fromMont a < f.p := Nat.mod_lt _ h
theorem PrimeField.negate_lt {f : PrimeField} (h : 0 < f.p) (a : Nat) : f.negate a < f.p := by
  unfold PrimeField.negate
  split <;> omega

end Sys2Proof.Machine
end

