-- ==== Sys2Proof/Laws/Memory.lean ====
section
/-! SUPPORT. The tapes and the slots: read after write, and the canonical forms every operation keeps. -/

namespace Sys2Proof.Machine

/-! ## Cells -/

/-- A canonical list stays canonical below a larger length. -/
theorem cellsCanonical_mono {hi hi' : Nat} (h : hi ≤ hi') :
    ∀ (cs : List Host.Cell) (lo : Nat), cellsCanonical hi lo cs = true → cellsCanonical hi' lo cs = true
  | [], _, _ => rfl
  | (k, b) :: rest, lo, hc => by
    simp only [cellsCanonical, Bool.and_eq_true, decide_eq_true_eq] at hc ⊢
    exact ⟨⟨⟨hc.1.1.1, by omega⟩, hc.1.2⟩, cellsCanonical_mono h rest _ hc.2⟩

/-- A canonical list from `lo` is canonical from any lower start. -/
theorem cellsCanonical_lower {hi : Nat} : ∀ (cs : List Host.Cell) (lo lo' : Nat), lo' ≤ lo →
    cellsCanonical hi lo cs = true → cellsCanonical hi lo' cs = true
  | [], _, _, _, _ => rfl
  | (k, b) :: rest, lo, lo', h, hc => by
    simp only [cellsCanonical, Bool.and_eq_true, decide_eq_true_eq] at hc ⊢
    exact ⟨⟨⟨by omega, hc.1.1.2⟩, hc.1.2⟩, hc.2⟩

/-- Below the first listed address every byte is 00. -/
theorem cellLookup_below {hi : Nat} : ∀ (cs : List Host.Cell) (lo a : Nat), a < lo →
    cellsCanonical hi lo cs = true → cellLookup a cs = 0
  | [], _, _, _, _ => rfl
  | (k, b) :: rest, lo, a, h, hc => by
    simp only [cellsCanonical, Bool.and_eq_true, decide_eq_true_eq] at hc
    have : k ≠ a := by omega
    simp only [cellLookup, this, if_false]
    exact cellLookup_below rest (k + 1) a (by omega) hc.2

/-- Inserting inside the tape keeps the canonical form. -/
theorem cellInsert_canonical {hi : Nat} (a : Nat) (b : Byte) (ha : a < hi) : ∀ (cs : List Host.Cell) (lo : Nat),
    lo ≤ a → cellsCanonical hi lo cs = true → cellsCanonical hi lo (cellInsert a b cs) = true
  | [], lo, h, _ => by
    simp only [cellInsert]
    split
    · rfl
    · next hb =>
      simp only [cellsCanonical, Bool.and_eq_true, decide_eq_true_eq]
      exact ⟨⟨⟨h, ha⟩, by simpa using hb⟩, trivial⟩
  | (k, c) :: rest, lo, h, hc => by
    have hc' := hc
    simp only [cellsCanonical, Bool.and_eq_true, decide_eq_true_eq] at hc
    obtain ⟨⟨⟨h1, h2⟩, h3⟩, h4⟩ := hc
    simp only [cellInsert]
    split
    · split
      · exact hc'
      · next hb =>
        simp only [cellsCanonical, Bool.and_eq_true, decide_eq_true_eq]
        exact ⟨⟨⟨h, ha⟩, by simpa using hb⟩, ⟨⟨⟨by omega, h2⟩, h3⟩, h4⟩⟩
    · split
      · next hk =>
        subst hk
        split
        · exact cellsCanonical_lower rest _ _ (by omega) h4
        · next hb =>
          simp only [cellsCanonical, Bool.and_eq_true, decide_eq_true_eq]
          exact ⟨⟨⟨h, ha⟩, by simpa using hb⟩, h4⟩
      · simp only [cellsCanonical, Bool.and_eq_true, decide_eq_true_eq]
        exact ⟨⟨⟨h1, h2⟩, h3⟩, cellInsert_canonical a b ha rest (k + 1) (by omega) h4⟩

/-- The byte written is the byte read. -/
theorem cellLookup_insert_same {hi : Nat} (a : Nat) (b : Byte) : ∀ (cs : List Host.Cell) (lo : Nat),
    cellsCanonical hi lo cs = true → cellLookup a (cellInsert a b cs) = b
  | [], _, _ => by
    simp only [cellInsert]
    split
    · next hb => rw [hb]; rfl
    · simp [cellLookup]
  | (k, c) :: rest, lo, hc => by
    simp only [cellsCanonical, Bool.and_eq_true, decide_eq_true_eq] at hc
    obtain ⟨⟨⟨h1, h2⟩, h3⟩, h4⟩ := hc
    simp only [cellInsert]
    split
    · split
      · next hlt hb =>
        have : k ≠ a := by omega
        simp only [cellLookup, this, if_false, hb]
        exact cellLookup_below rest (k + 1) a (by omega) h4
      · simp [cellLookup]
    · split
      · next hk =>
        subst hk
        split
        · next hb => rw [hb]; exact cellLookup_below rest (a + 1) a (by omega) h4
        · simp [cellLookup]
      · next hne =>
        have : k ≠ a := fun e => hne e.symm
        simp only [cellLookup, this, if_false]
        exact cellLookup_insert_same a b rest (k + 1) h4

/-- A write leaves every other address alone. -/
theorem cellLookup_insert_other (a a' : Nat) (b : Byte) (h : a' ≠ a) : ∀ cs : List Host.Cell,
    cellLookup a' (cellInsert a b cs) = cellLookup a' cs
  | [] => by
    simp only [cellInsert]
    split
    · rfl
    · simp only [cellLookup, h.symm, if_false]
  | (k, c) :: rest => by
    simp only [cellInsert]
    split
    · split
      · rfl
      · simp only [cellLookup, h.symm, if_false]
    · split
      · next hk =>
        subst hk
        split
        · simp only [cellLookup, h.symm, if_false]
        · simp only [cellLookup, h.symm, if_false]
      · simp only [cellLookup]
        split
        · rfl
        · exact cellLookup_insert_other a a' b h rest

/-! ## Tapes -/

/-- A tape of no bytes is canonical. -/
@[simp] theorem Memory.wf_empty : Memory.empty.wf = true := rfl

/-- Writing one byte keeps the canonical form. -/
theorem Memory.wf_writeByte (m : Memory) (a : Nat) (b : Byte) (h : m.wf = true) : (m.writeByte a b).wf = true := by
  have hl : m.len ≤ max m.len (a + 1) := by omega
  exact cellInsert_canonical a b (by show a < max m.len (a + 1); omega) _ 0 (Nat.zero_le _) (cellsCanonical_mono hl _ _ h)

/-- Writing bytes keeps the canonical form. -/
theorem Memory.wf_write : ∀ (bs : List Byte) (m : Memory) (a : Nat), m.wf = true → (m.write a bs).wf = true
  | [], m, a, h => cellsCanonical_mono (by show m.len ≤ max m.len a; omega) _ _ h
  | b :: bs, m, a, h => Memory.wf_write bs _ _ (Memory.wf_writeByte m a b h)

/-- A tape holding a byte string is canonical. -/
theorem Memory.wf_ofBytes (bs : List Byte) : (Memory.ofBytes bs).wf = true :=
  Memory.wf_write bs _ _ rfl

/-- Read after write at the same address. -/
theorem Memory.read_writeByte_same (m : Memory) (a : Nat) (b : Byte) (h : m.wf = true) :
    (m.writeByte a b).read a = b :=
  cellLookup_insert_same a b m.cells 0 h

/-- Read after write at another address. -/
theorem Memory.read_writeByte_other (m : Memory) (a a' : Nat) (b : Byte) (h : a' ≠ a) :
    (m.writeByte a b).read a' = m.read a' :=
  cellLookup_insert_other a a' b h m.cells

/-- The length after writing bytes. -/
theorem Memory.write_len : ∀ (bs : List Byte) (m : Memory) (a : Nat), (m.write a bs).len = max m.len (a + bs.length)
  | [], m, a => by simp only [Memory.write, List.length_nil]; omega
  | b :: bs, m, a => by
    simp only [Memory.write, List.length_cons]
    rw [Memory.write_len bs]
    simp only [Memory.writeByte]
    omega

/-- What a tape holds after writing bytes. -/
theorem Memory.read_write : ∀ (bs : List Byte) (m : Memory) (a i : Nat), m.wf = true →
    (m.write a bs).read i = if a ≤ i ∧ i < a + bs.length then bs.getD (i - a) 0 else m.read i
  | [], m, a, i, _ => by
    have : ¬ (a ≤ i ∧ i < a + ([] : List Byte).length) := by simp only [List.length_nil]; omega
    rw [if_neg this]; rfl
  | b :: bs, m, a, i, h => by
    simp only [Memory.write, List.length_cons]
    rw [Memory.read_write bs _ _ _ (Memory.wf_writeByte m a b h)]
    by_cases e : i = a
    · subst e
      rw [if_neg (by omega), if_pos (by omega), Memory.read_writeByte_same m i b h]
      simp
    · rw [Memory.read_writeByte_other m a i b e]
      by_cases hr : a + 1 ≤ i ∧ i < a + 1 + bs.length
      · rw [if_pos hr, if_pos (by omega)]
        have : i - a = (i - (a + 1)) + 1 := by omega
        rw [this, List.getD_cons_succ]
      · rw [if_neg hr, if_neg (by omega)]

/-- The length of a tape holding a byte string. -/
@[simp] theorem Memory.ofBytes_len (bs : List Byte) : (Memory.ofBytes bs).len = bs.length := by
  rw [Memory.ofBytes, Memory.write_len bs]
  simp [Memory.empty]

/-- The bytes of a tape holding a byte string. -/
theorem Memory.ofBytes_read (bs : List Byte) (i : Nat) : (Memory.ofBytes bs).read i = bs.getD i 0 := by
  rw [Memory.ofBytes, Memory.read_write bs _ _ _ rfl]
  split
  · simp
  · next h =>
    have : bs.length ≤ i := by omega
    simp only [List.getD, List.getElem?_eq_none this]; rfl

/-- A run of bytes of a tape holding a byte string. -/
theorem Memory.ofBytes_readList (bs : List Byte) : ∀ (n a : Nat), a + n ≤ bs.length →
    (Memory.ofBytes bs).readList a n = (bs.drop a).take n
  | 0, a, _ => by simp [Memory.readList]
  | n + 1, a, h => by
    have ha : a < bs.length := by omega
    rw [Memory.readList, Memory.ofBytes_readList bs n (a + 1) (by omega), Memory.ofBytes_read,
      List.drop_eq_getElem_cons ha, List.take_succ_cons]
    simp [List.getD, List.getElem?_eq_getElem ha]

/-- `MemRead` inside a tape holding a byte string. -/
theorem Memory.ofBytes_readBytes (bs : List Byte) (a n : Nat) (h : a + n ≤ bs.length) :
    (Memory.ofBytes bs).readBytes a n = some ((bs.drop a).take n) := by
  rw [Memory.readBytes, Memory.ofBytes_len, if_pos h, Memory.ofBytes_readList bs n a h]

/-- The bytes of a tape holding a byte string are that string. -/
theorem Memory.toBytes_ofBytes (bs : List Byte) : (Memory.ofBytes bs).toBytes = bs := by
  rw [Memory.toBytes, Memory.ofBytes_len, Memory.ofBytes_readList bs _ _ (by omega)]
  simp

@[simp] theorem Memory.readList_length (m : Memory) : ∀ (n a : Nat), (m.readList a n).length = n
  | 0, _ => rfl
  | n + 1, a => by simp [Memory.readList, Memory.readList_length m n]

/-! ## Slots -/

/-- The value written is the value read. -/
@[simp] theorem regGet_set_same (i v : Nat) : ∀ rf : RegFile, regGet i (regSet i v rf) = some v
  | [] => by simp [regSet, regGet]
  | (k, w) :: rest => by
    simp only [regSet]
    split
    · simp [regGet]
    · split
      · simp [regGet]
      · next h =>
        have : k ≠ i := fun e => h e.symm
        simp only [regGet, this, if_false]
        exact regGet_set_same i v rest

/-- A write leaves every other slot alone. -/
theorem regGet_set_other (i j v : Nat) (h : j ≠ i) : ∀ rf : RegFile, regGet j (regSet i v rf) = regGet j rf
  | [] => by simp [regSet, regGet, h.symm]
  | (k, w) :: rest => by
    simp only [regSet]
    split
    · simp only [regGet, h.symm, if_false]
    · split
      · next hk => subst hk; simp only [regGet, h.symm, if_false]
      · simp only [regGet]
        split
        · rfl
        · exact regGet_set_other i j v h rest

/-- Numbers rising from `lo` also rise from any lower start. -/
theorem regsCanonical_lower : ∀ (rf : RegFile) (lo lo' : Nat), lo' ≤ lo → regsCanonical lo rf = true →
    regsCanonical lo' rf = true
  | [], _, _, _, _ => rfl
  | (k, w) :: rest, lo, lo', h, hc => by
    simp only [regsCanonical, Bool.and_eq_true, decide_eq_true_eq] at hc ⊢
    exact ⟨by omega, hc.2⟩

/-- A write keeps the slots canonical. -/
theorem regSet_canonical (i v : Nat) : ∀ (rf : RegFile) (lo : Nat), lo ≤ i → regsCanonical lo rf = true →
    regsCanonical lo (regSet i v rf) = true
  | [], lo, h, _ => by simp [regSet, regsCanonical, h]
  | (k, w) :: rest, lo, h, hc => by
    simp only [regsCanonical, Bool.and_eq_true, decide_eq_true_eq] at hc
    simp only [regSet]
    split
    · simp only [regsCanonical, Bool.and_eq_true, decide_eq_true_eq]
      exact ⟨h, by omega, hc.2⟩
    · split
      · next hk =>
        subst hk
        simp only [regsCanonical, Bool.and_eq_true, decide_eq_true_eq]
        exact ⟨h, hc.2⟩
      · simp only [regsCanonical, Bool.and_eq_true, decide_eq_true_eq]
        exact ⟨hc.1, regSet_canonical i v rest (k + 1) (by omega) hc.2⟩

/-- Writing a group keeps the slots canonical. -/
theorem regSetGroup_canonical : ∀ (vs : List Nat) (a : Nat) (rf : RegFile), regsCanonical 0 rf = true →
    regsCanonical 0 (regSetGroup a vs rf) = true
  | [], _, _, h => h
  | v :: vs, a, rf, h => regSetGroup_canonical vs (a + 1) _ (regSet_canonical a v rf 0 (Nat.zero_le _) h)

/-- A slot outside a written group is unchanged. -/
theorem regGet_setGroup_other : ∀ (vs : List Nat) (a j : Nat) (rf : RegFile), (j < a ∨ a + vs.length ≤ j) →
    regGet j (regSetGroup a vs rf) = regGet j rf
  | [], _, _, _, _ => rfl
  | v :: vs, a, j, rf, h => by
    simp only [List.length_cons] at h
    rw [regSetGroup, regGet_setGroup_other vs (a + 1) j _ (by omega), regGet_set_other a j v (by omega)]

/-- A slot inside a written group holds its value. -/
theorem regGet_setGroup_inside : ∀ (vs : List Nat) (a i : Nat) (rf : RegFile), i < vs.length →
    regGet (a + i) (regSetGroup a vs rf) = vs[i]?
  | [], _, _, _, h => absurd h (by simp)
  | v :: vs, a, 0, rf, _ => by
    rw [regSetGroup, regGet_setGroup_other vs (a + 1) (a + 0) _ (by omega)]
    simp
  | v :: vs, a, i + 1, rf, h => by
    have := regGet_setGroup_inside vs (a + 1) i (regSet a v rf) (by simpa using h)
    rw [regSetGroup, show a + (i + 1) = a + 1 + i by omega, this]
    simp

/-- A group of slots depends on its own slots only. -/
theorem regGetGroup_congr {rf rf' : RegFile} : ∀ (n a : Nat), (∀ i, a ≤ i → i < a + n → regGet i rf = regGet i rf') →
    regGetGroup rf a n = regGetGroup rf' a n
  | 0, _, _ => rfl
  | n + 1, a, h => by
    simp only [regGetGroup]
    rw [h a (Nat.le_refl _) (by omega), regGetGroup_congr n (a + 1) (fun i h1 h2 => h i (by omega) (by omega))]

/-- A written group is read back. -/
theorem regGetGroup_setGroup : ∀ (vs : List Nat) (a : Nat) (rf : RegFile),
    regGetGroup (regSetGroup a vs rf) a vs.length = .ok vs
  | [], _, _ => rfl
  | v :: vs, a, rf => by
    simp only [List.length_cons, regGetGroup, regSetGroup]
    rw [regGet_setGroup_other vs (a + 1) a _ (by omega), regGet_set_same]
    simp only
    rw [regGetGroup_setGroup vs (a + 1) (regSet a v rf)]

/-- A group that is read has the length asked for. -/
theorem regGetGroup_length {rf : RegFile} : ∀ (n a : Nat) {vs : List Nat}, regGetGroup rf a n = .ok vs → vs.length = n
  | 0, _, vs, h => by cases h; rfl
  | n + 1, a, vs, h => by
    simp only [regGetGroup] at h
    split at h
    · cases h
    · split at h
      · cases h
      · next hg => cases h; simp [regGetGroup_length n (a + 1) hg]

/-- Every value of a group that is read stands in its slot. -/
theorem regGetGroup_get {rf : RegFile} : ∀ (n a : Nat) {vs : List Nat}, regGetGroup rf a n = .ok vs →
    ∀ i, i < n → regGet (a + i) rf = vs[i]?
  | 0, _, _, _, i, h => absurd h (by omega)
  | n + 1, a, vs, h, i, hi => by
    simp only [regGetGroup] at h
    split at h
    · cases h
    · next v hv =>
      split at h
      · cases h
      · next ws hg =>
        cases h
        cases i with
        | zero => simpa using hv
        | succ i =>
          rw [show a + (i + 1) = a + 1 + i by omega, regGetGroup_get n (a + 1) hg i (by omega)]
          simp

/-- A value in the slots is the value of its number, when the slots are canonical. -/
theorem regGet_mem : ∀ (rf : RegFile) (i v : Nat), regGet i rf = some v → (i, v) ∈ rf
  | [], _, _, h => by cases h
  | (k, w) :: rest, i, v, h => by
    simp only [regGet] at h
    split at h
    · next hk => cases h; subst hk; simp
    · exact List.mem_cons_of_mem _ (regGet_mem rest i v h)

/-- What a write puts among the slots: the new entry, or an old one. -/
theorem mem_regSet : ∀ (rf : RegFile) (i v : Nat) (e : Nat × Nat), e ∈ regSet i v rf → e = (i, v) ∨ e ∈ rf
  | [], i, v, e, h => by simp [regSet] at h; exact .inl h
  | (k, w) :: rest, i, v, e, h => by
    simp only [regSet] at h
    split at h
    · simpa using h
    · split at h
      · rcases List.mem_cons.mp h with h | h
        · exact .inl h
        · exact .inr (List.mem_cons_of_mem _ h)
      · rcases List.mem_cons.mp h with h | h
        · exact .inr (by simp [h])
        · rcases mem_regSet rest i v e h with h | h
          · exact .inl h
          · exact .inr (List.mem_cons_of_mem _ h)

/-- What writing a group puts among the slots. -/
theorem mem_regSetGroup : ∀ (vs : List Nat) (a : Nat) (rf : RegFile) (e : Nat × Nat), e ∈ regSetGroup a vs rf →
    e.2 ∈ vs ∨ e ∈ rf
  | [], _, _, _, h => .inr h
  | v :: vs, a, rf, e, h => by
    rcases mem_regSetGroup vs (a + 1) _ e h with h | h
    · exact .inl (List.mem_cons_of_mem _ h)
    · rcases mem_regSet rf a v e h with h | h
      · exact .inl (by simp [h])
      · exact .inr h

end Sys2Proof.Machine
end

