-- ==== Sys2Proof/Laws/State.lean ====
section
/-! SUPPORT. What each update of the state leaves in each field, so that no proof unfolds an update. -/

namespace Sys2Proof.Machine

/-! ## `setOff` -/

section
variable (s : State) (o : Nat)

@[simp] theorem State.setOff_cfg : (s.setOff o).cfg = s.cfg := rfl
@[simp] theorem State.setOff_inp : (s.setOff o).inp = s.inp := rfl
@[simp] theorem State.setOff_out : (s.setOff o).out = s.out := rfl
@[simp] theorem State.setOff_res : (s.setOff o).res = s.res := rfl
@[simp] theorem State.setOff_cur : (s.setOff o).cur = { s.cur with off := o } := rfl
@[simp] theorem State.setOff_pf : (s.setOff o).pf = s.pf := rfl
@[simp] theorem State.setOff_ex : (s.setOff o).ex = s.ex := rfl
@[simp] theorem State.setOff_cg1 : (s.setOff o).cg1 = s.cg1 := rfl
@[simp] theorem State.setOff_cg2 : (s.setOff o).cg2 = s.cg2 := rfl
@[simp] theorem State.setOff_pe : (s.setOff o).pe = s.pe := rfl
@[simp] theorem State.setOff_flags : (s.setOff o).flags = s.flags := rfl
@[simp] theorem State.setOff_slots : (s.setOff o).slots = s.slots := rfl
@[simp] theorem State.setOff_port : (s.setOff o).port = s.port := rfl
@[simp] theorem State.setOff_ret : (s.setOff o).ret = s.ret := rfl
@[simp] theorem State.setOff_freeCtr : (s.setOff o).freeCtr = s.freeCtr := rfl

end

/-! ## `setField` -/

section
variable (s : State) (lp : Nat)

@[simp] theorem State.setField_cfg : (s.setField lp).cfg = s.cfg := rfl
@[simp] theorem State.setField_inp : (s.setField lp).inp = s.inp := rfl
@[simp] theorem State.setField_out : (s.setField lp).out = s.out := rfl
@[simp] theorem State.setField_res : (s.setField lp).res = s.res := rfl
@[simp] theorem State.setField_cur : (s.setField lp).cur = { s.cur with fieldSet := true, lp := some lp } := rfl
@[simp] theorem State.setField_pf : (s.setField lp).pf = s.pf := rfl
@[simp] theorem State.setField_ex : (s.setField lp).ex = s.ex := rfl
@[simp] theorem State.setField_cg1 : (s.setField lp).cg1 = s.cg1 := rfl
@[simp] theorem State.setField_cg2 : (s.setField lp).cg2 = s.cg2 := rfl
@[simp] theorem State.setField_pe : (s.setField lp).pe = s.pe := rfl
@[simp] theorem State.setField_flags : (s.setField lp).flags = s.flags := rfl
@[simp] theorem State.setField_slots : (s.setField lp).slots = s.slots := rfl
@[simp] theorem State.setField_port : (s.setField lp).port = s.port := rfl
@[simp] theorem State.setField_ret : (s.setField lp).ret = s.ret := rfl
@[simp] theorem State.setField_freeCtr : (s.setField lp).freeCtr = s.freeCtr := rfl

end

/-! ## `setLq` -/

section
variable (s : State) (lq : Nat)

@[simp] theorem State.setLq_cfg : (s.setLq lq).cfg = s.cfg := rfl
@[simp] theorem State.setLq_inp : (s.setLq lq).inp = s.inp := rfl
@[simp] theorem State.setLq_out : (s.setLq lq).out = s.out := rfl
@[simp] theorem State.setLq_res : (s.setLq lq).res = s.res := rfl
@[simp] theorem State.setLq_cur : (s.setLq lq).cur = { s.cur with lq := some lq } := rfl
@[simp] theorem State.setLq_pf : (s.setLq lq).pf = s.pf := rfl
@[simp] theorem State.setLq_ex : (s.setLq lq).ex = s.ex := rfl
@[simp] theorem State.setLq_cg1 : (s.setLq lq).cg1 = s.cg1 := rfl
@[simp] theorem State.setLq_cg2 : (s.setLq lq).cg2 = s.cg2 := rfl
@[simp] theorem State.setLq_pe : (s.setLq lq).pe = s.pe := rfl
@[simp] theorem State.setLq_flags : (s.setLq lq).flags = s.flags := rfl
@[simp] theorem State.setLq_slots : (s.setLq lq).slots = s.slots := rfl
@[simp] theorem State.setLq_port : (s.setLq lq).port = s.port := rfl
@[simp] theorem State.setLq_ret : (s.setLq lq).ret = s.ret := rfl
@[simp] theorem State.setLq_freeCtr : (s.setLq lq).freeCtr = s.freeCtr := rfl

end

/-! ## `setPF` -/

section
variable (s : State) (f : PrimeField)

@[simp] theorem State.setPF_cfg : (s.setPF f).cfg = s.cfg := rfl
@[simp] theorem State.setPF_inp : (s.setPF f).inp = s.inp := rfl
@[simp] theorem State.setPF_out : (s.setPF f).out = s.out := rfl
@[simp] theorem State.setPF_res : (s.setPF f).res = s.res := rfl
@[simp] theorem State.setPF_cur : (s.setPF f).cur = s.cur := rfl
@[simp] theorem State.setPF_pf : (s.setPF f).pf = some f := rfl
@[simp] theorem State.setPF_ex : (s.setPF f).ex = s.ex := rfl
@[simp] theorem State.setPF_cg1 : (s.setPF f).cg1 = s.cg1 := rfl
@[simp] theorem State.setPF_cg2 : (s.setPF f).cg2 = s.cg2 := rfl
@[simp] theorem State.setPF_pe : (s.setPF f).pe = s.pe := rfl
@[simp] theorem State.setPF_flags : (s.setPF f).flags = s.flags := rfl
@[simp] theorem State.setPF_slots : (s.setPF f).slots = s.slots := rfl
@[simp] theorem State.setPF_port : (s.setPF f).port = s.port := rfl
@[simp] theorem State.setPF_ret : (s.setPF f).ret = s.ret := rfl
@[simp] theorem State.setPF_freeCtr : (s.setPF f).freeCtr = s.freeCtr := rfl

end

/-! ## `setSlots` -/

section
variable (s : State) (rf : RegFile)

@[simp] theorem State.setSlots_cfg : (s.setSlots rf).cfg = s.cfg := rfl
@[simp] theorem State.setSlots_inp : (s.setSlots rf).inp = s.inp := rfl
@[simp] theorem State.setSlots_out : (s.setSlots rf).out = s.out := rfl
@[simp] theorem State.setSlots_res : (s.setSlots rf).res = s.res := rfl
@[simp] theorem State.setSlots_cur : (s.setSlots rf).cur = s.cur := rfl
@[simp] theorem State.setSlots_pf : (s.setSlots rf).pf = s.pf := rfl
@[simp] theorem State.setSlots_ex : (s.setSlots rf).ex = s.ex := rfl
@[simp] theorem State.setSlots_cg1 : (s.setSlots rf).cg1 = s.cg1 := rfl
@[simp] theorem State.setSlots_cg2 : (s.setSlots rf).cg2 = s.cg2 := rfl
@[simp] theorem State.setSlots_pe : (s.setSlots rf).pe = s.pe := rfl
@[simp] theorem State.setSlots_flags : (s.setSlots rf).flags = s.flags := rfl
@[simp] theorem State.setSlots_slots : (s.setSlots rf).slots = rf := rfl
@[simp] theorem State.setSlots_port : (s.setSlots rf).port = s.port := rfl
@[simp] theorem State.setSlots_ret : (s.setSlots rf).ret = s.ret := rfl
@[simp] theorem State.setSlots_freeCtr : (s.setSlots rf).freeCtr = s.freeCtr := rfl

end

/-! ## `setFlags` -/

section
variable (s : State) (f : Flags)

@[simp] theorem State.setFlags_cfg : (s.setFlags f).cfg = s.cfg := rfl
@[simp] theorem State.setFlags_inp : (s.setFlags f).inp = s.inp := rfl
@[simp] theorem State.setFlags_out : (s.setFlags f).out = s.out := rfl
@[simp] theorem State.setFlags_res : (s.setFlags f).res = s.res := rfl
@[simp] theorem State.setFlags_cur : (s.setFlags f).cur = s.cur := rfl
@[simp] theorem State.setFlags_pf : (s.setFlags f).pf = s.pf := rfl
@[simp] theorem State.setFlags_ex : (s.setFlags f).ex = s.ex := rfl
@[simp] theorem State.setFlags_cg1 : (s.setFlags f).cg1 = s.cg1 := rfl
@[simp] theorem State.setFlags_cg2 : (s.setFlags f).cg2 = s.cg2 := rfl
@[simp] theorem State.setFlags_pe : (s.setFlags f).pe = s.pe := rfl
@[simp] theorem State.setFlags_flags : (s.setFlags f).flags = f := rfl
@[simp] theorem State.setFlags_slots : (s.setFlags f).slots = s.slots := rfl
@[simp] theorem State.setFlags_port : (s.setFlags f).port = s.port := rfl
@[simp] theorem State.setFlags_ret : (s.setFlags f).ret = s.ret := rfl
@[simp] theorem State.setFlags_freeCtr : (s.setFlags f).freeCtr = s.freeCtr := rfl

end

/-! ## `setPE` -/

section
variable (s : State) (e : Engine)

@[simp] theorem State.setPE_cfg : (s.setPE e).cfg = s.cfg := rfl
@[simp] theorem State.setPE_inp : (s.setPE e).inp = s.inp := rfl
@[simp] theorem State.setPE_out : (s.setPE e).out = s.out := rfl
@[simp] theorem State.setPE_res : (s.setPE e).res = s.res := rfl
@[simp] theorem State.setPE_cur : (s.setPE e).cur = s.cur := rfl
@[simp] theorem State.setPE_pf : (s.setPE e).pf = s.pf := rfl
@[simp] theorem State.setPE_ex : (s.setPE e).ex = s.ex := rfl
@[simp] theorem State.setPE_cg1 : (s.setPE e).cg1 = s.cg1 := rfl
@[simp] theorem State.setPE_cg2 : (s.setPE e).cg2 = s.cg2 := rfl
@[simp] theorem State.setPE_pe : (s.setPE e).pe = some e := rfl
@[simp] theorem State.setPE_flags : (s.setPE e).flags = s.flags := rfl
@[simp] theorem State.setPE_slots : (s.setPE e).slots = s.slots := rfl
@[simp] theorem State.setPE_port : (s.setPE e).port = s.port := rfl
@[simp] theorem State.setPE_ret : (s.setPE e).ret = s.ret := rfl
@[simp] theorem State.setPE_freeCtr : (s.setPE e).freeCtr = s.freeCtr := rfl

end

/-! ## `setRet` -/

section
variable (s : State) (bs : List Byte)

@[simp] theorem State.setRet_cfg : (s.setRet bs).cfg = s.cfg := rfl
@[simp] theorem State.setRet_inp : (s.setRet bs).inp = s.inp := rfl
@[simp] theorem State.setRet_out : (s.setRet bs).out = s.out := rfl
@[simp] theorem State.setRet_res : (s.setRet bs).res = s.res := rfl
@[simp] theorem State.setRet_cur : (s.setRet bs).cur = s.cur := rfl
@[simp] theorem State.setRet_pf : (s.setRet bs).pf = s.pf := rfl
@[simp] theorem State.setRet_ex : (s.setRet bs).ex = s.ex := rfl
@[simp] theorem State.setRet_cg1 : (s.setRet bs).cg1 = s.cg1 := rfl
@[simp] theorem State.setRet_cg2 : (s.setRet bs).cg2 = s.cg2 := rfl
@[simp] theorem State.setRet_pe : (s.setRet bs).pe = s.pe := rfl
@[simp] theorem State.setRet_flags : (s.setRet bs).flags = s.flags := rfl
@[simp] theorem State.setRet_slots : (s.setRet bs).slots = s.slots := rfl
@[simp] theorem State.setRet_port : (s.setRet bs).port = s.port := rfl
@[simp] theorem State.setRet_ret : (s.setRet bs).ret = some bs := rfl
@[simp] theorem State.setRet_freeCtr : (s.setRet bs).freeCtr = s.freeCtr := rfl

end

/-! ## `bumpFree` -/

section
variable (s : State)

@[simp] theorem State.bumpFree_cfg : (s.bumpFree).cfg = s.cfg := rfl
@[simp] theorem State.bumpFree_inp : (s.bumpFree).inp = s.inp := rfl
@[simp] theorem State.bumpFree_out : (s.bumpFree).out = s.out := rfl
@[simp] theorem State.bumpFree_res : (s.bumpFree).res = s.res := rfl
@[simp] theorem State.bumpFree_cur : (s.bumpFree).cur = s.cur := rfl
@[simp] theorem State.bumpFree_pf : (s.bumpFree).pf = s.pf := rfl
@[simp] theorem State.bumpFree_ex : (s.bumpFree).ex = s.ex := rfl
@[simp] theorem State.bumpFree_cg1 : (s.bumpFree).cg1 = s.cg1 := rfl
@[simp] theorem State.bumpFree_cg2 : (s.bumpFree).cg2 = s.cg2 := rfl
@[simp] theorem State.bumpFree_pe : (s.bumpFree).pe = s.pe := rfl
@[simp] theorem State.bumpFree_flags : (s.bumpFree).flags = s.flags := rfl
@[simp] theorem State.bumpFree_slots : (s.bumpFree).slots = s.slots := rfl
@[simp] theorem State.bumpFree_port : (s.bumpFree).port = s.port := rfl
@[simp] theorem State.bumpFree_ret : (s.bumpFree).ret = s.ret := rfl
@[simp] theorem State.bumpFree_freeCtr : (s.bumpFree).freeCtr = s.freeCtr + 1 := rfl

end

/-! ## `clearPort` -/

section
variable (s : State)

@[simp] theorem State.clearPort_cfg : (s.clearPort).cfg = s.cfg := rfl
@[simp] theorem State.clearPort_inp : (s.clearPort).inp = s.inp := rfl
@[simp] theorem State.clearPort_out : (s.clearPort).out = s.out := rfl
@[simp] theorem State.clearPort_res : (s.clearPort).res = s.res := rfl
@[simp] theorem State.clearPort_cur : (s.clearPort).cur = s.cur := rfl
@[simp] theorem State.clearPort_pf : (s.clearPort).pf = s.pf := rfl
@[simp] theorem State.clearPort_ex : (s.clearPort).ex = s.ex := rfl
@[simp] theorem State.clearPort_cg1 : (s.clearPort).cg1 = s.cg1 := rfl
@[simp] theorem State.clearPort_cg2 : (s.clearPort).cg2 = s.cg2 := rfl
@[simp] theorem State.clearPort_pe : (s.clearPort).pe = s.pe := rfl
@[simp] theorem State.clearPort_flags : (s.clearPort).flags = s.flags := rfl
@[simp] theorem State.clearPort_slots : (s.clearPort).slots = s.slots := rfl
@[simp] theorem State.clearPort_port : (s.clearPort).port = [] := rfl
@[simp] theorem State.clearPort_ret : (s.clearPort).ret = s.ret := rfl
@[simp] theorem State.clearPort_freeCtr : (s.clearPort).freeCtr = s.freeCtr := rfl

end

/-! ## `setEX` -/

section
variable (s : State) (l : Level) (e : ExtField)

@[simp] theorem State.setEX_cfg : (s.setEX l e).cfg = s.cfg := rfl
@[simp] theorem State.setEX_inp : (s.setEX l e).inp = s.inp := rfl
@[simp] theorem State.setEX_out : (s.setEX l e).out = s.out := rfl
@[simp] theorem State.setEX_res : (s.setEX l e).res = s.res := rfl
@[simp] theorem State.setEX_cur : (s.setEX l e).cur = s.cur := rfl
@[simp] theorem State.setEX_pf : (s.setEX l e).pf = s.pf := rfl
@[simp] theorem State.setEX_ex : (s.setEX l e).ex = s.ex.put e l := rfl
@[simp] theorem State.setEX_cg1 : (s.setEX l e).cg1 = s.cg1 := rfl
@[simp] theorem State.setEX_cg2 : (s.setEX l e).cg2 = s.cg2 := rfl
@[simp] theorem State.setEX_pe : (s.setEX l e).pe = s.pe := rfl
@[simp] theorem State.setEX_flags : (s.setEX l e).flags = s.flags := rfl
@[simp] theorem State.setEX_slots : (s.setEX l e).slots = s.slots := rfl
@[simp] theorem State.setEX_port : (s.setEX l e).port = s.port := rfl
@[simp] theorem State.setEX_ret : (s.setEX l e).ret = s.ret := rfl
@[simp] theorem State.setEX_freeCtr : (s.setEX l e).freeCtr = s.freeCtr := rfl

end

/-! ## `raiseErr` -/

section
variable (s : State) (e : Err)

@[simp] theorem State.raiseErr_cfg : (s.raiseErr e).cfg = s.cfg := rfl
@[simp] theorem State.raiseErr_inp : (s.raiseErr e).inp = s.inp := rfl
@[simp] theorem State.raiseErr_out : (s.raiseErr e).out = Memory.empty := rfl
@[simp] theorem State.raiseErr_res : (s.raiseErr e).res = .error e := rfl
@[simp] theorem State.raiseErr_cur : (s.raiseErr e).cur = Cursor.initial := rfl
@[simp] theorem State.raiseErr_pf : (s.raiseErr e).pf = none := rfl
@[simp] theorem State.raiseErr_ex : (s.raiseErr e).ex = ExFile.unset := rfl
@[simp] theorem State.raiseErr_cg1 : (s.raiseErr e).cg1 = none := rfl
@[simp] theorem State.raiseErr_cg2 : (s.raiseErr e).cg2 = none := rfl
@[simp] theorem State.raiseErr_pe : (s.raiseErr e).pe = none := rfl
@[simp] theorem State.raiseErr_flags : (s.raiseErr e).flags = Flags.unset := rfl
@[simp] theorem State.raiseErr_slots : (s.raiseErr e).slots = [] := rfl
@[simp] theorem State.raiseErr_port : (s.raiseErr e).port = s.port := rfl
@[simp] theorem State.raiseErr_ret : (s.raiseErr e).ret = none := rfl
@[simp] theorem State.raiseErr_freeCtr : (s.raiseErr e).freeCtr = s.freeCtr := rfl

end

/-! ## `finish` -/

section
variable (s : State) (bs : List Byte)

@[simp] theorem State.finish_cfg : (s.finish bs).cfg = s.cfg := rfl
@[simp] theorem State.finish_inp : (s.finish bs).inp = s.inp := rfl
@[simp] theorem State.finish_out : (s.finish bs).out = Memory.ofBytes bs := rfl
@[simp] theorem State.finish_res : (s.finish bs).res = .ok := rfl
@[simp] theorem State.finish_cur : (s.finish bs).cur = { Cursor.initial with off := s.cur.off } := rfl
@[simp] theorem State.finish_pf : (s.finish bs).pf = none := rfl
@[simp] theorem State.finish_ex : (s.finish bs).ex = ExFile.unset := rfl
@[simp] theorem State.finish_cg1 : (s.finish bs).cg1 = none := rfl
@[simp] theorem State.finish_cg2 : (s.finish bs).cg2 = none := rfl
@[simp] theorem State.finish_pe : (s.finish bs).pe = none := rfl
@[simp] theorem State.finish_flags : (s.finish bs).flags = Flags.unset := rfl
@[simp] theorem State.finish_slots : (s.finish bs).slots = [] := rfl
@[simp] theorem State.finish_port : (s.finish bs).port = s.port := rfl
@[simp] theorem State.finish_ret : (s.finish bs).ret = none := rfl
@[simp] theorem State.finish_freeCtr : (s.finish bs).freeCtr = s.freeCtr := rfl

end

/-! ## `resetCall` -/

section
variable (s : State)

@[simp] theorem State.resetCall_cfg : (s.resetCall).cfg = s.cfg := rfl
@[simp] theorem State.resetCall_inp : (s.resetCall).inp = s.inp := rfl
@[simp] theorem State.resetCall_out : (s.resetCall).out = Memory.empty := rfl
@[simp] theorem State.resetCall_res : (s.resetCall).res = .unset := rfl
@[simp] theorem State.resetCall_cur : (s.resetCall).cur = Cursor.initial := rfl
@[simp] theorem State.resetCall_pf : (s.resetCall).pf = none := rfl
@[simp] theorem State.resetCall_ex : (s.resetCall).ex = ExFile.unset := rfl
@[simp] theorem State.resetCall_cg1 : (s.resetCall).cg1 = none := rfl
@[simp] theorem State.resetCall_cg2 : (s.resetCall).cg2 = none := rfl
@[simp] theorem State.resetCall_pe : (s.resetCall).pe = none := rfl
@[simp] theorem State.resetCall_flags : (s.resetCall).flags = Flags.unset := rfl
@[simp] theorem State.resetCall_slots : (s.resetCall).slots = [] := rfl
@[simp] theorem State.resetCall_port : (s.resetCall).port = s.port := rfl
@[simp] theorem State.resetCall_ret : (s.resetCall).ret = none := rfl
@[simp] theorem State.resetCall_freeCtr : (s.resetCall).freeCtr = s.freeCtr := rfl

end

/-! ## `beginCall`: the reset, then the cursor past byte 0 -/

section
variable (s : State)

@[simp] theorem State.beginCall_cfg : s.beginCall.cfg = s.cfg := rfl
@[simp] theorem State.beginCall_inp : s.beginCall.inp = s.inp := rfl
@[simp] theorem State.beginCall_out : s.beginCall.out = Memory.empty := rfl
@[simp] theorem State.beginCall_res : s.beginCall.res = .unset := rfl
@[simp] theorem State.beginCall_cur : s.beginCall.cur = { Cursor.initial with off := 1 } := rfl
@[simp] theorem State.beginCall_pf : s.beginCall.pf = none := rfl
@[simp] theorem State.beginCall_ex : s.beginCall.ex = ExFile.unset := rfl
@[simp] theorem State.beginCall_cg1 : s.beginCall.cg1 = none := rfl
@[simp] theorem State.beginCall_cg2 : s.beginCall.cg2 = none := rfl
@[simp] theorem State.beginCall_pe : s.beginCall.pe = none := rfl
@[simp] theorem State.beginCall_flags : s.beginCall.flags = Flags.unset := rfl
@[simp] theorem State.beginCall_slots : s.beginCall.slots = [] := rfl
@[simp] theorem State.beginCall_port : s.beginCall.port = s.port := rfl
@[simp] theorem State.beginCall_ret : s.beginCall.ret = none := rfl
@[simp] theorem State.beginCall_freeCtr : s.beginCall.freeCtr = s.freeCtr := rfl

end

/-! ## `setCG` -/

section
variable (s : State) (g : Group) (c : CurveGroup)

@[simp] theorem State.setCG_cfg : (s.setCG g c).cfg = s.cfg := by cases g <;> rfl
@[simp] theorem State.setCG_inp : (s.setCG g c).inp = s.inp := by cases g <;> rfl
@[simp] theorem State.setCG_out : (s.setCG g c).out = s.out := by cases g <;> rfl
@[simp] theorem State.setCG_res : (s.setCG g c).res = s.res := by cases g <;> rfl
@[simp] theorem State.setCG_cur : (s.setCG g c).cur = s.cur := by cases g <;> rfl
@[simp] theorem State.setCG_pf : (s.setCG g c).pf = s.pf := by cases g <;> rfl
@[simp] theorem State.setCG_ex : (s.setCG g c).ex = s.ex := by cases g <;> rfl
@[simp] theorem State.setCG_pe : (s.setCG g c).pe = s.pe := by cases g <;> rfl
@[simp] theorem State.setCG_flags : (s.setCG g c).flags = s.flags := by cases g <;> rfl
@[simp] theorem State.setCG_slots : (s.setCG g c).slots = s.slots := by cases g <;> rfl
@[simp] theorem State.setCG_port : (s.setCG g c).port = s.port := by cases g <;> rfl
@[simp] theorem State.setCG_ret : (s.setCG g c).ret = s.ret := by cases g <;> rfl
@[simp] theorem State.setCG_freeCtr : (s.setCG g c).freeCtr = s.freeCtr := by cases g <;> rfl
@[simp] theorem State.setCG_g1_cg1 : (s.setCG .g1 c).cg1 = some c := rfl
@[simp] theorem State.setCG_g1_cg2 : (s.setCG .g1 c).cg2 = s.cg2 := rfl
@[simp] theorem State.setCG_g2_cg1 : (s.setCG .g2 c).cg1 = s.cg1 := rfl
@[simp] theorem State.setCG_g2_cg2 : (s.setCG .g2 c).cg2 = some c := rfl

end

/-! ## Blocks by level and group -/

@[simp] theorem State.cg_g1 (s : State) : s.cg .g1 = s.cg1 := rfl
@[simp] theorem State.cg_g2 (s : State) : s.cg .g2 = s.cg2 := rfl

/-- A group's block after it is written is what was written. -/
@[simp] theorem State.setCG_cg_same (s : State) (g : Group) (c : CurveGroup) : (s.setCG g c).cg g = some c := by
  cases g <;> rfl

/-- A level's block after it is written is what was written. -/
@[simp] theorem ExFile.put_get_same (x : ExFile) (e : ExtField) (l : Level) : (x.put e l).get l = some e := by
  cases l <;> rfl

/-- Writing one level leaves the others. -/
theorem ExFile.put_get_other (x : ExFile) (e : ExtField) (l m : Level) (h : m ≠ l) : (x.put e l).get m = x.get m := by
  cases l <;> cases m <;> first | rfl | exact absurd rfl h

@[simp] theorem ExFile.get_fq2 (x : ExFile) : x.get .fq2 = x.fq2 := rfl
@[simp] theorem ExFile.get_fq3 (x : ExFile) : x.get .fq3 = x.fq3 := rfl
@[simp] theorem ExFile.get_fq4 (x : ExFile) : x.get .fq4 = x.fq4 := rfl
@[simp] theorem ExFile.get_fq6c (x : ExFile) : x.get .fq6c = x.fq6c := rfl
@[simp] theorem ExFile.get_fq6q (x : ExFile) : x.get .fq6q = x.fq6q := rfl
@[simp] theorem ExFile.get_fq12 (x : ExFile) : x.get .fq12 = x.fq12 := rfl
@[simp] theorem ExFile.unset_get (l : Level) : ExFile.unset.get l = none := by cases l <;> rfl

/-- Writing one level, seen field by field. -/
@[simp] theorem ExFile.put_fq2 (x : ExFile) (e : ExtField) : x.put e .fq2 = { x with fq2 := some e } := rfl
@[simp] theorem ExFile.put_fq3 (x : ExFile) (e : ExtField) : x.put e .fq3 = { x with fq3 := some e } := rfl
@[simp] theorem ExFile.put_fq4 (x : ExFile) (e : ExtField) : x.put e .fq4 = { x with fq4 := some e } := rfl
@[simp] theorem ExFile.put_fq6c (x : ExFile) (e : ExtField) : x.put e .fq6c = { x with fq6c := some e } := rfl
@[simp] theorem ExFile.put_fq6q (x : ExFile) (e : ExtField) : x.put e .fq6q = { x with fq6q := some e } := rfl
@[simp] theorem ExFile.put_fq12 (x : ExFile) (e : ExtField) : x.put e .fq12 = { x with fq12 := some e } := rfl

end Sys2Proof.Machine
end

