-- ==== Sys2Proof/Laws/Ops.lean ====
section
/-! SUPPORT. What each shared operation does: how a sequence of steps runs, and what one step answers. -/

namespace Sys2Proof.Machine

/-! ## Sequences -/

section
variable {α β : Type}

@[simp] theorem M.pure_apply (a : α) (s : State) : (pure a : M α) s = .ok a s := rfl

@[simp] theorem M.bind_apply (m : M α) (k : α → M β) (s : State) :
    (m >>= k) s = match m s with | .ok a t => k a t | .error e t => .error e t := by
  show EStateM.bind m k s = _
  unfold EStateM.bind
  cases m s <;> rfl

@[simp] theorem M.map_apply (m : M α) (k : α → β) (s : State) :
    (k <$> m) s = match m s with | .ok a t => .ok (k a) t | .error e t => .error e t := by
  show EStateM.map k m s = _
  unfold EStateM.map
  cases m s <;> rfl

/-- A sequence whose first step succeeds. -/
theorem M.bind_of_ok {m : M α} {k : α → M β} {s t : State} {a : α} (h : m s = .ok a t) : (m >>= k) s = k a t := by
  rw [M.bind_apply, h]

theorem M.bind_of_error {m : M α} {k : α → M β} {s t : State} {e : Stop} (h : m s = .error e t) :
    (m >>= k) s = .error e t := by
  rw [M.bind_apply, h]

/-- A sequence that succeeds did so step by step. -/
theorem M.bind_ok {m : M α} {k : α → M β} {s t : State} {b : β} (h : (m >>= k) s = .ok b t) :
    ∃ a u, m s = .ok a u ∧ k a u = .ok b t := by
  rw [M.bind_apply] at h
  split at h
  · next a u hm => exact ⟨a, u, hm, h⟩
  · cases h

end

/-! ## Steps that can end a call -/

section
variable {α : Type}

@[simp] theorem raise_apply (e : Err) (s : State) : (raise e : M α) s = .error (.raise e) s := rfl
@[simp] theorem faultWith_apply (f : Fault) (s : State) : (faultWith f : M α) s = .error (.fault f) s := rfl
@[simp] theorem refuseWith_apply (r : Refusal) (s : State) : (refuseWith r : M α) s = .error (.refuse r) s := rfl

@[simp] theorem require_true (e : Err) (s : State) : require true e s = .ok () s := rfl
@[simp] theorem require_false (e : Err) (s : State) : require false e s = .error (.raise e) s := rfl

/-- A check that holds. -/
theorem require_of {ok : Bool} (h : ok = true) (e : Err) (s : State) : require ok e s = .ok () s := by rw [h]; rfl

/-- A check that fails. -/
theorem require_not {ok : Bool} (h : ok = false) (e : Err) (s : State) : require ok e s = .error (.raise e) s := by rw [h]; rfl

@[simp] theorem update_apply (f : State → State) (s : State) : update f s = .ok () (f s) := rfl
@[simp] theorem look_apply (f : State → α) (s : State) : look f s = .ok (f s) s := rfl

/-- Reading what is set. -/
theorem getSet_some {what : Item} {o : State → Option α} {s : State} {v : α} (h : o s = some v) :
    getSet what o s = .ok v s := by
  unfold getSet; rw [h]

/-- Reading what is unset is a fault of the model (70_reset_and_hazards.md R452). -/
theorem getSet_none {what : Item} {o : State → Option α} {s : State} (h : o s = none) :
    getSet what o s = .error (.fault (.unset what)) s := by
  unfold getSet; rw [h]

/-- Constructing what does not exist. -/
theorem construct_new {what : Item} {present : State → Bool} {f : State → State} {s : State} (h : present s = false) :
    construct what present f s = .ok () (f s) := by
  unfold construct; rw [h]; rfl

/-- Constructing what exists is a fault of the model (70_reset_and_hazards.md R475). -/
theorem construct_frozen {what : Item} {present : State → Bool} {f : State → State} {s : State} (h : present s = true) :
    construct what present f s = .error (.fault (.frozen what)) s := by
  unfold construct; rw [h]; rfl

end

/-! ## The cursor -/

/-- A read that the tape holds. -/
theorem tapeRead_ok {s : State} {n : Nat} {bs : List Byte} (h : s.inp.readBytes s.cur.off n = some bs) :
    tapeRead n s = .ok bs (s.setOff (s.cur.off + n)) := by
  unfold tapeRead; rw [h]

/-- A read past the end consumes nothing (44_decoder.md R321). -/
theorem tapeRead_short {s : State} {n : Nat} (h : s.inp.readBytes s.cur.off n = none) :
    tapeRead n s = .error (.raise .short) s := by
  unfold tapeRead; rw [h]

/-- A read answers `E_SHORT` or the bytes asked for, and moves the cursor by their number. -/
theorem tapeRead_cases (n : Nat) (s : State) :
    (s.inp.len < s.cur.off + n ∧ tapeRead n s = .error (.raise .short) s) ∨
    (s.cur.off + n ≤ s.inp.len ∧ tapeRead n s = .ok (s.inp.readList s.cur.off n) (s.setOff (s.cur.off + n))) := by
  by_cases h : s.cur.off + n ≤ s.inp.len
  · exact .inr ⟨h, tapeRead_ok (by rw [Memory.readBytes, if_pos h])⟩
  · exact .inl ⟨by omega, tapeRead_short (by rw [Memory.readBytes, if_neg h])⟩

/-- `s` has its cursor before the bytes `bs` and holds nothing after them: what is left to read is exactly `bs`. -/
def Unread (s : State) (bs : List Byte) : Prop :=
  s.cur.off ≤ s.inp.len ∧ s.inp.readList s.cur.off (s.inp.len - s.cur.off) = bs

/-- How many bytes are left. -/
theorem Unread.length {s : State} {bs : List Byte} (h : Unread s bs) : s.cur.off + bs.length = s.inp.len := by
  have := congrArg List.length h.2
  rw [Memory.readList_length] at this
  have := h.1
  omega

/-- A run of bytes in two parts. -/
theorem Memory.readList_append (m : Memory) : ∀ (n k a : Nat),
    m.readList a (n + k) = m.readList a n ++ m.readList (a + n) k
  | 0, k, a => by simp [Memory.readList]
  | n + 1, k, a => by
    rw [show n + 1 + k = (n + k) + 1 by omega, Memory.readList, Memory.readList_append m n k (a + 1), Memory.readList]
    rw [show a + (n + 1) = a + 1 + n by omega]
    rfl

/-- Reading the first part of what is left leaves the second part. -/
theorem tapeRead_unread {s : State} {xs ys : List Byte} (h : Unread s (xs ++ ys)) {n : Nat} (hn : n = xs.length) :
    tapeRead n s = .ok xs (s.setOff (s.cur.off + n)) ∧ Unread (s.setOff (s.cur.off + n)) ys := by
  subst hn
  have hl := h.length
  rw [List.length_append] at hl
  have hr : s.inp.readList s.cur.off (xs.length + ys.length) = xs ++ ys := by
    have := h.2
    rwa [show s.inp.len - s.cur.off = xs.length + ys.length by omega] at this
  rw [Memory.readList_append] at hr
  have hx := List.append_inj hr (by simp)
  refine ⟨?_, ?_, ?_⟩
  · apply tapeRead_ok
    rw [Memory.readBytes, if_pos (by omega), hx.1]
  · simp only [State.setOff_cur, State.setOff_inp]; omega
  · simp only [State.setOff_cur, State.setOff_inp]
    rw [show s.inp.len - (s.cur.off + xs.length) = ys.length by omega]
    exact hx.2

/-- What is left depends on the tape and the cursor only. -/
theorem Unread.congr {s t : State} {bs : List Byte} (h : Unread s bs) (hi : t.inp = s.inp) (hc : t.cur.off = s.cur.off) :
    Unread t bs := by
  unfold Unread at *
  rw [hi, hc]
  exact h

/-- At the start of a call's meaning everything after byte 0 is left. -/
theorem Unread.beginCall {s : State} {b : Byte} {bs : List Byte} (h : s.inp = Memory.ofBytes (b :: bs)) :
    Unread s.beginCall bs := by
  unfold Unread
  simp only [State.beginCall_cur, State.beginCall_inp, h, Memory.ofBytes_len, List.length_cons]
  refine ⟨by omega, ?_⟩
  rw [Memory.ofBytes_readList _ _ _ (by simp only [List.length_cons]; omega)]
  simp

/-! ## Slots -/

/-- A slot that holds a value. -/
theorem readSlot_some {s : State} {i v : Nat} (h : regGet i s.slots = some v) : readSlot i s = .ok v s :=
  getSet_some h

/-- A slot that holds none. -/
theorem readSlot_none {s : State} {i : Nat} (h : regGet i s.slots = none) :
    readSlot i s = .error (.fault (.unset (.slot i))) s :=
  getSet_none h

@[simp] theorem writeSlot_apply (i v : Nat) (s : State) : writeSlot i v s = .ok () (s.setSlots (regSet i v s.slots)) := rfl
@[simp] theorem writeGroup_apply (a : Nat) (vs : List Nat) (s : State) :
    writeGroup a vs s = .ok () (s.setSlots (regSetGroup a vs s.slots)) := rfl

/-- A group that holds values. -/
theorem readGroup_ok {s : State} {a n : Nat} {vs : List Nat} (h : regGetGroup s.slots a n = .ok vs) :
    readGroup a n s = .ok vs s := by
  unfold readGroup; rw [h]

/-- An element that stands in its slots. -/
theorem readElem_ok {α : Type} {F : Fld α} {s : State} {a : Nat} {vs : List Nat}
    (h : regGetGroup s.slots a F.deg = .ok vs) : readElem F a s = .ok (F.ofCoords vs) s := by
  unfold readElem
  rw [M.bind_of_ok (readGroup_ok h)]
  rfl

@[simp] theorem writeElem_apply {α : Type} (F : Fld α) (c : Nat) (v : α) (s : State) :
    writeElem F c v s = .ok () (s.setSlots (regSetGroup c (F.coords v) s.slots)) := rfl

@[simp] theorem writePt_apply {α : Type} (F : Fld α) (c : Nat) (p : Pt α) (s : State) :
    writePt F c p s = .ok () (s.setSlots (regSetGroup c (F.coords p.x ++ F.coords p.y ++ F.coords p.z) s.slots)) := rfl

/-! ## Blocks -/

theorem getPF_some {s : State} {f : PrimeField} (h : s.pf = some f) : getPF s = .ok f s := getSet_some h
theorem getPF_none {s : State} (h : s.pf = none) : getPF s = .error (.fault (.unset .pf)) s := getSet_none h
theorem getEX_some {s : State} {l : Level} {e : ExtField} (h : s.ex.get l = some e) : getEX l s = .ok e s := getSet_some h
theorem getEX_none {s : State} {l : Level} (h : s.ex.get l = none) : getEX l s = .error (.fault (.unset (.ex l))) s :=
  getSet_none h
theorem getCG_some {s : State} {g : Group} {c : CurveGroup} (h : s.cg g = some c) : getCG g s = .ok c s := getSet_some h
theorem getCG_none {s : State} {g : Group} (h : s.cg g = none) : getCG g s = .error (.fault (.unset (.cg g))) s :=
  getSet_none h
theorem getPE_some {s : State} {e : Engine} (h : s.pe = some e) : getPE s = .ok e s := getSet_some h
theorem getPE_none {s : State} (h : s.pe = none) : getPE s = .error (.fault (.unset .pe)) s := getSet_none h
theorem getLp_some {s : State} {n : Nat} (h : s.cur.lp = some n) : getLp s = .ok n s := getSet_some h
theorem getLq_some {s : State} {n : Nat} (h : s.cur.lq = some n) : getLq s = .ok n s := getSet_some h

@[simp] theorem getPEField_some {α : Type} (v : α) (s : State) : getPEField (some v) s = .ok v s := rfl
@[simp] theorem getPEField_none {α : Type} (s : State) :
    (getPEField (none : Option α)) s = .error (.fault (.unset .peField)) s := rfl

/-- The field object through the cursor cache (44_decoder.md R325). -/
theorem getCurField_some {s : State} {f : PrimeField} (hc : s.cur.fieldSet = true) (h : s.pf = some f) :
    getCurField s = .ok f s := by
  unfold getCurField
  rw [M.bind_of_ok (getSet_some (v := ()) (by simp [hc])), getPF_some h]

/-- Constructing a level. -/
theorem newEX_new {s : State} {l : Level} {nr : List Nat} (h : s.ex.get l = none) :
    newEX l nr s = .ok () (s.setEX l
      { base := levelBase l, degree := levelDegree l, nonResidue := nr, frob1 := [], frob2 := [], frobValid := false }) :=
  construct_new (by rw [h]; rfl)

/-- Constructing a group. -/
theorem newCG_new {s : State} {g : Group} {c : CurveGroup} (h : s.cg g = none) : newCG g c s = .ok () (s.setCG g c) :=
  construct_new (by rw [h]; rfl)

/-- Constructing the engine. -/
theorem constructPE_new {s : State} {e : Engine} (h : s.pe = none) : constructPE e s = .ok () (s.setPE e) :=
  construct_new (by rw [h]; rfl)

/-- The twist write (10_state.md R35). -/
theorem twistCG2_apply {s : State} {c : CurveGroup} (a b : List Nat) (h : s.cg2 = some c) :
    twistCG2 a b s = .ok () (s.setCG .g2 { c with a := a, b := b }) := by
  unfold twistCG2
  rw [M.bind_of_ok (getCG_some (by rw [State.cg_g2]; exact h))]
  rfl

/-! ## Flags -/

@[simp] theorem setInvOk_apply (b : Bool) (s : State) : setInvOk b s = .ok () (s.setFlags { s.flags with invOk := some b }) := rfl
@[simp] theorem setSqrtOk_apply (b : Bool) (s : State) : setSqrtOk b s = .ok () (s.setFlags { s.flags with sqrtOk := some b }) := rfl
@[simp] theorem setNresOk_apply (b : Bool) (s : State) : setNresOk b s = .ok () (s.setFlags { s.flags with nresOk := some b }) := rfl
@[simp] theorem setExInvOk_apply (b : Bool) (s : State) : setExInvOk b s = .ok () (s.setFlags { s.flags with exInvOk := some b }) := rfl
@[simp] theorem setFrobOk_apply (b : Bool) (s : State) : setFrobOk b s = .ok () (s.setFlags { s.flags with frobOk := some b }) := rfl
@[simp] theorem setPtIsZero_apply (b : Bool) (s : State) : setPtIsZero b s = .ok () (s.setFlags { s.flags with ptIsZero := some b }) := rfl
@[simp] theorem setPtOnCurve_apply (b : Bool) (s : State) : setPtOnCurve b s = .ok () (s.setFlags { s.flags with ptOnCurve := some b }) := rfl
@[simp] theorem setPtInSubgroup_apply (b : Bool) (s : State) : setPtInSubgroup b s = .ok () (s.setFlags { s.flags with ptInSubgroup := some b }) := rfl
@[simp] theorem setCheckG1_apply (b : Bool) (s : State) : setCheckG1 b s = .ok () (s.setFlags { s.flags with checkG1 := some b }) := rfl
@[simp] theorem setCheckG2_apply (b : Bool) (s : State) : setCheckG2 b s = .ok () (s.setFlags { s.flags with checkG2 := some b }) := rfl
@[simp] theorem setIsOne_apply (b : Bool) (s : State) : setIsOne b s = .ok () (s.setFlags { s.flags with isOne := some b }) := rfl

/-- Noting a possible free value. -/
@[simp] theorem noteFree_apply (valid : Bool) (s : State) :
    noteFree valid s = .ok () (if valid then s else s.bumpFree) := rfl

@[simp] theorem demand_true (s : State) : demand true s = .ok () s := rfl
@[simp] theorem demand_false (s : State) : demand false s = .error (.fault .mismatch) s := rfl

/-! ## How a meaning ends -/

/-- A unit operation that runs to its end. -/
theorem runUnit_ok {m : M Unit} {s t : State} (h : m s = .ok () t) : runUnit m s = .next t := by
  unfold runUnit; rw [h]

/-- A unit operation that raises. -/
theorem runUnit_raise {m : M Unit} {s t : State} {e : Err} (h : m s = .error (.raise e) t) :
    runUnit m s = .next (t.raiseErr e) := by
  unfold runUnit; rw [h]

/-- A call that runs to its end. -/
theorem runCall_ok {m : M (List Byte)} {s t : State} {bs : List Byte} (h : m s = .ok bs t) :
    runCall m s = .next (t.finish bs) := by
  unfold runCall; rw [h]

/-- A call that raises. -/
theorem runCall_raise {m : M (List Byte)} {s t : State} {e : Err} (h : m s = .error (.raise e) t) :
    runCall m s = .next (t.raiseErr e) := by
  unfold runCall; rw [h]

/-- What a next state of a unit operation came from. -/
theorem runUnit_next {m : M Unit} {s t : State} (h : runUnit m s = .next t) :
    m s = .ok () t ∨ ∃ e u, m s = .error (.raise e) u ∧ t = u.raiseErr e := by
  unfold runUnit at h
  split at h
  · next u hm => cases h; exact .inl hm
  · next e u hm => cases h; exact .inr ⟨e, u, hm, rfl⟩
  · cases h
  · cases h

/-- What a next state of a call came from. -/
theorem runCall_next {m : M (List Byte)} {s t : State} (h : runCall m s = .next t) :
    (∃ bs u, m s = .ok bs u ∧ t = u.finish bs) ∨ ∃ e u, m s = .error (.raise e) u ∧ t = u.raiseErr e := by
  unfold runCall at h
  split at h
  · next bs u hm => cases h; exact .inl ⟨bs, u, hm, rfl⟩
  · next e u hm => cases h; exact .inr ⟨e, u, hm, rfl⟩
  · cases h
  · cases h

end Sys2Proof.Machine
end

