-- ==== Sys2Proof/Laws/Decoder.lean ====
section
/-! SUPPORT. What each parse step does on the bytes its format writes: the value it gives, the state it leaves, and what
is then left to read. -/

namespace Sys2Proof.Machine

/-! ## Moving the cursor -/

@[simp] theorem State.setOff_setOff (s : State) (a b : Nat) : (s.setOff a).setOff b = s.setOff b := rfl

/-- One byte is read. -/
theorem readByte_unread {s : State} {b : Byte} {rest : List Byte} (h : Unread s (b :: rest)) :
    readByte s = .ok b.toNat (s.setOff (s.cur.off + 1)) ∧ Unread (s.setOff (s.cur.off + 1)) rest := by
  have h' := tapeRead_unread (xs := [b]) (ys := rest) h (n := 1) rfl
  refine ⟨?_, h'.2⟩
  unfold readByte
  rw [M.bind_of_ok h'.1, bytesToNat_one]
  rfl

/-- One length byte is read. -/
theorem readByte_byteOf {s : State} {n : Nat} {rest : List Byte} (hn : n < 256) (h : Unread s (byteOf n :: rest)) :
    readByte s = .ok n (s.setOff (s.cur.off + 1)) ∧ Unread (s.setOff (s.cur.off + 1)) rest := by
  have h' := readByte_unread h
  rwa [show (byteOf n).toNat = n by unfold byteOf; rw [BitVec.toNat_ofNat]; exact Nat.mod_eq_of_lt hn] at h'

/-- One flag byte is read. -/
theorem readFlag_unread {s : State} {n : Nat} {rest : List Byte} (hn : n ≤ 1) (h : Unread s (byteOf n :: rest)) :
    readFlag s = .ok (n == 1) (s.setOff (s.cur.off + 1)) ∧ Unread (s.setOff (s.cur.off + 1)) rest := by
  have h' := readByte_byteOf (by omega) h
  refine ⟨?_, h'.2⟩
  unfold readFlag
  rw [M.bind_of_ok h'.1, M.bind_of_ok (require_of (decide_eq_true hn) _ _)]
  rfl

/-- A flag byte above 1 is `E_FLAG` (44_decoder.md R324). -/
theorem readFlag_bad {s : State} {n : Nat} {rest : List Byte} (h1 : 1 < n) (hn : n < 256) (h : Unread s (byteOf n :: rest)) :
    readFlag s = .error (.raise .flag) (s.setOff (s.cur.off + 1)) := by
  have h' := readByte_byteOf hn h
  unfold readFlag
  rw [M.bind_of_ok h'.1]
  exact M.bind_of_error (require_not (decide_eq_false (by omega)) _ _)

/-- What is left does not depend on the objects and flags. -/
theorem Unread.setFlags {s : State} {bs : List Byte} (h : Unread s bs) (f : Flags) : Unread (s.setFlags f) bs := h
theorem Unread.setPF {s : State} {bs : List Byte} (h : Unread s bs) (f : PrimeField) : Unread (s.setPF f) bs := h
theorem Unread.setField {s : State} {bs : List Byte} (h : Unread s bs) (n : Nat) : Unread (s.setField n) bs := h
theorem Unread.setLq {s : State} {bs : List Byte} (h : Unread s bs) (n : Nat) : Unread (s.setLq n) bs := h
theorem Unread.setEX {s : State} {bs : List Byte} (h : Unread s bs) (l : Level) (e : ExtField) : Unread (s.setEX l e) bs := h
theorem Unread.setCG {s : State} {bs : List Byte} (h : Unread s bs) (g : Group) (c : CurveGroup) : Unread (s.setCG g c) bs := by
  cases g <;> exact h

/-! ## The base field -/

/-- `PF.NEW` on a modulus its format admits. -/
theorem newPF_ok {s : State} {mb : List Byte} (hm : modulusFits mb = true) (hp : s.pf = none) :
    newPF mb s = .ok () (s.setPF (callField mb)) := by
  simp only [modulusFits, Bool.and_eq_true, decide_eq_true_eq, bne_iff_ne, ne_eq, beq_iff_eq, Bool.or_eq_true] at hm
  obtain ⟨⟨⟨⟨h1, h2⟩, h3⟩, h4⟩, h5⟩ := hm
  have hl := limbCount_bounds (bytesToNat_lt mb) h2
  have e1 : (mb.length != 0) = true := by simp; intro h; simp [h] at h1
  have e2 : decide (mb.length ≤ Config.maxModulusLen) = true := decide_eq_true h2
  have e3 : (mb.headD 0 != 0) = true := by simpa using h3
  have e4 : (bytesToNat mb % 2 == 1) = true := by simpa using h4
  have e5 : (!(mb.length == 1 && decide (bytesToNat mb ≤ 3))) = true := by
    rcases h5 with h | h
    · simp [h]
    · have : ¬ bytesToNat mb ≤ 3 := by omega
      simp [this]
  have e6 : (decide (1 ≤ (PrimeField.ofModulus (bytesToNat mb) mb.length).limbs)
      && decide ((PrimeField.ofModulus (bytesToNat mb) mb.length).limbs ≤ Config.limbMax)) = true := by
    have h4 : 4 ≤ limbCount (bytesToNat mb) := hl.1
    rw [PrimeField.ofModulus_limbs, decide_eq_true hl.2, Bool.and_true]
    exact decide_eq_true (by omega)
  unfold newPF
  rw [M.bind_of_ok (require_of e1 _ _), M.bind_of_ok (require_of e2 _ _), M.bind_of_ok (require_of e3 _ _),
    M.bind_of_ok (require_of e4 _ _), M.bind_of_ok (require_of e5 _ _)]
  show (require _ _ >>= _) s = _
  rw [M.bind_of_ok (require_of e6 _ _)]
  exact construct_new (by rw [hp]; rfl)

/-- `DEC.BASE` on `MOD`. -/
theorem decBase_ok {s : State} {mb rest : List Byte} (hm : modulusFits mb = true) (hp : s.pf = none)
    (h : Unread s (prefixedBytes mb ++ rest)) :
    decBase s = .ok () (((s.setOff (s.cur.off + 1 + mb.length)).setPF (callField mb)).setField mb.length)
      ∧ Unread (((s.setOff (s.cur.off + 1 + mb.length)).setPF (callField mb)).setField mb.length) rest := by
  have hm' := hm
  simp only [modulusFits, Bool.and_eq_true, decide_eq_true_eq] at hm'
  obtain ⟨⟨⟨⟨h1, h2⟩, _⟩, _⟩, _⟩ := hm'
  have r1 := readByte_byteOf (by omega) h
  have r2 := tapeRead_unread r1.2 rfl
  refine ⟨?_, (r2.2.setPF _).setField _⟩
  have e1 : (mb.length != 0) = true := by simp; intro h; simp [h] at h1
  have e2 : decide (mb.length ≤ Config.maxModulusLen) = true := decide_eq_true h2
  unfold decBase
  rw [M.bind_of_ok r1.1, M.bind_of_ok (require_of e1 _ _), M.bind_of_ok (require_of e2 _ _), M.bind_of_ok r2.1]
  exact M.bind_of_ok (newPF_ok (s := s.setOff (s.cur.off + 1 + mb.length)) hm hp)

/-! ## Elements, curves, points, scalars -/

/-- The parse context after `DEC.BASE`: the field, its element length, and elements that fit it. -/
structure Ready (s : State) (f : PrimeField) : Prop where
  pf : s.pf = some f
  fieldSet : s.cur.fieldSet = true
  lp : s.cur.lp = some f.lp
  fits : f.p ≤ 256 ^ f.lp

theorem Ready.setOff {s : State} {f : PrimeField} (h : Ready s f) (o : Nat) : Ready (s.setOff o) f :=
  ⟨h.pf, h.fieldSet, h.lp, h.fits⟩
theorem Ready.setFlags {s : State} {f : PrimeField} (h : Ready s f) (g : Flags) : Ready (s.setFlags g) f :=
  ⟨h.pf, h.fieldSet, h.lp, h.fits⟩
theorem Ready.setLq {s : State} {f : PrimeField} (h : Ready s f) (n : Nat) : Ready (s.setLq n) f :=
  ⟨h.pf, h.fieldSet, h.lp, h.fits⟩
theorem Ready.setEX {s : State} {f : PrimeField} (h : Ready s f) (l : Level) (e : ExtField) : Ready (s.setEX l e) f :=
  ⟨h.pf, h.fieldSet, h.lp, h.fits⟩
theorem Ready.setCG {s : State} {f : PrimeField} (h : Ready s f) (g : Group) (c : CurveGroup) : Ready (s.setCG g c) f := by
  cases g <;> exact ⟨h.pf, h.fieldSet, h.lp, h.fits⟩

/-- The context `DEC.BASE` leaves. -/
theorem Ready.base (s : State) (o : Nat) (mb : List Byte) :
    Ready (((s.setOff o).setPF (callField mb)).setField mb.length) (callField mb) :=
  ⟨rfl, rfl, rfl, Nat.le_of_lt (bytesToNat_lt mb)⟩

/-- `DEC.FE` on `FE`. -/
theorem decFE_ok {s : State} {f : PrimeField} {v : Nat} {rest : List Byte} (hr : Ready s f) (hv : v < f.p)
    (h : Unread s (natToBytes v f.lp ++ rest)) :
    decFE s = .ok (f.toMont v) (s.setOff (s.cur.off + f.lp)) ∧ Unread (s.setOff (s.cur.off + f.lp)) rest := by
  have r := tapeRead_unread h (natToBytes_length v f.lp).symm
  refine ⟨?_, r.2⟩
  have hb : bytesToNat (natToBytes v f.lp) = v := bytesToNat_natToBytes_of_lt (Nat.lt_of_lt_of_le hv hr.fits)
  have e : decide (bytesToNat (natToBytes v f.lp) < f.p) = true := by rw [hb]; simpa using hv
  unfold decFE
  rw [M.bind_of_ok (getCurField_some hr.fieldSet hr.pf), M.bind_of_ok (getLp_some hr.lp), M.bind_of_ok r.1,
    M.bind_of_ok (require_of e _ _), hb]
  rfl

/-- Coordinates one after another. -/
theorem decFEs_ok {f : PrimeField} {rest : List Byte} : ∀ (vs : List Nat) {s : State}, Ready s f → vs.all (· < f.p) = true →
    Unread s (elementBytes f.lp vs ++ rest) →
    decFEs vs.length s = .ok (vs.map f.toMont) (s.setOff (s.cur.off + vs.length * f.lp))
      ∧ Unread (s.setOff (s.cur.off + vs.length * f.lp)) rest
  | [], s, _, _, h => by
    simp only [List.length_nil, Nat.zero_mul, Nat.add_zero]
    exact ⟨rfl, h⟩
  | v :: vs, s, hr, hv, h => by
    simp only [List.all_cons, Bool.and_eq_true, decide_eq_true_eq] at hv
    simp only [elementBytes, List.flatMap_cons, List.append_assoc] at h
    have r1 := decFE_ok hr hv.1 h
    have r2 := decFEs_ok vs (hr.setOff _) hv.2 r1.2
    simp only [State.setOff_cur, State.setOff_setOff] at r2
    have he : s.cur.off + f.lp + vs.length * f.lp = s.cur.off + (vs.length + 1) * f.lp := by
      rw [Nat.add_mul]; omega
    rw [he] at r2
    refine ⟨?_, r2.2⟩
    simp only [List.length_cons, decFEs]
    rw [M.bind_of_ok r1.1, M.bind_of_ok r2.1]
    rfl

/-- `DEC.FE(F)` on `FE`, `FE2` or `FE3`. -/
theorem decElem_ok {α : Type} {F : Fld α} {s : State} {f : PrimeField} {v : List Nat} {rest : List Byte} (hr : Ready s f)
    (hv : elementFits f.p F.deg v = true) (h : Unread s (elementBytes f.lp v ++ rest)) :
    decElem F s = .ok (elemOf f F v) (s.setOff (s.cur.off + F.deg * f.lp)) ∧ Unread (s.setOff (s.cur.off + F.deg * f.lp)) rest := by
  simp only [elementFits, Bool.and_eq_true, beq_iff_eq] at hv
  have r := decFEs_ok v hr hv.2 h
  rw [hv.1] at r
  refine ⟨?_, r.2⟩
  unfold decElem
  rw [M.bind_of_ok r.1]
  rfl

/-- `DEC.ORDER` on `ORD`. -/
theorem decOrder_ok {s : State} {ob rest : List Byte} (ho : orderFits ob = true) (h : Unread s (prefixedBytes ob ++ rest)) :
    decOrder s = .ok ob ((s.setOff (s.cur.off + 1 + ob.length)).setLq ob.length)
      ∧ Unread ((s.setOff (s.cur.off + 1 + ob.length)).setLq ob.length) rest := by
  simp only [orderFits, Bool.and_eq_true, decide_eq_true_eq, bne_iff_ne, ne_eq] at ho
  obtain ⟨⟨h1, h2⟩, h3⟩ := ho
  have r1 := readByte_byteOf (by omega) h
  have r2 := tapeRead_unread r1.2 rfl
  refine ⟨?_, r2.2.setLq _⟩
  have e1 : (ob.length != 0) = true := by simp; intro h; simp [h] at h1
  have e2 : decide (ob.length ≤ Config.maxOrderLen) = true := decide_eq_true h2
  have e3 : (bytesToNat ob != 0) = true := by simpa using h3
  unfold decOrder
  rw [M.bind_of_ok r1.1, M.bind_of_ok (require_of e1 _ _), M.bind_of_ok (require_of e2 _ _), M.bind_of_ok r2.1,
    M.bind_of_ok (require_of e3 _ _)]
  rfl

/-- Where the cursor stands after `CURVE(F)`. -/
def curveEnd (off d lp lq : Nat) : Nat := off + d * lp + d * lp + 1 + lq

/-- `DEC.CURVE(F)` on `CURVE(F)`. -/
theorem decCurve_ok {α : Type} {F : Fld α} {s : State} {f : PrimeField} {g : Group} {field : FieldRef} {c : CurveFields}
    {rest : List Byte} (hr : Ready s f) (hc : curveFits f.p F.deg c = true) (hg : s.cg g = none)
    (h : Unread s (curveBytes f.lp c ++ rest)) :
    decCurve F g field s = .ok c.ord
        (((s.setOff (curveEnd s.cur.off F.deg f.lp c.ord.length)).setLq c.ord.length).setCG g (groupOf f F field c))
      ∧ Unread (((s.setOff (curveEnd s.cur.off F.deg f.lp c.ord.length)).setLq c.ord.length).setCG g (groupOf f F field c))
          rest := by
  simp only [curveFits, Bool.and_eq_true] at hc
  obtain ⟨⟨h1, h2⟩, h3⟩ := hc
  simp only [curveBytes, List.append_assoc] at h
  have r1 := decElem_ok hr h1 h
  have r2 := decElem_ok (hr.setOff _) h2 r1.2
  have r3 := decOrder_ok h3 r2.2
  simp only [State.setOff_cur, State.setOff_setOff] at r2 r3
  refine ⟨?_, Unread.setCG r3.2 _ _⟩
  unfold decCurve
  rw [M.bind_of_ok r1.1, M.bind_of_ok r2.1, M.bind_of_ok r3.1]
  exact M.bind_of_ok (newCG_new (c := groupOf f F field c)
    (s := (s.setOff (curveEnd s.cur.off F.deg f.lp c.ord.length)).setLq c.ord.length) (by cases g <;> exact hg))

/-- A state that differs from `s` in the cursor's offset and in the flags a decoded point or pair writes. -/
def ParseFrame (s t : State) : Prop :=
  t = (s.setOff t.cur.off).setFlags { s.flags with ptOnCurve := t.flags.ptOnCurve, ptInSubgroup := t.flags.ptInSubgroup, ptIsZero := t.flags.ptIsZero, checkG1 := t.flags.checkG1, checkG2 := t.flags.checkG2 }

theorem ParseFrame.refl (s : State) : ParseFrame s s := rfl

theorem ParseFrame.trans {s t u : State} (h1 : ParseFrame s t) (h2 : ParseFrame t u) : ParseFrame s u := by
  unfold ParseFrame at *
  rw [h1] at h2
  exact h2

theorem ParseFrame.setOff (s : State) (o : Nat) : ParseFrame s (s.setOff o) := rfl

section
variable {s t : State} (h : ParseFrame s t)
include h

theorem ParseFrame.pf : t.pf = s.pf := by rw [h]; rfl
theorem ParseFrame.ex : t.ex = s.ex := by rw [h]; rfl
theorem ParseFrame.cg1 : t.cg1 = s.cg1 := by rw [h]; rfl
theorem ParseFrame.cg2 : t.cg2 = s.cg2 := by rw [h]; rfl
theorem ParseFrame.pe : t.pe = s.pe := by rw [h]; rfl
theorem ParseFrame.inp : t.inp = s.inp := by rw [h]; rfl
theorem ParseFrame.out : t.out = s.out := by rw [h]; rfl
theorem ParseFrame.res : t.res = s.res := by rw [h]; rfl
theorem ParseFrame.cfg : t.cfg = s.cfg := by rw [h]; rfl
theorem ParseFrame.slots : t.slots = s.slots := by rw [h]; rfl
theorem ParseFrame.port : t.port = s.port := by rw [h]; rfl
theorem ParseFrame.ret : t.ret = s.ret := by rw [h]; rfl
theorem ParseFrame.freeCtr : t.freeCtr = s.freeCtr := by rw [h]; rfl
theorem ParseFrame.lp : t.cur.lp = s.cur.lp := by rw [h]; rfl
theorem ParseFrame.lq : t.cur.lq = s.cur.lq := by rw [h]; rfl
theorem ParseFrame.fieldSet : t.cur.fieldSet = s.cur.fieldSet := by rw [h]; rfl

theorem ParseFrame.ready {f : PrimeField} (hr : Ready s f) : Ready t f :=
  ⟨h.pf.trans hr.pf, h.fieldSet.trans hr.fieldSet, h.lp.trans hr.lp, hr.fits⟩

end

/-- `DEC.POINT(g)` on `POINT(F)`, a point the decoder lets pass. -/
theorem decPoint_ok {α : Type} {F : Fld α} {s : State} {f : PrimeField} {c : CurveGroup} {pt : PointFields}
    {rest : List Byte} (hr : Ready s f) (hf : pointFits f.p F.deg pt = true)
    (hp : pointPasses f F (F.ofCoords c.a) (F.ofCoords c.b) pt = true) (h : Unread s (pointFieldBytes f.lp pt ++ rest)) :
    ∃ t, decPoint F c s = .ok (pointOf f F pt) t ∧ Unread t rest ∧ ParseFrame s t := by
  simp only [pointFits, Bool.and_eq_true] at hf
  simp only [pointFieldBytes, List.append_assoc] at h
  have r1 := decElem_ok hr hf.1 h
  have r2 := decElem_ok (hr.setOff _) hf.2 r1.2
  simp only [State.setOff_cur, State.setOff_setOff] at r2
  unfold decPoint
  rw [M.bind_of_ok r1.1, M.bind_of_ok r2.1]
  unfold pointPasses at hp
  unfold pointOf
  by_cases hz : (F.isZero (elemOf f F pt.x) && F.isZero (elemOf f F pt.y)) = true
  · rw [if_pos hz, if_pos hz]
    exact ⟨_, rfl, r2.2, ParseFrame.setOff _ _⟩
  · rw [if_neg hz, if_neg hz]
    have hon : ptOnCurve F (F.ofCoords c.a) (F.ofCoords c.b) (ptAffine F (elemOf f F pt.x) (elemOf f F pt.y)) = true := by
      simp only [hz, Bool.or_eq_true, Bool.false_eq_true, false_or] at hp
      exact hp
    rw [hon]
    exact ⟨_, rfl, r2.2, rfl⟩

/-- `DEC.SCALAR(g)` on `SCALAR`. -/
theorem decScalar_ok {s : State} {c : CurveGroup} {e lq : Nat} {rest : List Byte} (hl : s.cur.lq = some lq) (he : e < c.q)
    (hq : c.q ≤ 256 ^ lq) (h : Unread s (natToBytes e lq ++ rest)) :
    decScalar c s = .ok e (s.setOff (s.cur.off + lq)) ∧ Unread (s.setOff (s.cur.off + lq)) rest := by
  have r := tapeRead_unread h (natToBytes_length e lq).symm
  refine ⟨?_, r.2⟩
  have hb : bytesToNat (natToBytes e lq) = e := bytesToNat_natToBytes_of_lt (Nat.lt_of_lt_of_le he hq)
  have e1 : decide (bytesToNat (natToBytes e lq) < c.q) = true := by rw [hb]; simpa using he
  unfold decScalar
  rw [M.bind_of_ok (getLq_some hl), M.bind_of_ok r.1, M.bind_of_ok (require_of e1 _ _), hb]
  rfl

/-! ## Counts and lists -/

/-- `DEC.COUNT` on `COUNT`. -/
theorem decCount_ok {s : State} {n : Nat} {rest : List Byte} (hn : countFits n = true) (h : Unread s (byteOf n :: rest)) :
    decCount s = .ok n (s.setOff (s.cur.off + 1)) ∧ Unread (s.setOff (s.cur.off + 1)) rest := by
  simp only [countFits, Bool.and_eq_true, decide_eq_true_eq] at hn
  have r := readByte_byteOf (by omega) h
  have e1 : (n != 0) = true := by simp; omega
  refine ⟨?_, r.2⟩
  unfold decCount
  rw [M.bind_of_ok r.1, M.bind_of_ok (require_of e1 _ _)]
  rfl

/-- The entries of a multi-exponentiation. -/
theorem decEntries_ok {α : Type} {F : Fld α} {f : PrimeField} {c : CurveGroup} {lq : Nat} {rest : List Byte}
    (hq : c.q ≤ 256 ^ lq) : ∀ (list : List (PointFields × Nat)) {s : State}, Ready s f → s.cur.lq = some lq →
    (∀ pe ∈ list, pointFits f.p F.deg pe.1 = true ∧ pe.2 < c.q
      ∧ pointPasses f F (F.ofCoords c.a) (F.ofCoords c.b) pe.1 = true) →
    Unread s (list.flatMap (fun pe => pointFieldBytes f.lp pe.1 ++ natToBytes pe.2 lq) ++ rest) →
    ∃ t, decEntries F c list.length s = .ok (entriesOf f F list) t ∧ Unread t rest ∧ ParseFrame s t
  | [], s, _, _, _, h => ⟨s, rfl, h, ParseFrame.refl s⟩
  | pe :: list, s, hr, hl, ha, h => by
    simp only [List.flatMap_cons, List.append_assoc] at h
    obtain ⟨h1, h2, h3⟩ := ha pe (by simp)
    obtain ⟨t, r1, u1, f1⟩ := decPoint_ok hr h1 h3 h
    have r2 := decScalar_ok (f1.lq.trans hl) h2 hq u1
    have hr2 := f1.ready hr
    obtain ⟨t', r3, u3, f3⟩ := decEntries_ok (F := F) (f := f) hq list (hr2.setOff (t.cur.off + lq)) (f1.lq.trans hl)
      (fun pe hpe => ha pe (List.mem_cons_of_mem _ hpe)) r2.2
    refine ⟨t', ?_, u3, f1.trans ((ParseFrame.setOff t _).trans f3)⟩
    simp only [List.length_cons, decEntries]
    rw [M.bind_of_ok r1, M.bind_of_ok r2.1, M.bind_of_ok r3]
    rfl

/-- `DEC.MEXP_LIST(g)` on its count and entries. -/
theorem decMexpList_ok {α : Type} {F : Fld α} {f : PrimeField} {c : CurveGroup} {cf : CurveFields}
    {list : List (PointFields × Nat)} {s : State} {rest : List Byte} (hc : c.q = bytesToNat cf.ord) (hr : Ready s f)
    (hl : s.cur.lq = some cf.ord.length) (hf : mexpListFits f.p F.deg cf list = true)
    (hp : list.all (fun pe => pointPasses f F (F.ofCoords c.a) (F.ofCoords c.b) pe.1) = true)
    (h : Unread s (mexpListBytes f.lp cf list ++ rest)) :
    ∃ t, decMexpList F c s = .ok (entriesOf f F list) t ∧ Unread t rest ∧ ParseFrame s t := by
  simp only [mexpListFits, Bool.and_eq_true, List.all_eq_true, scalarFits, decide_eq_true_eq] at hf
  simp only [List.all_eq_true] at hp
  have r1 := decCount_ok hf.1 h
  have hq : c.q ≤ 256 ^ cf.ord.length := by rw [hc]; exact Nat.le_of_lt (bytesToNat_lt _)
  obtain ⟨t, r2, u2, f2⟩ := decEntries_ok (F := F) (f := f) hq list (hr.setOff _) (s := s.setOff (s.cur.off + 1)) hl
    (fun pe hpe => ⟨(hf.2 pe hpe).1, by rw [hc]; exact (hf.2 pe hpe).2, hp pe hpe⟩) r1.2
  refine ⟨t, ?_, u2, (ParseFrame.setOff s _).trans f2⟩
  unfold decMexpList
  rw [M.bind_of_ok r1.1, r2]

/-! ## End of input and results -/

/-- `DEC.END` when nothing is left. -/
theorem decEnd_ok {s : State} (h : Unread s []) : decEnd s = .ok () s := by
  have := h.length
  simp only [List.length_nil, Nat.add_zero] at this
  have e : (s.cur.off == s.inp.len) = true := by simpa using this
  unfold decEnd
  rw [M.bind_of_ok (look_apply _ _), require_of e]

/-- `DEC.END` when something is left (44_decoder.md R356). -/
theorem decEnd_trailing {s : State} {b : Byte} {bs : List Byte} (h : Unread s (b :: bs)) :
    decEnd s = .error (.raise .trailing) s := by
  have := h.length
  simp only [List.length_cons] at this
  have e : (s.cur.off == s.inp.len) = false := by simp; omega
  unfold decEnd
  rw [M.bind_of_ok (look_apply _ _), require_not e]

/-- `PointBytes(g, R)`. -/
theorem pointBytes_ok {α : Type} {F : Fld α} {s : State} {f : PrimeField} (hp : s.pf = some f) (hl : s.cur.lp = some f.lp)
    (r : Pt α) : pointBytes F r s = .ok (pointResult f F r) s := by
  unfold pointBytes
  rw [M.bind_of_ok (getPF_some hp), M.bind_of_ok (getLp_some hl)]
  rfl

end Sys2Proof.Machine
end

