-- ==== Sys2Proof/Laws/Frame.lean ====
section
/-! SUPPORT. What a sequence of steps leaves behind: `Along R m` says that `m` relates the state it starts in to the state it
ends in, however it ends, by `R`. One lemma per shared step; a frame or an invariant of a whole call is then `R` chosen once. -/

namespace Sys2Proof.Machine

/-- However `m` ends, the state it leaves is `R`-related to the one it began in. -/
def Along (R : State → State → Prop) {α : Type} (m : M α) : Prop :=
  ∀ s, (∀ a t, m s = .ok a t → R s t) ∧ (∀ e t, m s = .error e t → R s t)

/-- A relation that holds of no step and of two steps one after the other. -/
structure Chain (R : State → State → Prop) : Prop where
  refl : ∀ s, R s s
  trans : ∀ {s t u}, R s t → R t u → R s u

section
variable {R : State → State → Prop} {α β : Type}

theorem Along.of_same {m : M α} (hR : Chain R) (h : ∀ s, (∃ a, m s = .ok a s) ∨ (∃ e, m s = .error e s)) : Along R m := by
  intro s
  rcases h s with ⟨a, ha⟩ | ⟨e, he⟩
  · exact ⟨fun _ _ h' => by rw [ha] at h'; cases h'; exact hR.refl _, fun _ _ h' => by rw [ha] at h'; cases h'⟩
  · exact ⟨fun _ _ h' => (by rw [he] at h'; cases h'), fun _ _ h' => by rw [he] at h'; cases h'; exact hR.refl _⟩

theorem Along.bind {m : M α} {k : α → M β} (hR : Chain R) (hm : Along R m) (hk : ∀ a, Along R (k a)) : Along R (m >>= k) := by
  intro s
  rw [M.bind_apply]
  cases h : m s with
  | ok a t =>
    exact ⟨fun b u hu => hR.trans ((hm s).1 a t h) ((hk a t).1 b u hu), fun e u hu => hR.trans ((hm s).1 a t h) ((hk a t).2 e u hu)⟩
  | error e t =>
    refine ⟨fun b u hu => (by cases hu), fun e' u hu => ?_⟩
    cases hu
    exact (hm s).2 e t h

theorem Along.pure (hR : Chain R) (a : α) : Along R (pure a : M α) := .of_same hR (fun _ => .inl ⟨a, rfl⟩)
theorem Along.raise (hR : Chain R) (e : Err) : Along R (Machine.raise e : M α) := .of_same hR (fun _ => .inr ⟨_, rfl⟩)
theorem Along.faultWith (hR : Chain R) (f : Fault) : Along R (Machine.faultWith f : M α) := .of_same hR (fun _ => .inr ⟨_, rfl⟩)
theorem Along.refuseWith (hR : Chain R) (r : Refusal) : Along R (Machine.refuseWith r : M α) := .of_same hR (fun _ => .inr ⟨_, rfl⟩)
theorem Along.look (hR : Chain R) (f : State → α) : Along R (Machine.look f) := .of_same hR (fun _ => .inl ⟨_, rfl⟩)

theorem Along.require (hR : Chain R) (ok : Bool) (e : Err) : Along R (Machine.require ok e) :=
  .of_same hR (fun s => by cases ok with | true => exact .inl ⟨(), rfl⟩ | false => exact .inr ⟨_, rfl⟩)

theorem Along.requireSome (hR : Chain R) (o : Option α) (e : Err) : Along R (Machine.requireSome o e) :=
  .of_same hR (fun s => by cases o with | some v => exact .inl ⟨v, rfl⟩ | none => exact .inr ⟨_, rfl⟩)

theorem Along.demand (hR : Chain R) (ok : Bool) : Along R (Machine.demand ok) :=
  .of_same hR (fun s => by cases ok with | true => exact .inl ⟨(), rfl⟩ | false => exact .inr ⟨_, rfl⟩)

theorem Along.demandNoTable (hR : Chain R) (l : Level) (e : ExtField) : Along R (Machine.demandNoTable l e) :=
  .of_same hR (fun s => by
    unfold Machine.demandNoTable
    split
    · exact .inr ⟨_, rfl⟩
    · exact .inl ⟨_, rfl⟩)

theorem Along.getSet (hR : Chain R) (what : Item) (o : State → Option α) : Along R (Machine.getSet what o) :=
  .of_same hR (fun s => by
    cases h : o s with
    | some v => exact .inl ⟨v, getSet_some h⟩
    | none => exact .inr ⟨_, getSet_none h⟩)

theorem Along.getPF (hR : Chain R) : Along R Machine.getPF := .getSet hR _ _
theorem Along.getEX (hR : Chain R) (l : Level) : Along R (Machine.getEX l) := .getSet hR _ _
theorem Along.getCG (hR : Chain R) (g : Group) : Along R (Machine.getCG g) := .getSet hR _ _
theorem Along.getPE (hR : Chain R) : Along R Machine.getPE := .getSet hR _ _
theorem Along.getPEField (hR : Chain R) (o : Option α) : Along R (Machine.getPEField o) := .getSet hR _ _
theorem Along.getLp (hR : Chain R) : Along R Machine.getLp := .getSet hR _ _
theorem Along.getLq (hR : Chain R) : Along R Machine.getLq := .getSet hR _ _
theorem Along.getCurField (hR : Chain R) : Along R Machine.getCurField := .bind hR (.getSet hR _ _) (fun _ => .getPF hR)
theorem Along.readSlot (hR : Chain R) (i : Nat) : Along R (Machine.readSlot i) := .getSet hR _ _

theorem Along.readGroup (hR : Chain R) (a n : Nat) : Along R (Machine.readGroup a n) :=
  .of_same hR (fun s => by
    unfold Machine.readGroup
    split
    · exact .inr ⟨_, rfl⟩
    · exact .inl ⟨_, rfl⟩)

theorem Along.update {f : State → State} (h : ∀ s, R s (f s)) : Along R (Machine.update f) :=
  fun s => ⟨fun _ _ h' => by cases h'; exact h s, fun _ _ h' => by cases h'⟩

theorem Along.construct (hR : Chain R) {what : Item} {present : State → Bool} {f : State → State}
    (h : ∀ s, present s = false → R s (f s)) : Along R (Machine.construct what present f) := by
  intro s
  cases hp : present s with
  | false =>
    rw [construct_new hp]
    exact ⟨fun _ _ h' => by cases h'; exact h s hp, fun _ _ h' => by cases h'⟩
  | true =>
    rw [construct_frozen hp]
    exact ⟨fun _ _ h' => (by cases h'), fun _ _ h' => by cases h'; exact hR.refl _⟩

/-! ## Operands in slots -/

theorem Along.readElem (hR : Chain R) (F : Fld α) (a : Nat) : Along R (Machine.readElem F a) :=
  .bind hR (.readGroup hR _ _) (fun _ => .pure hR _)

theorem Along.readPt (hR : Chain R) (F : Fld α) (a : Nat) : Along R (Machine.readPt F a) :=
  .bind hR (.readElem hR F _) fun _ => .bind hR (.readElem hR F _) fun _ => .bind hR (.readElem hR F _) fun _ => .pure hR _

theorem Along.readPtZ (hR : Chain R) (F : Fld α) (a : Nat) : Along R (Machine.readPtZ F a) := .readElem hR F _

theorem Along.readPts (hR : Chain R) (F : Fld α) : ∀ n a, Along R (Machine.readPts F a n)
  | 0, _ => .pure hR _
  | n + 1, a => .bind hR (.readPt hR F a) fun _ => .bind hR (Along.readPts hR F n _) fun _ => .pure hR _

theorem Along.readXY (hR : Chain R) (F : Fld α) (a : Nat) : Along R (Machine.readXY F a) :=
  .bind hR (.readElem hR F _) fun _ => .bind hR (.readElem hR F _) fun _ => .pure hR _

theorem Along.readPt4 (hR : Chain R) (F : Fld α) (a : Nat) : Along R (Machine.readPt4 F a) :=
  .bind hR (.readElem hR F _) fun _ => .bind hR (.readElem hR F _) fun _ => .bind hR (.readElem hR F _) fun _ =>
    .bind hR (.readElem hR F _) fun _ => .pure hR _

theorem Along.readPairs (hR : Chain R) (F : Fld α) : ∀ n a, Along R (Machine.readPairs F a n)
  | 0, _ => .pure hR _
  | n + 1, a => .bind hR (.readSlot hR a) fun _ => .bind hR (.readSlot hR _) fun _ => .bind hR (.readXY hR F _) fun _ =>
    .bind hR (Along.readPairs hR F n _) fun _ => .pure hR _

/-! ## Levels, groups, engines -/

theorem Along.withLevel (hR : Chain R) (l : Level) {k : {α : Type} → Tow α → M β} (hk : ∀ {α : Type} (t : Tow α), Along R (k t)) :
    Along R (Machine.withLevel l k) := by
  refine .bind hR (.getPF hR) fun f => .bind hR (.look hR _) fun ctr => ?_
  cases l with
  | fq2 => exact .bind hR (.getEX hR _) fun _ => hk _
  | fq3 => exact .bind hR (.getEX hR _) fun _ => hk _
  | fq4 => exact .bind hR (.getEX hR _) fun _ => .bind hR (.getEX hR _) fun _ => hk _
  | fq6c => exact .bind hR (.getEX hR _) fun _ => .bind hR (.getEX hR _) fun _ => hk _
  | fq6q => exact .bind hR (.getEX hR _) fun _ => .bind hR (.getEX hR _) fun _ => hk _
  | fq12 => exact .bind hR (.getEX hR _) fun _ => .bind hR (.getEX hR _) fun _ => .bind hR (.getEX hR _) fun _ => hk _

theorem Along.withGroup (hR : Chain R) (g : Group) {k : {α : Type} → Fld α → CurveGroup → M β}
    (hk : ∀ {α : Type} (F : Fld α) (c : CurveGroup), Along R (k F c)) : Along R (Machine.withGroup g k) := by
  refine .bind hR (.getCG hR _) fun c => ?_
  show Along R (Machine.withFieldRef c.field fun F => k F c)
  cases c.field with
  | fp => exact .bind hR (.getPF hR) fun _ => hk _ _
  | level l => exact .withLevel hR l fun _ => hk _ _

theorem Along.getBnTower (hR : Chain R) : Along R Machine.getBnTower :=
  .bind hR (.getPF hR) fun _ => .bind hR (.look hR _) fun _ => .bind hR (.getEX hR _) fun _ => .bind hR (.getEX hR _) fun _ =>
    .bind hR (.getEX hR _) fun _ => .pure hR _

theorem Along.getMnt4Tower (hR : Chain R) (pe : Engine) : Along R (Machine.getMnt4Tower pe) :=
  .bind hR (.getPF hR) fun _ => .bind hR (.look hR _) fun _ => .bind hR (.getEX hR _) fun _ => .bind hR (.getEX hR _) fun _ =>
    .bind hR (.getCG hR _) fun _ => .bind hR (.getPEField hR _) fun _ => .bind hR (.getPEField hR _) fun _ => .pure hR _

theorem Along.getMnt6Tower (hR : Chain R) (pe : Engine) : Along R (Machine.getMnt6Tower pe) :=
  .bind hR (.getPF hR) fun _ => .bind hR (.look hR _) fun _ => .bind hR (.getEX hR _) fun _ => .bind hR (.getEX hR _) fun _ =>
    .bind hR (.getCG hR _) fun _ => .bind hR (.getPEField hR _) fun _ => .bind hR (.getPEField hR _) fun _ => .pure hR _

theorem Along.withBn (hR : Chain R) {k : BnTower → Engine → Bool → M β} (hk : ∀ t e b, Along R (k t e b)) :
    Along R (Machine.withBn k) := by
  refine .bind hR (.getPE hR) fun pe => ?_
  split
  · exact .bind hR (.getBnTower hR) fun _ => hk _ _ _
  · exact .bind hR (.getBnTower hR) fun _ => hk _ _ _
  · exact .faultWith hR _
  · exact .faultWith hR _

theorem Along.withMnt (hR : Chain R) {k : {α : Type} → MntTower α → Engine → M β}
    (hk : ∀ {α : Type} (t : MntTower α) (e : Engine), Along R (k t e)) : Along R (Machine.withMnt k) := by
  refine .bind hR (.getPE hR) fun pe => .bind hR (.getCG hR _) fun c => ?_
  split
  · exact .bind hR (.demand hR _) fun _ => .bind hR (.getMnt4Tower hR _) fun _ => hk _ _
  · exact .bind hR (.demand hR _) fun _ => .bind hR (.getMnt6Tower hR _) fun _ => hk _ _
  · exact .faultWith hR _
  · exact .faultWith hR _

end

/-! ## The steps of a call -/

/-- A relation that every update a call makes keeps: cursor moves forward inside the tape, cached lengths, the blocks, the
flags, and the model's counter. -/
structure CallChain (R : State → State → Prop) : Prop extends Chain R where
  off : ∀ s n, s.cur.off + n ≤ s.inp.len → R s (s.setOff (s.cur.off + n))
  field : ∀ s n, R s (s.setField n)
  lq : ∀ s n, R s (s.setLq n)
  pf : ∀ s f, R s (s.setPF f)
  ex : ∀ s l e, R s (s.setEX l e)
  cg : ∀ s g c, R s (s.setCG g c)
  pe : ∀ s e, R s (s.setPE e)
  flags : ∀ s f, R s (s.setFlags f)
  free : ∀ s, R s s.bumpFree

section
variable {R : State → State → Prop} {α β : Type} (hR : CallChain R)
include hR

theorem Along.tapeRead (n : Nat) : Along R (Machine.tapeRead n) := by
  intro s
  rcases tapeRead_cases n s with ⟨_, h⟩ | ⟨hl, h⟩
  · rw [h]
    exact ⟨fun _ _ h' => (by cases h'), fun _ _ h' => by cases h'; exact hR.refl _⟩
  · rw [h]
    exact ⟨fun _ _ h' => by cases h'; exact hR.off s n hl, fun _ _ h' => by cases h'⟩

theorem Along.readByte : Along R Machine.readByte := .bind hR.toChain (.tapeRead hR 1) fun _ => .pure hR.toChain _

theorem Along.readFlag : Along R Machine.readFlag :=
  .bind hR.toChain (.readByte hR) fun _ => .bind hR.toChain (.require hR.toChain _ _) fun _ => .pure hR.toChain _

theorem Along.newPF (mb : List Byte) : Along R (Machine.newPF mb) :=
  have q (ok : Bool) (e : Err) := Along.require hR.toChain ok e
  .bind hR.toChain (q _ _) fun _ => .bind hR.toChain (q _ _) fun _ => .bind hR.toChain (q _ _) fun _ =>
    .bind hR.toChain (q _ _) fun _ => .bind hR.toChain (q _ _) fun _ => .bind hR.toChain (q _ _) fun _ =>
    .construct hR.toChain fun s _ => hR.pf s _

theorem Along.newEX (l : Level) (nr : List Nat) : Along R (Machine.newEX l nr) := .construct hR.toChain fun s _ => hR.ex s _ _
theorem Along.newCG (g : Group) (c : CurveGroup) : Along R (Machine.newCG g c) := .construct hR.toChain fun s _ => hR.cg s _ _
theorem Along.constructPE (e : Engine) : Along R (Machine.constructPE e) := .construct hR.toChain fun s _ => hR.pe s _

theorem Along.twistCG2 (a b : List Nat) : Along R (Machine.twistCG2 a b) :=
  .bind hR.toChain (.getCG hR.toChain _) fun _ => .update fun s => hR.cg s _ _

theorem Along.noteFree (v : Bool) : Along R (Machine.noteFree v) :=
  .update fun s => by cases v with | true => exact hR.refl s | false => exact hR.free s

theorem Along.writeTables (l : Level) (e : ExtField) (t : Option (List (List Nat) × List (List Nat))) :
    Along R (Machine.writeTables l e t) := by
  cases t with
  | none => exact .pure hR.toChain _
  | some tt => exact .bind hR.toChain (.update fun s => hR.ex s _ _) fun _ => .pure hR.toChain _

theorem Along.frobTables (l : Level) : Along R (Machine.frobTables l) := by
  refine .bind hR.toChain (.getPF hR.toChain) fun f => ?_
  cases l
  case fq6c | fq12 =>
    exact .bind hR.toChain (.getEX hR.toChain _) fun _ => .bind hR.toChain (.getEX hR.toChain _) fun _ => .pure hR.toChain _
  all_goals exact .bind hR.toChain (.getEX hR.toChain _) fun _ => .pure hR.toChain _

theorem Along.calcFrob (l : Level) : Along R (Machine.calcFrob l) :=
  .bind hR.toChain (.getEX hR.toChain _) fun _ => .bind hR.toChain (.demandNoTable hR.toChain _ _) fun _ =>
    .bind hR.toChain (.frobTables hR _) fun _ => .bind hR.toChain (.writeTables hR _ _ _) fun _ =>
    .bind hR.toChain (.update fun s => hR.flags s _) fun _ => .pure hR.toChain _

theorem Along.calcFrobPre (l : PreLevel) (f1 : E2) : Along R (Machine.calcFrobPre l f1) :=
  .bind hR.toChain (.getPF hR.toChain) fun _ => .bind hR.toChain (.look hR.toChain _) fun _ =>
    .bind hR.toChain (.getEX hR.toChain _) fun _ => .bind hR.toChain (.getEX hR.toChain _) fun _ =>
    .bind hR.toChain (.demandNoTable hR.toChain _ _) fun _ => .bind hR.toChain (.writeTables hR _ _ _) fun _ =>
    .bind hR.toChain (.noteFree hR _) fun _ => .bind hR.toChain (.update fun s => hR.flags s _) fun _ => .pure hR.toChain _

theorem Along.newPE (family : Family) (twist : Twist) (x : Nat) (xNeg : Bool) (w0 w1 : Nat) (w0Neg : Bool) :
    Along R (Machine.newPE family twist x xNeg w0 w1 w0Neg) := by
  refine .bind hR.toChain (.getCG hR.toChain _) fun _ => .bind hR.toChain (.getCG hR.toChain _) fun _ =>
    .bind hR.toChain (.getEX hR.toChain _) fun _ => .bind hR.toChain (.look hR.toChain _) fun _ => ?_
  cases family with
  | bls12 => exact .constructPE hR _
  | bn => exact .constructPE hR _
  | mnt4 => exact .bind hR.toChain (.getPF hR.toChain) fun _ => .withLevel hR.toChain _ fun _ => .constructPE hR _
  | mnt6 => exact .bind hR.toChain (.getPF hR.toChain) fun _ => .withLevel hR.toChain _ fun _ => .constructPE hR _

theorem Along.multiPairBn (t : BnTower) (pe : Engine) (isBn : Bool) (ms : List (MillerPair E2 Unit)) :
    Along R (Machine.multiPairBn t pe isBn ms) :=
  .bind hR.toChain (.getPEField hR.toChain _) fun _ => .bind hR.toChain (.getPEField hR.toChain _) fun _ =>
    .bind hR.toChain (by cases isBn with | true => exact .getPEField hR.toChain _ | false => exact .pure hR.toChain _) fun _ =>
    .bind hR.toChain (.noteFree hR _) fun _ => .pure hR.toChain _

theorem Along.multiPairMnt (t : MntTower α) (pe : Engine) (ms : List (MillerPair α Unit)) :
    Along R (Machine.multiPairMnt t pe ms) :=
  .bind hR.toChain (.getPEField hR.toChain _) fun _ => .bind hR.toChain (.getPEField hR.toChain _) fun _ =>
    .bind hR.toChain (.getPEField hR.toChain _) fun _ => .bind hR.toChain (.noteFree hR _) fun _ => .pure hR.toChain _

theorem Along.multiExp (F : Fld α) (a : α) (q : Nat) (ps : List (Pt α)) (es : List Nat) : Along R (Machine.multiExp F a q ps es) :=
  .bind hR.toChain (.require hR.toChain _ _) fun _ => .pure hR.toChain _

/-! ### Parse steps -/

theorem Along.decBase : Along R Machine.decBase :=
  .bind hR.toChain (.readByte hR) fun _ => .bind hR.toChain (.require hR.toChain _ _) fun _ =>
    .bind hR.toChain (.require hR.toChain _ _) fun _ => .bind hR.toChain (.tapeRead hR _) fun _ =>
    .bind hR.toChain (.newPF hR _) fun _ => .update fun s => hR.field s _

theorem Along.decFE : Along R Machine.decFE :=
  .bind hR.toChain (.getCurField hR.toChain) fun _ => .bind hR.toChain (.getLp hR.toChain) fun _ =>
    .bind hR.toChain (.tapeRead hR _) fun _ => .bind hR.toChain (.require hR.toChain _ _) fun _ => .pure hR.toChain _

theorem Along.decFEs : ∀ n, Along R (Machine.decFEs n)
  | 0 => .pure hR.toChain _
  | n + 1 => .bind hR.toChain (.decFE hR) fun _ => .bind hR.toChain (Along.decFEs n) fun _ => .pure hR.toChain _

theorem Along.decElem (F : Fld α) : Along R (Machine.decElem F) := .bind hR.toChain (.decFEs hR _) fun _ => .pure hR.toChain _

theorem Along.decOrder : Along R Machine.decOrder :=
  .bind hR.toChain (.readByte hR) fun _ => .bind hR.toChain (.require hR.toChain _ _) fun _ =>
    .bind hR.toChain (.require hR.toChain _ _) fun _ => .bind hR.toChain (.tapeRead hR _) fun _ =>
    .bind hR.toChain (.require hR.toChain _ _) fun _ => .bind hR.toChain (.update fun s => hR.lq s _) fun _ => .pure hR.toChain _

theorem Along.decCurve (F : Fld α) (g : Group) (field : FieldRef) : Along R (Machine.decCurve F g field) :=
  .bind hR.toChain (.decElem hR F) fun _ => .bind hR.toChain (.decElem hR F) fun _ => .bind hR.toChain (.decOrder hR) fun _ =>
    .bind hR.toChain (.newCG hR _ _) fun _ => .pure hR.toChain _

theorem Along.decExtHdr (allowed : List Nat) (n : Nat → Nat) : Along R (Machine.decExtHdr allowed n) :=
  .bind hR.toChain (.readByte hR) fun _ => .bind hR.toChain (.require hR.toChain _ _) fun _ =>
    .bind hR.toChain (.decFE hR) fun _ => .bind hR.toChain (.getPF hR.toChain) fun _ =>
    .bind hR.toChain (.require hR.toChain _ _) fun _ => .bind hR.toChain (.update fun s => hR.flags s _) fun _ =>
    .bind hR.toChain (.require hR.toChain _ _) fun _ => .bind hR.toChain (.newEX hR _ _) fun _ => .pure hR.toChain _

theorem Along.decPoint (F : Fld α) (c : CurveGroup) : Along R (Machine.decPoint F c) := by
  refine .bind hR.toChain (.decElem hR F) fun x => .bind hR.toChain (.decElem hR F) fun y => ?_
  split
  · exact .pure hR.toChain _
  · exact .bind hR.toChain (.update fun s => hR.flags s _) fun _ => .bind hR.toChain (.require hR.toChain _ _) fun _ => .pure hR.toChain _

theorem Along.decScalar (c : CurveGroup) : Along R (Machine.decScalar c) :=
  .bind hR.toChain (.getLq hR.toChain) fun _ => .bind hR.toChain (.tapeRead hR _) fun _ =>
    .bind hR.toChain (.require hR.toChain _ _) fun _ => .pure hR.toChain _

theorem Along.decXi : Along R Machine.decXi :=
  .bind hR.toChain (.getPF hR.toChain) fun _ => .bind hR.toChain (.getEX hR.toChain _) fun _ =>
    .bind hR.toChain (.decElem hR _) fun _ => .bind hR.toChain (.require hR.toChain _ _) fun _ =>
    .bind hR.toChain (.require hR.toChain _ _) fun _ => .bind hR.toChain (.require hR.toChain _ _) fun _ => .pure hR.toChain _

theorem Along.twistMultiplier (F2 : Fld E2) (t : Twist) (xi : E2) : Along R (Machine.twistMultiplier F2 t xi) := by
  cases t with
  | m => exact .pure hR.toChain _
  | d => exact .bind hR.toChain (.update fun s => hR.flags s _) fun _ => .bind hR.toChain (.require hR.toChain _ _) fun _ => .pure hR.toChain _

theorem Along.decTwist (xi : E2) : Along R (Machine.decTwist xi) :=
  .bind hR.toChain (.getPF hR.toChain) fun _ => .bind hR.toChain (.getEX hR.toChain _) fun _ =>
    .bind hR.toChain (.readByte hR) fun _ => .bind hR.toChain (.requireSome hR.toChain _ _) fun _ =>
    .bind hR.toChain (.getCG hR.toChain _) fun _ => .bind hR.toChain (.newCG hR _ _) fun _ =>
    .bind hR.toChain (.twistMultiplier hR _ _ _) fun _ => .bind hR.toChain (.twistCG2 hR _ _) fun _ => .pure hR.toChain _

theorem Along.decTower (xi : E2) : Along R (Machine.decTower xi) :=
  .bind hR.toChain (.getPF hR.toChain) fun _ => .bind hR.toChain (.getEX hR.toChain _) fun _ =>
    .bind hR.toChain (.calcFrob hR _) fun _ => .bind hR.toChain (.require hR.toChain _ _) fun _ =>
    .bind hR.toChain (.require hR.toChain _ _) fun _ => .bind hR.toChain (.newEX hR _ _) fun _ =>
    .bind hR.toChain (.calcFrobPre hR _ _) fun _ => .bind hR.toChain (.require hR.toChain _ _) fun _ =>
    .bind hR.toChain (.newEX hR _ _) fun _ => .bind hR.toChain (.calcFrobPre hR _ _) fun _ => .require hR.toChain _ _

theorem Along.decLoop : Along R Machine.decLoop :=
  .bind hR.toChain (.readByte hR) fun _ => .bind hR.toChain (.require hR.toChain _ _) fun _ =>
    .bind hR.toChain (.tapeRead hR _) fun _ => .bind hR.toChain (.require hR.toChain _ _) fun _ =>
    .bind hR.toChain (.require hR.toChain _ _) fun _ => .pure hR.toChain _

theorem Along.decCount : Along R Machine.decCount :=
  .bind hR.toChain (.readByte hR) fun _ => .bind hR.toChain (.require hR.toChain _ _) fun _ => .pure hR.toChain _

theorem Along.checkSubgroup (F : Fld α) (c : CurveGroup) (wanted : Bool) (p : Pt α) : Along R (Machine.checkSubgroup F c wanted p) := by
  cases wanted with
  | true => exact .bind hR.toChain (.update fun s => hR.flags s _) fun _ => .require hR.toChain _ _
  | false => exact .pure hR.toChain _

theorem Along.decPair (F1 : Fld Nat) (c1 : CurveGroup) (F : Fld α) (c2 : CurveGroup) : Along R (Machine.decPair F1 c1 F c2) :=
  .bind hR.toChain (.readFlag hR) fun _ => .bind hR.toChain (.update fun s => hR.flags s _) fun _ => .bind hR.toChain (.decPoint hR _ _) fun _ =>
    .bind hR.toChain (.checkSubgroup hR _ _ _ _) fun _ => .bind hR.toChain (.readFlag hR) fun _ =>
    .bind hR.toChain (.update fun s => hR.flags s _) fun _ => .bind hR.toChain (.decPoint hR _ _) fun _ =>
    .bind hR.toChain (.checkSubgroup hR _ _ _ _) fun _ => .bind hR.toChain (.update fun s => hR.flags s _) fun _ => .pure hR.toChain _

theorem Along.decPairs (F1 : Fld Nat) (c1 : CurveGroup) (F : Fld α) (c2 : CurveGroup) : ∀ n, Along R (Machine.decPairs F1 c1 F c2 n)
  | 0 => .pure hR.toChain _
  | n + 1 => .bind hR.toChain (.decPair hR _ _ _ _) fun _ => .bind hR.toChain (Along.decPairs F1 c1 F c2 n) fun _ => .pure hR.toChain _

theorem Along.decEntries (F : Fld α) (c : CurveGroup) : ∀ n, Along R (Machine.decEntries F c n)
  | 0 => .pure hR.toChain _
  | n + 1 => .bind hR.toChain (.decPoint hR _ _) fun _ => .bind hR.toChain (.decScalar hR _) fun _ =>
    .bind hR.toChain (Along.decEntries F c n) fun _ => .pure hR.toChain _

theorem Along.decMexpList (F : Fld α) (c : CurveGroup) : Along R (Machine.decMexpList F c) :=
  .bind hR.toChain (.decCount hR) fun _ => .decEntries hR _ _ _

theorem Along.decMntTwist (F : Fld α) (l : Level) : Along R (Machine.decMntTwist F l) :=
  .bind hR.toChain (.getPF hR.toChain) fun _ => .bind hR.toChain (.getCG hR.toChain _) fun _ =>
    .bind hR.toChain (.newCG hR _ _) fun _ => .twistCG2 hR _ _

theorem Along.decMntTower (F : Fld α) (l t : Level) : Along R (Machine.decMntTower F l t) :=
  .bind hR.toChain (.getPF hR.toChain) fun _ => .bind hR.toChain (.calcFrob hR _) fun _ =>
    .bind hR.toChain (.require hR.toChain _ _) fun _ => .bind hR.toChain (.newEX hR _ _) fun _ =>
    .bind hR.toChain (.calcFrob hR _) fun _ => .require hR.toChain _ _

theorem Along.decEnd : Along R Machine.decEnd :=
  .bind hR.toChain (.look hR.toChain _) fun _ => .require hR.toChain _ _

theorem Along.pointBytes (F : Fld α) (r : Pt α) : Along R (Machine.pointBytes F r) :=
  .bind hR.toChain (.getPF hR.toChain) fun _ => .bind hR.toChain (.getLp hR.toChain) fun _ => .pure hR.toChain _

theorem Along.pairingResult (b : Bool) : Along R (Machine.pairingResult b) :=
  .bind hR.toChain (.update fun s => hR.flags s _) fun _ => .pure hR.toChain _

theorem Along.withDegree (d : Nat) {k : {α : Type} → Fld α → M β} (hk : ∀ {α : Type} (F : Fld α), Along R (k F)) :
    Along R (Machine.withDegree d k) := by
  refine .bind hR.toChain (.getPF hR.toChain) fun f => ?_
  split
  · exact .bind hR.toChain (.getEX hR.toChain _) fun _ => hk _
  · exact .bind hR.toChain (.getEX hR.toChain _) fun _ => hk _

theorem Along.decG1 : Along R Machine.decG1 :=
  .bind hR.toChain (.decBase hR) fun _ => .bind hR.toChain (.getPF hR.toChain) fun _ => .bind hR.toChain (.decCurve hR _ _ _) fun _ =>
    .bind hR.toChain (.getCG hR.toChain _) fun _ => .pure hR.toChain _

theorem Along.decMntLoops : Along R Machine.decMntLoops :=
  .bind hR.toChain (.decLoop hR) fun _ => .bind hR.toChain (.readFlag hR) fun _ => .bind hR.toChain (.decLoop hR) fun _ =>
    .bind hR.toChain (.decLoop hR) fun _ => .bind hR.toChain (.readFlag hR) fun _ => .pure hR.toChain _

end

/-! ## Where the cursor stands at the end -/

/-- A sequence of steps that, when it runs to its end, leaves every byte of the tape read (10_state.md R28). -/
def EndsAtEnd {α : Type} (m : M α) : Prop := ∀ s a t, m s = .ok a t → t.cur.off = t.inp.len

/-- Once every byte is read, no step of a call moves the cursor: another read would raise `E_SHORT` (44_decoder.md R321). -/
theorem endKept_chain : CallChain (fun s t => s.cur.off = s.inp.len → t.cur.off = t.inp.len) where
  refl _ h := h
  trans h1 h2 h := h2 (h1 h)
  off s n hl h := by
    show s.cur.off + n = s.inp.len
    omega
  field _ _ h := h
  lq _ _ h := h
  pf _ _ h := h
  ex _ _ _ h := h
  cg _ g _ h := by cases g <;> exact h
  pe _ _ h := h
  flags _ _ h := h
  free _ h := h

section
variable {α β : Type}

theorem EndsAtEnd.bind {m : M α} {k : α → M β} (hk : ∀ a, EndsAtEnd (k a)) : EndsAtEnd (m >>= k) := by
  intro s b u h
  rw [M.bind_apply] at h
  cases hm : m s with
  | ok a t => rw [hm] at h; exact hk a t b u h
  | error e t => rw [hm] at h; cases h

theorem EndsAtEnd.andThen {m : M α} {k : α → M β} (hm : EndsAtEnd m)
    (hk : ∀ a, Along (fun s t => s.cur.off = s.inp.len → t.cur.off = t.inp.len) (k a)) : EndsAtEnd (m >>= k) := by
  intro s b u h
  rw [M.bind_apply] at h
  cases hs : m s with
  | ok a t => rw [hs] at h; exact (hk a t).1 b u h (hm s a t hs)
  | error e t => rw [hs] at h; cases h

/-- `DEC.END` (44_decoder.md R356). -/
theorem EndsAtEnd.decEnd : EndsAtEnd Machine.decEnd := by
  intro s a t h
  cases hb : s.cur.off == s.inp.len with
  | true =>
    have : Machine.decEnd s = .ok () s := by unfold Machine.decEnd; rw [M.bind_of_ok (look_apply _ _), require_of hb]
    rw [this] at h; cases h; exact beq_iff_eq.1 hb
  | false =>
    have : Machine.decEnd s = .error (.raise .trailing) s := by
      unfold Machine.decEnd; rw [M.bind_of_ok (look_apply _ _), require_not hb]
    rw [this] at h; cases h

theorem EndsAtEnd.withDegree (d : Nat) {k : {α : Type} → Fld α → M β} (hk : ∀ {α : Type} (F : Fld α), EndsAtEnd (k F)) :
    EndsAtEnd (Machine.withDegree d k) := by
  refine .bind fun f => ?_
  split
  · exact .bind fun _ => hk _
  · exact .bind fun _ => hk _

theorem EndsAtEnd.callAdd (F : Fld α) (c : CurveGroup) : EndsAtEnd (Machine.callAdd F c) :=
  .bind fun _ => .bind fun _ => .andThen .decEnd fun _ => .pointBytes endKept_chain _ _

theorem EndsAtEnd.callMul (F : Fld α) (c : CurveGroup) : EndsAtEnd (Machine.callMul F c) :=
  .bind fun _ => .bind fun _ => .andThen .decEnd fun _ => .pointBytes endKept_chain _ _

theorem EndsAtEnd.callMexp (F : Fld α) (c : CurveGroup) : EndsAtEnd (Machine.callMexp F c) :=
  .bind fun _ => .andThen .decEnd fun _ =>
    .bind endKept_chain.toChain (.multiExp endKept_chain _ _ _ _ _) fun _ => .pointBytes endKept_chain _ _

theorem EndsAtEnd.callTwisted (isBn : Bool) : EndsAtEnd (Machine.callTwisted isBn) := by
  refine .bind fun _ => .bind fun _ => .bind fun _ => .bind fun _ => .bind fun _ => .bind fun _ => .bind fun _ => ?_
  have rest (t : BnTower) (b : Bool) (pairs : List (MillerPair E2 Unit)) (family : Family) (tw : Twist) (x : Nat) (neg : Bool) :
      EndsAtEnd (do
        Machine.decEnd
        Machine.newPE family tw x neg 0 0 false
        let pe ← Machine.getPE
        let v ← Machine.multiPairBn t pe b pairs
        Machine.pairingResult (t.t12.fld.beq v t.t12.fld.one)) :=
    .andThen .decEnd fun _ =>
      .bind endKept_chain.toChain (.newPE endKept_chain _ _ _ _ _ _ _) fun _ =>
      .bind endKept_chain.toChain (.getPE endKept_chain.toChain) fun _ =>
      .bind endKept_chain.toChain (.multiPairBn endKept_chain _ _ _ _) fun _ => .pairingResult endKept_chain _
  cases isBn with
  | true => exact .bind fun _ => .bind fun _ => .bind fun _ => .bind fun _ => .bind fun _ => rest _ _ _ _ _ _ _
  | false => exact .bind fun _ => .bind fun _ => .bind fun _ => .bind fun _ => rest _ _ _ _ _ _ _

theorem EndsAtEnd.decMntCall (f : PrimeField) (c1 : CurveGroup) (F : Fld α) (l target : Level) (family : Family) :
    EndsAtEnd (Machine.decMntCall f c1 F l target family) :=
  .bind fun _ => .bind fun _ => .bind fun _ => .bind fun _ => .bind fun _ => .bind fun _ => .andThen .decEnd fun _ =>
    .bind endKept_chain.toChain (.newPE endKept_chain _ _ _ _ _ _ _) fun _ => .pure endKept_chain.toChain _

theorem EndsAtEnd.mnt4Body : EndsAtEnd Machine.mnt4Body :=
  .bind fun _ => .bind fun _ => .bind fun _ => .andThen (.decMntCall _ _ _ _ _ _) fun _ =>
    .bind endKept_chain.toChain (.getPE endKept_chain.toChain) fun _ =>
    .bind endKept_chain.toChain (.getMnt4Tower endKept_chain.toChain _) fun _ =>
    .bind endKept_chain.toChain (.multiPairMnt endKept_chain _ _ _) fun _ => .pairingResult endKept_chain _

theorem EndsAtEnd.mnt6Body : EndsAtEnd Machine.mnt6Body :=
  .bind fun _ => .bind fun _ => .bind fun _ => .andThen (.decMntCall _ _ _ _ _ _) fun _ =>
    .bind endKept_chain.toChain (.getPE endKept_chain.toChain) fun _ =>
    .bind endKept_chain.toChain (.getMnt6Tower endKept_chain.toChain _) fun _ =>
    .bind endKept_chain.toChain (.multiPairMnt endKept_chain _ _ _) fun _ => .pairingResult endKept_chain _

/-- What a call leaves when it answers a next state: an ok result and the cursor at the end of the tape, or an error. -/
theorem runCall_end {m : M (List Byte)} {s t : State} (hm : EndsAtEnd m) (h : runCall m s = .next t) :
    (∃ bs u, m s = .ok bs u ∧ u.cur.off = u.inp.len ∧ t = u.finish bs) ∨
      ∃ e u, m s = .error (.raise e) u ∧ t = u.raiseErr e := by
  rcases runCall_next h with ⟨bs, u, hu, ht⟩ | he
  · exact .inl ⟨bs, u, hu, hm s bs u hu, ht⟩
  · exact .inr he

end

end Sys2Proof.Machine
end

