-- ==== Sys2Proof/Laws/Levels.lean ====
section
/-! SUPPORT. What the operand forms answer when their operands stand in the slots, and what an operation works in when
the blocks it needs exist. -/

namespace Sys2Proof.Machine

/-! ## Operands -/

section
variable {α : Type} {F : Fld α} {s : State}

/-- An element is read. -/
theorem readElem_at {a : Nat} {v : α} (h : ElemAt s F a v) : readElem F a s = .ok v s := by
  obtain ⟨vs, h1, rfl⟩ := h
  exact readElem_ok h1

/-- A point is read. -/
theorem readPt_at {a : Nat} {p : Pt α} (h : PtAt s F a p) : readPt F a s = .ok p s := by
  unfold readPt
  rw [M.bind_of_ok (readElem_at h.1), M.bind_of_ok (readElem_at h.2.1), M.bind_of_ok (readElem_at h.2.2)]
  rfl

/-- The `Z` of a point is read. -/
theorem readPtZ_at {a : Nat} {z : α} (h : ElemAt s F (a + 2 * F.deg) z) : readPtZ F a s = .ok z s := readElem_at h

/-- An affine pair is read. -/
theorem readXY_at {a : Nat} {q : α × α} (h : XYAt s F a q) : readXY F a s = .ok q s := by
  unfold readXY
  rw [M.bind_of_ok (readElem_at h.1), M.bind_of_ok (readElem_at h.2)]
  rfl

/-- A point `(X, Y, Z, T)` is read. -/
theorem readPt4_at {a : Nat} {p : Pt4 α} (h : Pt4At s F a p) : readPt4 F a s = .ok p s := by
  unfold readPt4
  rw [M.bind_of_ok (readElem_at h.1), M.bind_of_ok (readElem_at h.2.1), M.bind_of_ok (readElem_at h.2.2.1),
    M.bind_of_ok (readElem_at h.2.2.2)]
  rfl

/-- Consecutive points are read. -/
theorem readPts_at : ∀ {a : Nat} {ps : List (Pt α)}, PtsAt s F a ps → readPts F a ps.length s = .ok ps s
  | _, [], _ => rfl
  | a, p :: ps, h => by
    simp only [List.length_cons, readPts]
    rw [M.bind_of_ok (readPt_at h.1), M.bind_of_ok (readPts_at h.2)]
    rfl

/-- Consecutive pairs are read. -/
theorem readPairs_at : ∀ {a : Nat} {ms : List (MillerPair α Unit)}, PairsAt s F a ms → readPairs F a ms.length s = .ok ms s
  | _, [], _ => rfl
  | a, m :: ms, h => by
    simp only [List.length_cons, readPairs]
    rw [M.bind_of_ok (readSlot_some h.1), M.bind_of_ok (readSlot_some h.2.1), M.bind_of_ok (readXY_at h.2.2.1),
      M.bind_of_ok (readPairs_at h.2.2.2)]
    rfl

end

/-! ## Levels, groups, engines -/

/-- An operation at a level that exists works in the tower of its blocks. -/
theorem withLevel_of {β : Type} {s : State} {l : Level} {α : Type} {t : Tow α} (h : LevelIs s l α t)
    (k : {α : Type} → Tow α → M β) : withLevel l k s = k t s := by
  cases h with
  | fq2 f e2 h1 h2 =>
    unfold withLevel
    rw [M.bind_of_ok (getPF_some h1), M.bind_of_ok (look_apply _ _)]
    exact M.bind_of_ok (getEX_some (l := .fq2) h2)
  | fq3 f e3 h1 h2 =>
    unfold withLevel
    rw [M.bind_of_ok (getPF_some h1), M.bind_of_ok (look_apply _ _)]
    exact M.bind_of_ok (getEX_some (l := .fq3) h2)
  | fq4 f e2 e4 h1 h2 h3 =>
    unfold withLevel
    rw [M.bind_of_ok (getPF_some h1), M.bind_of_ok (look_apply _ _)]
    exact (M.bind_of_ok (getEX_some (l := .fq2) h2)).trans (M.bind_of_ok (getEX_some (l := .fq4) h3))
  | fq6c f e2 e6 h1 h2 h3 =>
    unfold withLevel
    rw [M.bind_of_ok (getPF_some h1), M.bind_of_ok (look_apply _ _)]
    exact (M.bind_of_ok (getEX_some (l := .fq2) h2)).trans (M.bind_of_ok (getEX_some (l := .fq6c) h3))
  | fq6q f e3 e6 h1 h2 h3 =>
    unfold withLevel
    rw [M.bind_of_ok (getPF_some h1), M.bind_of_ok (look_apply _ _)]
    exact (M.bind_of_ok (getEX_some (l := .fq3) h2)).trans (M.bind_of_ok (getEX_some (l := .fq6q) h3))
  | fq12 f e2 e6 e12 h1 h2 h3 h4 =>
    unfold withLevel
    rw [M.bind_of_ok (getPF_some h1), M.bind_of_ok (look_apply _ _)]
    exact (M.bind_of_ok (getEX_some (l := .fq2) h2)).trans ((M.bind_of_ok (getEX_some (l := .fq6c) h3)).trans (M.bind_of_ok (getEX_some (l := .fq12) h4)))

/-- An operation of a group that exists works in its field and its block. -/
theorem withGroup_of {β : Type} {s : State} {g : Group} {α : Type} {F : Fld α} {c : CurveGroup} (h : GroupIs s g α F c)
    (k : {α : Type} → Fld α → CurveGroup → M β) : withGroup g k s = k F c s := by
  cases h with
  | g1 f c h1 h2 h3 =>
    unfold withGroup
    rw [M.bind_of_ok (getCG_some (g := .g1) h2)]
    unfold withFieldRef
    simp only [h3]
    exact M.bind_of_ok (getPF_some h1)
  | g2 l α t c h1 h2 h3 =>
    unfold withGroup
    rw [M.bind_of_ok (getCG_some (g := .g2) h1)]
    unfold withFieldRef
    simp only [h2]
    exact withLevel_of h3 (fun t => k t.fld c)

/-- The BN and BLS12 tower is read. -/
theorem getBnTower_of {s : State} {t : BnTower} (h : TowerIs s t) : getBnTower s = .ok t s := by
  obtain ⟨f, e2, e6, e12, h1, h2, h3, h4, rfl⟩ := h
  unfold getBnTower
  rw [M.bind_of_ok (getPF_some h1), M.bind_of_ok (look_apply _ _), M.bind_of_ok (getEX_some (l := .fq2) h2),
    M.bind_of_ok (getEX_some (l := .fq6c) h3), M.bind_of_ok (getEX_some (l := .fq12) h4)]
  rfl

/-- A BN or BLS12 engine operation works in its tower. -/
theorem withBn_of {β : Type} {s : State} {t : BnTower} {pe : Engine} {isBn : Bool} (h : TwistedIs s t pe isBn)
    (k : BnTower → Engine → Bool → M β) : withBn k s = k t pe isBn s := by
  obtain ⟨h1, h2, h3⟩ := h
  unfold withBn
  rw [M.bind_of_ok (getPE_some h1)]
  cases isBn <;> simp only [h2] <;> exact M.bind_of_ok (getBnTower_of h3)

/-- The MNT4 tower is read. -/
theorem getMnt4Tower_of {s : State} {f : PrimeField} {e2 e4 : ExtField} {c : CurveGroup} {pe : Engine} {tw twInv : List Nat}
    (h1 : s.pf = some f) (h2 : s.ex.fq2 = some e2) (h3 : s.ex.fq4 = some e4) (h4 : s.cg2 = some c)
    (h8 : pe.tw = some tw) (h9 : pe.twInv = some twInv) :
    getMnt4Tower pe s = .ok
      { te := towFq2 f s.freeCtr e2
        tt := towFq4 f s.freeCtr e2 e4
        tw := (towFq2 f s.freeCtr e2).fld.ofCoords tw
        twInv := (towFq2 f s.freeCtr e2).fld.ofCoords twInv
        a' := (towFq2 f s.freeCtr e2).fld.ofCoords c.a
        isMnt6 := false } s := by
  unfold getMnt4Tower
  rw [M.bind_of_ok (getPF_some h1), M.bind_of_ok (look_apply _ _), M.bind_of_ok (getEX_some (l := .fq2) h2),
    M.bind_of_ok (getEX_some (l := .fq4) h3), M.bind_of_ok (getCG_some (g := .g2) h4), h8, h9,
    M.bind_of_ok (getPEField_some _ _), M.bind_of_ok (getPEField_some _ _)]
  rfl

/-- The MNT6 tower is read. -/
theorem getMnt6Tower_of {s : State} {f : PrimeField} {e3 e6 : ExtField} {c : CurveGroup} {pe : Engine} {tw twInv : List Nat}
    (h1 : s.pf = some f) (h2 : s.ex.fq3 = some e3) (h3 : s.ex.fq6q = some e6) (h4 : s.cg2 = some c)
    (h8 : pe.tw = some tw) (h9 : pe.twInv = some twInv) :
    getMnt6Tower pe s = .ok
      { te := towFq3 f s.freeCtr e3
        tt := towFq6q f s.freeCtr e3 e6
        tw := (towFq3 f s.freeCtr e3).fld.ofCoords tw
        twInv := (towFq3 f s.freeCtr e3).fld.ofCoords twInv
        a' := (towFq3 f s.freeCtr e3).fld.ofCoords c.a
        isMnt6 := true } s := by
  unfold getMnt6Tower
  rw [M.bind_of_ok (getPF_some h1), M.bind_of_ok (look_apply _ _), M.bind_of_ok (getEX_some (l := .fq3) h2),
    M.bind_of_ok (getEX_some (l := .fq6q) h3), M.bind_of_ok (getCG_some (g := .g2) h4), h8, h9,
    M.bind_of_ok (getPEField_some _ _), M.bind_of_ok (getPEField_some _ _)]
  rfl

/-- An MNT engine operation works in its tower. -/
theorem withMnt_of {β : Type} {s : State} {α : Type} {t : MntTower α} {pe : Engine} (h : MntIs s α t pe)
    (k : {α : Type} → MntTower α → Engine → M β) : withMnt k s = k t pe s := by
  cases h with
  | mnt4 f e2 e4 c pe tw twInv h1 h2 h3 h4 h5 h6 h7 h8 h9 =>
    unfold withMnt
    rw [M.bind_of_ok (getPE_some h6), M.bind_of_ok (getCG_some (g := .g2) h4)]
    have hd : demand (c.field == .level .fq2) s = .ok () s := by rw [h5]; rfl
    simp only [h7]
    exact (M.bind_of_ok hd).trans (M.bind_of_ok (getMnt4Tower_of h1 h2 h3 h4 h8 h9))
  | mnt6 f e3 e6 c pe tw twInv h1 h2 h3 h4 h5 h6 h7 h8 h9 =>
    unfold withMnt
    rw [M.bind_of_ok (getPE_some h6), M.bind_of_ok (getCG_some (g := .g2) h4)]
    have hd : demand (c.field == .level .fq3) s = .ok () s := by rw [h5]; rfl
    simp only [h7]
    exact (M.bind_of_ok hd).trans (M.bind_of_ok (getMnt6Tower_of h1 h2 h3 h4 h8 h9))

end Sys2Proof.Machine
end

