-- ==== Sys2Proof/Laws/PerInstr.lean ====
section
/-! SUPPORT. Statements about every instruction as syntax, one lemma per constructor. -/

namespace Sys2Proof.Laws

/-- Where the code of an instruction stands: a call on the tape, under an opcode 0x01 to 0x0a (30_encoding.md R100); a unit
operation at the port, under a selector of one of the four units (R101). -/
def CodePlace.Statement (i : Instr) : Prop :=
  match encode i with
  | .tape op => 1 ≤ op.toNat ∧ op.toNat ≤ 10
  | .port ws => ∃ sel rest, ws = sel :: rest ∧
      (sel.toNat / 256 = 0x10 ∨ sel.toNat / 256 = 0x20 ∨ sel.toNat / 256 = 0x30 ∨ sel.toNat / 256 = 0x40)

theorem CodePlace.g1add : CodePlace.Statement (.g1add) := ⟨by decide, by decide⟩
theorem CodePlace.g1mul : CodePlace.Statement (.g1mul) := ⟨by decide, by decide⟩
theorem CodePlace.g1mexp : CodePlace.Statement (.g1mexp) := ⟨by decide, by decide⟩
theorem CodePlace.g2add : CodePlace.Statement (.g2add) := ⟨by decide, by decide⟩
theorem CodePlace.g2mul : CodePlace.Statement (.g2mul) := ⟨by decide, by decide⟩
theorem CodePlace.g2mexp : CodePlace.Statement (.g2mexp) := ⟨by decide, by decide⟩
theorem CodePlace.bls12 : CodePlace.Statement (.bls12) := ⟨by decide, by decide⟩
theorem CodePlace.bn : CodePlace.Statement (.bn) := ⟨by decide, by decide⟩
theorem CodePlace.mnt4 : CodePlace.Statement (.mnt4) := ⟨by decide, by decide⟩
theorem CodePlace.mnt6 : CodePlace.Statement (.mnt6) := ⟨by decide, by decide⟩
theorem CodePlace.pfNew (mb : List Byte) : CodePlace.Statement (.pfNew mb) := ⟨_, _, rfl, by decide⟩
theorem CodePlace.pfAdd (c a b : Nat) : CodePlace.Statement (.pfAdd c a b) := ⟨_, _, rfl, by decide⟩
theorem CodePlace.pfSub (c a b : Nat) : CodePlace.Statement (.pfSub c a b) := ⟨_, _, rfl, by decide⟩
theorem CodePlace.pfDouble (c a : Nat) : CodePlace.Statement (.pfDouble c a) := ⟨_, _, rfl, by decide⟩
theorem CodePlace.pfNegate (c a : Nat) : CodePlace.Statement (.pfNegate c a) := ⟨_, _, rfl, by decide⟩
theorem CodePlace.pfMul (c a b : Nat) : CodePlace.Statement (.pfMul c a b) := ⟨_, _, rfl, by decide⟩
theorem CodePlace.pfSquare (c a : Nat) : CodePlace.Statement (.pfSquare c a) := ⟨_, _, rfl, by decide⟩
theorem CodePlace.pfExp (c a e : Nat) : CodePlace.Statement (.pfExp c a e) := ⟨_, _, rfl, by decide⟩
theorem CodePlace.pfInvert (c a : Nat) : CodePlace.Statement (.pfInvert c a) := ⟨_, _, rfl, by decide⟩
theorem CodePlace.pfSqrt (c a : Nat) : CodePlace.Statement (.pfSqrt c a) := ⟨_, _, rfl, by decide⟩
theorem CodePlace.pfNres (a n : Nat) : CodePlace.Statement (.pfNres a n) := ⟨_, _, rfl, by decide⟩
theorem CodePlace.pfFromBytes (c : Nat) (bs : List Byte) : CodePlace.Statement (.pfFromBytes c bs) := ⟨_, _, rfl, by decide⟩
theorem CodePlace.pfToBytes (a : Nat) : CodePlace.Statement (.pfToBytes a) := ⟨_, _, rfl, by decide⟩
theorem CodePlace.pfToBytesDense (a : Nat) : CodePlace.Statement (.pfToBytesDense a) := ⟨_, _, rfl, by decide⟩
theorem CodePlace.pfToMont (c a : Nat) : CodePlace.Statement (.pfToMont c a) := ⟨_, _, rfl, by decide⟩
theorem CodePlace.pfFromMont (c a : Nat) : CodePlace.Statement (.pfFromMont c a) := ⟨_, _, rfl, by decide⟩
theorem CodePlace.exNew (l : Level) (nr : Nat) : CodePlace.Statement (.exNew l nr) := ⟨_, _, rfl, by decide⟩
theorem CodePlace.exAdd (l : Level) (c a b : Nat) : CodePlace.Statement (.exAdd l c a b) := ⟨_, _, rfl, by decide⟩
theorem CodePlace.exSub (l : Level) (c a b : Nat) : CodePlace.Statement (.exSub l c a b) := ⟨_, _, rfl, by decide⟩
theorem CodePlace.exNeg (l : Level) (c a : Nat) : CodePlace.Statement (.exNeg l c a) := ⟨_, _, rfl, by decide⟩
theorem CodePlace.exDouble (l : Level) (c a : Nat) : CodePlace.Statement (.exDouble l c a) := ⟨_, _, rfl, by decide⟩
theorem CodePlace.exMul (l : Level) (c a b : Nat) : CodePlace.Statement (.exMul l c a b) := ⟨_, _, rfl, by decide⟩
theorem CodePlace.exSquare (l : Level) (c a : Nat) : CodePlace.Statement (.exSquare l c a) := ⟨_, _, rfl, by decide⟩
theorem CodePlace.exInverse (l : Level) (c a : Nat) : CodePlace.Statement (.exInverse l c a) := ⟨_, _, rfl, by decide⟩
theorem CodePlace.exExp (l : Level) (c a e : Nat) : CodePlace.Statement (.exExp l c a e) := ⟨_, _, rfl, by decide⟩
theorem CodePlace.exConjugate (l : QuadLevel) (c a : Nat) : CodePlace.Statement (.exConjugate l c a) := ⟨_, _, rfl, by decide⟩
theorem CodePlace.exFrobeniusMap (l : Level) (c a power : Nat) : CodePlace.Statement (.exFrobeniusMap l c a power) := ⟨_, _, rfl, by decide⟩
theorem CodePlace.exCalcFrob (l : Level) : CodePlace.Statement (.exCalcFrob l) := ⟨_, _, rfl, by decide⟩
theorem CodePlace.exCalcFrobPre (l : PreLevel) (f1 : Nat) : CodePlace.Statement (.exCalcFrobPre l f1) := ⟨_, _, rfl, by decide⟩
theorem CodePlace.exMulBy014 (c a e0 e1 e4 : Nat) : CodePlace.Statement (.exMulBy014 c a e0 e1 e4) := ⟨_, _, rfl, by decide⟩
theorem CodePlace.exMulBy034 (c a e0 e3 e4 : Nat) : CodePlace.Statement (.exMulBy034 c a e0 e3 e4) := ⟨_, _, rfl, by decide⟩
theorem CodePlace.exCyclotomicSquare (c a : Nat) : CodePlace.Statement (.exCyclotomicSquare c a) := ⟨_, _, rfl, by decide⟩
theorem CodePlace.cgNew (field : CurveField) (a b : Option Nat) (ob : List Byte) : CodePlace.Statement (.cgNew field a b ob) := ⟨_, _, rfl, by decide⟩
theorem CodePlace.cgIsZero (g : Group) (p : Nat) : CodePlace.Statement (.cgIsZero g p) := ⟨_, _, rfl, by decide⟩
theorem CodePlace.cgIsOnCurve (g : Group) (p : Nat) : CodePlace.Statement (.cgIsOnCurve g p) := ⟨_, _, rfl, by decide⟩
theorem CodePlace.cgAdd (g : Group) (r p1 p2 : Nat) : CodePlace.Statement (.cgAdd g r p1 p2) := ⟨_, _, rfl, by decide⟩
theorem CodePlace.cgDouble (g : Group) (r p : Nat) : CodePlace.Statement (.cgDouble g r p) := ⟨_, _, rfl, by decide⟩
theorem CodePlace.cgNegate (g : Group) (r p : Nat) : CodePlace.Statement (.cgNegate g r p) := ⟨_, _, rfl, by decide⟩
theorem CodePlace.cgScalarMul (g : Group) (r p e : Nat) : CodePlace.Statement (.cgScalarMul g r p e) := ⟨_, _, rfl, by decide⟩
theorem CodePlace.cgWnafMul (g : Group) (r p e : Nat) : CodePlace.Statement (.cgWnafMul g r p e) := ⟨_, _, rfl, by decide⟩
theorem CodePlace.cgSubgroupCheck (g : Group) (p : Nat) : CodePlace.Statement (.cgSubgroupCheck g p) := ⟨_, _, rfl, by decide⟩
theorem CodePlace.cgMultiExp (g : Group) (r points n : Nat) (scalars : List Nat) : CodePlace.Statement (.cgMultiExp g r points n scalars) := ⟨_, _, rfl, by decide⟩
theorem CodePlace.cgToAffine (g : Group) (r p : Nat) : CodePlace.Statement (.cgToAffine g r p) := ⟨_, _, rfl, by decide⟩
theorem CodePlace.peNew (family : Family) (twist : Twist) (x : Nat) (xNeg : Bool) (w0 w1 : Nat) (w0Neg : Bool) : CodePlace.Statement (.peNew family twist x xNeg w0 w1 w0Neg) := ⟨_, _, rfl, by decide⟩
theorem CodePlace.peDoublingStep (r co src : Nat) : CodePlace.Statement (.peDoublingStep r co src) := ⟨_, _, rfl, by decide⟩
theorem CodePlace.peAdditionStep (r co src q : Nat) : CodePlace.Statement (.peAdditionStep r co src q) := ⟨_, _, rfl, by decide⟩
theorem CodePlace.peEll (c f co p : Nat) : CodePlace.Statement (.peEll c f co p) := ⟨_, _, rfl, by decide⟩
theorem CodePlace.peMillerLoop (c pairs n : Nat) : CodePlace.Statement (.peMillerLoop c pairs n) := ⟨_, _, rfl, by decide⟩
theorem CodePlace.peFinalExp (c f : Nat) : CodePlace.Statement (.peFinalExp c f) := ⟨_, _, rfl, by decide⟩
theorem CodePlace.peMultiPair (c pairs n : Nat) : CodePlace.Statement (.peMultiPair c pairs n) := ⟨_, _, rfl, by decide⟩
theorem CodePlace.peDoublingStepMnt (r co src : Nat) : CodePlace.Statement (.peDoublingStepMnt r co src) := ⟨_, _, rfl, by decide⟩
theorem CodePlace.peAdditionStepMnt (r co src q : Nat) : CodePlace.Statement (.peAdditionStepMnt r co src q) := ⟨_, _, rfl, by decide⟩
theorem CodePlace.peEllMnt (kind : LineKind) (c f co p q : Nat) : CodePlace.Statement (.peEllMnt kind c f co p q) := ⟨_, _, rfl, by decide⟩
theorem CodePlace.peMillerLoopMnt (c pairs n : Nat) : CodePlace.Statement (.peMillerLoopMnt c pairs n) := ⟨_, _, rfl, by decide⟩
theorem CodePlace.peFinalExpMnt (c f : Nat) : CodePlace.Statement (.peFinalExpMnt c f) := ⟨_, _, rfl, by decide⟩

end Sys2Proof.Laws
end

