-- ==== Sys2Proof/Tests/Slice0.lean ====
section
/-! SUPPORT. Tests. Expected values come from the spec: the codes of 30_encoding.md R100 and R101 (operand words: log 3),
the worked examples of the rules and of 95_test_vectors.md, and hand calculation where a comment says so. Elements are
written as plain residues. The witnesses show states and operands that meet the hypotheses of each obligation. -/

namespace Sys2Proof.Tests

set_option Elab.async false

open Sys2Proof.Machine

/-! ## Ill-formed terms are refused -/

def bytes (ns : List Nat) : List Byte := ns.map (BitVec.ofNat 8)

theorem test_ill_slot_refused : Instr.wellFormed (.pfAdd 65536 0 0) = false := by decide +kernel
theorem test_ill_slot_second_refused : Instr.wellFormed (.pfAdd 0 65536 0) = false := by decide +kernel
theorem test_ill_slot_third_refused : Instr.wellFormed (.pfAdd 0 0 65536) = false := by decide +kernel
theorem test_ill_slot_one_refused : Instr.wellFormed (.pfToBytes 65536) = false := by decide +kernel
theorem test_ill_slot_two_refused : Instr.wellFormed (.pfNegate 0 65536) = false := by decide +kernel
theorem test_ill_residue_degree_zero_refused : Instr.wellFormed (.pfNres 0 0) = false := by decide +kernel
theorem test_ill_residue_degree_large_refused : Instr.wellFormed (.pfNres 0 65537) = false := by decide +kernel
theorem test_ill_power_refused : Instr.wellFormed (.exFrobeniusMap .fq2 0 0 65536) = false := by decide +kernel
theorem test_ill_level_constant_refused : Instr.wellFormed (.exNew .fq2 65536) = false := by decide +kernel
theorem test_ill_sparse_refused : Instr.wellFormed (.exMulBy014 0 0 0 0 65536) = false := by decide +kernel
theorem test_ill_sparse034_refused : Instr.wellFormed (.exMulBy034 0 0 65536 0 0) = false := by decide +kernel
theorem test_ill_coefficient_refused : Instr.wellFormed (.cgNew .fp (some 65536) none [1]) = false := by decide +kernel
theorem test_ill_count_refused : Instr.wellFormed (.cgMultiExp .g1 0 0 65536 []) = false := by decide +kernel
theorem test_ill_line_operand_refused : Instr.wellFormed (.peEllMnt .doubling 0 0 0 0 65536) = false := by decide +kernel
theorem test_ill_pair_count_refused : Instr.wellFormed (.peMillerLoop 0 0 65536) = false := by decide +kernel
theorem test_ill_modulus_empty_refused : modulusFits [] = false := by decide +kernel
theorem test_ill_modulus_long_refused : modulusFits (List.replicate 129 1) = false := by decide +kernel
theorem test_ill_modulus_zero_top_refused : modulusFits (bytes [0, 7]) = false := by decide +kernel
theorem test_ill_modulus_even_refused : modulusFits (bytes [8]) = false := by decide +kernel
theorem test_ill_modulus_small_refused : modulusFits (bytes [3]) = false := by decide +kernel
theorem test_ill_element_short_refused : elementFits 103 2 [1] = false := by decide +kernel
theorem test_ill_element_range_refused : elementFits 103 1 [103] = false := by decide +kernel
theorem test_ill_order_empty_refused : orderFits [] = false := by decide +kernel
theorem test_ill_order_long_refused : orderFits (List.replicate 129 1) = false := by decide +kernel
theorem test_ill_order_zero_refused : orderFits (bytes [0, 0]) = false := by decide +kernel
theorem test_ill_loop_empty_refused : loopFits [] = false := by decide +kernel
theorem test_ill_loop_zero_top_refused : loopFits (bytes [0, 8]) = false := by decide +kernel
theorem test_ill_loop_long_refused : loopFits (List.replicate 255 1) = false := by decide +kernel
theorem test_ill_curve_coefficient_refused : curveFits 103 1 { a := [103], b := [0], ord := bytes [97] } = false := by decide +kernel
theorem test_ill_curve_b_refused : curveFits 103 1 { a := [0], b := [], ord := bytes [97] } = false := by decide +kernel
theorem test_ill_curve_order_refused : curveFits 103 1 { a := [0], b := [5], ord := [] } = false := by decide +kernel
theorem test_ill_point_refused : pointFits 103 2 { x := [1, 2], y := [3] } = false := by decide +kernel
theorem test_ill_scalar_refused : scalarFits { a := [0], b := [5], ord := bytes [97] } 97 = false := by decide +kernel
theorem test_ill_call_byte_refused : byteFits 256 = false := by decide +kernel
theorem test_ill_call_prefix_refused : prefixFits (List.replicate 256 1) = false := by decide +kernel
theorem test_ill_call_element_short_refused : elementWidth 1 2 [1] = false := by decide +kernel
theorem test_ill_call_element_wide_refused : elementWidth 1 1 [256] = false := by decide +kernel
theorem test_ill_call_point_refused : pointWidth 1 2 { x := [1, 2], y := [3] } = false := by decide +kernel
theorem test_ill_call_curve_refused : curveWidth 1 1 { a := [0], b := [256], ord := bytes [97] } = false := by decide +kernel
theorem test_ill_call_scalar_refused : scalarWidth { a := [0], b := [5], ord := bytes [97] } 256 = false := by decide +kernel
theorem test_ill_call_degree_refused : extWidth 1 { deg := 256, nr := 5 } = false := by decide +kernel
theorem test_ill_call_constant_refused : extWidth 1 { deg := 2, nr := 256 } = false := by decide +kernel
theorem test_ill_list_count_zero_refused : countFits 0 = false := by decide +kernel
theorem test_ill_list_count_large_refused : countFits 256 = false := by decide +kernel
theorem test_ill_call_pair_refused : pairsWidth 1 2 [{ chk1 := 256, p := { x := [1], y := [1] }, chk2 := 1, q := { x := [1, 2], y := [1, 2] } }] = false := by decide +kernel
theorem test_ill_call_list_refused : mexpListWidth 1 1 { a := [0], b := [5], ord := bytes [97] } [({ x := [2], y := [42] }, 256)] = false := by decide +kernel
theorem test_ill_mexp_list_refused : mexpListFits 103 1 { a := [0], b := [5], ord := bytes [97] } [] = false := by decide +kernel
theorem test_ill_mexp_scalar_refused : mexpListFits 103 1 { a := [0], b := [5], ord := bytes [97] } [({ x := [2], y := [42] }, 97)] = false := by decide +kernel
theorem test_ill_call_twist_refused : twistedWidth 1 { ext := { deg := 2, nr := 102 }, xi := [2, 1], twist := 256, loop := bytes [1], neg := 0, pairs := [] } = false := by decide +kernel
theorem test_ill_call_sign_refused : mntWidth 1 2 { ext := { deg := 2, nr := 5 }, loop := bytes [8], neg := 0, w0 := bytes [45], w1 := bytes [5], w0Neg := 256, pairs := [] } = false := by decide +kernel
theorem test_ill_call_modulus_refused : Call.encodable (.g1mexp (List.replicate 256 1) { a := [0], b := [5], ord := bytes [97] } []) = false := by decide +kernel
/-- A byte string of 65536 bytes does not fit the length word. -/
theorem test_ill_bytes_refused : Instr.wellFormed (.pfNew (List.replicate 65536 1)) = false := by
  simp only [Instr.wellFormed, bytesFit, List.length_replicate]
  decide

/-- A big integer of more than 65535 words does not fit the count word. -/
theorem test_ill_big_refused (v : Nat) (h : 16 * 65535 < bitlen v) : bigFits v = false := by
  have h' : ¬ wordCount v < 65536 := by
    unfold wordCount ceilDiv
    omega
  exact decide_eq_false h'

/-! ## Codes -/

/-- Why a code is no instruction. -/
def reason (r : Except DecodeErr Instr) : Option DecodeErr :=
  match r with
  | .error e => some e
  | .ok _ => none

theorem test_code_g1add : (decode (.tape 0x01)).toOption = some .g1add := by decide +kernel
theorem test_code_g1mul : (decode (.tape 0x02)).toOption = some .g1mul := by decide +kernel
theorem test_code_g1mexp : (decode (.tape 0x03)).toOption = some .g1mexp := by decide +kernel
theorem test_code_g2add : (decode (.tape 0x04)).toOption = some .g2add := by decide +kernel
theorem test_code_g2mul : (decode (.tape 0x05)).toOption = some .g2mul := by decide +kernel
theorem test_code_g2mexp : (decode (.tape 0x06)).toOption = some .g2mexp := by decide +kernel
theorem test_code_bls12 : (decode (.tape 0x07)).toOption = some .bls12 := by decide +kernel
theorem test_code_bn : (decode (.tape 0x08)).toOption = some .bn := by decide +kernel
theorem test_code_mnt4 : (decode (.tape 0x09)).toOption = some .mnt4 := by decide +kernel
theorem test_code_mnt6 : (decode (.tape 0x0a)).toOption = some .mnt6 := by decide +kernel
theorem test_code_pfNew : (decode (.port [0x1001, 2, 0x02, 0xd7])).toOption = some (.pfNew [0x02, 0xd7]) := by decide +kernel
theorem test_code_pfAdd : (decode (.port [0x1002, 1, 2, 3])).toOption = some (.pfAdd 1 2 3) := by decide +kernel
theorem test_code_pfSub : (decode (.port [0x1003, 1, 2, 3])).toOption = some (.pfSub 1 2 3) := by decide +kernel
theorem test_code_pfDouble : (decode (.port [0x1004, 1, 2])).toOption = some (.pfDouble 1 2) := by decide +kernel
theorem test_code_pfNegate : (decode (.port [0x1005, 1, 2])).toOption = some (.pfNegate 1 2) := by decide +kernel
theorem test_code_pfMul : (decode (.port [0x1006, 1, 2, 3])).toOption = some (.pfMul 1 2 3) := by decide +kernel
theorem test_code_pfSquare : (decode (.port [0x1007, 1, 2])).toOption = some (.pfSquare 1 2) := by decide +kernel
theorem test_code_pfExp : (decode (.port [0x1008, 1, 2, 2, 0x0001, 0x0003])).toOption = some (.pfExp 1 2 0x10003) := by decide +kernel
theorem test_code_pfInvert : (decode (.port [0x1009, 1, 2])).toOption = some (.pfInvert 1 2) := by decide +kernel
theorem test_code_pfSqrt : (decode (.port [0x100a, 1, 2])).toOption = some (.pfSqrt 1 2) := by decide +kernel
theorem test_code_pfNres : (decode (.port [0x100b, 1, 5])).toOption = some (.pfNres 1 6) := by decide +kernel
theorem test_code_pfFromBytes : (decode (.port [0x100c, 1, 1, 0x2a])).toOption = some (.pfFromBytes 1 [0x2a]) := by decide +kernel
theorem test_code_pfToBytes : (decode (.port [0x100d, 9])).toOption = some (.pfToBytes 9) := by decide +kernel
theorem test_code_pfToBytesDense : (decode (.port [0x100e, 9])).toOption = some (.pfToBytesDense 9) := by decide +kernel
theorem test_code_pfToMont : (decode (.port [0x100f, 1, 2])).toOption = some (.pfToMont 1 2) := by decide +kernel
theorem test_code_pfFromMont : (decode (.port [0x1010, 1, 2])).toOption = some (.pfFromMont 1 2) := by decide +kernel
theorem test_code_exNew : (decode (.port [0x2001, 0, 4])).toOption = some (.exNew .fq2 4) := by decide +kernel
theorem test_code_exAdd : (decode (.port [0x2002, 1, 1, 2, 3])).toOption = some (.exAdd .fq3 1 2 3) := by decide +kernel
theorem test_code_exSub : (decode (.port [0x2003, 2, 1, 2, 3])).toOption = some (.exSub .fq4 1 2 3) := by decide +kernel
theorem test_code_exNeg : (decode (.port [0x2004, 3, 1, 2])).toOption = some (.exNeg .fq6c 1 2) := by decide +kernel
theorem test_code_exDouble : (decode (.port [0x2005, 4, 1, 2])).toOption = some (.exDouble .fq6q 1 2) := by decide +kernel
theorem test_code_exMul : (decode (.port [0x2006, 5, 1, 2, 3])).toOption = some (.exMul .fq12 1 2 3) := by decide +kernel
theorem test_code_exSquare : (decode (.port [0x2007, 0, 1, 2])).toOption = some (.exSquare .fq2 1 2) := by decide +kernel
theorem test_code_exInverse : (decode (.port [0x2008, 0, 1, 2])).toOption = some (.exInverse .fq2 1 2) := by decide +kernel
theorem test_code_exExp : (decode (.port [0x2009, 0, 1, 2, 1, 5])).toOption = some (.exExp .fq2 1 2 5) := by decide +kernel
theorem test_code_exConjugate : (decode (.port [0x200a, 3, 1, 2])).toOption = some (.exConjugate .fq12 1 2) := by decide +kernel
theorem test_code_exFrobeniusMap : (decode (.port [0x200b, 0, 1, 2, 3])).toOption = some (.exFrobeniusMap .fq2 1 2 3) := by decide +kernel
theorem test_code_exCalcFrob : (decode (.port [0x200c, 1])).toOption = some (.exCalcFrob .fq3) := by decide +kernel
theorem test_code_exCalcFrobPre : (decode (.port [0x200d, 1, 7])).toOption = some (.exCalcFrobPre .fq12 7) := by decide +kernel
theorem test_code_exMulBy014 : (decode (.port [0x200e, 1, 2, 3, 4, 5])).toOption = some (.exMulBy014 1 2 3 4 5) := by decide +kernel
theorem test_code_exMulBy034 : (decode (.port [0x200f, 1, 2, 3, 4, 5])).toOption = some (.exMulBy034 1 2 3 4 5) := by decide +kernel
theorem test_code_exCyclotomicSquare : (decode (.port [0x2010, 1, 2])).toOption = some (.exCyclotomicSquare 1 2) := by decide +kernel
theorem test_code_cgNew : (decode (.port [0x3001, 1, 0, 0, 1, 9, 1, 0x61])).toOption = some (.cgNew .fq2 none (some 9) [0x61]) := by decide +kernel
theorem test_code_cgIsZero : (decode (.port [0x3002, 0, 4])).toOption = some (.cgIsZero .g1 4) := by decide +kernel
theorem test_code_cgIsOnCurve : (decode (.port [0x3003, 1, 4])).toOption = some (.cgIsOnCurve .g2 4) := by decide +kernel
theorem test_code_cgAdd : (decode (.port [0x3004, 0, 1, 2, 3])).toOption = some (.cgAdd .g1 1 2 3) := by decide +kernel
theorem test_code_cgDouble : (decode (.port [0x3005, 0, 1, 2])).toOption = some (.cgDouble .g1 1 2) := by decide +kernel
theorem test_code_cgNegate : (decode (.port [0x3006, 0, 1, 2])).toOption = some (.cgNegate .g1 1 2) := by decide +kernel
theorem test_code_cgScalarMul : (decode (.port [0x3007, 1, 1, 2, 1, 5])).toOption = some (.cgScalarMul .g2 1 2 5) := by decide +kernel
theorem test_code_cgWnafMul : (decode (.port [0x3008, 0, 1, 2, 1, 97])).toOption = some (.cgWnafMul .g1 1 2 97) := by decide +kernel
theorem test_code_cgSubgroupCheck : (decode (.port [0x3009, 0, 4])).toOption = some (.cgSubgroupCheck .g1 4) := by decide +kernel
theorem test_code_cgMultiExp : (decode (.port [0x300a, 0, 1, 2, 2, 2, 1, 3, 1, 5])).toOption = some (.cgMultiExp .g1 1 2 2 [3, 5]) := by decide +kernel
theorem test_code_cgToAffine : (decode (.port [0x300b, 0, 1, 2])).toOption = some (.cgToAffine .g1 1 2) := by decide +kernel
theorem test_code_peNew : (decode (.port [0x4001, 2, 0, 1, 8, 0, 1, 45, 1, 5, 1])).toOption = some (.peNew .mnt4 .m 8 false 45 5 true) := by decide +kernel
theorem test_code_peDoublingStep : (decode (.port [0x4002, 1, 2, 3])).toOption = some (.peDoublingStep 1 2 3) := by decide +kernel
theorem test_code_peAdditionStep : (decode (.port [0x4003, 1, 2, 3, 4])).toOption = some (.peAdditionStep 1 2 3 4) := by decide +kernel
theorem test_code_peEll : (decode (.port [0x4004, 1, 2, 3, 4])).toOption = some (.peEll 1 2 3 4) := by decide +kernel
theorem test_code_peMillerLoop : (decode (.port [0x4005, 1, 2, 3])).toOption = some (.peMillerLoop 1 2 3) := by decide +kernel
theorem test_code_peFinalExp : (decode (.port [0x4006, 1, 2])).toOption = some (.peFinalExp 1 2) := by decide +kernel
theorem test_code_peMultiPair : (decode (.port [0x4007, 1, 2, 3])).toOption = some (.peMultiPair 1 2 3) := by decide +kernel
theorem test_code_peDoublingStepMnt : (decode (.port [0x4012, 1, 2, 3])).toOption = some (.peDoublingStepMnt 1 2 3) := by decide +kernel
theorem test_code_peAdditionStepMnt : (decode (.port [0x4013, 1, 2, 3, 4])).toOption = some (.peAdditionStepMnt 1 2 3 4) := by decide +kernel
theorem test_code_peEllMnt : (decode (.port [0x4014, 1, 1, 2, 3, 4, 5])).toOption = some (.peEllMnt .addition 1 2 3 4 5) := by decide +kernel
theorem test_code_peMillerLoopMnt : (decode (.port [0x4015, 1, 2, 3])).toOption = some (.peMillerLoopMnt 1 2 3) := by decide +kernel
theorem test_code_peFinalExpMnt : (decode (.port [0x4016, 1, 2])).toOption = some (.peFinalExpMnt 1 2) := by decide +kernel
theorem test_code_no_opcode : reason (decode (.tape 0x0b)) = some .badOpcode := by decide +kernel
theorem test_code_no_selector : reason (decode (.port [0x4008, 1])) = some .unknownSelector := by decide +kernel
theorem test_code_cut_off : reason (decode (.port [0x1002, 1, 2])) = some .truncated := by decide +kernel
theorem test_code_bad_level : reason (decode (.port [0x2006, 6, 1, 2, 3])) = some .badField := by decide +kernel
theorem test_code_words_left : reason (decode (.port [0x1004, 1, 2, 3])) = some .trailing := by decide +kernel

/-! ## States for one step -/

/-- The field of a small prime. -/
def field (p : Nat) : PrimeField := callField (natToBytes p 1)

/-- A state with a field and nothing else. -/
def withField (p : Nat) : State := { State.reset with pf := some (field p) }

/-- Plain residues put into slots in Montgomery form. -/
def put (s : State) (a : Nat) (vs : List Nat) : State :=
  match s.pf with
  | some f => s.store a (vs.map f.toMont)
  | none => s

/-- The plain residues in slots after a step. -/
def got (o : Host.Outcome State Fault Refusal) (a n : Nat) : Option (List Nat) :=
  match o with
  | .next t =>
    match t.pf, regGetGroup t.slots a n with
    | some f, .ok vs => some (vs.map f.fromMont)
    | _, _ => none
  | _ => none

/-- Something of the next state. -/
def next {α : Type} (o : Host.Outcome State Fault Refusal) (g : State → α) : Option α :=
  match o with
  | .next t => some (g t)
  | _ => none

/-- The refusal of a step. -/
def refusal (o : Host.Outcome State Fault Refusal) : Option Refusal :=
  match o with
  | .refused r => some r
  | _ => none

/-- Plain residues as stored integers of the field of `p`. -/
def mont (p : Nat) (vs : List Nat) : List Nat := vs.map (field p).toMont

/-- The levels of the toy BN curve: `p = 103`, `β = 102`, `ξ = (2, 1)` (95_test_vectors.md). -/
def bnLevels : ExtField × ExtField × ExtField :=
  twistedLevels (field 103) ((field 103).toMont 102) ((field 103).toMont 2, (field 103).toMont 1)

/-- The toy BN state: `b = 5`, `q = 97`, D-twist `b' = (2, 102)`, `u = 1`. -/
def bnState : State :=
  { withField 103 with
    ex := { ExFile.unset with fq2 := some bnLevels.1, fq6c := some bnLevels.2.1, fq12 := some bnLevels.2.2 }
    cg1 := some { field := .fp, a := [0], b := mont 103 [5], q := 97 }
    cg2 := some { field := .level .fq2, a := [0, 0], b := mont 103 [2, 102], q := 97 }
    pe := some (twistedEngine false true .d 1 false) }

/-- The BLS12 engine over the same tower, for statements about both families. -/
def blsState : State := { bnState with pe := some (twistedEngine false false .m 4 true) }

/-- `FQ3` over `p = 103`, `β = 5`, and `FQ6Q` over it. -/
def fq3Level : ExtField :=
  tabledLevel .fq3 (mont 103 [5]) (cubicTables (frobTable (fpFld (field 103)) 103 ((field 103).toMont 5) 3 1 3)
    (frobTable (fpFld (field 103)) 103 ((field 103).toMont 5) 3 2 3))
def fq6qLevel : ExtField :=
  tabledLevel .fq6q (mont 103 [0, 1, 0]) (quadTables (frobTable (fpFld (field 103)) 103 ((field 103).toMont 5) 6 1 6))
def cubicState : State :=
  { withField 103 with ex := { ExFile.unset with fq3 := some fq3Level, fq6q := some fq6qLevel } }

/-- The blocks of the toy MNT4 engine: `p = 73`, `β = 5`, `a = 64`, `b = 52`, `q = 13`, `x = 8`, `w0 = 45`, `w1 = 5`. -/
def mnt4Fq2 : ExtField := callFq2 (field 73) ((field 73).toMont 5)
def mnt4Fq4 : ExtField :=
  tabledLevel .fq4 (mont 73 [0, 1]) (quadTables (frobTable (fpFld (field 73)) 73 ((field 73).toMont 5) 4 1 4))
def mnt4G2 : CurveGroup := { field := .level .fq2, a := mont 73 [28, 0], b := mont 73 [0, 41], q := 13 }
def mnt4Engine : Engine :=
  mntEngine (fq2Fld (fpFld (field 73)) ((field 73).toMont 5)) (field 73).one .mnt4 8 false 45 5 false
def mnt4State : State :=
  { withField 73 with
    ex := { ExFile.unset with fq2 := some mnt4Fq2, fq4 := some mnt4Fq4 }
    cg1 := some { field := .fp, a := mont 73 [64], b := mont 73 [52], q := 13 }
    cg2 := some mnt4G2
    pe := some mnt4Engine }

/-- The blocks of the toy MNT6 engine: `p = 37`, `ν = 2`, `a = 5`, `b = 26`, `q = 31`, `x = 6`, `w0 = 6`, `w1 = 1`. -/
def mnt6Fq3 : ExtField :=
  tabledLevel .fq3 (mont 37 [2]) (cubicTables (frobTable (fpFld (field 37)) 37 ((field 37).toMont 2) 3 1 3)
    (frobTable (fpFld (field 37)) 37 ((field 37).toMont 2) 3 2 3))
def mnt6Fq6q : ExtField :=
  tabledLevel .fq6q (mont 37 [0, 1, 0]) (quadTables (frobTable (fpFld (field 37)) 37 ((field 37).toMont 2) 6 1 6))
def mnt6G2 : CurveGroup := { field := .level .fq3, a := mont 37 [0, 0, 5], b := mont 37 [52, 0, 0], q := 31 }
def mnt6Engine : Engine :=
  mntEngine (fq3Fld (fpFld (field 37)) ((field 37).toMont 2)) (field 37).one .mnt6 6 false 6 1 false
def mnt6State : State :=
  { withField 37 with
    ex := { ExFile.unset with fq3 := some mnt6Fq3, fq6q := some mnt6Fq6q }
    cg1 := some { field := .fp, a := mont 37 [5], b := mont 37 [26], q := 31 }
    cg2 := some mnt6G2
    pe := some mnt6Engine }

/-! ## One step of each instruction: the examples of the rules -/

/-- 45_dispatcher.md R381. -/
theorem test_g1add : next (step ({ State.reset with inp := Memory.ofBytes (bytes [0x01, 0x01, 0x67, 0x00, 0x05, 0x01, 0x61, 0x02, 0x2a, 0x03, 0x31]) } : State)) (fun t => (t.res, t.out.toBytes)) = some (.ok, bytes [0x2c, 0x4c]) := by decide +kernel
/-- R381: `P + (-P)`. -/
theorem test_g1add_negative : next (step ({ State.reset with inp := Memory.ofBytes (bytes [0x01, 0x01, 0x67, 0x00, 0x05, 0x01, 0x61, 0x02, 0x2a, 0x02, 0x3d]) } : State)) (fun t => (t.res, t.out.toBytes)) = some (.ok, bytes [0x00, 0x00]) := by decide +kernel
/-- R382. -/
theorem test_g1mul : next (step ({ State.reset with inp := Memory.ofBytes (bytes [0x02, 0x01, 0x67, 0x00, 0x05, 0x01, 0x61, 0x02, 0x2a, 0x05]) } : State)) (fun t => (t.res, t.out.toBytes)) = some (.ok, bytes [0x13, 0x0d]) := by decide +kernel
/-- R382: the scalar is the order. -/
theorem test_g1mul_range : next (step ({ State.reset with inp := Memory.ofBytes (bytes [0x02, 0x01, 0x67, 0x00, 0x05, 0x01, 0x61, 0x02, 0x2a, 0x61]) } : State)) (fun t => (t.res, t.out.toBytes)) = some (.error .scalarRange, []) := by decide +kernel
/-- R383. -/
theorem test_g1mexp : next (step ({ State.reset with inp := Memory.ofBytes (bytes [0x03, 0x01, 0x67, 0x00, 0x05, 0x01, 0x61, 0x02, 0x02, 0x2a, 0x03, 0x03, 0x31, 0x05]) } : State)) (fun t => (t.res, t.out.toBytes)) = some (.ok, bytes [0x34, 0x0b]) := by decide +kernel
/-- R384, degree 2. -/
theorem test_g2add : next (step ({ State.reset with inp := Memory.ofBytes (bytes [0x04, 0x01, 0x67, 0x02, 0x66, 0x00, 0x00, 0x02, 0x66, 0x01, 0x61, 0x2b, 0x5e, 0x34, 0x27, 0x5b, 0x0a, 0x15, 0x03]) } : State)) (fun t => (t.res, t.out.toBytes)) = some (.ok, bytes [0x44, 0x0a, 0x5a, 0x47]) := by decide +kernel
/-- R384, degree 3. -/
theorem test_g2add_cubic : next (step ({ State.reset with inp := Memory.ofBytes (bytes [0x04, 0x01, 0x25, 0x03, 0x02, 0x00, 0x00, 0x14, 0x13, 0x00, 0x00, 0x01, 0x2b, 0x06, 0x13, 0x03, 0x18, 0x1d, 0x1d, 0x1e, 0x20, 0x1a, 0x09, 0x19, 0x0d]) } : State)) (fun t => (t.res, t.out.toBytes)) = some (.ok, bytes [0x19, 0x0d, 0x18, 0x02, 0x1a, 0x0c]) := by decide +kernel
/-- R385, degree 2. -/
theorem test_g2mul : next (step ({ State.reset with inp := Memory.ofBytes (bytes [0x05, 0x01, 0x67, 0x02, 0x66, 0x00, 0x00, 0x02, 0x66, 0x01, 0x61, 0x2b, 0x5e, 0x34, 0x27, 0x03]) } : State)) (fun t => (t.res, t.out.toBytes)) = some (.ok, bytes [0x44, 0x0a, 0x5a, 0x47]) := by decide +kernel
/-- R385, degree 3. -/
theorem test_g2mul_cubic : next (step ({ State.reset with inp := Memory.ofBytes (bytes [0x05, 0x01, 0x25, 0x03, 0x02, 0x00, 0x00, 0x14, 0x13, 0x00, 0x00, 0x01, 0x2b, 0x06, 0x13, 0x03, 0x18, 0x1d, 0x1d, 0x2a]) } : State)) (fun t => (t.res, t.out.toBytes)) = some (.ok, bytes [0x06, 0x13, 0x03, 0x0d, 0x08, 0x08]) := by decide +kernel
/-- R386. -/
theorem test_g2mexp : next (step ({ State.reset with inp := Memory.ofBytes (bytes [0x06, 0x01, 0x67, 0x02, 0x66, 0x00, 0x00, 0x02, 0x66, 0x01, 0x61, 0x02, 0x2b, 0x5e, 0x34, 0x27, 0x02, 0x5b, 0x0a, 0x15, 0x03, 0x03]) } : State)) (fun t => (t.res, t.out.toBytes)) = some (.ok, bytes [0x26, 0x30, 0x5a, 0x47]) := by decide +kernel
/-- R387. -/
theorem test_bls12 : next (step ({ State.reset with inp := Memory.ofBytes (bytes [0x07, 0x02, 0x02, 0xd7, 0x00, 0x00, 0x00, 0x07, 0x01, 0xf1, 0x02, 0x02, 0xd6, 0x00, 0x02, 0x00, 0x01, 0x02, 0x01, 0x04, 0x00, 0x02, 0x01, 0x01, 0x22, 0x01, 0x78, 0x01, 0x02, 0x83, 0x02, 0x67, 0x02, 0x2e, 0x00, 0x75, 0x01, 0x01, 0x22, 0x01, 0x5f, 0x01, 0x02, 0x83, 0x02, 0x67, 0x02, 0x2e, 0x00, 0x75]) } : State)) (fun t => (t.res, t.out.toBytes)) = some (.ok, bytes [0x01]) := by decide +kernel
/-- R388. -/
theorem test_bn : next (step ({ State.reset with inp := Memory.ofBytes (bytes [0x08, 0x01, 0x67, 0x00, 0x05, 0x01, 0x61, 0x02, 0x66, 0x02, 0x01, 0x02, 0x01, 0x01, 0x00, 0x02, 0x01, 0x03, 0x31, 0x01, 0x2b, 0x5e, 0x34, 0x27, 0x01, 0x03, 0x36, 0x01, 0x2b, 0x5e, 0x34, 0x27]) } : State)) (fun t => (t.res, t.out.toBytes)) = some (.ok, bytes [0x01]) := by decide +kernel
/-- R388: a single pair. -/
theorem test_bn_single : next (step ({ State.reset with inp := Memory.ofBytes (bytes [0x08, 0x01, 0x67, 0x00, 0x05, 0x01, 0x61, 0x02, 0x66, 0x02, 0x01, 0x02, 0x01, 0x01, 0x00, 0x01, 0x01, 0x03, 0x31, 0x01, 0x2b, 0x5e, 0x34, 0x27]) } : State)) (fun t => (t.res, t.out.toBytes)) = some (.ok, bytes [0x00]) := by decide +kernel
/-- R389. -/
theorem test_mnt4 : next (step ({ State.reset with inp := Memory.ofBytes (bytes [0x09, 0x01, 0x49, 0x40, 0x34, 0x01, 0x0d, 0x02, 0x05, 0x01, 0x08, 0x00, 0x01, 0x2d, 0x01, 0x05, 0x00, 0x02, 0x01, 0x29, 0x23, 0x01, 0x3e, 0x2d, 0x40, 0x08, 0x01, 0x29, 0x26, 0x01, 0x3e, 0x2d, 0x40, 0x08]) } : State)) (fun t => (t.res, t.out.toBytes)) = some (.ok, bytes [0x01]) := by decide +kernel
/-- R390. -/
theorem test_mnt6 : next (step ({ State.reset with inp := Memory.ofBytes (bytes [0x0a, 0x01, 0x25, 0x05, 0x1a, 0x01, 0x1f, 0x03, 0x02, 0x01, 0x06, 0x00, 0x01, 0x06, 0x01, 0x01, 0x00, 0x02, 0x01, 0x1b, 0x07, 0x01, 0x0f, 0x0e, 0x05, 0x22, 0x12, 0x1b, 0x01, 0x1b, 0x1e, 0x01, 0x0f, 0x0e, 0x05, 0x22, 0x12, 0x1b]) } : State)) (fun t => (t.res, t.out.toBytes)) = some (.ok, bytes [0x01]) := by decide +kernel
/-- R380. -/
theorem test_empty_buffer : next (step ({ State.reset with inp := Memory.ofBytes (bytes []) } : State)) (fun t => (t.res, t.out.toBytes)) = some (.error .short, []) := by decide +kernel
/-- R380. -/
theorem test_unknown_operation : next (step ({ State.reset with inp := Memory.ofBytes (bytes [0x0b]) } : State)) (fun t => (t.res, t.out.toBytes)) = some (.error .opcode, []) := by decide +kernel
/-- 44_decoder.md R356. -/
theorem test_trailing : next (step ({ State.reset with inp := Memory.ofBytes (bytes [0x01, 0x01, 0x67, 0x00, 0x05, 0x01, 0x61, 0x02, 0x2a, 0x03, 0x31, 0x00]) } : State)) (fun t => (t.res, t.out.toBytes)) = some (.error .trailing, []) := by decide +kernel
/-- 40_prime_field.md R130. -/
theorem test_pfNew : next (exec (.pfNew (bytes [0x67])) State.reset) (fun t => t.pf.map (fun f => [f.p, f.lp, f.bitlen, f.limbs, f.r, f.r2, f.inv])) = some (some [103, 1, 7, 4, 2, 4, 0x254813e22cbce4a9]) := by decide +kernel
/-- R130. -/
theorem test_pfNew_small : next (exec (.pfNew (bytes [3])) State.reset) (fun t => t.res) = some (.error .modSmall) := by decide +kernel
/-- R140. -/
theorem test_pfAdd : got (exec (.pfAdd 2 0 1) (put (withField 103) 0 [100, 7])) 2 1 = some [4] := by decide +kernel
/-- R141. -/
theorem test_pfSub : got (exec (.pfSub 2 0 1) (put (withField 103) 0 [5, 7])) 2 1 = some [101] := by decide +kernel
/-- R139: the destination is a source. -/
theorem test_pfSub_alias : got (exec (.pfSub 0 0 1) (put (withField 103) 0 [5, 7])) 0 1 = some [101] := by decide +kernel
/-- R142. -/
theorem test_pfDouble : next (exec (.pfDouble 1 0) ((withField 103).store 0 [97])) (fun t => regGet 1 t.slots) = some (some 91) := by decide +kernel
/-- R143. -/
theorem test_pfNegate : next (exec (.pfNegate 1 0) ((withField 103).store 0 [10])) (fun t => regGet 1 t.slots) = some (some 93) := by decide +kernel
/-- R143: the negative of zero is zero. -/
theorem test_pfNegate_zero : next (exec (.pfNegate 1 0) ((withField 103).store 0 [0])) (fun t => regGet 1 t.slots) = some (some 0) := by decide +kernel
/-- R138. -/
theorem test_pfMul : next (exec (.pfMul 2 0 1) ((withField 103).store 0 [10, 14])) (fun t => regGet 2 t.slots) = some (some 70) := by decide +kernel
/-- R144. -/
theorem test_pfSquare : next (exec (.pfSquare 1 0) ((withField 103).store 0 [10])) (fun t => regGet 1 t.slots) = some (some 50) := by decide +kernel
/-- R146. -/
theorem test_pfExp : next (exec (.pfExp 1 0 3) ((withField 103).store 0 [10])) (fun t => regGet 1 t.slots) = some (some 44) := by decide +kernel
/-- R145. -/
theorem test_pfInvert : next (exec (.pfInvert 1 0) ((withField 103).store 0 [10])) (fun t => (regGet 1 t.slots, t.flags.invOk)) = some (some 21, some true) := by decide +kernel
/-- R145. -/
theorem test_pfInvert_zero : next (exec (.pfInvert 1 0) ((withField 103).store 0 [0])) (fun t => (regGet 1 t.slots, t.flags.invOk)) = some (some 0, some false) := by decide +kernel
/-- R150. -/
theorem test_pfSqrt : next (exec (.pfSqrt 1 0) (put (withField 103) 0 [2])) (fun t => (got (.next t) 1 1, t.flags.sqrtOk)) = some (some [38], some true) := by decide +kernel
/-- R150. -/
theorem test_pfSqrt_none : next (exec (.pfSqrt 1 0) (put (withField 103) 0 [3])) (fun t => (got (.next t) 1 1, t.flags.sqrtOk)) = some (some [0], some false) := by decide +kernel
/-- R152. -/
theorem test_pfNres : next (exec (.pfNres 0 2) (put (withField 103) 0 [102])) (fun t => t.flags.nresOk) = some (some true) := by decide +kernel
/-- R152: 4 does not divide 102. -/
theorem test_pfNres_inexact : next (exec (.pfNres 0 4) (put (withField 103) 0 [5])) (fun t => t.flags.nresOk) = some (some false) := by decide +kernel
/-- R153. -/
theorem test_pfFromBytes : next (exec (.pfFromBytes 1 (List.replicate 31 0 ++ [5])) (withField 103)) (fun t => regGet 1 t.slots) = some (some 10) := by decide +kernel
/-- R153. -/
theorem test_pfFromBytes_range : next (exec (.pfFromBytes 1 (List.replicate 31 0 ++ [0x67])) (withField 103)) (fun t => t.res) = some (.error .feRange) := by decide +kernel
/-- R154. -/
theorem test_pfToBytes : next (exec (.pfToBytes 0) ((withField 103).store 0 [10])) (fun t => t.ret) = some (some (List.replicate 31 0 ++ [5])) := by decide +kernel
/-- R156. -/
theorem test_pfToBytesDense : next (exec (.pfToBytesDense 0) ((withField 103).store 0 [10])) (fun t => t.ret) = some (some [5]) := by decide +kernel
/-- R134. -/
theorem test_pfToMont : next (exec (.pfToMont 1 0) ((withField 103).store 0 [102])) (fun t => regGet 1 t.slots) = some (some 101) := by decide +kernel
/-- R135. -/
theorem test_pfFromMont : next (exec (.pfFromMont 1 0) ((withField 103).store 0 [10])) (fun t => regGet 1 t.slots) = some (some 5) := by decide +kernel
/-- R151: `p = 5` is 1 modulo 4. -/
theorem test_pfSqrt_refused : refusal (exec (.pfSqrt 1 0) (put (withField 5) 0 [4])) = some .sqrtModulus := by decide +kernel

/-- 41_extension_tower.md R172; the form of 102 is 101. -/
theorem test_exNew : next (exec (.exNew .fq2 4) (put (withField 103) 4 [102])) (fun t => t.ex.fq2.map (fun e => (e.base, e.degree, e.nonResidue, e.frobValid))) = some (some (.fp, 2, [101], false)) := by decide +kernel
/-- R173. -/
theorem test_exAdd : got (exec (.exAdd .fq2 8 0 2) (put bnState 0 [2, 3, 4, 5])) 8 2 = some [6, 8] := by decide +kernel
/-- R173; by hand. -/
theorem test_exSub : got (exec (.exSub .fq2 8 2 0) (put bnState 0 [2, 3, 4, 5])) 8 2 = some [2, 2] := by decide +kernel
/-- R173. -/
theorem test_exNeg : got (exec (.exNeg .fq2 8 0) (put bnState 0 [2, 3, 4, 5])) 8 2 = some [101, 100] := by decide +kernel
/-- R173; by hand. -/
theorem test_exDouble : got (exec (.exDouble .fq2 8 0) (put bnState 0 [2, 3, 4, 5])) 8 2 = some [4, 6] := by decide +kernel
/-- R174. -/
theorem test_exMul : got (exec (.exMul .fq2 8 0 2) (put bnState 0 [2, 3, 4, 5])) 8 2 = some [96, 22] := by decide +kernel
/-- R174. -/
theorem test_exMul_cubic : got (exec (.exMul .fq3 8 0 3) (put cubicState 0 [1, 2, 3, 4, 5, 6])) 8 3 = some [36, 0, 28] := by decide +kernel
/-- R174. -/
theorem test_exSquare : got (exec (.exSquare .fq2 8 0) (put bnState 0 [2, 3, 4, 5])) 8 2 = some [98, 12] := by decide +kernel
/-- R207. -/
theorem test_exSquare_sextic : got (exec (.exSquare .fq6q 8 0) (put cubicState 0 [1, 2, 3, 4, 5, 6])) 8 6 = some [14, 56, 24, 72, 0, 56] := by decide +kernel
/-- R175. -/
theorem test_exInverse : got (exec (.exInverse .fq2 8 0) (put bnState 0 [2, 3, 4, 5])) 8 2 = some [16, 79] := by decide +kernel
/-- R175. -/
theorem test_exInverse_zero : next (exec (.exInverse .fq2 8 0) (put bnState 0 [0, 0])) (fun t => (got (.next t) 8 2, t.flags.exInvOk)) = some (some [0, 0], some false) := by decide +kernel
/-- R176. -/
theorem test_exExp : got (exec (.exExp .fq2 8 0 5) (put bnState 0 [2, 3, 4, 5])) 8 2 = some [19, 21] := by decide +kernel
/-- R180. -/
theorem test_exConjugate : got (exec (.exConjugate .fq2 8 0) (put bnState 0 [2, 3, 4, 5])) 8 2 = some [2, 100] := by decide +kernel
/-- R178. -/
theorem test_exFrobeniusMap : got (exec (.exFrobeniusMap .fq2 8 0 1) (put bnState 0 [2, 3, 4, 5])) 8 2 = some [2, 100] := by decide +kernel
/-- R202. -/
theorem test_exFrobeniusMap_cubic : got (exec (.exFrobeniusMap .fq6c 8 0 1) (put bnState 0 [1, 2, 3, 4, 5, 6])) 8 6 = some [1, 101, 90, 60, 99, 100] := by decide +kernel
/-- R192. -/
theorem test_exCalcFrob : next (exec (.exCalcFrob .fq3) ({ withField 103 with ex := { ExFile.unset with fq3 := some (freshLevel .fq3 (mont 103 [5])) } } : State)) (fun t => (t.ex.fq3.map (fun e => [e.frob1, e.frob2]), t.flags.frobOk)) = some (some [[mont 103 [1], mont 103 [56], mont 103 [46]], [mont 103 [1], mont 103 [46], mont 103 [56]]], some true) := by decide +kernel
/-- R198: over `p = 103` the operation returns false. -/
theorem test_exCalcFrob_inexact : next (exec (.exCalcFrob .fq4) ({ withField 103 with ex := { ExFile.unset with fq2 := some (freshLevel .fq2 (mont 103 [102])), fq4 := some (freshLevel .fq4 (mont 103 [0, 1])) } } : State)) (fun t => (t.ex.fq4.map (fun e => e.frobValid), t.flags.frobOk)) = some (some false, some false) := by decide +kernel
/-- R202, R203. -/
theorem test_exCalcFrobPre : next (exec (.exCalcFrobPre .fq6c 0) (put { bnState with ex := { bnState.ex with fq6c := some (freshLevel .fq6c (mont 103 [2, 1])) } } 0 [36, 93])) (fun t => t.ex.fq6c.map (fun e => (e.frob1, e.frobValid))) = some (some ([mont 103 [1, 0], mont 103 [63, 1], mont 103 [56, 0], mont 103 [26, 56], mont 103 [46, 0], mont 103 [14, 46]], true)) := by decide +kernel
/-- R212, R213. -/
theorem test_exCalcFrobPre_twelve : next (exec (.exCalcFrobPre .fq12 0) (put { bnState with ex := { bnState.ex with fq12 := some (freshLevel .fq12 (mont 103 [0, 0, 1, 0, 0, 0])) } } 0 [36, 93])) (fun t => t.ex.fq12.map (fun e => e.frob1.take 4)) = some (some [mont 103 [1, 0], mont 103 [36, 93], mont 103 [57, 0], mont 103 [95, 48]]) := by decide +kernel
/-- R214. -/
theorem test_exMulBy014 : got (exec (.exMulBy014 20 0 0 2 4) (put bnState 0 [1, 2, 3, 4, 5, 6, 7, 8, 9, 10, 11, 12])) 20 12 = some [13, 58, 36, 49, 76, 19, 5, 70, 74, 96, 68, 35] := by decide +kernel
/-- R215. -/
theorem test_exMulBy034 : got (exec (.exMulBy034 20 0 0 2 4) (put bnState 0 [1, 2, 3, 4, 5, 6, 7, 8, 9, 10, 11, 12])) 20 12 = some [62, 33, 30, 91, 70, 61, 7, 38, 78, 68, 72, 7] := by decide +kernel
/-- R170, R216: `w² = v`. -/
theorem test_exCyclotomicSquare : got (exec (.exCyclotomicSquare 20 0) (put bnState 0 [0, 0, 0, 0, 0, 0, 1, 0, 0, 0, 0, 0])) 20 12 = some [0, 0, 1, 0, 0, 0, 0, 0, 0, 0, 0, 0] := by decide +kernel
/-- 42_curve_group.md R220; the form of 5 is 10. -/
theorem test_cgNew : next (exec (.cgNew .fp none (some 0) (bytes [0x61])) (put (withField 103) 0 [5])) (fun t => t.cg1.map (fun c => (c.a, c.b, c.q))) = some (some ([0], [10], 97)) := by decide +kernel
/-- R222. -/
theorem test_cgIsZero : next (exec (.cgIsZero .g1 0) (put bnState 0 [5, 7, 0])) (fun t => t.flags.ptIsZero) = some (some true) := by decide +kernel
/-- R222. -/
theorem test_cgIsZero_not : next (exec (.cgIsZero .g1 0) (put bnState 0 [2, 42, 1])) (fun t => t.flags.ptIsZero) = some (some false) := by decide +kernel
/-- R223. -/
theorem test_cgIsOnCurve : next (exec (.cgIsOnCurve .g1 0) (put bnState 0 [8, 27, 2])) (fun t => t.flags.ptOnCurve) = some (some true) := by decide +kernel
/-- R223. -/
theorem test_cgIsOnCurve_not : next (exec (.cgIsOnCurve .g1 0) (put bnState 0 [2, 43, 1])) (fun t => t.flags.ptOnCurve) = some (some false) := by decide +kernel
/-- R226. -/
theorem test_cgAdd : got (exec (.cgAdd .g1 9 0 3) (put bnState 0 [2, 42, 1, 3, 49, 1])) 9 3 = some [44, 76, 1] := by decide +kernel
/-- R226: the doubling fallback. -/
theorem test_cgAdd_self : got (exec (.cgAdd .g1 9 0 0) (put bnState 0 [2, 42, 1, 3, 49, 1])) 9 3 = some [39, 46, 84] := by decide +kernel
/-- R228. -/
theorem test_cgDouble : got (exec (.cgDouble .g1 9 0) (put bnState 0 [2, 42, 1, 3, 49, 1])) 9 3 = some [39, 46, 84] := by decide +kernel
/-- R229, `a` not zero. -/
theorem test_cgDouble_a : got (exec (.cgDouble .g1 9 0) (put { bnState with cg1 := some { field := .fp, a := mont 103 [2], b := mont 103 [3], q := 97 } } 0 [2, 18, 1])) 9 3 = some [59, 84, 36] := by decide +kernel
/-- R232. -/
theorem test_cgNegate : got (exec (.cgNegate .g1 9 0) (put bnState 0 [2, 42, 1, 3, 49, 1])) 9 3 = some [2, 61, 1] := by decide +kernel
/-- R234. -/
theorem test_cgScalarMul : got (exec (.cgScalarMul .g1 9 0 5) (put bnState 0 [2, 42, 1, 3, 49, 1])) 9 3 = some [13, 64, 59] := by decide +kernel
/-- R234. -/
theorem test_cgScalarMul_order : got (exec (.cgScalarMul .g1 9 0 97) (put bnState 0 [2, 42, 1, 3, 49, 1])) 9 3 = some [0, 1, 0] := by decide +kernel
/-- R237. -/
theorem test_cgWnafMul : got (exec (.cgWnafMul .g1 9 0 97) (put bnState 0 [2, 42, 1, 3, 49, 1])) 9 3 = some [0, 1, 0] := by decide +kernel
/-- R238. -/
theorem test_cgSubgroupCheck : next (exec (.cgSubgroupCheck .g1 0) (put bnState 0 [2, 42, 1, 3, 49, 1])) (fun t => t.flags.ptInSubgroup) = some (some true) := by decide +kernel
/-- R238: `q = 96`. -/
theorem test_cgSubgroupCheck_not : next (exec (.cgSubgroupCheck .g1 0) (put { bnState with cg1 := some { field := .fp, a := [0], b := mont 103 [5], q := 96 } } 0 [2, 42, 1])) (fun t => t.flags.ptInSubgroup) = some (some false) := by decide +kernel
/-- R240; by hand: `1·P + 0·Q` is a copy of `P`. -/
theorem test_cgMultiExp : got (exec (.cgMultiExp .g1 9 0 2 [1, 0]) (put bnState 0 [2, 42, 1, 3, 49, 1])) 9 3 = some [2, 42, 1] := by decide +kernel
/-- R240. -/
theorem test_cgMultiExp_mismatch : next (exec (.cgMultiExp .g1 9 0 2 [1]) (put bnState 0 [2, 42, 1, 3, 49, 1])) (fun t => t.res) = some (.error .multiexpLen) := by decide +kernel
/-- R246. -/
theorem test_cgToAffine : got (exec (.cgToAffine .g1 9 0) (put bnState 0 [39, 46, 84])) 9 2 = some [78, 6] := by decide +kernel
/-- 43_pairing.md R262. -/
theorem test_peNew : next (exec (.peNew .bn .d 7 true 0 0 false) { bnState with pe := none }) (fun t => t.pe.map (fun e => (e.loop, e.loopNeg, e.twist))) = some (some (some 40, some true, some .d)) := by decide +kernel
/-- R262, R301. -/
theorem test_peNew_mnt4 : next (exec (.peNew .mnt4 .m 8 false 45 5 false) { mnt4State with pe := none }) (fun t => t.pe.map (fun e => (e.x, e.twInv))) = some (some (8, some (mont 73 [0, 44]))) := by decide +kernel
/-- R273. -/
theorem test_peDoublingStep : got (exec (.peDoublingStep 20 26 0) (put bnState 0 [43, 94, 52, 39, 1, 0])) 20 12 = some [57, 25, 1, 83, 1, 78, 2, 53, 1, 9, 88, 84] := by decide +kernel
/-- R274. -/
theorem test_peAdditionStep : got (exec (.peAdditionStep 20 26 6 0) (put (put bnState 0 [43, 94, 52, 39]) 6 [57, 25, 1, 83, 1, 78])) 20 12 = some [98, 43, 23, 72, 55, 18, 7, 36, 91, 59, 98, 51] := by decide +kernel
/-- R276. -/
theorem test_peEll : got (exec (.peEll 30 0 12 18) (put (put (put bnState 0 [1, 0, 0, 0, 0, 0, 0, 0, 0, 0, 0, 0]) 12 [2, 53, 1, 9, 88, 84]) 18 [3, 49])) 30 12 = some [98, 22, 0, 0, 0, 0, 3, 27, 88, 84, 0, 0] := by decide +kernel
/-- R279. -/
theorem test_peMillerLoop : got (exec (.peMillerLoop 20 0 1) (put bnState 0 [3, 49, 43, 94, 52, 39, 3, 54, 43, 94, 52, 39])) 20 12 = some [34, 87, 65, 29, 9, 42, 6, 39, 71, 44, 57, 56] := by decide +kernel
/-- R286. -/
theorem test_peFinalExp : got (exec (.peFinalExp 20 0) (put bnState 0 [34, 87, 65, 29, 9, 42, 6, 39, 71, 44, 57, 56])) 20 12 = some [7, 95, 72, 22, 36, 87, 9, 54, 67, 13, 47, 55] := by decide +kernel
/-- R264. -/
theorem test_peMultiPair : got (exec (.peMultiPair 20 0 1) (put bnState 0 [3, 49, 43, 94, 52, 39, 3, 54, 43, 94, 52, 39])) 20 12 = some [7, 95, 72, 22, 36, 87, 9, 54, 67, 13, 47, 55] := by decide +kernel
/-- R264: `(P, Q)` and `(-P, Q)`. -/
theorem test_peMultiPair_inverse : got (exec (.peMultiPair 20 0 2) (put bnState 0 [3, 49, 43, 94, 52, 39, 3, 54, 43, 94, 52, 39])) 20 12 = some [1, 0, 0, 0, 0, 0, 0, 0, 0, 0, 0, 0] := by decide +kernel
/-- R302. -/
theorem test_peDoublingStepMnt : got (exec (.peDoublingStepMnt 20 28 0) (put mnt4State 0 [62, 45, 64, 8, 1, 0, 1, 0])) 20 16 = some [17, 49, 10, 22, 55, 16, 71, 8, 37, 32, 71, 8, 66, 46, 61, 55] := by decide +kernel
/-- R303. -/
theorem test_peAdditionStepMnt : got (exec (.peAdditionStepMnt 20 28 8 0) (put (put mnt4State 0 [62, 45, 64, 8]) 8 [17, 49, 10, 22, 55, 16, 71, 8])) 20 12 = some [62, 62, 35, 39, 24, 13, 34, 40, 12, 70, 24, 13] := by decide +kernel
/-- R304, a doubling line. -/
theorem test_peEllMnt : got (exec (.peEllMnt .doubling 20 4 8 16 0) (put (put (put (put mnt4State 0 [62, 45, 64, 8]) 4 [1, 0, 0, 0]) 8 [37, 32, 71, 8, 66, 46, 61, 55]) 16 [41, 35])) 20 4 = some [50, 42, 52, 54] := by decide +kernel
/-- R304, an addition line. -/
theorem test_peEllMnt_addition : got (exec (.peEllMnt .addition 20 4 8 16 0) (put (put (put (put mnt4State 0 [62, 45, 64, 8]) 4 [1, 0, 0, 0]) 8 [12, 70, 24, 13]) 16 [41, 35])) 20 4 = some [12, 37, 6, 3] := by decide +kernel
/-- R306. -/
theorem test_peMillerLoopMnt : got (exec (.peMillerLoopMnt 20 0 1) (put mnt4State 0 [41, 35, 62, 45, 64, 8])) 20 4 = some [50, 55, 30, 57] := by decide +kernel
/-- R310. -/
theorem test_peFinalExpMnt : got (exec (.peFinalExpMnt 20 0) (put mnt4State 0 [50, 55, 30, 57])) 20 4 = some [3, 63, 36, 59] := by decide +kernel

/-! ## Recodings -/

/-- 42_curve_group.md R236. -/
theorem test_wnaf : wnaf 97 3 = [1, 0, 0, 0, 0, 3] ∧ wnaf 11 3 = [3, 0, 0, 1] := by decide +kernel
/-- 43_pairing.md R266. -/
theorem test_naf : naf 122 = [0, 1, 0, -1, 0, 0, 0, 1] := by decide +kernel
/-- R268: 122 takes the NAF, 7 is a tie. -/
theorem test_traversal : (traversal false 122).2 = true ∧ (traversal false 7).2 = false := by decide +kernel
/-- 42_curve_group.md R241. -/
theorem test_window : [32, 33, 100, 101, 1000, 1001].map mexpWindow = [3, 2, 2, 3, 3, 4] := by decide +kernel
/-- `withFetchWord` and `decodeTableWord` on a tape row and a selector row. -/
theorem test_fetch_word : decodeTableWord 8 0x0a = some .mnt6 ∧ decodeTableWord 16 0x1002 = some (.pfAdd 0 0 0) := by decide +kernel

/-! ## Witnesses: states and operands that meet the hypotheses of each obligation -/

theorem next_of {o : Host.Outcome State Fault Refusal} (h : next o (fun _ => ()) = some ()) : ∃ t, o = .next t := by
  cases o with
  | next t => exact ⟨t, rfl⟩
  | fault f => cases h
  | refused r => cases h

theorem ok_of {ε α : Type} {r : Except ε α} {v : α} (h : r.toOption = some v) : r = .ok v := by
  cases r with
  | ok w => exact congrArg Except.ok (Option.some.inj h)
  | error e => cases h

theorem err_of {r : Except DecodeErr Instr} {e : DecodeErr} (h : reason r = some e) : r = .error e := by
  cases r with
  | ok w => cases h
  | error e' => exact congrArg Except.error (Option.some.inj h)

/-- An element in slots, by its coordinates. -/
theorem elem_of {α : Type} {F : Fld α} {s : State} {a : Nat} (vs : List Nat)
    (h : (regGetGroup s.slots a F.deg).toOption = some vs) : ElemAt s F a (F.ofCoords vs) := ⟨vs, ok_of h, rfl⟩

/-! ### Encoding -/

theorem witness_DecodeEncodeRoundTrip : Instr.wellFormed (.pfNres 65535 65536) = true ∧ Instr.wellFormed (.pfNres 0 1) = true := by
  decide +kernel

def curve103 : CurveFields := { a := [0], b := [5], ord := [97] }
def pointP : PointFields := { x := [2], y := [42] }
def pointQ : PointFields := { x := [3], y := [49] }
def ext102 : ExtHeader := { deg := 2, nr := 102 }
def curveTwist : CurveFields := { a := [0, 0], b := [2, 102], ord := [97] }
def pointS : PointFields := { x := [43, 94], y := [52, 39] }
def point2S : PointFields := { x := [91, 10], y := [21, 3] }
def callG1Add : Call := .g1add [0x67] curve103 pointP pointQ
def callG1Mul : Call := .g1mul [0x67] curve103 pointP 96
def callG1Mexp : Call := .g1mexp [0x67] curve103 [(pointP, 3), (pointQ, 5)]
def callG2Add : Call := .g2add [0x67] ext102 curveTwist pointS point2S
def callG2Mul : Call := .g2mul [0x67] ext102 curveTwist pointS 3
def callG2Mexp : Call := .g2mexp [0x67] ext102 curveTwist [(pointS, 2), (point2S, 3)]
def callG2Cubic : Call :=
  .g2mul [0x25] { deg := 3, nr := 2 } { a := [0, 0, 20], b := [19, 0, 0], ord := [43] }
    { x := [6, 19, 3], y := [24, 29, 29] } 42
def callBls12 : Call :=
  .bls12 [0x02, 0xd7] { a := [0], b := [7], ord := [241] }
    { ext := { deg := 2, nr := 726 }, xi := [2, 1], twist := 2, loop := [4], neg := 0
      pairs := [{ chk1 := 1, p := { x := [290], y := [376] }, chk2 := 1, q := { x := [643, 615], y := [558, 117] } },
                { chk1 := 1, p := { x := [290], y := [351] }, chk2 := 1, q := { x := [643, 615], y := [558, 117] } }] }
def callBn : Call :=
  .bn [0x67] curve103
    { ext := ext102, xi := [2, 1], twist := 2, loop := [1], neg := 0
      pairs := [{ chk1 := 1, p := pointQ, chk2 := 1, q := pointS }] }
def callMnt4 : Call :=
  .mnt4 [0x49] { a := [64], b := [52], ord := [13] }
    { ext := { deg := 2, nr := 5 }, loop := [8], neg := 0, w0 := [45], w1 := [5], w0Neg := 0
      pairs := [{ chk1 := 1, p := { x := [41], y := [35] }, chk2 := 1, q := { x := [62, 45], y := [64, 8] } },
                { chk1 := 1, p := { x := [41], y := [38] }, chk2 := 1, q := { x := [62, 45], y := [64, 8] } }] }
def callMnt6 : Call :=
  .mnt6 [0x25] { a := [5], b := [26], ord := [31] }
    { ext := { deg := 3, nr := 2 }, loop := [6], neg := 0, w0 := [6], w1 := [1], w0Neg := 0
      pairs := [{ chk1 := 1, p := { x := [27], y := [7] }, chk2 := 1, q := { x := [15, 14, 5], y := [34, 18, 27] } },
                { chk1 := 1, p := { x := [27], y := [30] }, chk2 := 1, q := { x := [15, 14, 5], y := [34, 18, 27] } }] }

/-- The written call is the spec's buffer (45_dispatcher.md R388, R389). -/
theorem test_call_buffers :
    encodeCall callBn = bytes [0x08, 0x01, 0x67, 0x00, 0x05, 0x01, 0x61, 0x02, 0x66, 0x02, 0x01, 0x02, 0x01, 0x01, 0x00, 0x01, 0x01, 0x03, 0x31, 0x01, 0x2b, 0x5e, 0x34, 0x27] ∧
    encodeCall callMnt4 = bytes [0x09, 0x01, 0x49, 0x40, 0x34, 0x01, 0x0d, 0x02, 0x05, 0x01, 0x08, 0x00, 0x01, 0x2d, 0x01, 0x05, 0x00, 0x02, 0x01, 0x29, 0x23, 0x01, 0x3e, 0x2d, 0x40, 0x08, 0x01, 0x29, 0x26, 0x01, 0x3e, 0x2d, 0x40, 0x08] := by
  decide +kernel

theorem witness_CallLengths :
    [callG1Add, callG1Mul, callG1Mexp, callG2Add, callG2Mul, callG2Mexp, callG2Cubic, callBls12, callBn, callMnt4, callMnt6].all
      (fun c => c.encodable) = true := by decide +kernel

theorem witness_BigEndianCodec : 0 < 256 ^ 0 ∧ 255 < 256 ^ 1 ∧ 65535 < 256 ^ 2 := by decide

/-! ### One step -/

/-- A state with words at the port. -/
def portState : State := { put bnState 0 [5, 7] with port := [0x1002, 2, 0, 1] }
/-- A state with a buffer. -/
def tapeState (c : Call) : State := { State.reset with inp := Memory.ofBytes (encodeCall c) }

theorem witness_StepRunsTheDecodedInstruction :
    (∃ i, (tapeState callG1Add).port = [] ∧ 0 < (tapeState callG1Add).inp.len ∧
      decode (.tape ((tapeState callG1Add).inp.read 0)) = .ok i) ∧
    (∃ i, portState.port ≠ [] ∧ decode (.port portState.port) = .ok i) ∧
    (∃ (s : State) (e : DecodeErr), s.port ≠ [] ∧ decode (.port s.port) = .error e) :=
  ⟨⟨.g1add, by decide +kernel, by decide +kernel, ok_of (by decide +kernel)⟩,
    ⟨.pfAdd 2 0 1, by decide +kernel, ok_of (by decide +kernel)⟩,
    ⟨{ State.reset with port := [0x4008] }, .unknownSelector, by decide +kernel, err_of (by decide +kernel)⟩⟩

theorem witness_NoOperationIsAnError :
    (State.reset.port = [] ∧ State.reset.inp.len = 0) ∧
    (∃ s : State, s.port = [] ∧ 0 < s.inp.len ∧ ¬ (1 ≤ (s.inp.read 0).toNat ∧ (s.inp.read 0).toNat ≤ 10) ∧ s.inp.read 0 = 0) ∧
    (∃ s : State, s.port = [] ∧ 0 < s.inp.len ∧ ¬ (1 ≤ (s.inp.read 0).toNat ∧ (s.inp.read 0).toNat ≤ 10) ∧ s.inp.read 0 = 0x0b) :=
  ⟨by decide +kernel, ⟨{ State.reset with inp := Memory.ofBytes [0] }, by decide +kernel⟩,
    ⟨{ State.reset with inp := Memory.ofBytes [0x0b] }, by decide +kernel⟩⟩

theorem witness_CallIsAFunctionOfItsInput :
    ∃ s1 s2 t1 : State, SameInput s1 s2 ∧ s1 ≠ s2 ∧ step s1 = .next t1 := by
  obtain ⟨t, ht⟩ := next_of (o := step (tapeState callG1Add)) (by decide +kernel)
  exact ⟨tapeState callG1Add, { bnState with inp := Memory.ofBytes (encodeCall callG1Add), freeCtr := 7 }, t,
    ⟨by decide +kernel, by decide +kernel, by decide +kernel, by decide +kernel⟩, by decide +kernel, ht⟩

theorem witness_EveryCallEndsWithAResult : State.reset.port = [] ∧ (tapeState callBn).port = [] := by decide +kernel

/-! ### Invariants -/

theorem witness_CanonicalFormsKept : ∃ s t : State, s.canonical ∧ step s = .next t := by
  obtain ⟨t, ht⟩ := next_of (o := step portState) (by decide +kernel)
  exact ⟨portState, t, ⟨by decide +kernel, by decide +kernel, by decide +kernel⟩, ht⟩

theorem witness_ElementsStayLegal : ∃ s t : State, s.elementsLegal ∧ s.slots ≠ [] ∧ step s = .next t := by
  obtain ⟨t, ht⟩ := next_of (o := step portState) (by decide +kernel)
  have hp : portState.pf = some (field 103) := by decide +kernel
  refine ⟨portState, t, ?_, by decide +kernel, ht⟩
  unfold State.elementsLegal
  rw [hp]
  exact ⟨by decide +kernel, by decide +kernel⟩

theorem witness_ResultShapeKept : ∃ s t : State, s.resultShape ∧ step s = .next t := by
  obtain ⟨t, ht⟩ := next_of (o := step (tapeState callG1Add)) (by decide +kernel)
  exact ⟨tapeState callG1Add, t, ⟨fun _ => rfl, by decide +kernel⟩, ht⟩

/-- A unit operation that completes, and one that raises an error. -/
theorem witness_InputsAndObjectsKept :
    (∃ s t : State, s.port ≠ [] ∧ step s = .next t ∧ s.pf.isSome = true ∧ (s.ex.get .fq12).isSome = true
      ∧ (s.cg .g2).isSome = true ∧ s.pe.isSome = true) ∧
    (∃ s t : State, s.port ≠ [] ∧ step s = .next t ∧ t.res = .error .modSmall) := by
  obtain ⟨t, ht⟩ := next_of (o := step portState) (by decide +kernel)
  refine ⟨⟨portState, t, by decide +kernel, ht, by decide +kernel, by decide +kernel, by decide +kernel, by decide +kernel⟩,
    ⟨{ State.reset with port := [0x1001, 1, 3] }, State.reset.errorWith .modSmall, by decide +kernel, ?_, rfl⟩⟩
  have h : next (step { State.reset with port := [0x1001, 1, 3] }) id = some (State.reset.errorWith .modSmall) := by decide +kernel
  cases hs : step { State.reset with port := [0x1001, 1, 3] } with
  | next u => rw [hs] at h; exact congrArg Host.Outcome.next (Option.some.inj h)
  | fault f => rw [hs] at h; cases h
  | refused r => rw [hs] at h; cases h

/-! ### Tapes and slots -/

theorem witness_TapeWriteThenRead :
    (Memory.ofBytes [1, 0, 2]).wf = true ∧ (Memory.ofBytes [1, 0, 2]).len < 7 + ([] : List Byte).length ∧ (1 ≤ 1 ∧ 1 < 1 + [(7 : Byte), 8].length) ∧ (0 < 1 ∨ 1 + [(7 : Byte), 8].length ≤ 0) ∧
    (3 < 1 ∨ 1 + [(7 : Byte), 8].length ≤ 3) := by decide +kernel

theorem witness_TapeReadAllOrNothing :
    (State.reset.inp.len < State.reset.cur.off + 1) ∧ (State.reset.cur.off + 0 ≤ State.reset.inp.len) ∧
    ((tapeState callG1Add).cur.off + 11 ≤ (tapeState callG1Add).inp.len) := by decide +kernel

/-! ### The prime-field unit -/

theorem witness_PfNewAcceptsOrRejects : State.reset.pf = none := rfl

theorem witness_PfAddSubDoubleNegate :
    ∃ (s : State) (f : PrimeField) (x y : Nat), s.pf = some f ∧ 0 < f.p ∧ regGet 0 s.slots = some x ∧ regGet 1 s.slots = some y :=
  ⟨put (withField 103) 0 [0, 102], field 103, 0, 101, by decide +kernel⟩

theorem witness_PfMontgomery :
    ∃ (s : State) (f : PrimeField) (x y : Nat), s.pf = some f ∧ f.legal = true ∧ regGet 0 s.slots = some x ∧
      regGet 1 s.slots = some y :=
  ⟨put (withField 103) 0 [0, 102], field 103, 0, 101, by decide +kernel⟩

/-- For `PF.EXP`, `PF.NRES`, and both cases of `PF.INVERT` (0 is not coprime to `p`). -/
theorem witness_PfExpIsThePower :
    ∃ (s : State) (f : PrimeField) (x : Nat), s.pf = some f ∧ f.legal = true ∧ regGet 0 s.slots = some x ∧ x < f.p :=
  ⟨put (withField 103) 0 [102], field 103, 101, by decide +kernel⟩

theorem witness_PfInvertIsTheInverse :
    ∃ (s : State) (f : PrimeField) (x z : Nat), s.pf = some f ∧ f.legal = true ∧ regGet 0 s.slots = some x ∧ x < f.p ∧
      Nat.Coprime x f.p ∧ regGet 1 s.slots = some z ∧ z < f.p ∧ ¬ Nat.Coprime z f.p :=
  ⟨put (withField 103) 0 [102, 0], field 103, 101, 0, by decide +kernel⟩

theorem witness_PfSqrtOrRefusal :
    (∃ (s : State) (f : PrimeField) (x : Nat), s.pf = some f ∧ regGet 0 s.slots = some x ∧ f.p % 4 = 3) ∧
    (∃ (s : State) (f : PrimeField) (x : Nat), s.pf = some f ∧ regGet 0 s.slots = some x ∧ f.p % 4 ≠ 3) :=
  ⟨⟨put (withField 103) 0 [2], field 103, 4, by decide +kernel⟩, ⟨put (withField 5) 0 [0], field 5, 0, by decide +kernel⟩⟩

theorem witness_PfSqrtFindsRoots :
    (field 103).legal = true ∧ Nat.Prime (field 103).p ∧ (field 103).p % 4 = 3 ∧ 4 < (field 103).p ∧
      ((field 103).sqrt 4).1 = true ∧ ((field 103).sqrt 6).1 = false :=
  ⟨by decide +kernel, by show Nat.Prime 103; norm_num, by decide +kernel, by decide +kernel, by decide +kernel, by decide +kernel⟩

theorem witness_PfNresIsEulersCriterion :
    ∃ (s : State) (f : PrimeField) (x : Nat), s.pf = some f ∧ f.legal = true ∧ regGet 0 s.slots = some x ∧ x < f.p :=
  witness_PfExpIsThePower

theorem witness_PfByteCodec :
    ∃ (s : State) (f : PrimeField) (x : Nat), s.pf = some f ∧ f.legal = true ∧ regGet 0 s.slots = some x :=
  ⟨put (withField 103) 0 [102], field 103, 101, by decide +kernel⟩

theorem witness_PrimeFieldContract :
    ∃ (f : PrimeField) (a b c : Nat), f.legal = true ∧ Nat.Prime f.p ∧ a < f.p ∧ b < f.p ∧ c < f.p ∧ a ≠ 0 :=
  ⟨field 103, 102, 0, 5, by decide +kernel, by show Nat.Prime 103; norm_num, by decide +kernel⟩

theorem witness_StopsOutsideTheRules :
    State.reset.pf = none ∧ ((withField 103).pf = some (field 103) ∧ regGet 0 (withField 103).slots = none) ∧
    (withField 103).ex.fq2 = none ∧ ((withField 103).cg .g1 = none ∧ (withField 103).cg .g2 = none) ∧
    (withField 103).pe = none ∧ modulusFits [5] = true ∧
    (∃ e, bnState.ex.get .fq2 = some e ∧ e.frobValid = true) ∧
    (∃ pe, mnt4State.pe = some pe ∧ pe.family = .mnt4) ∧
    (∃ pe g, bnState.pe = some pe ∧ bnState.cg2 = some g ∧ pe.family = .bn) :=
  ⟨rfl, by decide +kernel, by decide +kernel, by decide +kernel, by decide +kernel, by decide +kernel,
    ⟨bnLevels.1, by decide +kernel⟩, ⟨_, rfl, rfl⟩, ⟨_, _, rfl, rfl, rfl⟩⟩

/-! ### Levels, groups, engines -/

/-- The tower of `FQ2` in the toy BN state. -/
def bnT2 : Tow E2 := towFq2 (field 103) 0 bnLevels.1
def bnT12 : Tow E12 := towFq12 (field 103) 0 bnLevels.1 bnLevels.2.1 bnLevels.2.2
/-- The toy BN state with values in its first slots. -/
def bnFilled : State := put bnState 0 [1, 2, 3, 4, 5, 6, 7, 8, 9, 10, 11, 12]
def cubicFilled : State := put cubicState 0 [1, 2, 3, 4, 5, 6]
def mnt4Filled : State := put mnt4State 0 [1, 2, 3, 4, 5, 6, 7, 8]
def mnt6Filled : State := put mnt6State 0 [1, 2, 3, 4, 5, 6, 7, 8, 9, 10, 11, 12]

theorem level_fq2 : LevelIs bnFilled .fq2 E2 bnT2 := .fq2 (field 103) bnLevels.1 rfl rfl
theorem level_fq6c : LevelIs bnFilled .fq6c E6 (towFq6c (field 103) 0 bnLevels.1 bnLevels.2.1) :=
  .fq6c (field 103) bnLevels.1 bnLevels.2.1 rfl rfl rfl
theorem level_fq12 : LevelIs bnFilled .fq12 E12 bnT12 :=
  .fq12 (field 103) bnLevels.1 bnLevels.2.1 bnLevels.2.2 rfl rfl rfl rfl
theorem level_fq3 : LevelIs cubicFilled .fq3 E3 (towFq3 (field 103) 0 fq3Level) := .fq3 (field 103) fq3Level rfl rfl
theorem level_fq6q : LevelIs cubicFilled .fq6q E6q (towFq6q (field 103) 0 fq3Level fq6qLevel) :=
  .fq6q (field 103) fq3Level fq6qLevel rfl rfl rfl
theorem level_fq4 : ∃ t, LevelIs mnt4Filled .fq4 E4 t := ⟨_, .fq4 (field 73) _ _ rfl rfl rfl⟩

theorem witness_ExNewBuildsALevel :
    (∃ s vs, s.ex.get .fq2 = none ∧ BaseExists s .fq2 ∧ regGetGroup s.slots 0 (constantSlots .fq2) = .ok vs) ∧
    (∃ s vs, s.ex.get .fq4 = none ∧ BaseExists s .fq4 ∧ regGetGroup s.slots 0 (constantSlots .fq4) = .ok vs) :=
  ⟨⟨put (withField 103) 0 [102], mont 103 [102], by decide +kernel, ⟨by decide +kernel, trivial⟩, ok_of (by decide +kernel)⟩,
    ⟨bnFilled, mont 103 [1, 2], by decide +kernel, ⟨by decide +kernel, by show (bnFilled.ex.get .fq2).isSome = true; decide +kernel⟩,
      ok_of (by decide +kernel)⟩⟩

theorem witness_ExCoordinatewise :
    ∃ (vs ws : List Nat), bnFilled.pf = some (field 103) ∧ LevelIs bnFilled .fq2 E2 bnT2 ∧
      regGetGroup bnFilled.slots 0 (levelSlots .fq2) = .ok vs ∧ regGetGroup bnFilled.slots 2 (levelSlots .fq2) = .ok ws :=
  ⟨mont 103 [1, 2], mont 103 [3, 4], by decide +kernel, level_fq2, ok_of (by decide +kernel), ok_of (by decide +kernel)⟩

theorem witness_ExProducts :
    (∃ x y, LevelIs bnFilled .fq2 E2 bnT2 ∧ ElemAt bnFilled bnT2.fld 0 x ∧ ElemAt bnFilled bnT2.fld 2 y) ∧
    (∃ x, LevelIs bnFilled .fq12 E12 bnT12 ∧ ElemAt bnFilled bnT12.fld 0 x) ∧
    (∃ x y t, LevelIs cubicFilled .fq3 E3 t ∧ ElemAt cubicFilled t.fld 0 x ∧ ElemAt cubicFilled t.fld 3 y) :=
  ⟨⟨_, _, level_fq2, elem_of (mont 103 [1, 2]) (by decide +kernel), elem_of (mont 103 [3, 4]) (by decide +kernel)⟩,
    ⟨_, level_fq12, elem_of (mont 103 [1, 2, 3, 4, 5, 6, 7, 8, 9, 10, 11, 12]) (by decide +kernel)⟩,
    ⟨_, _, _, level_fq3, elem_of (mont 103 [1, 2, 3]) (by decide +kernel), elem_of (mont 103 [4, 5, 6]) (by decide +kernel)⟩⟩

/-- 101 is the form of 102, no square modulo 103. -/
theorem no_square_103 : ¬ ∃ y, y ^ 2 % (field 103).p = (field 103).fromMont 101 := by
  rintro ⟨y, hy⟩
  have h1 : y ^ 2 % 103 = (y % 103) ^ 2 % 103 := Nat.pow_mod y 2 103
  have h2 : ∀ z, z < 103 → z ^ 2 % 103 ≠ 102 := by decide +kernel
  have h3 : (field 103).fromMont 101 = 102 := by decide +kernel
  rw [h3] at hy
  exact h2 (y % 103) (Nat.mod_lt _ (by decide)) (h1.symm.trans hy)

/-- 10 is the form of 5, no cube modulo 103. -/
theorem no_cube_103 : ¬ ∃ y, y ^ 3 % (field 103).p = (field 103).fromMont 10 := by
  rintro ⟨y, hy⟩
  have h1 : y ^ 3 % 103 = (y % 103) ^ 3 % 103 := Nat.pow_mod y 3 103
  have h2 : ∀ z, z < 103 → z ^ 3 % 103 ≠ 5 := by decide +kernel
  have h3 : (field 103).fromMont 10 = 5 := by decide +kernel
  rw [h3] at hy
  exact h2 (y % 103) (Nat.mod_lt _ (by decide)) (h1.symm.trans hy)

theorem prime_103 : Nat.Prime (field 103).p := by show Nat.Prime 103; norm_num

/-- A prime modulus and a composite one. -/
theorem witness_LevelsAreTheQuotientRings :
    ((field 103).legal = true ∧ 101 < (field 103).p ∧ IsElem (fq2Fld (fpFld (field 103)) 101) (field 103).p (4, 2) ∧
      Nat.Prime (field 103).p ∧ (¬ ∃ y, y * y % (field 103).p = (field 103).fromMont 101) ∧
      IsElem (fq2Fld (fpFld (field 103)) 101) (field 103).p (4, 6) ∧ ((4 : Nat), 6) ≠ (fq2Fld (fpFld (field 103)) 101).zero) ∧
    ((field 35).legal = true ∧ 0 < (field 35).p ∧ IsElem (fq2Fld (fpFld (field 35)) 0) (field 35).p (0, 34)) := by
  refine ⟨⟨by decide +kernel, by decide +kernel, by decide +kernel, prime_103, ?_, by decide +kernel, by decide +kernel⟩,
    by decide +kernel, by decide +kernel, by decide +kernel⟩
  rintro ⟨y, hy⟩
  exact no_square_103 ⟨y, by rw [pow_two]; exact hy⟩

theorem witness_ExConjugateNegatesTheOddHalf :
    ∃ vs, bnFilled.pf = some (field 103) ∧ LevelIs bnFilled .fq12 E12 bnT12 ∧ regGetGroup bnFilled.slots 0 (2 * 6) = .ok vs :=
  ⟨mont 103 [1, 2, 3, 4, 5, 6, 7, 8, 9, 10, 11, 12], by decide +kernel, level_fq12, ok_of (by decide +kernel)⟩

/-- The BN tower of the toy state. -/
def bnTower : BnTower :=
  { p := 103, t2 := bnT2, t6 := towFq6c (field 103) 0 bnLevels.1 bnLevels.2.1, t12 := bnT12
    xi := bnT2.fld.ofCoords bnLevels.2.1.nonResidue }

theorem witness_ExTowerProducts :
    ∃ x y1 y2 y3, TowerIs bnFilled bnTower ∧ ElemAt bnFilled bnTower.t12.fld 0 x ∧ ElemAt bnFilled bnTower.t2.fld 0 y1 ∧
      ElemAt bnFilled bnTower.t2.fld 2 y2 ∧ ElemAt bnFilled bnTower.t2.fld 10 y3 :=
  ⟨_, _, _, _, ⟨field 103, bnLevels.1, bnLevels.2.1, bnLevels.2.2, rfl, rfl, rfl, rfl, rfl⟩,
    elem_of (mont 103 [1, 2, 3, 4, 5, 6, 7, 8, 9, 10, 11, 12]) (by decide +kernel), elem_of (mont 103 [1, 2]) (by decide +kernel),
    elem_of (mont 103 [3, 4]) (by decide +kernel), elem_of (mont 103 [11, 12]) (by decide +kernel)⟩

/-- `FQ2` without its table. -/
def bareFq2 : State :=
  put { withField 103 with ex := { ExFile.unset with fq2 := some (freshLevel .fq2 (mont 103 [102])) } } 0 [1, 2]

theorem witness_ExFrobeniusMapOrAnyElement :
    (∃ x, bnFilled.pf = some (field 103) ∧ 0 < (field 103).p ∧ LevelIs bnFilled .fq12 E12 bnT12 ∧ ElemAt bnFilled bnT12.fld 0 x
      ∧ bnT12.valid = true) ∧
    (∃ t x, bareFq2.pf = some (field 103) ∧ LevelIs bareFq2 .fq2 E2 t ∧ ElemAt bareFq2 t.fld 0 x ∧ t.valid = false) :=
  ⟨⟨_, by decide +kernel, by decide +kernel, level_fq12,
      elem_of (mont 103 [1, 2, 3, 4, 5, 6, 7, 8, 9, 10, 11, 12]) (by decide +kernel), by decide +kernel⟩,
    ⟨_, _, by decide +kernel, .fq2 (field 103) (freshLevel .fq2 (mont 103 [102])) rfl rfl,
      elem_of (mont 103 [1, 2]) (by decide +kernel), rfl⟩⟩

/-- `p = 73`: 6 and 4 divide `p - 1`, so every level has its tables; `β = 5`, `ξ = 2 + u`. -/
theorem witness_FrobeniusMapIsThePower :
    (field 73).legal = true ∧ Nat.Prime (field 73).p ∧ 0 < (field 73).toMont 5 ∧ (field 73).toMont 5 < (field 73).p ∧
    IsElem (fq2Fld (fpFld (field 73)) ((field 73).toMont 5)) (field 73).p ((field 73).toMont 2, (field 73).toMont 1) ∧
    ((fq2Fld (fpFld (field 73)) ((field 73).toMont 5)).inv ((field 73).toMont 2, (field 73).toMont 1)).1 = true ∧
    (frobTable (fpFld (field 73)) 73 ((field 73).toMont 5) 4 1 4).isSome = true ∧
    (frobTable (fpFld (field 73)) 73 ((field 73).toMont 5) 6 1 6).isSome = true ∧
    (frobTable (fpFld (field 73)) 73 ((field 73).toMont 5) 3 2 3).isSome = true ∧
    (frobTable (fq2Fld (fpFld (field 73)) ((field 73).toMont 5)) 73 ((field 73).toMont 2, (field 73).toMont 1) 6 1 12).isSome = true ∧
    (frobTable (fq2Fld (fpFld (field 73)) ((field 73).toMont 5)) 73 ((field 73).toMont 2, (field 73).toMont 1) 3 2 6).isSome = true :=
  ⟨by decide +kernel, by show Nat.Prime 73; norm_num, by decide +kernel, by decide +kernel, by decide +kernel, by decide +kernel,
    by decide +kernel, by decide +kernel, by decide +kernel, by decide +kernel, by decide +kernel⟩

theorem witness_ExCalcFrobWritesTheTables :
    ∃ e o, bareFq2.ex.get .fq2 = some e ∧ e.frobValid = false ∧ TablesOf bareFq2 .fq2 o :=
  ⟨_, _, rfl, rfl, .fq2 (field 103) _ rfl rfl⟩

/-- The toy BN state before the tables of `FQ6C`. -/
def bareFq6c : State := put { bnState with ex := { bnState.ex with fq6c := some (freshLevel .fq6c (mont 103 [2, 1])) } } 0 [36, 93]

theorem witness_ExCalcFrobPreWritesTheTables :
    ∃ e v, bareFq6c.pf = some (field 103) ∧ LevelIs bareFq6c .fq2 E2 bnT2 ∧ bareFq6c.ex.get (preLevelLevel .fq6c) = some e ∧
      e.frobValid = false ∧ ElemAt bareFq6c bnT2.fld 0 v :=
  ⟨freshLevel .fq6c (mont 103 [2, 1]), _, by decide +kernel, .fq2 (field 103) bnLevels.1 rfl rfl, by decide +kernel, rfl,
    elem_of (mont 103 [36, 93]) (by decide +kernel)⟩

theorem witness_PrecomputedTablesAgree :
    ∃ tbl, (field 103).legal = true ∧ Nat.Prime (field 103).p ∧ 101 < (field 103).p ∧ 6 ∣ (field 103).p - 1 ∧ 4 < (field 103).p ∧
      2 < (field 103).p ∧ frobTable (fpFld (field 103)) (field 103).p 101 2 1 2 = some tbl :=
  ⟨[mont 103 [1], mont 103 [102]], by decide +kernel, by show Nat.Prime 103; norm_num, by decide +kernel, by decide +kernel,
    by decide +kernel, by decide +kernel, by decide +kernel⟩

theorem witness_CgNewBuildsAGroup :
    (∃ s F va vb, FieldIs s .fp Nat F ∧ s.cg (groupOfField .fp) = none ∧ CoeffAt s F none va ∧ CoeffAt s F (some 0) vb) ∧
    (∃ s F va vb, FieldIs s .fq2 E2 F ∧ s.cg (groupOfField .fq2) = none ∧ CoeffAt s F (some 0) va ∧ CoeffAt s F none vb) ∧
    (∃ s F va vb, FieldIs s .fq3 E3 F ∧ s.cg (groupOfField .fq3) = none ∧ CoeffAt s F (some 0) va ∧ CoeffAt s F none vb) :=
  ⟨⟨bareFq2, _, _, _, .fp (field 103) rfl, rfl, rfl, elem_of (mont 103 [1]) (by decide +kernel)⟩,
    ⟨bareFq2, _, _, _, .fq2 _ (.fq2 (field 103) (freshLevel .fq2 (mont 103 [102])) rfl rfl), rfl,
      elem_of (mont 103 [1, 2]) (by decide +kernel), rfl⟩,
    ⟨cubicFilled, _, _, _, .fq3 _ level_fq3, rfl, elem_of (mont 103 [1, 2, 3]) (by decide +kernel), rfl⟩⟩

/-- The blocks of the two groups of the toy BN state. -/
def bnG1 : CurveGroup := { field := .fp, a := [0], b := mont 103 [5], q := 97 }
def bnG2 : CurveGroup := { field := .level .fq2, a := [0, 0], b := mont 103 [2, 102], q := 97 }

theorem group_g1 : GroupIs bnFilled .g1 Nat (fpFld (field 103)) bnG1 := .g1 (field 103) bnG1 rfl rfl rfl
theorem group_g2 : GroupIs bnFilled .g2 E2 bnT2.fld bnG2 := .g2 .fq2 E2 bnT2 bnG2 rfl rfl level_fq2

/-- A point in slots, by its coordinates. -/
theorem pt_of {α : Type} {F : Fld α} {s : State} {a : Nat} (xs ys zs : List Nat)
    (hx : (regGetGroup s.slots a F.deg).toOption = some xs) (hy : (regGetGroup s.slots (a + F.deg) F.deg).toOption = some ys)
    (hz : (regGetGroup s.slots (a + 2 * F.deg) F.deg).toOption = some zs) :
    PtAt s F a { x := F.ofCoords xs, y := F.ofCoords ys, z := F.ofCoords zs } :=
  ⟨elem_of xs hx, elem_of ys hy, elem_of zs hz⟩

theorem point_g1 : PtAt bnFilled (fpFld (field 103)) 0
    { x := (field 103).toMont 1, y := (field 103).toMont 2, z := (field 103).toMont 3 } :=
  pt_of (F := fpFld (field 103)) (mont 103 [1]) (mont 103 [2]) (mont 103 [3]) (by decide +kernel) (by decide +kernel) (by decide +kernel)

theorem point_g2 : ∃ P, PtAt bnFilled bnT2.fld 0 P :=
  ⟨_, pt_of (mont 103 [1, 2]) (mont 103 [3, 4]) (mont 103 [5, 6]) (by decide +kernel) (by decide +kernel) (by decide +kernel)⟩

/-- The last clause of the first part on a point of which only `Z` is set. -/
theorem witness_CgPredicates :
    (GroupIs (put bnState 2 [0]) .g1 Nat (fpFld (field 103)) bnG1 ∧ regGet 0 (put bnState 2 [0]).slots = none ∧
      (∃ z, ElemAt (put bnState 2 [0]) (fpFld (field 103)) (0 + 2 * (fpFld (field 103)).deg) z ∧
        (fpFld (field 103)).beq z (fpFld (field 103)).zero = true)) ∧
    (∃ P, GroupIs bnFilled .g1 Nat (fpFld (field 103)) bnG1 ∧ PtAt bnFilled (fpFld (field 103)) 0 P) ∧
    (∃ P, GroupIs bnFilled .g2 E2 bnT2.fld bnG2 ∧ PtAt bnFilled bnT2.fld 0 P) :=
  ⟨⟨.g1 (field 103) bnG1 rfl rfl rfl, by decide +kernel, _,
      elem_of (F := fpFld (field 103)) (mont 103 [0]) (by decide +kernel), by decide +kernel⟩,
    ⟨_, group_g1, point_g1⟩, ⟨point_g2.choose, group_g2, point_g2.choose_spec⟩⟩

theorem witness_OnCurveIsTheEquation :
    (field 103).legal = true ∧ 0 < (field 103).p ∧ 102 < (field 103).p := by decide +kernel

theorem witness_CgPointOperations :
    (∃ P Q, GroupIs bnFilled .g1 Nat (fpFld (field 103)) bnG1 ∧ PtAt bnFilled (fpFld (field 103)) 0 P ∧
      PtAt bnFilled (fpFld (field 103)) 0 Q) ∧
    (∃ P Q, GroupIs bnFilled .g2 E2 bnT2.fld bnG2 ∧ PtAt bnFilled bnT2.fld 0 P ∧ PtAt bnFilled bnT2.fld 0 Q) :=
  ⟨⟨_, _, group_g1, point_g1, point_g1⟩, ⟨point_g2.choose, point_g2.choose, group_g2, point_g2.choose_spec, point_g2.choose_spec⟩⟩

theorem witness_CgMultiExpOrMismatch :
    (GroupIs bnFilled .g1 Nat (fpFld (field 103)) bnG1 ∧ 2 ≠ [1].length) ∧
    (∃ ps, GroupIs bnFilled .g1 Nat (fpFld (field 103)) bnG1 ∧ PtsAt bnFilled (fpFld (field 103)) 0 ps ∧ ps.length = [5].length) ∧
    (∃ ps, PtsAt bnFilled (fpFld (field 103)) 0 ps ∧ ps.length = ([] : List Nat).length) :=
  ⟨⟨group_g1, by decide⟩, ⟨[{ x := (field 103).toMont 1, y := (field 103).toMont 2, z := (field 103).toMont 3 }], group_g1,
      And.intro point_g1 trivial, rfl⟩, ⟨[], trivial, rfl⟩⟩

theorem witness_CurveGroupLaws :
    (field 103).legal = true ∧ Nat.Prime (field 103).p ∧ CurveFieldOver (field 103) Nat (fpFld (field 103)) ∧
    CurveFieldOver (field 103) E2 (fq2Fld (fpFld (field 103)) 101) ∧ CurveFieldOver (field 103) E3 (fq3Fld (fpFld (field 103)) 10) ∧
    IsElem (fpFld (field 103)) (field 103).p 102 ∧ IsPt (fpFld (field 103)) (field 103).p { x := 0, y := 0, z := 102 } ∧
    IsPt (fq3Fld (fpFld (field 103)) 10) (field 103).p { x := (1, 2, 102), y := (0, 0, 0), z := (0, 0, 0) } :=
  ⟨by decide +kernel, prime_103, .fp, .fq2 101 (by decide +kernel) no_square_103, .fq3 10 (by decide +kernel) no_cube_103,
    by decide +kernel, ⟨by decide +kernel, by decide +kernel, by decide +kernel⟩,
    ⟨by decide +kernel, by decide +kernel, by decide +kernel⟩⟩

/-- The toy curve `y² = x³ + 5` modulo 103 and its twist, with points of 95_test_vectors.md. -/
theorem witness_MultiplesAgree :
    ((field 103).legal = true ∧ Nat.Prime (field 103).p ∧ CurveFieldOver (field 103) Nat (fpFld (field 103)) ∧
      IsElem (fpFld (field 103)) (field 103).p 10 ∧ curveDiscriminant (fpFld (field 103)) 0 10 ≠ 0 ∧
      IsPt (fpFld (field 103)) (field 103).p { x := 4, y := 84, z := 2 } ∧
      ptOnCurve (fpFld (field 103)) 0 10 { x := 4, y := 84, z := 2 } = true ∧ 96 < 97) ∧
    (CurveFieldOver (field 103) E2 (fq2Fld (fpFld (field 103)) 101) ∧
      curveDiscriminant (fq2Fld (fpFld (field 103)) 101) (0, 0) (4, 101) ≠ (0, 0) ∧
      IsPt (fq2Fld (fpFld (field 103)) 101) (field 103).p { x := (86, 85), y := (1, 78), z := (2, 0) } ∧
      ptOnCurve (fq2Fld (fpFld (field 103)) 101) (0, 0) (4, 101) { x := (86, 85), y := (1, 78), z := (2, 0) } = true) :=
  ⟨⟨by decide +kernel, prime_103, .fp, by decide +kernel, by decide +kernel,
      ⟨by decide +kernel, by decide +kernel, by decide +kernel⟩, by decide +kernel, by decide⟩,
    .fq2 101 (by decide +kernel) no_square_103, by decide +kernel, ⟨by decide +kernel, by decide +kernel, by decide +kernel⟩,
    by decide +kernel⟩

theorem witness_WnafDenotesTheNumber : 2 ≤ 2 ∧ 2 ≤ 3 ∧ 0 < 1 := by decide
theorem witness_MultiExpWindow : 32 ≤ 32 ∧ 32 < 33 ∧ 2 < mexpWindow 101 := by decide +kernel

theorem witness_PeNewBuildsTheEngine :
    (∃ (s : State) (c1 c2 : CurveGroup) (e12 : ExtField), s.cg1 = some c1 ∧ s.cg2 = some c2 ∧ s.ex.fq12 = some e12 ∧ s.pe = none) ∧
    (∃ (s : State) (f : PrimeField) (c1 c2 : CurveGroup) (e4 : ExtField) (t : Tow E2), s.pf = some f ∧ s.cg1 = some c1 ∧
      s.cg2 = some c2 ∧ s.ex.fq4 = some e4 ∧ LevelIs s .fq2 E2 t ∧ s.pe = none) ∧
    (∃ (s : State) (f : PrimeField) (c1 c2 : CurveGroup) (e6 : ExtField) (t : Tow E3), s.pf = some f ∧ s.cg1 = some c1 ∧
      s.cg2 = some c2 ∧ s.ex.fq6q = some e6 ∧ LevelIs s .fq3 E3 t ∧ s.pe = none) :=
  ⟨⟨{ bnState with pe := none }, _, _, _, rfl, rfl, rfl, rfl⟩,
    ⟨{ mnt4State with pe := none }, field 73, _, mnt4G2, mnt4Fq4, _, rfl, rfl, rfl, rfl, .fq2 (field 73) mnt4Fq2 rfl rfl, rfl⟩,
    ⟨{ mnt6State with pe := none }, field 37, _, mnt6G2, mnt6Fq6q, _, rfl, rfl, rfl, rfl, .fq3 (field 37) mnt6Fq3 rfl rfl, rfl⟩⟩

theorem witness_TraversalDenotesTheLoop : 0 < 1 ∧ (traversal true 122).2 = false ∧ (traversal false 122).2 = true := by decide +kernel

/-- The toy BN state with slots for the engine operations. -/
theorem twisted_bn : TwistedIs bnFilled bnTower (twistedEngine false true .d 1 false) true :=
  ⟨rfl, rfl, field 103, bnLevels.1, bnLevels.2.1, bnLevels.2.2, rfl, rfl, rfl, rfl, rfl⟩
theorem twisted_bls : TwistedIs { bnFilled with pe := blsState.pe } bnTower (twistedEngine false false .m 4 true) false :=
  ⟨rfl, rfl, field 103, bnLevels.1, bnLevels.2.1, bnLevels.2.2, rfl, rfl, rfl, rfl, rfl⟩

/-- The slots of the toy state read by `DOUBLING_STEP` and `ADDITION_STEP`, and by `ELL`. -/
theorem witness_TwistedEngineSteps :
    (∃ R Q, TwistedIs bnFilled bnTower (twistedEngine false true .d 1 false) true ∧ PtAt bnFilled bnTower.t2.fld 0 R ∧
      XYAt bnFilled bnTower.t2.fld 2 Q ∧ regGet 100 bnFilled.slots = none) ∧
    (∃ x l0 l1 l2, TwistedIs bnFilled bnTower (twistedEngine false true .d 1 false) true ∧
      (twistedEngine false true .d 1 false).twist = some .d ∧
      ElemAt bnFilled bnTower.t12.fld 0 x ∧ ElemAt bnFilled bnTower.t2.fld 4 l0 ∧ ElemAt bnFilled bnTower.t2.fld (4 + 2) l1 ∧
      ElemAt bnFilled bnTower.t2.fld (4 + 4) l2 ∧ regGet 10 bnFilled.slots = some ((field 103).toMont 11) ∧
      regGet (10 + 1) bnFilled.slots = some ((field 103).toMont 12)) :=
  ⟨⟨point_g2.choose, (bnT2.fld.ofCoords (mont 103 [3, 4]), bnT2.fld.ofCoords (mont 103 [5, 6])), twisted_bn,
      point_g2.choose_spec, ⟨elem_of (mont 103 [3, 4]) (by decide +kernel), elem_of (mont 103 [5, 6]) (by decide +kernel)⟩,
      by decide +kernel⟩,
    ⟨_, _, _, _, twisted_bn, rfl,
      elem_of (mont 103 [1, 2, 3, 4, 5, 6, 7, 8, 9, 10, 11, 12]) (by decide +kernel), elem_of (mont 103 [5, 6]) (by decide +kernel),
      elem_of (mont 103 [7, 8]) (by decide +kernel), elem_of (mont 103 [9, 10]) (by decide +kernel), by decide +kernel,
      by decide +kernel⟩⟩

/-- One pair in slots, by its coordinates. -/
theorem pair_of {α : Type} {F : Fld α} {s : State} {a : Nat} (px py : Nat) (xs ys : List Nat)
    (h1 : regGet a s.slots = some px) (h2 : regGet (a + 1) s.slots = some py)
    (hx : (regGetGroup s.slots (a + 2) F.deg).toOption = some xs)
    (hy : (regGetGroup s.slots (a + 2 + F.deg) F.deg).toOption = some ys) :
    PairsAt s F a [{ px := px, py := py, qx := F.ofCoords xs, qy := F.ofCoords ys, acc := () }] :=
  ⟨h1, h2, ⟨elem_of xs hx, elem_of ys hy⟩, trivial⟩

theorem witness_TwistedEngineLoops :
    (∃ ds ms x, TwistedIs bnFilled bnTower (twistedEngine false true .d 1 false) true ∧
      (twistedEngine false true .d 1 false).twist = some .d ∧ (twistedEngine false true .d 1 false).digits = some ds ∧
      (if true then (twistedEngine false true .d 1 false).loopNeg = some false else (twistedEngine false true .d 1 false).xNeg = false) ∧
      PairsAt bnFilled bnTower.t2.fld 0 ms ∧ ms.length = 1 ∧ ElemAt bnFilled bnTower.t12.fld 0 x) ∧
    (∃ ds, TwistedIs { bnFilled with pe := blsState.pe } bnTower (twistedEngine false false .m 4 true) false ∧
      (twistedEngine false false .m 4 true).twist = some .m ∧ (twistedEngine false false .m 4 true).digits = some ds ∧
      (twistedEngine false false .m 4 true).xNeg = true ∧ PairsAt { bnFilled with pe := blsState.pe } bnTower.t2.fld 0 []) :=
  ⟨⟨_, _, _, twisted_bn, rfl, rfl, by decide +kernel,
      pair_of (F := bnTower.t2.fld) ((field 103).toMont 1) ((field 103).toMont 2) (mont 103 [3, 4]) (mont 103 [5, 6])
        (by decide +kernel) (by decide +kernel) (by decide +kernel) (by decide +kernel), rfl,
      elem_of (mont 103 [1, 2, 3, 4, 5, 6, 7, 8, 9, 10, 11, 12]) (by decide +kernel)⟩,
    ⟨_, twisted_bls, rfl, rfl, rfl, trivial⟩⟩

/-- The fields of the toy MNT states. -/
def mnt4E : Fld E2 := fq2Fld (fpFld (field 73)) (mnt4Fq2.nonResidue.headD 0)
def mnt4T : Fld E4 := fq4Fld (fpFld (field 73)) (mnt4Fq2.nonResidue.headD 0)
def mnt6E : Fld E3 := fq3Fld (fpFld (field 37)) (mnt6Fq3.nonResidue.headD 0)
def mnt6T : Fld E6q := fq6qFld (fpFld (field 37)) (mnt6Fq3.nonResidue.headD 0)

/-- The MNT engines' towers in the toy states. -/
theorem mnt_4 : ∃ t pe, MntIs mnt4Filled E2 t pe ∧ t.te.fld = mnt4E ∧ t.tt.fld = mnt4T ∧ pe.w0 = some 45 ∧ pe.w1 = some 5 ∧
    pe.w0Neg = some false :=
  ⟨_, mnt4Engine, .mnt4 (field 73) mnt4Fq2 mnt4Fq4 mnt4G2 mnt4Engine (mont 73 [0, 1]) (mont 73 [0, 44]) rfl rfl rfl rfl rfl rfl rfl
    (by decide +kernel) (by decide +kernel), rfl, rfl, rfl, rfl, rfl⟩

theorem mnt_6 : ∃ t pe, MntIs mnt6Filled E3 t pe ∧ t.te.fld = mnt6E ∧ t.tt.fld = mnt6T ∧ pe.w0 = some 6 ∧ pe.w1 = some 1 ∧
    pe.w0Neg = some false :=
  ⟨_, mnt6Engine, .mnt6 (field 37) mnt6Fq3 mnt6Fq6q mnt6G2 mnt6Engine (mont 37 [0, 1, 0]) (mont 37 [0, 0, 19]) rfl rfl rfl rfl rfl rfl rfl
    (by decide +kernel) (by decide +kernel), rfl, rfl, rfl, rfl, rfl⟩

theorem witness_MntEngineSteps :
    (∃ t pe R Q x px py, MntIs mnt4Filled E2 t pe ∧ Pt4At mnt4Filled t.te.fld 0 R ∧ XYAt mnt4Filled t.te.fld 0 Q ∧
      ElemAt mnt4Filled t.tt.fld 0 x ∧ regGet 0 mnt4Filled.slots = some px ∧ regGet (0 + 1) mnt4Filled.slots = some py) ∧
    (∃ t pe R Q x px py, MntIs mnt6Filled E3 t pe ∧ Pt4At mnt6Filled t.te.fld 0 R ∧ XYAt mnt6Filled t.te.fld 0 Q ∧
      ElemAt mnt6Filled t.tt.fld 0 x ∧ regGet 0 mnt6Filled.slots = some px ∧ regGet (0 + 1) mnt6Filled.slots = some py) := by
  obtain ⟨t, pe, h, h1, h2, -⟩ := mnt_4
  obtain ⟨t', pe', h', h1', h2', -⟩ := mnt_6
  refine ⟨⟨t, pe, { x := mnt4E.ofCoords (mont 73 [1, 2]), y := mnt4E.ofCoords (mont 73 [3, 4]), z := mnt4E.ofCoords (mont 73 [5, 6]),
                    t := mnt4E.ofCoords (mont 73 [7, 8]) },
      (mnt4E.ofCoords (mont 73 [1, 2]), mnt4E.ofCoords (mont 73 [3, 4])), mnt4T.ofCoords (mont 73 [1, 2, 3, 4]),
      (field 73).toMont 1, (field 73).toMont 2, h, ?_, ?_, ?_, by decide +kernel, by decide +kernel⟩,
    ⟨t', pe', { x := mnt6E.ofCoords (mont 37 [1, 2, 3]), y := mnt6E.ofCoords (mont 37 [4, 5, 6]),
                z := mnt6E.ofCoords (mont 37 [7, 8, 9]), t := mnt6E.ofCoords (mont 37 [10, 11, 12]) },
      (mnt6E.ofCoords (mont 37 [1, 2, 3]), mnt6E.ofCoords (mont 37 [4, 5, 6])), mnt6T.ofCoords (mont 37 [1, 2, 3, 4, 5, 6]),
      (field 37).toMont 1, (field 37).toMont 2, h', ?_, ?_, ?_, by decide +kernel, by decide +kernel⟩⟩
  · rw [h1]
    exact ⟨elem_of (mont 73 [1, 2]) (by decide +kernel), elem_of (mont 73 [3, 4]) (by decide +kernel),
      elem_of (mont 73 [5, 6]) (by decide +kernel), elem_of (mont 73 [7, 8]) (by decide +kernel)⟩
  · rw [h1]
    exact ⟨elem_of (mont 73 [1, 2]) (by decide +kernel), elem_of (mont 73 [3, 4]) (by decide +kernel)⟩
  · rw [h2]
    exact elem_of (mont 73 [1, 2, 3, 4]) (by decide +kernel)
  · rw [h1']
    exact ⟨elem_of (mont 37 [1, 2, 3]) (by decide +kernel), elem_of (mont 37 [4, 5, 6]) (by decide +kernel),
      elem_of (mont 37 [7, 8, 9]) (by decide +kernel), elem_of (mont 37 [10, 11, 12]) (by decide +kernel)⟩
  · rw [h1']
    exact ⟨elem_of (mont 37 [1, 2, 3]) (by decide +kernel), elem_of (mont 37 [4, 5, 6]) (by decide +kernel)⟩
  · rw [h2']
    exact elem_of (mont 37 [1, 2, 3, 4, 5, 6]) (by decide +kernel)

theorem witness_MntEngineLoops :
    (∃ t pe ms x, MntIs mnt4Filled E2 t pe ∧ pe.w0 = some 45 ∧ pe.w1 = some 5 ∧ pe.w0Neg = some false ∧
      PairsAt mnt4Filled t.te.fld 0 ms ∧ ms.length = 1 ∧ ElemAt mnt4Filled t.tt.fld 0 x) ∧
    (∃ t pe ms x, MntIs mnt6Filled E3 t pe ∧ pe.w0 = some 6 ∧ pe.w1 = some 1 ∧ pe.w0Neg = some false ∧
      PairsAt mnt6Filled t.te.fld 0 ms ∧ ms.length = 1 ∧ ElemAt mnt6Filled t.tt.fld 0 x) := by
  obtain ⟨t, pe, h, h1, h2, w⟩ := mnt_4
  obtain ⟨t', pe', h', h1', h2', w'⟩ := mnt_6
  refine ⟨⟨t, pe, [{ px := (field 73).toMont 1, py := (field 73).toMont 2, qx := mnt4E.ofCoords (mont 73 [3, 4]),
                     qy := mnt4E.ofCoords (mont 73 [5, 6]), acc := () }],
      mnt4T.ofCoords (mont 73 [1, 2, 3, 4]), h, w.1, w.2.1, w.2.2, ?_, rfl, ?_⟩,
    ⟨t', pe', [{ px := (field 37).toMont 1, py := (field 37).toMont 2, qx := mnt6E.ofCoords (mont 37 [3, 4, 5]),
                 qy := mnt6E.ofCoords (mont 37 [6, 7, 8]), acc := () }],
      mnt6T.ofCoords (mont 37 [1, 2, 3, 4, 5, 6]), h', w'.1, w'.2.1, w'.2.2, ?_, rfl, ?_⟩⟩
  · rw [h1]
    exact pair_of ((field 73).toMont 1) ((field 73).toMont 2) (mont 73 [3, 4]) (mont 73 [5, 6]) (by decide +kernel)
      (by decide +kernel) (by decide +kernel) (by decide +kernel)
  · rw [h2]
    exact elem_of (mont 73 [1, 2, 3, 4]) (by decide +kernel)
  · rw [h1']
    exact pair_of ((field 37).toMont 1) ((field 37).toMont 2) (mont 37 [3, 4, 5]) (mont 37 [6, 7, 8]) (by decide +kernel)
      (by decide +kernel) (by decide +kernel) (by decide +kernel)
  · rw [h2']
    exact elem_of (mont 37 [1, 2, 3, 4, 5, 6]) (by decide +kernel)

/-! ### Whole calls -/

/-- Calls the decoder rejects, with the codes of 95_test_vectors.md V32 to V36; the last cases of `badTwisted` and those of
`badMnt` after the first are chosen by hand from 44_decoder.md R344, R346, R350 and R353. -/
def badG1 : List (Call × Err) :=
  [(.g1add [] { a := [0], b := [0], ord := [] } { x := [0], y := [0] } { x := [0], y := [0] }, .zeroLen),
   (.g1add [0x00, 0x67] curve103 pointP pointQ, .noncanon), (.g1add (List.replicate 129 1) curve103 pointP pointQ, .lenBound),
   (.g1add [0x68] curve103 pointP pointQ, .modEven), (.g1add [0x03] curve103 pointP pointQ, .modSmall),
   (.g1add [0x67] { curve103 with a := [103] } pointP pointQ, .feRange),
   (.g1add [0x67] { curve103 with ord := [] } pointP pointQ, .zeroLen),
   (.g1add [0x67] { curve103 with ord := List.replicate 129 1 } pointP pointQ, .lenBound),
   (.g1add [0x67] { curve103 with ord := [0] } pointP pointQ, .orderZero),
   (.g1add [0x67] curve103 { x := [103], y := [42] } pointQ, .feRange),
   (.g1add [0x67] curve103 { x := [2], y := [43] } pointQ, .notOnCurve),
   (.g1add [0x67] curve103 pointP { x := [0], y := [1] }, .notOnCurve),
   (.g1mul [0x67] curve103 pointP 97, .scalarRange), (.g1mexp [0x67] curve103 [], .zeroLen),
   (.g1mexp [0x67] curve103 [(pointP, 3), (pointQ, 255)], .scalarRange)]

def badG2 : List (Call × Err) :=
  [(.g2add [0x67] { deg := 4, nr := 102 } { a := [0, 0, 0, 0], b := [0, 0, 0, 0], ord := [97] }
      { x := [0, 0, 0, 0], y := [0, 0, 0, 0] } { x := [0, 0, 0, 0], y := [0, 0, 0, 0] }, .extDegree),
   (.g2add [0x67] { deg := 2, nr := 2 } curveTwist pointS point2S, .nonres),
   (.g2add [0x67] { deg := 2, nr := 0 } curveTwist pointS point2S, .nonres),
   (.g2mul [0x67] { deg := 3, nr := 8 } { a := [0, 0, 0], b := [1, 0, 0], ord := [97] } { x := [0, 0, 0], y := [0, 0, 0] } 1, .nonres),
   (.g2mul [0x67] ext102 curveTwist { x := [43, 94], y := [52, 40] } 3, .notOnCurve),
   (.g2mul [0x67] ext102 curveTwist pointS 97, .scalarRange), (.g2mexp [0x67] ext102 curveTwist [], .zeroLen)]

/-- The toy BN call with other fields. -/
def bnFields : TwistedFields :=
  { ext := ext102, xi := [2, 1], twist := 2, loop := [1], neg := 0
    pairs := [{ chk1 := 1, p := pointQ, chk2 := 1, q := pointS }] }
def bnWith (t : TwistedFields) : Call := .bn [0x67] curve103 t
def bnPair (pr : PairFields) : Call := bnWith { bnFields with pairs := [pr] }

def badTwisted : List (Call × Err) :=
  [(.bls12 [0x67] curve103 { bnFields with ext := { deg := 3, nr := 102 } }, .extDegree),
   (bnWith { bnFields with xi := [1, 0] }, .nonres), (bnWith { bnFields with xi := [0, 0] }, .nonres),
   (bnWith { bnFields with twist := 3 }, .twist), (bnWith { bnFields with twist := 0 }, .twist),
   (bnWith { bnFields with neg := 2 }, .flag),
   (.bls12 [0x0b] { a := [0], b := [1], ord := [13] }
      { bnFields with ext := { deg := 2, nr := 10 }, xi := [1, 1], twist := 1
                      pairs := [{ chk1 := 0, p := { x := [0], y := [0] }, chk2 := 0, q := { x := [0, 0], y := [0, 0] } }] }, .frob),
   (bnWith { bnFields with loop := [] }, .zeroLen), (bnWith { bnFields with loop := [0] }, .noncanon),
   (bnWith { bnFields with pairs := [] }, .zeroLen), (bnWith { bnFields with loop := 1 :: List.replicate 254 0 }, .loopBits),
   (bnWith { bnFields with loop := 1 :: List.replicate 16 255 }, .loopWeight),
   (bnWith { bnFields with loop := 3 :: List.replicate 16 255, neg := 1 }, .loopWeight),
   (bnPair { chk1 := 2, p := pointQ, chk2 := 1, q := pointS }, .flag), (bnPair { chk1 := 1, p := pointQ, chk2 := 2, q := pointS }, .flag),
   (bnPair { chk1 := 1, p := { x := [3], y := [50] }, chk2 := 1, q := pointS }, .notOnCurve),
   (bnPair { chk1 := 1, p := pointQ, chk2 := 1, q := { x := [43, 94], y := [52, 40] } }, .notOnCurve),
   (bnPair { chk1 := 1, p := pointQ, chk2 := 1, q := { x := [103, 94], y := [52, 39] } }, .feRange),
   (bnPair { chk1 := 1, p := pointQ, chk2 := 1, q := { x := [79, 32], y := [26, 43] } }, .subgroup),
   (.bls12 [0x02, 0xd7] { a := [0], b := [7], ord := [241] }
      { ext := { deg := 2, nr := 726 }, xi := [2, 1], twist := 2, loop := [4], neg := 0
        pairs := [{ chk1 := 1, p := { x := [1], y := [673] }, chk2 := 1, q := { x := [643, 615], y := [558, 117] } }] }, .subgroup),
   (.bls12 [35] { a := [0], b := [0], ord := [13] } { bnFields with ext := { deg := 2, nr := 2 }, xi := [5, 0] }, .twist)]

/-- The toy MNT4 and MNT6 calls with other fields. -/
def mntFields4 : MntFields :=
  { ext := { deg := 2, nr := 5 }, loop := [8], neg := 0, w0 := [45], w1 := [5], w0Neg := 0
    pairs := [{ chk1 := 1, p := { x := [41], y := [35] }, chk2 := 1, q := { x := [62, 45], y := [64, 8] } }] }
def mnt4With (t : MntFields) : Call := .mnt4 [0x49] { a := [64], b := [52], ord := [13] } t

def badMnt : List (Call × Err) :=
  [(.mnt4 [0x67] curve103 { mntFields4 with ext := ext102 }, .nonres),
   (.mnt6 [0x25] { a := [20], b := [28], ord := [43] } { mntFields4 with ext := { deg := 2, nr := 2 }, pairs := [] }, .extDegree),
   (mnt4With { mntFields4 with loop := [] }, .zeroLen), (mnt4With { mntFields4 with neg := 2 }, .flag),
   (mnt4With { mntFields4 with w0 := [0, 45] }, .noncanon), (mnt4With { mntFields4 with w1 := [] }, .zeroLen),
   (mnt4With { mntFields4 with w1 := List.replicate 255 1 }, .loopBits), (mnt4With { mntFields4 with w0Neg := 255 }, .flag),
   (mnt4With { mntFields4 with pairs := [] }, .zeroLen),
   (mnt4With { mntFields4 with pairs := [{ chk1 := 1, p := { x := [41], y := [36] }, chk2 := 1, q := { x := [62, 45], y := [64, 8] } }] },
      .notOnCurve)]

/-- A list of calls the format can write, each with its error. -/
def rejected (l : List (Call × Err)) : Bool := l.all (fun ce => ce.1.encodable && firstError (callChecks ce.1) == some ce.2)
/-- Calls the format can write that pass every check. -/
def accepted (l : List Call) : Bool := l.all (fun c => c.encodable && callPasses c)

theorem witness_G1CallsGiveTheirResult :
    accepted [callG1Add, callG1Mul, callG1Mexp] = true ∧ rejected badG1 = true ∧ callG1Add.instr = .g1add ∧
      callG1Mul.instr = .g1mul ∧ callG1Mexp.instr = .g1mexp ∧ (tapeState callG1Mexp).inp = Memory.ofBytes (encodeCall callG1Mexp) :=
  ⟨by decide +kernel, by decide +kernel, rfl, rfl, rfl, rfl⟩

theorem witness_G2CallsGiveTheirResult :
    accepted [callG2Add, callG2Mul, callG2Mexp, callG2Cubic] = true ∧ rejected badG2 = true ∧
      callG2Add.instr = .g2add ∧ callG2Mul.instr = .g2mul ∧ callG2Mexp.instr = .g2mexp ∧
      (tapeState callG2Cubic).inp = Memory.ofBytes (encodeCall callG2Cubic) :=
  ⟨by decide +kernel, by decide +kernel, rfl, rfl, rfl, rfl⟩

theorem witness_TwistedCallsGiveTheirResult :
    accepted [callBls12, callBn] = true ∧ rejected badTwisted = true ∧ callBls12.instr = .bls12 ∧ callBn.instr = .bn ∧
      (tapeState callBn).inp = Memory.ofBytes (encodeCall callBn) :=
  ⟨by decide +kernel, by decide +kernel, rfl, rfl, rfl⟩

theorem witness_MntCallsGiveTheirResult :
    accepted [callMnt4, callMnt6] = true ∧ rejected badMnt = true ∧ callMnt4.instr = .mnt4 ∧ callMnt6.instr = .mnt6 ∧
      (tapeState callMnt6).inp = Memory.ofBytes (encodeCall callMnt6) :=
  ⟨by decide +kernel, by decide +kernel, rfl, rfl, rfl⟩

/-- The results the statements name are the spec's (45_dispatcher.md R381 to R390). -/
theorem test_call_results :
    callResult false callG1Mexp = bytes [0x34, 0x0b] ∧ callResult false callG2Add = bytes [0x44, 0x0a, 0x5a, 0x47] ∧
    callResult false callG2Cubic = bytes [0x06, 0x13, 0x03, 0x0d, 0x08, 0x08] ∧ callResult false callBls12 = [1] ∧
    callResult false callBn = [0] ∧ callResult false callMnt4 = [1] ∧ callResult false callMnt6 = [1] := by decide +kernel

theorem witness_BufferMustBeExactlyTheCall :
    accepted [callG1Add, callBn] = true ∧ [(0 : Byte)] ≠ [] ∧ 0 < (encodeCall callBn).length ∧ 23 < (encodeCall callBn).length := by
  decide +kernel

/-- How a call on a buffer ends. -/
def endsWith (ns : List Nat) : Option Res := next (step { State.reset with inp := Memory.ofBytes (bytes ns) }) (fun t => t.res)

/-- Every error of 95_test_vectors.md V32 to V36 that a short tape shows. -/
def badTapes : List (List Nat × Err) :=
  [([0x01, 0x01], .short), ([0x01, 0x00], .zeroLen), ([0x01, 0x02, 0x00, 0x67], .noncanon), ([0x01, 0x81], .lenBound),
   ([0x07, 0x01, 0x04], .modEven), ([0x01, 0x01, 0x03], .modSmall), ([0x01, 0x02, 0x01, 0x01], .short),
   ([0x01, 0x01, 0x67, 0x67], .feRange), ([0x01, 0x01, 0x67, 0x00, 0x05, 0x02, 0x00, 0x00], .orderZero),
   ([0x04, 0x01, 0x67, 0x04], .extDegree), ([0x04, 0x01, 0x67, 0x03, 0x08], .nonres),
   ([0x09, 0x01, 0x67, 0x00, 0x05, 0x01, 0x61, 0x02, 0x66], .nonres),
   ([0x08, 0x01, 0x67, 0x00, 0x05, 0x01, 0x61, 0x02, 0x66, 0x02, 0x01, 0x03], .twist),
   ([0x08, 0x01, 0x67, 0x00, 0x05, 0x01, 0x61, 0x02, 0x66, 0x02, 0x01, 0x02, 0x01, 0x01, 0x02], .flag),
   ([0x08, 0x01, 0x0b, 0x00, 0x01, 0x01, 0x0d, 0x02, 0x0a, 0x01, 0x01, 0x01], .frob)]

theorem test_bad_tapes : badTapes.all (fun te => endsWith te.1 == some (.error te.2)) = true := by decide +kernel

/-- The end state of 95_test_vectors.md P3, inside the call's step: the bytes, `CUR.OFF`, `RES.is_one`. -/
def endState (r : EStateM.Result Stop State (List Byte)) : Option (List Byte × Nat × Option Bool) :=
  match r with
  | .ok bs t => some (bs, t.cur.off, t.flags.isOne)
  | .error _ _ => none

theorem test_bn_end_state :
    endState (callTwisted true ({ State.reset with inp := Memory.ofBytes (bytes [0x08, 0x01, 0x67, 0x00, 0x05, 0x01, 0x61, 0x02, 0x66, 0x02, 0x01, 0x02, 0x01, 0x01, 0x00, 0x02, 0x01, 0x03, 0x31, 0x01, 0x2b, 0x5e, 0x34, 0x27, 0x01, 0x03, 0x36, 0x01, 0x2b, 0x5e, 0x34, 0x27]) } : State).beginCall) =
      some ([1], 32, some true) := by decide +kernel

/-- The end state of 95_test_vectors.md P1: `RES.kind = ok`, `CUR.OFF = 11`; nothing else of the call outlives it
(60_exceptions.md R446). -/
theorem test_end_of_a_call :
    next (step (tapeState callG1Add)) (fun t => (t.res, t.pf.isNone && t.cg1.isNone, t.cur, t.flags.ptOnCurve)) =
      some (.ok, true, { Cursor.initial with off := 11 }, none) := by decide +kernel

/-- An error leaves no cursor (60_exceptions.md R420). -/
theorem test_end_of_a_failed_call :
    next (step { State.reset with inp := Memory.ofBytes (bytes [0x01, 0x01, 0x03]) }) (fun t => (t.res, t.cur)) =
      some (.error .modSmall, Cursor.initial) := by decide +kernel

end Sys2Proof.Tests
end

/-! PROOF. `be` and `int` are inverse, most significant byte first (00_scope.md R14; O5). `be` after `int` follows from
`int` after `be` and from `int` telling byte strings of one length apart. -/

namespace Sys2Proof

/-- The leading byte is the quotient of the value by the weight of its place. -/
theorem bytesToNat_cons_div (b : Byte) (bs : List Byte) : bytesToNat (b :: bs) / 256 ^ bs.length = b.toNat := by
  rw [bytesToNat_cons, Nat.mul_comm, Nat.mul_add_div (Nat.pow_pos (by decide)), Nat.div_eq_of_lt (bytesToNat_lt bs),
    Nat.add_zero]

/-- A byte string of a given length is determined by its value: equal values have equal leading bytes, and then equal
rests. -/
theorem bytesToNat_inj_of_length_eq :
    ∀ {xs ys : List Byte}, xs.length = ys.length → bytesToNat xs = bytesToNat ys → xs = ys
  | [], [], _, _ => rfl
  | x :: xs, y :: ys, hlen, hval => by
    have hlen' : xs.length = ys.length := Nat.succ.inj hlen
    have hhead : x = y := BitVec.eq_of_toNat_eq (by
      rw [← bytesToNat_cons_div x xs, ← bytesToNat_cons_div y ys, hval, hlen'])
    subst hhead
    have hrest : bytesToNat xs = bytesToNat ys := by
      rw [bytesToNat_cons, bytesToNat_cons, hlen'] at hval
      exact Nat.add_left_cancel hval
    rw [bytesToNat_inj_of_length_eq hlen' hrest]

/-- `be(int(bs), len(bs)) = bs` (00_scope.md R14). -/
theorem natToBytes_bytesToNat (bs : List Byte) : natToBytes (bytesToNat bs) bs.length = bs :=
  bytesToNat_inj_of_length_eq (natToBytes_length _ _) (bytesToNat_natToBytes_of_lt (bytesToNat_lt bs))

/-- Byte `i` of `be(v, n)` has weight `256 ^ (n - 1 - i)`: the first byte is the most significant (00_scope.md R14). -/
theorem natToBytes_getD_toNat (v : Nat) :
    ∀ {n i : Nat}, i < n → ((natToBytes v n).getD i 0).toNat = v / 256 ^ (n - 1 - i) % 256
  | n + 1, 0, _ => by simp [natToBytes]
  | n + 1, i + 1, hi => by
    rw [natToBytes, List.getD_cons_succ, natToBytes_getD_toNat v (Nat.lt_of_succ_lt_succ hi),
      show n + 1 - 1 - (i + 1) = n - 1 - i by omega]

/-- Settles O5: each clause is one law of `natToBytes` and `bytesToNat`. -/
theorem bigEndianCodec : Obligations.BigEndianCodec :=
  ⟨natToBytes_length,
    fun _ _ hv => bytesToNat_natToBytes_of_lt hv,
    natToBytes_bytesToNat,
    fun v _ _ hi => natToBytes_getD_toNat v hi,
    bytesToNat_nil⟩

end Sys2Proof

/-! PROOF. The state at the start of a call and at power-on (10_state.md R45; O8, O14), and the frame of a write of a group of
slots (10_state.md R22, R24; O18). -/

namespace Sys2Proof.Machine

/-- Settles O8: each clause reads one item of R45 off the reset of a call. -/
theorem callStartState : Obligations.CallStartState := by
  refine ⟨fun s => ⟨State.resetCall_inp s, State.resetCall_cfg s, State.resetCall_cur s, State.resetCall_pf s, fun l => ?_,
    fun g => ?_, State.resetCall_pe s, fun i => ?_, State.resetCall_flags s, State.resetCall_out s, State.resetCall_res s⟩,
    rfl, rfl, rfl⟩
  · rw [State.resetCall_ex, ExFile.unset_get]
  · cases g
    · exact State.resetCall_cg1 s
    · exact State.resetCall_cg2 s
  · rw [State.resetCall_slots]; rfl

/-- Settles O14: at reset the tapes and the slot file are empty, no field exists, and the result is unset. -/
theorem resetMeetsInvariants : Obligations.ResetMeetsInvariants :=
  ⟨⟨Memory.wf_empty, Memory.wf_empty, rfl⟩, rfl, fun _ => rfl, Nat.le_refl 0⟩

/-- Settles O18: the group reads back (`regGetGroup_setGroup`), every other slot is as before (`regGet_setGroup_other`), and
`State.store` writes no other field. -/
theorem slotWriteThenRead : Obligations.SlotWriteThenRead :=
  fun s a vs => ⟨regGetGroup_setGroup vs a s.slots, fun j hj => regGet_setGroup_other vs a j s.slots hj, rfl⟩

end Sys2Proof.Machine

/-! PROOF. Which words the field units can give: every operation of a level gives coordinates in any set of words that the
prime field's operations stay in, whatever its operands are (10_state.md R21). -/

namespace Sys2Proof.Machine

/-- What a legal field block is: a constructor's block, over an odd modulus above 3 that fills its bytes (10_state.md R31,
40_prime_field.md R130). -/
theorem PrimeField.legal_iff (f : PrimeField) :
    f.legal = true ↔ f = PrimeField.ofModulus f.p f.lp ∧ f.p % 2 = 1 ∧ 3 < f.p ∧ 1 ≤ f.lp ∧ f.lp ≤ Config.maxModulusLen ∧
      256 ^ (f.lp - 1) ≤ f.p ∧ f.p < 256 ^ f.lp := by
  simp only [PrimeField.legal, Bool.and_eq_true, beq_iff_eq, decide_eq_true_eq, and_assoc]

/-! ## `PF.INVERT` gives a value below an odd modulus -/

/-- What each pass of the inverse engine keeps (40_prime_field.md R147): `a·r ≡ -u·2^k` and `a·s ≡ v·2^k` modulo `p`. -/
theorem invPhase1_dvd {p a : Int} : ∀ n u v r s k : Nat, p ∣ a * r + u * 2 ^ k → p ∣ a * s - v * 2 ^ k →
    p ∣ a * (invPhase1 n u v r s k).2.2.1 + (invPhase1 n u v r s k).1 * 2 ^ (invPhase1 n u v r s k).2.2.2
  | 0, _, _, _, _, _, hr, _ => hr
  | n + 1, u, v, r, s, k, hr, hs => by
    rw [invPhase1]
    split
    · exact hr
    split
    · next hu =>
      obtain ⟨w, rfl⟩ : ∃ w, u = 2 * w := ⟨u / 2, by omega⟩
      refine invPhase1_dvd n _ v r _ _ ?_ ?_
      · rw [Nat.mul_div_cancel_left w two_pos]; convert hr using 1; push_cast; ring
      · convert Int.dvd_mul_of_dvd_right hs (b := 2) using 1; push_cast; ring
    split
    · next hv =>
      obtain ⟨w, rfl⟩ : ∃ w, v = 2 * w := ⟨v / 2, by omega⟩
      refine invPhase1_dvd n u _ _ s _ ?_ ?_
      · convert Int.dvd_mul_of_dvd_right hr (b := 2) using 1; push_cast; ring
      · rw [Nat.mul_div_cancel_left w two_pos]; convert hs using 1; push_cast; ring
    split
    · next hu hv huv =>
      obtain ⟨w, rfl⟩ : ∃ w, u = v + 2 * w := ⟨(u - v) / 2, by omega⟩
      rw [Nat.add_sub_cancel_left, Nat.mul_div_cancel_left w two_pos]
      refine invPhase1_dvd n w v _ _ _ ?_ ?_
      · convert Int.dvd_add hr hs using 1; push_cast; ring
      · convert Int.dvd_mul_of_dvd_right hs (b := 2) using 1; push_cast; ring
    · next hu hv huv =>
      obtain ⟨w, rfl⟩ : ∃ w, v = u + 2 * w := ⟨(v - u) / 2, by omega⟩
      rw [Nat.add_sub_cancel_left, Nat.mul_div_cancel_left w two_pos]
      refine invPhase1_dvd n u w _ _ _ ?_ ?_
      · convert Int.dvd_mul_of_dvd_right hr (b := 2) using 1; push_cast; ring
      · convert Int.dvd_add hr hs using 1; push_cast; ring

/-- A value below the modulus stays below it under doubling. -/
theorem PrimeField.doubleTimes_lt {f : PrimeField} (hp : 0 < f.p) : ∀ n y, y < f.p → f.doubleTimes n y < f.p
  | 0, _, h => h
  | n + 1, _, _ => PrimeField.doubleTimes_lt hp n _ (PrimeField.double_lt hp _)

/-- `PF.INVERT` gives a value below an odd modulus, of every operand: phase 1 never ends with `r` a multiple of `p`, because
`p` would then divide a power of two (40_prime_field.md R147, R148). -/
theorem PrimeField.invert_lt {f : PrimeField} (hodd : f.p % 2 = 1) (hp : 1 < f.p) (a : Nat) : (f.invert a).2 < f.p := by
  have hpos : 0 < f.p := by omega
  unfold PrimeField.invert
  split
  · exact hpos
  have key := invPhase1_dvd (p := f.p) (a := a) (2 * f.width) f.p a 0 1 0 (by simp) (by simp)
  generalize invPhase1 (2 * f.width) f.p a 0 1 0 = out at key ⊢
  obtain ⟨u, v, r, k⟩ := out
  simp only at key ⊢
  split
  · next h =>
    obtain ⟨-, rfl, -, -⟩ := h
    have hr : ¬ f.p ∣ r := by
      intro hr
      have h2 : (f.p : Int) ∣ 2 ^ k := by
        have := (dvd_add_right (Dvd.dvd.mul_left (Int.natCast_dvd_natCast.2 hr) (a : Int))).1 key
        simpa using this
      have h2' : f.p ∣ 2 ^ k := by exact_mod_cast h2
      have hco : Nat.Coprime f.p (2 ^ k) := Nat.Coprime.pow_right k ((Nat.coprime_two_right).2 (Nat.odd_iff.2 hodd))
      have := Nat.Coprime.eq_one_of_dvd hco h2'
      omega
    have hr0 : r ≠ 0 := fun h => hr (h ▸ dvd_zero _)
    have hrp : r ≠ f.p := fun h => hr (h ▸ dvd_rfl)
    exact PrimeField.doubleTimes_lt hpos _ _ (by split <;> omega)
  · exact hpos

/-! ## Sets of words closed under the operations of a level -/

/-- Every base-field coordinate of an element lies in `L`. -/
def Fld.In {α : Type} (F : Fld α) (L : Nat → Prop) (x : α) : Prop := ∀ c ∈ F.coords x, L c

/-- Every operation of a level gives coordinates in `L`, whatever its operands, and words of `L` make elements over `L`. -/
structure Fld.Closed {α : Type} (L : Nat → Prop) (F : Fld α) : Prop where
  zero : F.In L F.zero
  one : F.In L F.one
  add : ∀ a b, F.In L (F.add a b)
  sub : ∀ a b, F.In L (F.sub a b)
  neg : ∀ a, F.In L (F.neg a)
  dbl : ∀ a, F.In L (F.dbl a)
  mul : ∀ a b, F.In L (F.mul a b)
  inv : ∀ a, F.In L (F.inv a).2
  scale : ∀ c a, F.In L (F.scale c a)
  ofCoords : ∀ l, (∀ c ∈ l, L c) → F.In L (F.ofCoords l)

section
variable {α : Type} {L : Nat → Prop}

@[simp] theorem fpFld_in (f : PrimeField) (x : Nat) : (fpFld f).In L x ↔ L x := by
  simp [Fld.In, fpFld]

@[simp] theorem quadFld_in (B : Fld α) (nr : α → α) (x : α × α) : (quadFld B nr).In L x ↔ B.In L x.1 ∧ B.In L x.2 := by
  simp only [Fld.In, quadFld, List.forall_mem_append]

@[simp] theorem cubicFld_in (B : Fld α) (nr : α → α) (x : α × α × α) :
    (cubicFld B nr).In L x ↔ B.In L x.1 ∧ B.In L x.2.1 ∧ B.In L x.2.2 := by
  simp only [Fld.In, cubicFld, List.forall_mem_append, and_assoc]

/-- The prime field, on a set that holds every value below its modulus (40_prime_field.md R134 to R148). -/
theorem fpFld_closed {f : PrimeField} (hf : f.legal = true) (hL : ∀ v, v < f.p → L v) : (fpFld f).Closed L := by
  obtain ⟨heq, hodd, h3, -⟩ := f.legal_iff.1 hf
  have hp : 0 < f.p := by omega
  have hone : f.one < f.p := by rw [heq]; exact Nat.mod_lt _ hp
  have hzero : f.zero < f.p := by rw [heq]; exact hp
  constructor
  case zero => exact (fpFld_in _ _).2 (hL _ hzero)
  case one => exact (fpFld_in _ _).2 (hL _ hone)
  case add => exact fun a b => (fpFld_in _ _).2 (hL _ (PrimeField.add_lt hp a b))
  case sub => exact fun a b => (fpFld_in _ _).2 (hL _ (PrimeField.sub_lt hp a b))
  case neg => exact fun a => (fpFld_in _ _).2 (hL _ (PrimeField.negate_lt hp a))
  case dbl => exact fun a => (fpFld_in _ _).2 (hL _ (PrimeField.double_lt hp a))
  case mul => exact fun a b => (fpFld_in _ _).2 (hL _ (PrimeField.mul_lt hp a b))
  case inv => exact fun a => (fpFld_in _ _).2 (hL _ (PrimeField.invert_lt hodd (by omega) a))
  case scale => exact fun c a => (fpFld_in _ _).2 (hL _ (PrimeField.mul_lt hp a c))
  case ofCoords =>
    rintro (_ | ⟨c, l⟩) hl
    · exact (fpFld_in _ _).2 (hL _ hp)
    · exact (fpFld_in _ _).2 (hl c (by simp))

/-- A level of degree 2 (41_extension_tower.md R173 to R175). -/
theorem quadFld_closed {B : Fld α} (h : B.Closed L) (nr : α → α) : (quadFld B nr).Closed L := by
  constructor
  case zero => exact (quadFld_in _ _ _).2 ⟨h.zero, h.zero⟩
  case one => exact (quadFld_in _ _ _).2 ⟨h.one, h.zero⟩
  case add => exact fun _ _ => (quadFld_in _ _ _).2 ⟨h.add _ _, h.add _ _⟩
  case sub => exact fun _ _ => (quadFld_in _ _ _).2 ⟨h.sub _ _, h.sub _ _⟩
  case neg => exact fun _ => (quadFld_in _ _ _).2 ⟨h.neg _, h.neg _⟩
  case dbl => exact fun _ => (quadFld_in _ _ _).2 ⟨h.dbl _, h.dbl _⟩
  case mul => exact fun _ _ => (quadFld_in _ _ _).2 ⟨h.add _ _, h.sub _ _⟩
  case inv =>
    intro a
    rw [quadFld_in]
    dsimp only [quadFld]
    split
    · exact ⟨h.zero, h.zero⟩
    · exact ⟨h.mul _ _, h.neg _⟩
  case scale => exact fun _ _ => (quadFld_in _ _ _).2 ⟨h.scale _ _, h.scale _ _⟩
  case ofCoords =>
    exact fun l hl => (quadFld_in _ _ _).2
      ⟨h.ofCoords _ fun c hc => hl c (List.mem_of_mem_take hc), h.ofCoords _ fun c hc => hl c (List.mem_of_mem_drop hc)⟩

/-- A level of degree 3 (41_extension_tower.md R173 to R175). -/
theorem cubicFld_closed {B : Fld α} (h : B.Closed L) (nr : α → α) : (cubicFld B nr).Closed L := by
  constructor
  case zero => exact (cubicFld_in _ _ _).2 ⟨h.zero, h.zero, h.zero⟩
  case one => exact (cubicFld_in _ _ _).2 ⟨h.one, h.zero, h.zero⟩
  case add => exact fun _ _ => (cubicFld_in _ _ _).2 ⟨h.add _ _, h.add _ _, h.add _ _⟩
  case sub => exact fun _ _ => (cubicFld_in _ _ _).2 ⟨h.sub _ _, h.sub _ _, h.sub _ _⟩
  case neg => exact fun _ => (cubicFld_in _ _ _).2 ⟨h.neg _, h.neg _, h.neg _⟩
  case dbl => exact fun _ => (cubicFld_in _ _ _).2 ⟨h.dbl _, h.dbl _, h.dbl _⟩
  case mul => exact fun _ _ => (cubicFld_in _ _ _).2 ⟨h.add _ _, h.add _ _, h.add _ _⟩
  case inv =>
    intro a
    rw [cubicFld_in]
    dsimp only [cubicFld]
    split
    · exact ⟨h.zero, h.zero, h.zero⟩
    · exact ⟨h.mul _ _, h.mul _ _, h.mul _ _⟩
  case scale => exact fun _ _ => (cubicFld_in _ _ _).2 ⟨h.scale _ _, h.scale _ _, h.scale _ _⟩
  case ofCoords =>
    exact fun l hl => (cubicFld_in _ _ _).2
      ⟨h.ofCoords _ fun c hc => hl c (List.mem_of_mem_take hc),
        h.ofCoords _ fun c hc => hl c (List.mem_of_mem_drop (List.mem_of_mem_take hc)),
        h.ofCoords _ fun c hc => hl c (List.mem_of_mem_drop hc)⟩

theorem powBits_in {F : Fld α} (h : F.Closed L) (a : α) (e : Nat) : ∀ n acc, F.In L acc → F.In L (powBits F.mul a e n acc)
  | 0, _, hacc => hacc
  | n + 1, acc, _ => powBits_in h a e n _ (by split <;> exact h.mul _ _)

theorem Fld.Closed.sq {F : Fld α} (h : F.Closed L) (a : α) : F.In L (F.sq a) := h.mul _ _

/-- `EXP` of every element to every power. -/
theorem Fld.Closed.exp {F : Fld α} (h : F.Closed L) (a : α) (e : Nat) : F.In L (F.exp a e) := powBits_in h a e _ _ h.one

/-! ## Curves -/

/-- A point whose coordinates lie over `L`. -/
structure Fld.PtIn (F : Fld α) (L : Nat → Prop) (p : Pt α) : Prop where
  x : F.In L p.x
  y : F.In L p.y
  z : F.In L p.z

variable {F : Fld α} (h : F.Closed L) (a : α)
include h

theorem ptIdentity_in : F.PtIn L (ptIdentity F) := ⟨h.zero, h.one, h.zero⟩

theorem ptDouble_in (p : Pt α) : F.PtIn L (ptDouble F a p) := by
  unfold ptDouble
  split
  · exact ptIdentity_in h
  · exact ⟨h.sub _ _, h.sub _ _, h.mul _ _⟩

theorem ptAdd_in {p q : Pt α} (hp : F.PtIn L p) (hq : F.PtIn L q) : F.PtIn L (ptAdd F a p q) := by
  unfold ptAdd
  split
  · exact hq
  split
  · exact hp
  dsimp only
  split
  · split
    · exact ptDouble_in h a p
    · exact ptIdentity_in h
  · exact ⟨h.sub _ _, h.sub _ _, h.mul _ _⟩

theorem ptNegate_in {p : Pt α} (hp : F.PtIn L p) : F.PtIn L (ptNegate F p) := ⟨hp.x, h.neg _, hp.z⟩

theorem scalarMulFrom_in (e : Nat) : ∀ n i acc t, F.PtIn L acc → F.PtIn L t → F.PtIn L (scalarMulFrom F a e n i acc t)
  | 0, _, _, _, hacc, _ => hacc
  | n + 1, i, acc, t, hacc, ht => by
    refine scalarMulFrom_in e n (i + 1) _ _ ?_ (ptDouble_in h a t)
    split
    · exact ptAdd_in h a hacc ht
    · exact hacc

theorem ptScalarMul_in {p : Pt α} (hp : F.PtIn L p) (e : Nat) : F.PtIn L (ptScalarMul F a p e) :=
  scalarMulFrom_in h a e _ _ _ _ (ptIdentity_in h) hp

theorem wnafMulLoop_in {t0 t1 : Pt α} (h0 : F.PtIn L t0) (h1 : F.PtIn L t1) :
    ∀ zs acc, F.PtIn L acc → F.PtIn L (wnafMulLoop F a t0 t1 zs acc)
  | [], _, hacc => hacc
  | z :: zs, acc, _ => by
    have hd := ptDouble_in h a acc
    have he : F.PtIn L (if z.natAbs / 2 = 0 then t0 else t1) := by split <;> assumption
    refine wnafMulLoop_in h0 h1 zs _ ?_
    split
    · exact ptAdd_in h a hd he
    split
    · exact ptAdd_in h a hd (ptNegate_in h he)
    · exact hd

theorem ptWnafMul_in {p : Pt α} (hp : F.PtIn L p) (e : Nat) : F.PtIn L (ptWnafMul F a p e) :=
  wnafMulLoop_in h a hp (ptAdd_in h a hp (ptDouble_in h a p)) _ _ (ptIdentity_in h)

theorem bucketSum_in (c w d : Nat) : ∀ list acc, (∀ pe ∈ list, F.PtIn L pe.1) → F.PtIn L acc →
    F.PtIn L (bucketSum F a c w d list acc)
  | [], _, _, hacc => hacc
  | (p, e) :: rest, acc, hl, hacc => by
    refine bucketSum_in c w d rest _ (fun pe hpe => hl pe (List.mem_cons_of_mem _ hpe)) ?_
    split
    · exact ptAdd_in h a hacc (hl (p, e) List.mem_cons_self)
    · exact hacc

theorem bucketSweep_in (c w : Nat) {list : List (Pt α × Nat)} (hl : ∀ pe ∈ list, F.PtIn L pe.1) :
    ∀ d running total, F.PtIn L running → F.PtIn L total → F.PtIn L (bucketSweep F a c w list d running total)
  | 0, _, _, _, ht => ht
  | d + 1, _, _, hr, ht =>
    have hr' := ptAdd_in h a hr (bucketSum_in h a c w (d + 1) list _ hl (ptIdentity_in h))
    bucketSweep_in c w hl d _ _ hr' (ptAdd_in h a ht hr')

theorem ptDoubleTimes_in : ∀ n p, F.PtIn L p → F.PtIn L (ptDoubleTimes F a n p)
  | 0, _, hp => hp
  | n + 1, p, _ => ptDoubleTimes_in n _ (ptDouble_in h a p)

theorem combineWindows_in (c : Nat) {list : List (Pt α × Nat)} (hl : ∀ pe ∈ list, F.PtIn L pe.1) :
    ∀ n acc, F.PtIn L acc → F.PtIn L (combineWindows F a c list n acc)
  | 0, _, hacc => hacc
  | w + 1, acc, hacc => combineWindows_in c hl w _
    (ptAdd_in h a (ptDoubleTimes_in h a c acc hacc)
      (bucketSweep_in h a c w hl _ _ _ (ptIdentity_in h) (ptIdentity_in h)))

theorem ptMultiExp_in (q : Nat) {list : List (Pt α × Nat)} (hl : ∀ pe ∈ list, F.PtIn L pe.1) :
    F.PtIn L (ptMultiExp F a q list) :=
  combineWindows_in h a _ hl _ _ (ptIdentity_in h)

theorem ptToAffine_in (p : Pt α) : F.In L (ptToAffine F p).1 ∧ F.In L (ptToAffine F p).2 := by
  unfold ptToAffine
  split
  · exact ⟨h.zero, h.zero⟩
  · exact ⟨h.mul _ _, h.mul _ _⟩

end
end Sys2Proof.Machine

/-! PROOF. The same for the tower and the pairing engines: the maps, steps, loops and exponentiations give coordinates in any
set of words that the prime field's operations stay in (10_state.md R21). -/

namespace Sys2Proof.Machine

/-! ## The levels and their Frobenius maps -/

/-- A level whose operations stay in `L` and whose Frobenius map keeps elements over `L`. -/
structure Tow.Closed {α : Type} (L : Nat → Prop) (t : Tow α) : Prop where
  fld : t.fld.Closed L
  frob : ∀ a n, t.fld.In L a → t.fld.In L (t.frob a n)

section
variable {α : Type} {L : Nat → Prop}

/-- With its tables a level's map is the real one, and without them each coordinate is reduced (70_reset_and_hazards.md
R472, log 5). -/
theorem mkTow_closed {F : Fld α} {p ctr : Nat} {l : Level} {valid : Bool} {real : α → Nat → α} (hF : F.Closed L)
    (hmod : ∀ n, L (n % p)) (hreal : ∀ a n, F.In L a → F.In L (real a n)) : (mkTow F p ctr l valid real).Closed L := by
  refine ⟨hF, fun a n ha => ?_⟩
  show F.In L (if valid then real a n else freeElement F p ctr l a n)
  split
  · exact hreal a n ha
  · refine hF.ofCoords _ fun c hc => ?_
    obtain ⟨i, -, rfl⟩ := List.mem_map.1 hc
    exact hmod _

/-- `CONJUGATE` keeps elements over `L` (41_extension_tower.md R180). -/
theorem conjugate_in {B : Fld α} {F : Fld (α × α)} (h : B.Closed L) (hF : ∀ x, F.coords x = B.coords x.1 ++ B.coords x.2)
    {a : α × α} (ha : F.In L a) : F.In L (conjugate B a) := by
  simp only [Fld.In, hF, List.forall_mem_append] at ha ⊢
  exact ⟨ha.1, h.neg _⟩

theorem frobQuadFp_in {B : Fld α} (h : B.Closed L) (nr : α → α) {phi : α → Nat → α}
    (hphi : ∀ a n, B.In L a → B.In L (phi a n)) (k : Nat) (e : ExtField) (a : α × α) (n : Nat)
    (ha : (quadFld B nr).In L a) : (quadFld B nr).In L (frobQuadFp B phi k e a n) :=
  (quadFld_in _ _ _).2 ⟨hphi _ n ((quadFld_in _ _ _).1 ha).1, h.scale _ _⟩

section
variable {f : PrimeField} (h : (fpFld f).Closed L)
include h

/-- A set that the prime field's operations stay in holds every reduced value. -/
theorem fpFld_closed_mod (n : Nat) : L (n % f.p) := (fpFld_in f _).1 (h.add n 0)

theorem towFq2_closed (ctr : Nat) (e2 : ExtField) : (towFq2 f ctr e2).Closed L :=
  mkTow_closed (quadFld_closed h _) (fpFld_closed_mod h) fun _ _ ha =>
    (quadFld_in _ _ _).2 ⟨((quadFld_in _ _ _).1 ha).1, h.mul _ _⟩

theorem towFq3_closed (ctr : Nat) (e3 : ExtField) : (towFq3 f ctr e3).Closed L :=
  mkTow_closed (cubicFld_closed h _) (fpFld_closed_mod h) fun _ _ ha =>
    (cubicFld_in _ _ _).2 ⟨((cubicFld_in _ _ _).1 ha).1, h.mul _ _, h.mul _ _⟩

theorem towFq4_closed (ctr : Nat) (e2 e4 : ExtField) : (towFq4 f ctr e2 e4).Closed L :=
  have h2 := towFq2_closed h ctr e2
  mkTow_closed (quadFld_closed h2.fld _) (fpFld_closed_mod h) (frobQuadFp_in h2.fld _ h2.frob 4 e4)

theorem towFq6c_closed (ctr : Nat) (e2 e6 : ExtField) : (towFq6c f ctr e2 e6).Closed L :=
  have h2 := towFq2_closed h ctr e2
  mkTow_closed (cubicFld_closed h2.fld _) (fpFld_closed_mod h) fun _ n ha =>
    (cubicFld_in _ _ _).2 ⟨h2.frob _ n ((cubicFld_in _ _ _).1 ha).1, h2.fld.mul _ _, h2.fld.mul _ _⟩

theorem towFq6q_closed (ctr : Nat) (e3 e6 : ExtField) : (towFq6q f ctr e3 e6).Closed L :=
  have h3 := towFq3_closed h ctr e3
  mkTow_closed (quadFld_closed h3.fld _) (fpFld_closed_mod h) (frobQuadFp_in h3.fld _ h3.frob 6 e6)

theorem towFq12_closed (ctr : Nat) (e2 e6 e12 : ExtField) : (towFq12 f ctr e2 e6 e12).Closed L :=
  have h2 := (towFq2_closed h ctr e2).fld
  have h6 := towFq6c_closed h ctr e2 e6
  mkTow_closed (quadFld_closed h6.fld _) (fpFld_closed_mod h) fun _ n ha =>
    (quadFld_in _ _ _).2 ⟨h6.frob _ n ((quadFld_in _ _ _).1 ha).1, (cubicFld_in _ _ _).2 ⟨h2.mul _ _, h2.mul _ _, h2.mul _ _⟩⟩

end

/-! ## BN and BLS12 -/

/-- A BN and BLS12 tower whose `Fq2` and `Fq12` stay in `L`, conjugation included. -/
structure BnTower.Closed (L : Nat → Prop) (t : BnTower) : Prop where
  t2 : t.t2.Closed L
  t12 : t.t12.Closed L
  conj : ∀ a, t.t12.fld.In L a → t.t12.fld.In L (conjugate t.t6.fld a)

theorem bnTower_closed {f : PrimeField} (h : (fpFld f).Closed L) (ctr : Nat) (e2 e6 e12 : ExtField)
    (xi : E2) :
    BnTower.Closed L { p := f.p, t2 := towFq2 f ctr e2, t6 := towFq6c f ctr e2 e6, t12 := towFq12 f ctr e2 e6 e12, xi := xi } :=
  ⟨towFq2_closed h ctr e2, towFq12_closed h ctr e2 e6 e12,
    fun _ ha => conjugate_in (towFq6c_closed h ctr e2 e6).fld (fun _ => rfl) ha⟩

/-- A coefficient triple over `L`. -/
structure Line3.In (F : Fld E2) (L : Nat → Prop) (l : Line3) : Prop where
  c0 : F.In L l.c0
  c1 : F.In L l.c1
  c2 : F.In L l.c2

theorem bnDoublingStep_in {F : Fld E2} (h : F.Closed L) (r : Pt E2) :
    F.PtIn L (bnDoublingStep F r).1 ∧ (bnDoublingStep F r).2.In F L :=
  ⟨⟨h.sub _ _, h.sub _ _, h.sub _ _⟩, ⟨h.dbl _, h.neg _, h.sub _ _⟩⟩

theorem bnAdditionStep_in {F : Fld E2} (h : F.Closed L) (r : Pt E2) (qx qy : E2) :
    F.PtIn L (bnAdditionStep F r qx qy).1 ∧ (bnAdditionStep F r qx qy).2.In F L :=
  ⟨⟨h.sub _ _, h.sub _ _, h.sub _ _⟩, ⟨h.dbl _, h.neg _, h.sub _ _⟩⟩

section
variable {t : BnTower} (h : t.Closed L)
include h

theorem bnEll_in (tw : Twist) (f : E12) (co : Line3) (px py : Nat) : t.t12.fld.In L (bnEll t tw f co px py) := by
  cases tw <;> exact h.t12.fld.mul _ _

theorem bnDoubleAll_in (tw : Twist) : ∀ f ms, t.t12.fld.In L f → t.t12.fld.In L (bnDoubleAll t tw f ms).1
  | _, [], hf => hf
  | _, _ :: ms, _ => bnDoubleAll_in tw _ ms (bnEll_in h tw _ _ _ _)

theorem bnAddAll_in (tw : Twist) (sel : E2 × E2 → E2 × E2) :
    ∀ f ms, t.t12.fld.In L f → t.t12.fld.In L (bnAddAll t tw sel f ms).1
  | _, [], hf => hf
  | _, _ :: ms, _ => bnAddAll_in tw sel _ ms (bnEll_in h tw _ _ _ _)

theorem bnLoop_in (tw : Twist) : ∀ ds f ms, t.t12.fld.In L f → t.t12.fld.In L (bnLoop t tw ds f ms).1
  | [], _, _, hf => hf
  | d :: ds, f, ms, _ => by
    have hd := bnDoubleAll_in h tw _ ms (h.t12.fld.sq f)
    refine bnLoop_in tw ds _ _ ?_
    split
    · exact hd
    · exact bnAddAll_in h tw _ _ _ hd

theorem bnEndoAll_in (tw : Twist) : ∀ f ms, t.t12.fld.In L f → t.t12.fld.In L (bnEndoAll t tw f ms)
  | _, [], hf => hf
  | _, _ :: ms, _ => bnEndoAll_in tw _ ms (bnEll_in h tw _ _ _ _)

theorem bnMillerLoop_in (tw : Twist) (isBn : Bool) (ds : List Int) (neg : Bool) (ms : List (MillerPair E2 Unit)) :
    t.t12.fld.In L (bnMillerLoop t tw isBn ds neg ms) := by
  have hloop (start) := bnLoop_in h tw ds.tail t.t12.fld.one start h.t12.fld.one
  have hsigned (start) : t.t12.fld.In L (if neg then conjugate t.t6.fld (bnLoop t tw ds.tail t.t12.fld.one start).1
      else (bnLoop t tw ds.tail t.t12.fld.one start).1) := by
    split
    · exact h.conj _ (hloop start)
    · exact hloop start
  cases isBn with
  | true => exact bnEndoAll_in h tw _ _ (hsigned _)
  | false => exact hsigned _

theorem bnFinalExp_in (isBn : Bool) (x : Nat) (neg : Bool) (f : E12) : t.t12.fld.In L (bnFinalExp t isBn x neg f) := by
  unfold bnFinalExp
  split
  · exact h.t12.fld.zero
  · split
    · exact h.t12.fld.mul _ _
    · exact h.t12.fld.mul _ _

theorem bnMultiPair_in (tw : Twist) (isBn : Bool) (ds : List Int) (neg : Bool) (x : Nat) (xNeg : Bool)
    (ms : List (MillerPair E2 Unit)) : t.t12.fld.In L (bnMultiPair t tw isBn ds neg x xNeg ms) := by
  unfold bnMultiPair
  split
  · exact h.t12.fld.one
  · exact bnFinalExp_in h _ _ _ _

end

/-! ## MNT4 and MNT6 -/

/-- An MNT tower whose two levels stay in `L`. -/
structure MntTower.Closed (L : Nat → Prop) (t : MntTower α) : Prop where
  te : t.te.Closed L
  tt : t.tt.Closed L

/-- A point `(X, Y, Z, T)` over `L`. -/
structure Fld.Pt4In (F : Fld α) (L : Nat → Prop) (p : Pt4 α) : Prop where
  x : F.In L p.x
  y : F.In L p.y
  z : F.In L p.z
  t : F.In L p.t

/-- The coefficients of an MNT doubling step over `L`. -/
structure Line4.In (F : Fld α) (L : Nat → Prop) (l : Line4 α) : Prop where
  cH : F.In L l.cH
  c4C : F.In L l.c4C
  cJ : F.In L l.cJ
  cL : F.In L l.cL

/-- The coefficients of an MNT addition step over `L`. -/
structure Line2.In (F : Fld α) (L : Nat → Prop) (l : Line2 α) : Prop where
  l1 : F.In L l.l1
  rz : F.In L l.rz

theorem mntDoublingStep_in {F : Fld α} (h : F.Closed L) (a' : α) (r : Pt4 α) :
    F.Pt4In L (mntDoublingStep F a' r).1 ∧ (mntDoublingStep F a' r).2.In F L :=
  ⟨⟨h.sub _ _, h.sub _ _, h.sub _ _, h.sq _⟩, ⟨h.sub _ _, h.dbl _, h.sub _ _, h.sub _ _⟩⟩

theorem mntAdditionStep_in {F : Fld α} (h : F.Closed L) (r : Pt4 α) (qx qy : α) :
    F.Pt4In L (mntAdditionStep F r qx qy).1 ∧ (mntAdditionStep F r qx qy).2.In F L :=
  ⟨⟨h.sub _ _, h.sub _ _, h.sub _ _, h.sq _⟩, ⟨h.sub _ _, h.sub _ _⟩⟩

section
variable {t : MntTower α} (h : t.Closed L)
include h

theorem mntDoubleAll_in : ∀ f ms, t.tt.fld.In L f → t.tt.fld.In L (mntDoubleAll t f ms).1
  | _, [], hf => hf
  | _, _ :: ms, _ => mntDoubleAll_in _ ms (h.tt.fld.mul _ _)

theorem mntAddAll_in : ∀ f ms, t.tt.fld.In L f → t.tt.fld.In L (mntAddAll t f ms).1
  | _, [], hf => hf
  | _, _ :: ms, _ => mntAddAll_in _ ms (h.tt.fld.mul _ _)

theorem mntLoop_in (x : Nat) : ∀ n f ms, t.tt.fld.In L f → t.tt.fld.In L (mntLoop t x n f ms)
  | 0, _, _, hf => hf
  | n + 1, f, ms, _ => by
    have hd := mntDoubleAll_in h _ ms (h.tt.fld.sq f)
    refine mntLoop_in x n _ _ ?_
    split
    · exact mntAddAll_in h _ _ hd
    · exact hd

theorem mntMillerLoop_in (x : Nat) (neg : Bool) (ms : List (MillerPair α Unit)) :
    t.tt.fld.In L (mntMillerLoop t x neg ms) :=
  mntLoop_in h x _ _ _ h.tt.fld.one

theorem mntFinalExp_in (w0 w1 : Nat) (neg : Bool) (f : α × α) : t.tt.fld.In L (mntFinalExp t w0 w1 neg f) := by
  unfold mntFinalExp
  split
  · exact h.tt.fld.zero
  · exact h.tt.fld.mul _ _

theorem mntMultiPair_in (x : Nat) (xNeg : Bool) (w0 w1 : Nat) (neg : Bool) (ms : List (MillerPair α Unit)) :
    t.tt.fld.In L (mntMultiPair t x xNeg w0 w1 neg ms) := by
  unfold mntMultiPair
  split
  · exact h.tt.fld.one
  · exact mntFinalExp_in h _ _ _ _

end
end
end Sys2Proof.Machine

/-! PROOF. What a unit operation leaves: it keeps the inputs, the result and the objects, its slots get legal words, and an
error is raised before anything is written (10_state.md R21, R31, R37, R44, 70_reset_and_hazards.md R475). -/

namespace Sys2Proof.Machine

/-! ## Legal words -/

/-- Legal elements, slot by slot: the field block is a constructor's, and every slot is below its modulus. -/
theorem State.elementsLegal_iff (s : State) :
    s.elementsLegal ↔ (∀ f, s.pf = some f → f.legal = true) ∧ ∀ e ∈ s.slots, ∃ f, s.pf = some f ∧ e.2 < f.p := by
  unfold State.elementsLegal
  cases hp : s.pf with
  | none => simp [List.eq_nil_iff_forall_not_mem]
  | some f => simp [slotsLegal]

/-- A word that may stand in a slot while the elements are legal: it is below the modulus of the field there is. -/
def State.LegalWord (s : State) (v : Nat) : Prop := s.elementsLegal → ∃ f, s.pf = some f ∧ v < f.p

/-- The value of a slot is a legal word. -/
theorem State.legalWord_of_slot {s : State} {i v : Nat} (h : regGet i s.slots = some v) : s.LegalWord v :=
  fun hs => (s.elementsLegal_iff.1 hs).2 (i, v) (regGet_mem _ _ _ h)

/-- The field of a state stays in its legal words. -/
theorem State.fpFld_closed {s : State} {f : PrimeField} (hf : s.pf = some f) : (fpFld f).Closed s.LegalWord := by
  by_cases hs : s.elementsLegal
  · exact Machine.fpFld_closed ((s.elementsLegal_iff.1 hs).1 f hf) fun v hv _ => ⟨f, hf, hv⟩
  · have all (x) : (fpFld f).In s.LegalWord x := fun _ _ h => absurd h hs
    exact ⟨all _, all _, fun _ _ => all _, fun _ _ => all _, fun _ => all _, fun _ => all _, fun _ _ => all _, fun _ => all _,
      fun _ _ => all _, fun _ _ => all _⟩

/-! ## How a sequence of steps ends -/

/-- When `m` runs to its end from `s` its answer and state satisfy `K`, and when it raises an error its state satisfies `E`. -/
def Ensures {α : Type} (m : M α) (s : State) (K : α → State → Prop) (E : State → Prop) : Prop :=
  (∀ a t, m s = .ok a t → K a t) ∧ ∀ e t, m s = .error (.raise e) t → E t

section
variable {α β : Type} {s : State} {E : State → Prop}

theorem Ensures.of_ok {m : M α} {a : α} {t : State} {K : α → State → Prop} (h : m s = .ok a t) (hK : K a t) : Ensures m s K E :=
  ⟨fun _ _ h' => by rw [h] at h'; cases h'; exact hK, fun _ _ h' => by rw [h] at h'; cases h'⟩

theorem Ensures.of_fault {m : M α} {f : Fault} {t : State} {K : α → State → Prop} (h : m s = .error (.fault f) t) :
    Ensures m s K E :=
  ⟨fun _ _ h' => (by rw [h] at h'; cases h'), fun _ _ h' => by rw [h] at h'; cases h'⟩

theorem Ensures.bind {m : M α} {k : α → M β} {K : β → State → Prop} (h : Ensures m s (fun a t => Ensures (k a) t K E) E) :
    Ensures (m >>= k) s K E := by
  unfold Ensures
  rw [M.bind_apply]
  cases hm : m s with
  | ok a t => exact h.1 a t hm
  | error e t =>
    refine ⟨fun _ _ h' => (by cases h'), fun e' t' h' => ?_⟩
    cases h'
    exact h.2 e' t hm

/-- A weaker end. -/
theorem Ensures.imp {m : M α} {K K' : α → State → Prop} (h : Ensures m s K E) (hK : ∀ a t, K a t → K' a t) :
    Ensures m s K' E := ⟨fun a t ht => hK a t (h.1 a t ht), h.2⟩

theorem Ensures.pure {K : α → State → Prop} {a : α} (h : K a s) : Ensures (pure a : M α) s K E := .of_ok rfl h

theorem Ensures.update {K : Unit → State → Prop} {f : State → State} (h : K () (f s)) : Ensures (Machine.update f) s K E :=
  .of_ok rfl h

/-- Steps that change nothing, whatever they answer. -/
theorem Ensures.read {m : M α} {K : α → State → Prop} (hm : Along (· = ·) m) (hE : E s) (h : ∀ a, K a s) : Ensures m s K E :=
  ⟨fun a t ht => (hm s).1 a t ht ▸ h a, fun _ t ht => (hm s).2 _ t ht ▸ hE⟩

theorem Ensures.faultWith {K : α → State → Prop} (f : Fault) : Ensures (Machine.faultWith f) s K E := .of_fault rfl

theorem Ensures.refuseWith {K : α → State → Prop} (r : Refusal) : Ensures (Machine.refuseWith r) s K E :=
  ⟨fun _ _ h => (by cases h), fun _ _ h => by cases h⟩

theorem Ensures.require {K : Unit → State → Prop} {ok : Bool} {e : Err} (hE : E s) (h : ok = true → K () s) :
    Ensures (Machine.require ok e) s K E := by
  cases ok with
  | true => exact .of_ok rfl (h rfl)
  | false => exact ⟨fun _ _ h' => (by cases h'), fun _ _ h' => by cases h'; exact hE⟩

theorem Ensures.demand {K : Unit → State → Prop} {ok : Bool} (h : K () s) : Ensures (Machine.demand ok) s K E := by
  cases ok with
  | true => exact .of_ok rfl h
  | false => exact .of_fault rfl

theorem Ensures.look {K : α → State → Prop} {f : State → α} (h : K (f s) s) : Ensures (Machine.look f) s K E := .of_ok rfl h

theorem Ensures.getSet {K : α → State → Prop} {what : Item} {o : State → Option α} (h : ∀ v, o s = some v → K v s) :
    Ensures (Machine.getSet what o) s K E := by
  cases hv : o s with
  | some v => exact .of_ok (getSet_some hv) (h v hv)
  | none => exact .of_fault (getSet_none hv)

theorem Ensures.getPF {K : PrimeField → State → Prop} (h : ∀ f, s.pf = some f → K f s) : Ensures Machine.getPF s K E := .getSet h
theorem Ensures.getEX {l : Level} {K : ExtField → State → Prop} (h : ∀ e, s.ex.get l = some e → K e s) :
    Ensures (Machine.getEX l) s K E := .getSet h
theorem Ensures.getCG {g : Group} {K : CurveGroup → State → Prop} (h : ∀ c, K c s) : Ensures (Machine.getCG g) s K E :=
  .getSet fun c _ => h c
theorem Ensures.getPE {K : Engine → State → Prop} (h : ∀ e, K e s) : Ensures Machine.getPE s K E := .getSet fun e _ => h e
theorem Ensures.getPEField {o : Option α} {K : α → State → Prop} (h : ∀ v, K v s) : Ensures (Machine.getPEField o) s K E :=
  .getSet fun v _ => h v

theorem Ensures.construct {what : Item} {present : State → Bool} {f : State → State} {K : Unit → State → Prop}
    (h : present s = false → K () (f s)) : Ensures (Machine.construct what present f) s K E := by
  cases hp : present s with
  | false => exact .of_ok (construct_new hp) (h hp)
  | true => exact .of_fault (construct_frozen hp)

theorem Ensures.demandNoTable {l : Level} {e : ExtField} {K : Unit → State → Prop} (h : e.frobValid = false → K () s) :
    Ensures (Machine.demandNoTable l e) s K E := by
  unfold Ensures Machine.demandNoTable
  cases hv : e.frobValid with
  | false => exact ⟨fun _ _ h' => by cases h'; exact h hv, fun _ _ h' => by cases h'⟩
  | true => exact ⟨fun _ _ h' => (by cases h'), fun _ _ h' => by cases h'⟩

/-! ### Operands -/

theorem Ensures.readSlot {i : Nat} {K : Nat → State → Prop} (h : ∀ v, s.LegalWord v → K v s) :
    Ensures (Machine.readSlot i) s K E := .getSet fun v hv => h v (s.legalWord_of_slot hv)

theorem Ensures.readGroup {a n : Nat} {K : List Nat → State → Prop} (h : ∀ vs, (∀ v ∈ vs, s.LegalWord v) → K vs s) :
    Ensures (Machine.readGroup a n) s K E := by
  unfold Ensures Machine.readGroup
  cases hg : regGetGroup s.slots a n with
  | error i => exact ⟨fun _ _ h' => (by cases h'), fun _ _ h' => by cases h'⟩
  | ok vs =>
    refine ⟨fun _ _ h' => ?_, fun _ _ h' => by cases h'⟩
    cases h'
    refine h vs fun v hv => ?_
    obtain ⟨i, hi, rfl⟩ := List.mem_iff_getElem.1 hv
    have hslot := regGetGroup_get n a hg i (regGetGroup_length n a hg ▸ hi)
    exact s.legalWord_of_slot (hslot.trans (List.getElem?_eq_getElem hi))

section
variable {F : Fld α} (hF : F.Closed s.LegalWord)
include hF

theorem Ensures.readElem {a : Nat} {K : α → State → Prop} (h : ∀ x, F.In s.LegalWord x → K x s) :
    Ensures (Machine.readElem F a) s K E :=
  .bind (.readGroup fun vs hvs => .pure (h _ (hF.ofCoords vs hvs)))

theorem Ensures.readPt {a : Nat} {K : Pt α → State → Prop} (h : ∀ p, F.PtIn s.LegalWord p → K p s) :
    Ensures (Machine.readPt F a) s K E :=
  .bind (.readElem hF fun _ hx => .bind (.readElem hF fun _ hy => .bind (.readElem hF fun _ hz => .pure (h _ ⟨hx, hy, hz⟩))))

theorem Ensures.readPts : ∀ {n a : Nat} {K : List (Pt α) → State → Prop},
    (∀ ps, (∀ p ∈ ps, F.PtIn s.LegalWord p) → K ps s) → Ensures (Machine.readPts F a n) s K E
  | 0, _, _, h => .pure (h [] (by simp))
  | n + 1, _, _, h => .bind (.readPt hF fun p hp => .bind (Ensures.readPts fun ps hps =>
      .pure (h (p :: ps) (List.forall_mem_cons.2 ⟨hp, hps⟩))))

end

/-! ### Levels, groups, engines -/

theorem Ensures.withLevel {l : Level} {k : {α : Type} → Tow α → M β} {K : β → State → Prop}
    (h : ∀ {α : Type} (t : Tow α), t.Closed s.LegalWord → Ensures (k t) s K E) : Ensures (Machine.withLevel l k) s K E := by
  refine .bind (.getPF fun f hf => .bind (.look ?_))
  have hL := State.fpFld_closed hf
  cases l with
  | fq2 => exact .bind (.getEX fun _ _ => h _ (towFq2_closed hL _ _))
  | fq3 => exact .bind (.getEX fun _ _ => h _ (towFq3_closed hL _ _))
  | fq4 => exact .bind (.getEX fun _ _ => .bind (.getEX fun _ _ => h _ (towFq4_closed hL _ _ _)))
  | fq6c => exact .bind (.getEX fun _ _ => .bind (.getEX fun _ _ => h _ (towFq6c_closed hL _ _ _)))
  | fq6q => exact .bind (.getEX fun _ _ => .bind (.getEX fun _ _ => h _ (towFq6q_closed hL _ _ _)))
  | fq12 => exact .bind (.getEX fun _ _ => .bind (.getEX fun _ _ => .bind (.getEX fun _ _ => h _ (towFq12_closed hL _ _ _ _))))

theorem Ensures.withFieldRef {r : FieldRef} {k : {α : Type} → Fld α → M β} {K : β → State → Prop}
    (h : ∀ {α : Type} (F : Fld α), F.Closed s.LegalWord → Ensures (k F) s K E) : Ensures (Machine.withFieldRef r k) s K E := by
  cases r with
  | fp => exact .bind (.getPF fun f hf => h _ (State.fpFld_closed hf))
  | level l => exact .withLevel fun t ht => h _ ht.fld

theorem Ensures.withGroup {g : Group} {k : {α : Type} → Fld α → CurveGroup → M β} {K : β → State → Prop}
    (h : ∀ {α : Type} (F : Fld α) (c : CurveGroup), F.Closed s.LegalWord → Ensures (k F c) s K E) :
    Ensures (Machine.withGroup g k) s K E :=
  .bind (.getCG fun c => .withFieldRef fun F hF => h F c hF)

theorem Ensures.getBnTower {K : BnTower → State → Prop} (h : ∀ t, t.Closed s.LegalWord → K t s) :
    Ensures Machine.getBnTower s K E :=
  .bind (.getPF fun _ hf => .bind (.look (.bind (.getEX fun _ _ => .bind (.getEX fun _ _ => .bind (.getEX fun _ _ =>
    .pure (h _ (bnTower_closed (State.fpFld_closed hf) _ _ _ _ _))))))))

theorem Ensures.withBn {k : BnTower → Engine → Bool → M β} {K : β → State → Prop}
    (h : ∀ t pe isBn, t.Closed s.LegalWord → Ensures (k t pe isBn) s K E) : Ensures (Machine.withBn k) s K E := by
  refine .bind (.getPE fun pe => ?_)
  split
  · exact .bind (.getBnTower fun t ht => h t _ _ ht)
  · exact .bind (.getBnTower fun t ht => h t _ _ ht)
  · exact .faultWith _
  · exact .faultWith _

theorem Ensures.getMnt4Tower {pe : Engine} {K : MntTower E2 → State → Prop} (h : ∀ t, t.Closed s.LegalWord → K t s) :
    Ensures (Machine.getMnt4Tower pe) s K E :=
  .bind (.getPF fun _ hf => .bind (.look (.bind (.getEX fun _ _ => .bind (.getEX fun _ _ => .bind (.getCG fun _ =>
    .bind (.getPEField fun _ => .bind (.getPEField fun _ =>
      .pure (h _ ⟨towFq2_closed (State.fpFld_closed hf) _ _, towFq4_closed (State.fpFld_closed hf) _ _ _⟩)))))))))

theorem Ensures.getMnt6Tower {pe : Engine} {K : MntTower E3 → State → Prop} (h : ∀ t, t.Closed s.LegalWord → K t s) :
    Ensures (Machine.getMnt6Tower pe) s K E :=
  .bind (.getPF fun _ hf => .bind (.look (.bind (.getEX fun _ _ => .bind (.getEX fun _ _ => .bind (.getCG fun _ =>
    .bind (.getPEField fun _ => .bind (.getPEField fun _ =>
      .pure (h _ ⟨towFq3_closed (State.fpFld_closed hf) _ _, towFq6q_closed (State.fpFld_closed hf) _ _ _⟩)))))))))

theorem Ensures.withMnt {k : {α : Type} → MntTower α → Engine → M β} {K : β → State → Prop}
    (h : ∀ {α : Type} (t : MntTower α) (pe : Engine), t.Closed s.LegalWord → Ensures (k t pe) s K E) :
    Ensures (Machine.withMnt k) s K E := by
  refine .bind (.getPE fun pe => .bind (.getCG fun c => ?_))
  split
  · exact .bind (.demand (.bind (.getMnt4Tower fun t ht => h t _ ht)))
  · exact .bind (.demand (.bind (.getMnt6Tower fun t ht => h t _ ht)))
  · exact .faultWith _
  · exact .faultWith _

end

/-! ## What a completed unit operation keeps -/

/-- What a unit operation that completes keeps: the inputs, the cursor and the objects, the output tape and `RES`, and the
legality of the elements. -/
structure UnitKept (s t : State) : Prop where
  objects : ObjectsKept s t
  out : t.out = s.out
  res : t.res = s.res
  legal : s.elementsLegal → t.elementsLegal

/-- The levels as they are, and every other object still there. -/
theorem ObjectsKept.of_ex_eq {s t : State} (hcfg : t.cfg = s.cfg) (hinp : t.inp = s.inp) (hcur : t.cur = s.cur)
    (hpf : ∀ f, s.pf = some f → t.pf = some f) (hex : t.ex = s.ex) (hcg : ∀ g c, s.cg g = some c → t.cg g = some c)
    (hpe : ∀ e, s.pe = some e → t.pe = some e) : ObjectsKept s t :=
  ⟨hcfg, hinp, hcur, hpf, fun _ e he => ⟨e, hex ▸ he, rfl, rfl, rfl, fun _ => rfl⟩, hcg, hpe⟩

theorem ObjectsKept.refl (s : State) : ObjectsKept s s :=
  .of_ex_eq rfl rfl rfl (fun _ h => h) rfl (fun _ _ h => h) fun _ h => h

theorem ObjectsKept.pf {s t : State} (h : ObjectsKept s t) {f : PrimeField} (hf : s.pf = some f) : t.pf = some f := by
  obtain ⟨-, -, -, hpf, -, -, -⟩ := h
  exact hpf f hf

section
variable {s t : State}

theorem UnitKept.refl (s : State) : UnitKept s s := ⟨.refl s, rfl, rfl, id⟩

/-- A state that differs in none of the kept items. -/
theorem UnitKept.congr (h : UnitKept s t) {u : State} (hcfg : u.cfg = t.cfg) (hinp : u.inp = t.inp) (hcur : u.cur = t.cur)
    (hpf : u.pf = t.pf) (hex : u.ex = t.ex) (hcg : ∀ g, u.cg g = t.cg g) (hpe : u.pe = t.pe) (hout : u.out = t.out)
    (hres : u.res = t.res) (hlegal : s.elementsLegal → t.elementsLegal → u.elementsLegal) : UnitKept s u := by
  refine ⟨?_, hout.trans h.out, hres.trans h.res, fun hs => hlegal hs (h.legal hs)⟩
  unfold ObjectsKept
  simp only [hcfg, hinp, hcur, hpf, hex, hcg, hpe]
  exact h.objects

/-- Legal words written to consecutive slots. -/
theorem UnitKept.store (h : UnitKept s t) (a : Nat) {vs : List Nat} (hvs : ∀ v ∈ vs, s.LegalWord v) :
    UnitKept s (t.setSlots (regSetGroup a vs t.slots)) := by
  refine h.congr rfl rfl rfl rfl rfl (fun _ => by rfl) rfl rfl rfl fun hs ht => ?_
  rw [State.elementsLegal_iff] at ht ⊢
  refine ⟨ht.1, fun e he => ?_⟩
  rcases mem_regSetGroup vs a _ e he with hv | hold
  · obtain ⟨f, hf, hlt⟩ := hvs _ hv hs
    exact ⟨f, h.objects.pf hf, hlt⟩
  · exact ht.2 e hold

/-- One legal word written to a slot. -/
theorem UnitKept.storeSlot (h : UnitKept s t) (c : Nat) {v : Nat} (hv : s.LegalWord v) :
    UnitKept s (t.setSlots (regSet c v t.slots)) :=
  h.store c (vs := [v]) (by simpa using hv)

theorem UnitKept.setFlags (h : UnitKept s t) (f : Flags) : UnitKept s (t.setFlags f) :=
  h.congr rfl rfl rfl rfl rfl (fun _ => by rfl) rfl rfl rfl fun _ ht => ht

theorem UnitKept.setRet (h : UnitKept s t) (bs : List Byte) : UnitKept s (t.setRet bs) :=
  h.congr rfl rfl rfl rfl rfl (fun _ => by rfl) rfl rfl rfl fun _ ht => ht

theorem UnitKept.noteFree (h : UnitKept s t) (valid : Bool) : UnitKept s (if valid then t else t.bumpFree) := by
  split
  · exact h
  · exact h.congr rfl rfl rfl rfl rfl (fun _ => by rfl) rfl rfl rfl fun _ ht => ht

/-- A first field, as its constructor makes it. -/
theorem UnitKept.setPF {f : PrimeField} (hs : s.pf = none) (hf : f.legal = true) : UnitKept s (s.setPF f) := by
  refine ⟨.of_ex_eq rfl rfl rfl (fun g hg => ?_) rfl (fun _ _ hc => by exact hc) fun _ h => h, rfl, rfl, fun hl => ?_⟩
  · rw [hs] at hg; cases hg
  · rw [State.elementsLegal_iff] at hl ⊢
    refine ⟨fun g hg => Option.some.inj hg ▸ hf, fun e he => ?_⟩
    obtain ⟨g, hg, -⟩ := hl.2 e he
    rw [hs] at hg; cases hg

/-- A level's block, where there was none or where only its tables, not computed before, are written. -/
theorem UnitKept.setEX {l : Level} {e' : ExtField}
    (h : ∀ e, s.ex.get l = some e →
      e'.base = e.base ∧ e'.degree = e.degree ∧ e'.nonResidue = e.nonResidue ∧ e.frobValid = false) :
    UnitKept s (s.setEX l e') := by
  refine ⟨⟨rfl, rfl, rfl, fun _ h => h, fun m e hm => ?_, fun _ _ hc => by exact hc, fun _ h => h⟩, rfl, rfl, fun hl => hl⟩
  by_cases hml : m = l
  · subst hml
    obtain ⟨hb, hd, hn, hv⟩ := h e hm
    exact ⟨e', ExFile.put_get_same _ _ _, hb, hd, hn, fun ht => by rw [hv] at ht; cases ht⟩
  · exact ⟨e, (ExFile.put_get_other _ _ _ _ hml).trans hm, rfl, rfl, rfl, fun _ => rfl⟩

/-- A first block of a group. -/
theorem UnitKept.setCG {g : Group} {c : CurveGroup} (hs : s.cg g = none) : UnitKept s (s.setCG g c) := by
  refine ⟨.of_ex_eq (State.setCG_cfg ..) (State.setCG_inp ..) (State.setCG_cur ..) (fun f hf => (State.setCG_pf ..).trans hf)
    (State.setCG_ex ..) (fun g' c' hc' => ?_) fun e he => (State.setCG_pe ..).trans he,
    State.setCG_out .., State.setCG_res .., fun hl => ?_⟩
  · cases g <;> cases g'
    case g1.g1 | g2.g2 => rw [hs] at hc'; cases hc'
    case g1.g2 | g2.g1 => exact hc'
  · cases g <;> exact hl

/-- A first engine. -/
theorem UnitKept.setPE {e : Engine} (hs : s.pe = none) : UnitKept s (s.setPE e) := by
  refine ⟨.of_ex_eq rfl rfl rfl (fun _ h => h) rfl (fun _ _ hc => by exact hc) fun e he => ?_, rfl, rfl, fun hl => hl⟩
  rw [hs] at he; cases he

end

/-! ## Constructors and tables -/

/-- A first byte that is not 0 makes the value fill its bytes. -/
theorem pow_le_bytesToNat {mb : List Byte} (h : mb.headD 0 ≠ 0) : 256 ^ (mb.length - 1) ≤ bytesToNat mb := by
  cases mb with
  | nil => exact absurd rfl h
  | cons b bs =>
    have hb : b.toNat ≠ 0 := fun h0 => h (BitVec.eq_of_toNat_eq h0)
    rw [bytesToNat_cons, List.length_cons, Nat.add_sub_cancel]
    exact Nat.le_add_right_of_le (Nat.le_mul_of_pos_left _ (Nat.pos_of_ne_zero hb))

/-- The field of a modulus that passes the checks of `PF.NEW` is legal (40_prime_field.md R130). -/
theorem callField_legal {mb : List Byte} (hm : modulusFits mb = true) : (callField mb).legal = true := by
  simp only [modulusFits, Bool.and_eq_true, decide_eq_true_eq, bne_iff_ne, ne_eq, beq_iff_eq, Bool.or_eq_true, and_assoc] at hm
  obtain ⟨h1, h2, h3, h4, h5⟩ := hm
  have hlo := pow_le_bytesToNat h3
  have hp : 3 < bytesToNat mb := by
    rcases h5 with h | h
    · have : 256 ^ 1 ≤ 256 ^ (mb.length - 1) := Nat.pow_le_pow_right (by decide) (by omega)
      omega
    · exact h
  exact (callField mb).legal_iff.2 ⟨rfl, h4, hp, h1, h2, hlo, bytesToNat_lt mb⟩

section
variable {s : State} {E : State → Prop}

/-- `PF.NEW` raises an error before it writes anything, or writes a legal block where there was none (40_prime_field.md
R130). -/
theorem newPF_kept (hE : E s) (mb : List Byte) : Ensures (newPF mb) s (fun _ t => UnitKept s t) E := by
  refine .bind (.require hE fun h1 => .bind (.require hE fun h2 => .bind (.require hE fun h3 => .bind (.require hE fun h4 =>
    .bind (.require hE fun h5 => .bind (.require hE fun _ => .construct fun hp => ?_))))))
  refine .setPF (by simpa using hp) (callField_legal (mb := mb) ?_)
  simp only [bne_iff_ne, ne_eq, decide_eq_true_eq, beq_iff_eq, Bool.not_eq_true', Bool.and_eq_false_iff, beq_eq_false_iff_ne,
    decide_eq_false_iff_not, Nat.not_le] at h1 h2 h3 h4 h5
  simp only [modulusFits, Bool.and_eq_true, decide_eq_true_eq, bne_iff_ne, ne_eq, beq_iff_eq, Bool.or_eq_true, and_assoc]
  exact ⟨Nat.pos_of_ne_zero h1, h2, h3, h4, h5⟩

theorem newEX_kept (l : Level) (nr : List Nat) : Ensures (newEX l nr) s (fun _ t => UnitKept s t) E :=
  .construct fun hp => .setEX fun e he => by rw [he] at hp; cases hp

theorem newCG_kept (g : Group) (c : CurveGroup) : Ensures (newCG g c) s (fun _ t => UnitKept s t) E :=
  .construct fun hp => .setCG (by simpa using hp)

theorem constructPE_kept (e : Engine) : Ensures (constructPE e) s (fun _ t => UnitKept s t) E :=
  .construct fun hp => .setPE (by simpa using hp)

theorem newPE_kept (family : Family) (twist : Twist) (x : Nat) (xNeg : Bool) (w0 w1 : Nat) (w0Neg : Bool) :
    Ensures (newPE family twist x xNeg w0 w1 w0Neg) s (fun _ t => UnitKept s t) E := by
  refine .bind (.getCG fun _ => .bind (.getCG fun _ => .bind (.getEX fun _ _ => .bind (.look ?_))))
  cases family with
  | bls12 => exact constructPE_kept _
  | bn => exact constructPE_kept _
  | mnt4 => exact .bind (.getPF fun _ _ => .withLevel fun _ _ => constructPE_kept _)
  | mnt6 => exact .bind (.getPF fun _ _ => .withLevel fun _ _ => constructPE_kept _)

/-- Tables are written to a block that exists and has none (10_state.md R44). -/
theorem writeTables_kept {l : Level} {e : ExtField} (he : s.ex.get l = some e) (hv : e.frobValid = false)
    (tables : Option (List (List Nat) × List (List Nat))) :
    Ensures (writeTables l e tables) s (fun _ t => UnitKept s t) E := by
  cases tables with
  | none => exact .pure (.refl s)
  | some tt => exact .bind (.update (.pure (.setEX fun e' he' => by rw [he] at he'; cases he'; exact ⟨rfl, rfl, rfl, hv⟩)))

end

/-- Steps that only read relate a state to itself. -/
theorem eq_chain : Chain (· = · : State → State → Prop) := ⟨fun _ => rfl, Eq.trans⟩

/-- Computing the tables of a level reads the state only. -/
theorem frobTables_reads (l : Level) : Along (· = ·) (frobTables l) := by
  refine .bind eq_chain (.getPF eq_chain) fun f => ?_
  cases l
  case fq6c | fq12 =>
    exact .bind eq_chain (.getEX eq_chain _) fun _ => .bind eq_chain (.getEX eq_chain _) fun _ => .pure eq_chain _
  all_goals exact .bind eq_chain (.getEX eq_chain _) fun _ => .pure eq_chain _

end Sys2Proof.Machine

/-! PROOF. Each unit operation, one lemma: it keeps what `UnitKept` says, or raises an error that leaves the reset of a call
(30_encoding.md R101, 60_exceptions.md R412, R420). -/

namespace Sys2Proof.Machine

/-- A unit operation that completes keeps what `UnitKept` says; one that raises an error leaves `errorWith` (log 8). -/
def UnitSafe (op : State → Host.Outcome State Fault Refusal) : Prop :=
  ∀ s t, op s = .next t → UnitKept s t ∨ ∃ e, t = s.errorWith e

/-- The errors of a unit operation are raised in the state it began in. -/
theorem UnitSafe.of_run {m : M Unit} (h : ∀ s, Ensures m s (fun _ t => UnitKept s t) (s = ·)) : UnitSafe (runUnit m) := by
  intro s t ht
  rcases runUnit_next ht with hok | ⟨e, u, hu, rfl⟩
  · exact .inl ((h s).1 () t hok)
  · rw [← (h s).2 e u hu]
    exact .inr ⟨e, State.raiseErr_eq s e⟩

section
variable {α : Type} {s t : State} {E : State → Prop} {F : Fld α}

/-! ## Destinations -/

theorem writeSlot_kept (h : UnitKept s t) {c v : Nat} (hv : s.LegalWord v) :
    Ensures (writeSlot c v) t (fun _ u => UnitKept s u) E := .update (h.storeSlot c hv)

theorem writeElem_kept (h : UnitKept s t) {c : Nat} {v : α} (hv : F.In s.LegalWord v) :
    Ensures (writeElem F c v) t (fun _ u => UnitKept s u) E := .update (h.store c hv)

theorem writePt_kept (h : UnitKept s t) {c : Nat} {p : Pt α} (hp : F.PtIn s.LegalWord p) :
    Ensures (writePt F c p) t (fun _ u => UnitKept s u) E :=
  .update (h.store c (by simpa only [List.forall_mem_append, and_assoc] using ⟨hp.x, hp.y, hp.z⟩))

theorem writeLine3_kept {F : Fld E2} (h : UnitKept s t) {c : Nat} {l : Line3} (hl : l.In F s.LegalWord) :
    Ensures (writeLine3 F c l) t (fun _ u => UnitKept s u) E :=
  .update (h.store c (by simpa only [List.forall_mem_append, and_assoc] using ⟨hl.c0, hl.c1, hl.c2⟩))

theorem writePt4_kept (h : UnitKept s t) {c : Nat} {p : Pt4 α} (hp : F.Pt4In s.LegalWord p) :
    Ensures (writePt4 F c p) t (fun _ u => UnitKept s u) E :=
  .update (h.store c (by simpa only [List.forall_mem_append, and_assoc] using ⟨hp.x, hp.y, hp.z, hp.t⟩))

theorem writeLine4_kept (h : UnitKept s t) {c : Nat} {l : Line4 α} (hl : l.In F s.LegalWord) :
    Ensures (writeLine4 F c l) t (fun _ u => UnitKept s u) E :=
  .update (h.store c (by simpa only [List.forall_mem_append, and_assoc] using ⟨hl.cH, hl.c4C, hl.cJ, hl.cL⟩))

theorem writeLine2_kept (h : UnitKept s t) {c : Nat} {l : Line2 α} (hl : l.In F s.LegalWord) :
    Ensures (writeLine2 F c l) t (fun _ u => UnitKept s u) E :=
  .update (h.store c (by simpa only [List.forall_mem_append] using ⟨hl.l1, hl.rz⟩))

theorem noteFree_kept (h : UnitKept s t) (valid : Bool) : Ensures (noteFree valid) t (fun _ u => UnitKept s u) E :=
  .update (h.noteFree valid)

theorem setFlags_kept (h : UnitKept s t) (f : State → Flags) :
    Ensures (update fun u => u.setFlags (f u)) t (fun _ u => UnitKept s u) E := .update (h.setFlags _)

end

/-! ## The prime field (40_prime_field.md) -/

section
variable {s : State} {E : State → Prop}

theorem slotOp1_kept (op : PrimeField → Nat → Nat) (hop : ∀ L f x, (fpFld f).Closed L → L (op f x)) (c a : Nat) :
    Ensures (slotOp1 op c a) s (fun _ t => UnitKept s t) E :=
  .bind (.getPF fun f hf => .bind (.readSlot fun x _ => writeSlot_kept (.refl s) (hop _ f x (State.fpFld_closed hf))))

theorem slotOp2_kept (op : PrimeField → Nat → Nat → Nat) (hop : ∀ L f x y, (fpFld f).Closed L → L (op f x y)) (c a b : Nat) :
    Ensures (slotOp2 op c a b) s (fun _ t => UnitKept s t) E :=
  .bind (.getPF fun f hf => .bind (.readSlot fun x _ => .bind (.readSlot fun y _ =>
    writeSlot_kept (.refl s) (hop _ f x y (State.fpFld_closed hf)))))

end

theorem execPfNew_safe (mb : List Byte) : UnitSafe (execPfNew mb) := .of_run fun _ => newPF_kept rfl mb
theorem execPfAdd_safe (c a b : Nat) : UnitSafe (execPfAdd c a b) :=
  .of_run fun _ => slotOp2_kept _ (fun _ f x y h => (fpFld_in f _).1 (h.add x y)) c a b
theorem execPfSub_safe (c a b : Nat) : UnitSafe (execPfSub c a b) :=
  .of_run fun _ => slotOp2_kept _ (fun _ f x y h => (fpFld_in f _).1 (h.sub x y)) c a b
theorem execPfDouble_safe (c a : Nat) : UnitSafe (execPfDouble c a) :=
  .of_run fun _ => slotOp1_kept _ (fun _ f x h => (fpFld_in f _).1 (h.dbl x)) c a
theorem execPfNegate_safe (c a : Nat) : UnitSafe (execPfNegate c a) :=
  .of_run fun _ => slotOp1_kept _ (fun _ f x h => (fpFld_in f _).1 (h.neg x)) c a
theorem execPfMul_safe (c a b : Nat) : UnitSafe (execPfMul c a b) :=
  .of_run fun _ => slotOp2_kept _ (fun _ f x y h => (fpFld_in f _).1 (h.mul x y)) c a b
theorem execPfSquare_safe (c a : Nat) : UnitSafe (execPfSquare c a) :=
  .of_run fun _ => slotOp1_kept _ (fun _ f x h => (fpFld_in f _).1 (h.sq x)) c a
theorem execPfExp_safe (c a e : Nat) : UnitSafe (execPfExp c a e) :=
  .of_run fun _ => slotOp1_kept _ (fun _ f x h => (fpFld_in f _).1 (h.exp x e)) c a
theorem execPfToMont_safe (c a : Nat) : UnitSafe (execPfToMont c a) :=
  .of_run fun _ => slotOp1_kept _ (fun _ _ _ h => fpFld_closed_mod h _) c a
theorem execPfFromMont_safe (c a : Nat) : UnitSafe (execPfFromMont c a) :=
  .of_run fun _ => slotOp1_kept _ (fun _ _ _ h => fpFld_closed_mod h _) c a

theorem execPfInvert_safe (c a : Nat) : UnitSafe (execPfInvert c a) :=
  .of_run fun s => .bind (.getPF fun f hf => .bind (.readSlot fun x _ =>
    .bind (.update (setFlags_kept ((UnitKept.refl s).storeSlot c ((fpFld_in f _).1 ((State.fpFld_closed hf).inv x))) _))))

/-- The root or zero (40_prime_field.md R150). -/
theorem fpFld_closed_sqrt {L : Nat → Prop} {f : PrimeField} (h : (fpFld f).Closed L) (x : Nat) : L (f.sqrt x).2 := by
  unfold PrimeField.sqrt
  dsimp only
  split
  · exact Nat.zero_mod f.p ▸ fpFld_closed_mod h 0
  · exact (fpFld_in f _).1 (h.mul _ _)

theorem execPfSqrt_safe (c a : Nat) : UnitSafe (execPfSqrt c a) :=
  .of_run fun s => .bind (.getPF fun f hf => .bind (.readSlot fun x _ => by
    split
    · exact .bind (.update (setFlags_kept ((UnitKept.refl s).storeSlot c (fpFld_closed_sqrt (State.fpFld_closed hf) x)) _))
    · exact .refuseWith _))

theorem execPfNres_safe (a n : Nat) : UnitSafe (execPfNres a n) :=
  .of_run fun s => .bind (.getPF fun _ _ => .bind (.readSlot fun _ _ => setFlags_kept (.refl s) _))

theorem execPfFromBytes_safe (c : Nat) (bs : List Byte) : UnitSafe (execPfFromBytes c bs) :=
  .of_run fun s => .bind (.getPF fun _ hf => .bind (.require rfl fun _ => .bind (.require rfl fun _ =>
    writeSlot_kept (.refl s) (fpFld_closed_mod (State.fpFld_closed hf) _))))

theorem execPfToBytes_safe (a : Nat) : UnitSafe (execPfToBytes a) :=
  .of_run fun s => .bind (.getPF fun _ _ => .bind (.readSlot fun _ _ => .update ((UnitKept.refl s).setRet _)))

theorem execPfToBytesDense_safe (a : Nat) : UnitSafe (execPfToBytesDense a) :=
  .of_run fun s => .bind (.getPF fun _ _ => .bind (.readSlot fun _ _ => .update ((UnitKept.refl s).setRet _)))

/-! ## The extension tower (41_extension_tower.md) -/

section
variable {s : State} {E : State → Prop}

theorem levelOp1_kept (l : Level) {op : {α : Type} → Fld α → α → α}
    (hop : ∀ {α : Type} {L : Nat → Prop} (F : Fld α) (x : α), F.Closed L → F.In L (op F x)) (c a : Nat) :
    Ensures (levelOp1 l op c a) s (fun _ t => UnitKept s t) E :=
  .withLevel fun t ht => .bind (.readElem ht.fld fun x _ => writeElem_kept (.refl s) (hop t.fld x ht.fld))

theorem levelOp2_kept (l : Level) {op : {α : Type} → Fld α → α → α → α}
    (hop : ∀ {α : Type} {L : Nat → Prop} (F : Fld α) (x y : α), F.Closed L → F.In L (op F x y)) (c a b : Nat) :
    Ensures (levelOp2 l op c a b) s (fun _ t => UnitKept s t) E :=
  .withLevel fun t ht => .bind (.readElem ht.fld fun x _ => .bind (.readElem ht.fld fun y _ =>
    writeElem_kept (.refl s) (hop t.fld x y ht.fld)))

theorem conjOp_kept {α : Type} {B : Fld α} {F : Fld (α × α)} (hB : B.Closed s.LegalWord) (hF : F.Closed s.LegalWord)
    (h : ∀ x, F.coords x = B.coords x.1 ++ B.coords x.2) (c a : Nat) :
    Ensures (conjOp B F c a) s (fun _ t => UnitKept s t) E :=
  .bind (.readElem hF fun _ hx => writeElem_kept (.refl s) (conjugate_in hB h hx))

theorem demandBase_reads (l : Level) : Along (· = ·) (demandBase l) := by
  unfold demandBase
  split
  · exact .bind eq_chain (.getPF eq_chain) fun _ => .pure eq_chain _
  · exact .bind eq_chain (.getPF eq_chain) fun _ => .bind eq_chain (.getEX eq_chain _) fun _ => .pure eq_chain _

end

theorem execExNew_safe (l : Level) (nr : Nat) : UnitSafe (execExNew l nr) :=
  .of_run fun _ => .bind (.read (demandBase_reads l) rfl fun _ => .bind (.readGroup fun _ _ => newEX_kept l _))
theorem execExAdd_safe (l : Level) (c a b : Nat) : UnitSafe (execExAdd l c a b) :=
  .of_run fun _ => levelOp2_kept l (fun _ _ _ h => h.add _ _) c a b
theorem execExSub_safe (l : Level) (c a b : Nat) : UnitSafe (execExSub l c a b) :=
  .of_run fun _ => levelOp2_kept l (fun _ _ _ h => h.sub _ _) c a b
theorem execExNeg_safe (l : Level) (c a : Nat) : UnitSafe (execExNeg l c a) :=
  .of_run fun _ => levelOp1_kept l (fun _ _ h => h.neg _) c a
theorem execExDouble_safe (l : Level) (c a : Nat) : UnitSafe (execExDouble l c a) :=
  .of_run fun _ => levelOp1_kept l (fun _ _ h => h.dbl _) c a
theorem execExMul_safe (l : Level) (c a b : Nat) : UnitSafe (execExMul l c a b) :=
  .of_run fun _ => levelOp2_kept l (fun _ _ _ h => h.mul _ _) c a b
theorem execExSquare_safe (l : Level) (c a : Nat) : UnitSafe (execExSquare l c a) :=
  .of_run fun _ => levelOp1_kept l (fun _ _ h => h.sq _) c a
theorem execExExp_safe (l : Level) (c a e : Nat) : UnitSafe (execExExp l c a e) :=
  .of_run fun _ => levelOp1_kept l (fun _ _ h => h.exp _ e) c a

theorem execExInverse_safe (l : Level) (c a : Nat) : UnitSafe (execExInverse l c a) :=
  .of_run fun s => .withLevel fun _ ht => .bind (.readElem ht.fld fun x _ =>
    .bind (.update (setFlags_kept ((UnitKept.refl s).store c (ht.fld.inv x)) _)))

theorem execExConjugate_safe (l : QuadLevel) (c a : Nat) : UnitSafe (execExConjugate l c a) :=
  .of_run fun s => .bind (.getPF fun f hf => by
    have h := State.fpFld_closed hf
    cases l with
    | fq2 => exact .bind (.getEX fun _ _ => conjOp_kept h (quadFld_closed h _) (fun _ => rfl) c a)
    | fq4 =>
      exact .bind (.getEX fun _ _ => .bind (.getEX fun _ _ =>
        conjOp_kept (quadFld_closed h _) (quadFld_closed (quadFld_closed h _) _) (fun _ => rfl) c a))
    | fq6q =>
      exact .bind (.getEX fun _ _ => .bind (.getEX fun _ _ =>
        conjOp_kept (cubicFld_closed h _) (quadFld_closed (cubicFld_closed h _) _) (fun _ => rfl) c a))
    | fq12 =>
      exact .bind (.getBnTower fun t ht => .bind (.readElem ht.t12.fld fun x hx =>
        writeElem_kept (.refl s) (ht.conj x hx))))

theorem execExFrobeniusMap_safe (l : Level) (c a power : Nat) : UnitSafe (execExFrobeniusMap l c a power) :=
  .of_run fun s => .withLevel fun _ ht => .bind (.readElem ht.fld fun _ hx =>
    .bind (.update (noteFree_kept ((UnitKept.refl s).store c (ht.frob _ power hx)) _)))

theorem calcFrob_kept {s : State} {E : State → Prop} (hE : E s) (l : Level) :
    Ensures (calcFrob l) s (fun _ t => UnitKept s t) E :=
  .bind (.getEX fun _ he => .bind (.demandNoTable fun hv => .bind (.read (frobTables_reads l) hE fun tables =>
    .bind ((writeTables_kept he hv tables).imp fun _ _ ht => .bind (.update (.pure (ht.setFlags _)))))))

theorem calcFrobPre_kept {s : State} {E : State → Prop} (l : PreLevel) (f1 : E2) :
    Ensures (calcFrobPre l f1) s (fun _ t => UnitKept s t) E :=
  .bind (.getPF fun _ _ => .bind (.look (.bind (.getEX fun _ _ => .bind (.getEX fun _ he => .bind (.demandNoTable fun hv =>
    .bind ((writeTables_kept he hv _).imp fun _ _ ht =>
      .bind (.update (.bind (.update (.pure ((ht.noteFree _).setFlags _))))))))))))

theorem execExCalcFrob_safe (l : Level) : UnitSafe (execExCalcFrob l) :=
  .of_run fun _ => .bind ((calcFrob_kept rfl l).imp fun _ _ ht => .pure ht)

theorem execExCalcFrobPre_safe (l : PreLevel) (f1 : Nat) : UnitSafe (execExCalcFrobPre l f1) :=
  .of_run fun _ => .bind (.getPF fun _ hf => .bind (.getEX fun _ _ =>
    .bind (.readElem (quadFld_closed (State.fpFld_closed hf) _) fun v _ =>
      .bind ((calcFrobPre_kept l v).imp fun _ _ ht => .pure ht))))

theorem execExMulBy014_safe (c a e0 e1 e4 : Nat) : UnitSafe (execExMulBy014 c a e0 e1 e4) :=
  .of_run fun s => .bind (.getBnTower fun _ ht => .bind (.readElem ht.t12.fld fun _ _ => .bind (.readElem ht.t2.fld fun _ _ =>
    .bind (.readElem ht.t2.fld fun _ _ => .bind (.readElem ht.t2.fld fun _ _ =>
      writeElem_kept (.refl s) (ht.t12.fld.mul _ _))))))

theorem execExMulBy034_safe (c a e0 e3 e4 : Nat) : UnitSafe (execExMulBy034 c a e0 e3 e4) :=
  .of_run fun s => .bind (.getBnTower fun _ ht => .bind (.readElem ht.t12.fld fun _ _ => .bind (.readElem ht.t2.fld fun _ _ =>
    .bind (.readElem ht.t2.fld fun _ _ => .bind (.readElem ht.t2.fld fun _ _ =>
      writeElem_kept (.refl s) (ht.t12.fld.mul _ _))))))

theorem execExCyclotomicSquare_safe (c a : Nat) : UnitSafe (execExCyclotomicSquare c a) :=
  .of_run fun s => .bind (.getBnTower fun _ ht => .bind (.readElem ht.t12.fld fun _ _ =>
    writeElem_kept (.refl s) (ht.t12.fld.sq _)))

/-! ## The curve groups (42_curve_group.md) -/

theorem groupOp1_kept {s : State} {E : State → Prop} (g : Group) {op : {α : Type} → Fld α → CurveGroup → Pt α → Pt α}
    (hop : ∀ {α : Type} {L : Nat → Prop} (F : Fld α) (cg : CurveGroup) (x : Pt α), F.Closed L → F.PtIn L x →
      F.PtIn L (op F cg x))
    (r p : Nat) : Ensures (groupOp1 g op r p) s (fun _ t => UnitKept s t) E :=
  .withGroup fun F cg hF => .bind (.readPt hF fun x hx => writePt_kept (.refl s) (hop F cg x hF hx))

theorem readCoeff_reads {α : Type} (F : Fld α) (o : Option Nat) : Along (· = ·) (readCoeff F o) := by
  cases o with
  | none => exact .pure eq_chain _
  | some a => exact .readElem eq_chain F a

theorem execCgNew_safe (field : CurveField) (a b : Option Nat) (ob : List Byte) : UnitSafe (execCgNew field a b ob) :=
  .of_run fun _ => .withFieldRef fun F _ => .bind (.read (readCoeff_reads F a) rfl fun _ =>
    .bind (.read (readCoeff_reads F b) rfl fun _ => newCG_kept _ _))

theorem execCgIsZero_safe (g : Group) (p : Nat) : UnitSafe (execCgIsZero g p) :=
  .of_run fun s => .withGroup fun F _ _ => .bind (.read (.readPtZ eq_chain F p) rfl fun _ => setFlags_kept (.refl s) _)

theorem execCgIsOnCurve_safe (g : Group) (p : Nat) : UnitSafe (execCgIsOnCurve g p) :=
  .of_run fun s => .withGroup fun F _ _ => .bind (.read (.readPtZ eq_chain F p) rfl fun _ => by
    split
    · exact setFlags_kept (.refl s) _
    · exact .bind (.read (.readPt eq_chain F p) rfl fun _ => setFlags_kept (.refl s) _))

theorem execCgAdd_safe (g : Group) (r p1 p2 : Nat) : UnitSafe (execCgAdd g r p1 p2) :=
  .of_run fun s => .withGroup fun _ _ hF => .bind (.readPt hF fun _ hx => .bind (.readPt hF fun _ hy =>
    writePt_kept (.refl s) (ptAdd_in hF _ hx hy)))

theorem execCgDouble_safe (g : Group) (r p : Nat) : UnitSafe (execCgDouble g r p) :=
  .of_run fun _ => groupOp1_kept g (fun _ _ x hF _ => ptDouble_in hF _ x) r p
theorem execCgNegate_safe (g : Group) (r p : Nat) : UnitSafe (execCgNegate g r p) :=
  .of_run fun _ => groupOp1_kept g (fun _ _ _ hF hx => ptNegate_in hF hx) r p
theorem execCgScalarMul_safe (g : Group) (r p e : Nat) : UnitSafe (execCgScalarMul g r p e) :=
  .of_run fun _ => groupOp1_kept g (fun _ _ _ hF hx => ptScalarMul_in hF _ hx e) r p
theorem execCgWnafMul_safe (g : Group) (r p e : Nat) : UnitSafe (execCgWnafMul g r p e) :=
  .of_run fun _ => groupOp1_kept g (fun _ _ _ hF hx => ptWnafMul_in hF _ hx e) r p

theorem execCgSubgroupCheck_safe (g : Group) (p : Nat) : UnitSafe (execCgSubgroupCheck g p) :=
  .of_run fun s => .withGroup fun F _ _ => .bind (.read (.readPt eq_chain F p) rfl fun _ => setFlags_kept (.refl s) _)

theorem execCgMultiExp_safe (g : Group) (r points n : Nat) (scalars : List Nat) :
    UnitSafe (execCgMultiExp g r points n scalars) :=
  .of_run fun s => .withGroup fun _ _ hF => .bind (.require rfl fun _ => .bind (.readPts hF fun _ hps =>
    .bind (.bind (.require rfl fun _ => .pure
      (writePt_kept (.refl s) (ptMultiExp_in hF _ _ fun _ hpe => hps _ (List.of_mem_zip hpe).1))))))

theorem execCgToAffine_safe (g : Group) (r p : Nat) : UnitSafe (execCgToAffine g r p) :=
  .of_run fun s => .withGroup fun _ _ hF => .bind (.readPt hF fun x _ =>
    .update ((UnitKept.refl s).store r (List.forall_mem_append.2 (ptToAffine_in hF x))))

/-! ## The pairing engines (43_pairing.md) -/

section
variable {α : Type} {s : State} {E : State → Prop}

theorem millerBn_kept {t : BnTower} {pe : Engine} {isBn : Bool} {ms : List (MillerPair E2 Unit)} (ht : t.Closed s.LegalWord)
    {K : E12 → State → Prop} (h : ∀ v, t.t12.fld.In s.LegalWord v → K v s) : Ensures (millerBn t pe isBn ms) s K E :=
  .bind (.getPEField fun _ => .bind (.getPEField fun _ => .bind (by
    cases isBn with
    | true => exact .getPEField fun _ => .pure (h _ (bnMillerLoop_in ht _ _ _ _ _))
    | false => exact .pure (.pure (h _ (bnMillerLoop_in ht _ _ _ _ _))))))

theorem multiPairBn_kept {t : BnTower} {pe : Engine} {isBn : Bool} {ms : List (MillerPair E2 Unit)} (ht : t.Closed s.LegalWord)
    {K : E12 → State → Prop} (h : ∀ v u, t.t12.fld.In s.LegalWord v → UnitKept s u → K v u) :
    Ensures (multiPairBn t pe isBn ms) s K E :=
  .bind (.getPEField fun _ => .bind (.getPEField fun _ => .bind (by
    have hK (tw ds neg) : Ensures (do
          noteFree t.t12.valid
          pure (bnMultiPair t tw isBn ds neg pe.x pe.xNeg ms)) s K E :=
      .bind (.update (.pure (h _ _ (bnMultiPair_in ht _ _ _ _ _ _ _) ((UnitKept.refl s).noteFree _))))
    cases isBn with
    | true => exact .getPEField fun _ => hK _ _ _
    | false => exact .pure (hK _ _ _))))

theorem multiPairMnt_kept {t : MntTower α} {pe : Engine} {ms : List (MillerPair α Unit)} (ht : t.Closed s.LegalWord)
    {K : α × α → State → Prop} (h : ∀ v u, t.tt.fld.In s.LegalWord v → UnitKept s u → K v u) :
    Ensures (multiPairMnt t pe ms) s K E :=
  .bind (.getPEField fun _ => .bind (.getPEField fun _ => .bind (.getPEField fun _ =>
    .bind (.update (.pure (h _ _ (mntMultiPair_in ht _ _ _ _ _ _) ((UnitKept.refl s).noteFree _)))))))

theorem readLine3_reads (F : Fld E2) (co : Nat) : Along (· = ·) (readLine3 F co) :=
  .bind eq_chain (.readElem eq_chain F _) fun _ => .bind eq_chain (.readElem eq_chain F _) fun _ =>
    .bind eq_chain (.readElem eq_chain F _) fun _ => .pure eq_chain _

theorem readLineValue_reads (t : MntTower α) (kind : LineKind) (co : Nat) (k : MntConsts α) :
    Along (· = ·) (readLineValue t kind co k) := by
  cases kind with
  | doubling => exact .bind eq_chain (.readPt4 eq_chain _ _) fun _ => .pure eq_chain _
  | addition => exact .bind eq_chain (.readXY eq_chain _ _) fun _ => .pure eq_chain _

end

theorem execPeNew_safe (family : Family) (twist : Twist) (x : Nat) (xNeg : Bool) (w0 w1 : Nat) (w0Neg : Bool) :
    UnitSafe (execPeNew family twist x xNeg w0 w1 w0Neg) :=
  .of_run fun _ => newPE_kept ..

theorem execPeDoublingStep_safe (r co src : Nat) : UnitSafe (execPeDoublingStep r co src) :=
  .of_run fun s => .withBn fun _ _ _ ht => .bind (.read (.readPt eq_chain _ _) rfl fun x =>
    have hstep := bnDoublingStep_in ht.t2.fld x
    .bind ((writePt_kept (.refl s) hstep.1).imp fun _ _ hu => writeLine3_kept hu hstep.2))

theorem execPeAdditionStep_safe (r co src q : Nat) : UnitSafe (execPeAdditionStep r co src q) :=
  .of_run fun s => .withBn fun _ _ _ ht => .bind (.read (.readPt eq_chain _ _) rfl fun x =>
    .bind (.read (.readXY eq_chain _ _) rfl fun qq =>
      have hstep := bnAdditionStep_in ht.t2.fld x qq.1 qq.2
      .bind ((writePt_kept (.refl s) hstep.1).imp fun _ _ hu => writeLine3_kept hu hstep.2)))

theorem execPeEll_safe (c f co p : Nat) : UnitSafe (execPeEll c f co p) :=
  .of_run fun s => .withBn fun _ _ _ ht => .bind (.getPEField fun _ => .bind (.readElem ht.t12.fld fun _ _ =>
    .bind (.read (readLine3_reads _ _) rfl fun _ => .bind (.readSlot fun _ _ => .bind (.readSlot fun _ _ =>
      writeElem_kept (.refl s) (bnEll_in ht _ _ _ _ _))))))

theorem execPeMillerLoop_safe (c pairs n : Nat) : UnitSafe (execPeMillerLoop c pairs n) :=
  .of_run fun s => .withBn fun _ _ _ ht => .bind (.read (.readPairs eq_chain _ _ _) rfl fun _ =>
    .bind (millerBn_kept ht fun _ hv => .bind ((writeElem_kept (.refl s) hv).imp fun _ _ hu => noteFree_kept hu _)))

theorem execPeFinalExp_safe (c f : Nat) : UnitSafe (execPeFinalExp c f) :=
  .of_run fun s => .withBn fun _ _ _ ht => .bind (.readElem ht.t12.fld fun _ _ =>
    .bind ((writeElem_kept (.refl s) (bnFinalExp_in ht _ _ _ _)).imp fun _ _ hu => noteFree_kept hu _))

theorem execPeMultiPair_safe (c pairs n : Nat) : UnitSafe (execPeMultiPair c pairs n) :=
  .of_run fun s => .bind (.getPE fun pe => by
    have hbn : Ensures (withBn (fun t e isBn => do
        let ms ← readPairs t.t2.fld pairs n
        let v ← multiPairBn t e isBn ms
        writeElem t.t12.fld c v)) s (fun _ t => UnitKept s t) (s = ·) :=
      .withBn fun _ _ _ ht => .bind (.read (.readPairs eq_chain _ _ _) rfl fun _ =>
        .bind (multiPairBn_kept ht fun _ _ hv hu => writeElem_kept hu hv))
    have hmnt : Ensures (withMnt (fun t e => do
        let ms ← readPairs t.te.fld pairs n
        let v ← multiPairMnt t e ms
        writeElem t.tt.fld c v)) s (fun _ t => UnitKept s t) (s = ·) :=
      .withMnt fun _ _ ht => .bind (.read (.readPairs eq_chain _ _ _) rfl fun _ =>
        .bind (multiPairMnt_kept ht fun _ _ hv hu => writeElem_kept hu hv))
    split
    · exact hbn
    · exact hbn
    · exact hmnt
    · exact hmnt)

theorem execPeDoublingStepMnt_safe (r co src : Nat) : UnitSafe (execPeDoublingStepMnt r co src) :=
  .of_run fun s => .withMnt fun t _ ht => .bind (.read (.readPt4 eq_chain _ _) rfl fun x =>
    have hstep := mntDoublingStep_in ht.te.fld t.a' x
    .bind ((writePt4_kept (.refl s) hstep.1).imp fun _ _ hu => writeLine4_kept hu hstep.2))

theorem execPeAdditionStepMnt_safe (r co src q : Nat) : UnitSafe (execPeAdditionStepMnt r co src q) :=
  .of_run fun s => .withMnt fun _ _ ht => .bind (.read (.readPt4 eq_chain _ _) rfl fun x =>
    .bind (.read (.readXY eq_chain _ _) rfl fun qq =>
      have hstep := mntAdditionStep_in ht.te.fld x qq.1 qq.2
      .bind ((writePt4_kept (.refl s) hstep.1).imp fun _ _ hu => writeLine2_kept hu hstep.2)))

theorem execPeEllMnt_safe (kind : LineKind) (c f co p q : Nat) : UnitSafe (execPeEllMnt kind c f co p q) :=
  .of_run fun s => .withMnt fun _ _ ht => .bind (.readElem ht.tt.fld fun _ _ => .bind (.readSlot fun _ _ =>
    .bind (.readSlot fun _ _ => .bind (.read (.readXY eq_chain _ _) rfl fun _ =>
      .bind (.read (readLineValue_reads _ _ _ _) rfl fun _ => writeElem_kept (.refl s) (ht.tt.fld.mul _ _))))))

theorem execPeMillerLoopMnt_safe (c pairs n : Nat) : UnitSafe (execPeMillerLoopMnt c pairs n) :=
  .of_run fun s => .withMnt fun _ _ ht => .bind (.read (.readPairs eq_chain _ _ _) rfl fun _ =>
    writeElem_kept (.refl s) (mntMillerLoop_in ht _ _ _))

theorem execPeFinalExpMnt_safe (c f : Nat) : UnitSafe (execPeFinalExpMnt c f) :=
  .of_run fun s => .withMnt fun _ _ ht => .bind (.getPEField fun _ => .bind (.getPEField fun _ => .bind (.getPEField fun _ =>
    .bind (.readElem ht.tt.fld fun _ _ =>
      .bind ((writeElem_kept (.refl s) (mntFinalExp_in ht _ _ _ _)).imp fun _ _ hu => noteFree_kept hu _)))))

end Sys2Proof.Machine

/-! PROOF. What a call leaves (10_state.md R28, R37, 60_exceptions.md R420, R446), and one case split over the instructions
that says of each whether it is a call or a unit operation and what it keeps. -/

namespace Sys2Proof.Machine

/-! ## The bodies of the calls -/

section
variable {R : State → State → Prop} {α : Type} (hR : CallChain R)
include hR

theorem Along.callAdd (F : Fld α) (c : CurveGroup) : Along R (Machine.callAdd F c) :=
  .bind hR.toChain (.decPoint hR F c) fun _ => .bind hR.toChain (.decPoint hR F c) fun _ => .bind hR.toChain (.decEnd hR) fun _ =>
    .pointBytes hR F _

theorem Along.callMul (F : Fld α) (c : CurveGroup) : Along R (Machine.callMul F c) :=
  .bind hR.toChain (.decPoint hR F c) fun _ => .bind hR.toChain (.decScalar hR c) fun _ => .bind hR.toChain (.decEnd hR) fun _ =>
    .pointBytes hR F _

theorem Along.callMexp (F : Fld α) (c : CurveGroup) : Along R (Machine.callMexp F c) :=
  .bind hR.toChain (.decMexpList hR F c) fun _ => .bind hR.toChain (.decEnd hR) fun _ =>
    .bind hR.toChain (.multiExp hR F _ _ _ _) fun _ => .pointBytes hR F _

theorem Along.decG2 (F : Fld α) (d : Nat) : Along R (Machine.decG2 F d) :=
  .bind hR.toChain (.decCurve hR F _ _) fun _ => .getCG hR.toChain _

/-- A G1 call: the base field and the curve, then its own operands. -/
theorem Along.g1Body {k : PrimeField × CurveGroup → M (List Byte)} (hk : ∀ fc, Along R (k fc)) :
    Along R (do
      let fc ← Machine.decG1
      k fc) :=
  .bind hR.toChain (.decG1 hR) hk

/-- A G2 call: the base field, the extension and the curve, then its own operands. -/
theorem Along.g2Body {k : {α : Type} → Fld α → CurveGroup → M (List Byte)}
    (hk : ∀ {α : Type} (F : Fld α) (c : CurveGroup), Along R (k F c)) :
    Along R (do
      Machine.decBase
      let d ← Machine.decExtHdr [2, 3] (fun d => d)
      Machine.withDegree d (fun F => do
        let c ← Machine.decG2 F d
        k F c)) :=
  .bind hR.toChain (.decBase hR) fun _ => .bind hR.toChain (.decExtHdr hR _ _) fun d =>
    .withDegree hR d fun F => .bind hR.toChain (Along.decG2 hR F d) fun c => hk F c

theorem Along.callTwisted (isBn : Bool) : Along R (Machine.callTwisted isBn) := by
  refine .bind hR.toChain (.decG1 hR) fun fc => .bind hR.toChain (.decExtHdr hR _ _) fun _ => .bind hR.toChain (.decXi hR) fun xi =>
    .bind hR.toChain (.decTwist hR xi) fun tw => .bind hR.toChain (.decTower hR xi) fun _ => .bind hR.toChain (.decLoop hR) fun x =>
    .bind hR.toChain (.readFlag hR) fun neg => ?_
  have pairsOn (family : Family) (b : Bool) : Along R (do
      let n ← Machine.decCount
      let tower ← Machine.getBnTower
      let c2 ← Machine.getCG .g2
      let pairs ← Machine.decPairs (fpFld fc.1) fc.2 tower.t2.fld c2 n
      Machine.decEnd
      Machine.newPE family tw x neg 0 0 false
      let pe ← Machine.getPE
      let v ← Machine.multiPairBn tower pe b pairs
      Machine.pairingResult (tower.t12.fld.beq v tower.t12.fld.one)) :=
    .bind hR.toChain (.decCount hR) fun n => .bind hR.toChain (.getBnTower hR.toChain) fun _ =>
      .bind hR.toChain (.getCG hR.toChain _) fun _ => .bind hR.toChain (.decPairs hR _ _ _ _ n) fun _ =>
      .bind hR.toChain (.decEnd hR) fun _ => .bind hR.toChain (.newPE hR _ _ _ _ _ _ _) fun _ =>
      .bind hR.toChain (.getPE hR.toChain) fun _ => .bind hR.toChain (.multiPairBn hR _ _ _ _) fun _ => .pairingResult hR _
  cases isBn with
  | true => exact .bind hR.toChain (.require hR.toChain _ _) fun _ => pairsOn _ _
  | false => exact pairsOn _ _

theorem Along.decMntCall (f : PrimeField) (c1 : CurveGroup) (F : Fld α) (l target : Level) (family : Family) :
    Along R (Machine.decMntCall f c1 F l target family) :=
  .bind hR.toChain (.decMntTwist hR F l) fun _ => .bind hR.toChain (.decMntTower hR F l target) fun _ =>
    .bind hR.toChain (.decMntLoops hR) fun _ => .bind hR.toChain (.decCount hR) fun n => .bind hR.toChain (.getCG hR.toChain _) fun _ =>
    .bind hR.toChain (.decPairs hR _ _ _ _ n) fun _ => .bind hR.toChain (.decEnd hR) fun _ =>
    .bind hR.toChain (.newPE hR _ _ _ _ _ _ _) fun _ => .pure hR.toChain _

theorem Along.mnt4Body : Along R Machine.mnt4Body :=
  .bind hR.toChain (.decG1 hR) fun _ => .bind hR.toChain (.decExtHdr hR _ _) fun _ => .bind hR.toChain (.getEX hR.toChain _) fun _ =>
    .bind hR.toChain (Along.decMntCall hR _ _ _ _ _ _) fun _ => .bind hR.toChain (.getPE hR.toChain) fun _ =>
    .bind hR.toChain (.getMnt4Tower hR.toChain _) fun _ => .bind hR.toChain (.multiPairMnt hR _ _ _) fun _ => .pairingResult hR _

theorem Along.mnt6Body : Along R Machine.mnt6Body :=
  .bind hR.toChain (.decG1 hR) fun _ => .bind hR.toChain (.decExtHdr hR _ _) fun _ => .bind hR.toChain (.getEX hR.toChain _) fun _ =>
    .bind hR.toChain (Along.decMntCall hR _ _ _ _ _ _) fun _ => .bind hR.toChain (.getPE hR.toChain) fun _ =>
    .bind hR.toChain (.getMnt6Tower hR.toChain _) fun _ => .bind hR.toChain (.multiPairMnt hR _ _ _) fun _ => .pairingResult hR _

end

/-! ## What a step keeps -/

/-- What every instruction keeps: what the host presented, the shape of the result, and the legality of the elements. -/
structure StepKept (s t : State) : Prop where
  inp : t.inp = s.inp
  cfg : t.cfg = s.cfg
  shape : s.resultShape → t.resultShape
  legal : s.elementsLegal → t.elementsLegal

/-- The inputs stand and the cursor stays inside the tape (10_state.md R28, R37, R38). -/
structure InputsKept (s t : State) : Prop where
  inp : t.inp = s.inp
  cfg : t.cfg = s.cfg
  off : s.cur.off ≤ s.inp.len → t.cur.off ≤ t.inp.len

theorem inputsKept_chain : CallChain InputsKept where
  refl _ := ⟨rfl, rfl, id⟩
  trans h1 h2 := ⟨h2.inp.trans h1.inp, h2.cfg.trans h1.cfg, h2.off ∘ h1.off⟩
  off _ _ hl := ⟨rfl, rfl, fun _ => hl⟩
  field _ _ := ⟨rfl, rfl, id⟩
  lq _ _ := ⟨rfl, rfl, id⟩
  pf _ _ := ⟨rfl, rfl, id⟩
  ex _ _ _ := ⟨rfl, rfl, id⟩
  cg _ g _ := by cases g <;> exact ⟨rfl, rfl, id⟩
  pe _ _ := ⟨rfl, rfl, id⟩
  flags _ _ := ⟨rfl, rfl, id⟩
  free _ := ⟨rfl, rfl, id⟩

theorem StepKept.trans {s t u : State} (h1 : StepKept s t) (h2 : StepKept t u) : StepKept s u :=
  ⟨h2.inp.trans h1.inp, h2.cfg.trans h1.cfg, h2.shape ∘ h1.shape, h2.legal ∘ h1.legal⟩

/-- An error leaves no output, no slots and the cursor at 0 (60_exceptions.md R420). -/
theorem StepKept.errorWith (s : State) (e : Err) : StepKept s (s.errorWith e) :=
  ⟨rfl, rfl, fun _ => ⟨fun _ => rfl, Nat.zero_le _⟩, fun _ => rfl⟩

/-- A meaning each of whose next states keeps what `StepKept` says. -/
def StepSafe (op : State → Host.Outcome State Fault Refusal) : Prop := ∀ s t, op s = .next t → StepKept s t

/-- A call leaves its result, the cursor where the decoder left it, and no slots (10_state.md R28, 60_exceptions.md R446). -/
theorem StepSafe.of_run {m : M (List Byte)} (h : Along InputsKept m) : StepSafe (runCall m) := by
  intro s t ht
  rcases runCall_next ht with ⟨bs, u, hu, rfl⟩ | ⟨e, u, hu, rfl⟩
  · obtain ⟨hinp, hcfg, hoff⟩ := (h s).1 bs u hu
    exact ⟨hinp, hcfg, fun ⟨_, hs⟩ => ⟨fun hne => absurd rfl hne, hoff hs⟩, fun _ => rfl⟩
  · obtain ⟨hinp, hcfg, -⟩ := (h s).2 _ u hu
    exact ⟨hinp, hcfg, fun _ => ⟨fun _ => rfl, Nat.zero_le _⟩, fun _ => rfl⟩

theorem UnitKept.step {s t : State} (h : UnitKept s t) : StepKept s t := by
  obtain ⟨hcfg, hinp, hcur, -⟩ := h.objects
  refine ⟨hinp, hcfg, fun ⟨hout, hoff⟩ => ⟨fun hne => ?_, ?_⟩, h.legal⟩
  · exact h.out.trans (hout (h.res ▸ hne))
  · rw [hcur, hinp]; exact hoff

/-- A unit operation keeps what every instruction keeps. -/
theorem UnitSafe.step {op : State → Host.Outcome State Fault Refusal} (h : UnitSafe op) : StepSafe op := by
  intro s t ht
  rcases h s t ht with hk | ⟨e, rfl⟩
  · exact hk.step
  · exact .errorWith s e

/-! ## The instructions -/

/-- The ten calls, as against the unit operations (30_encoding.md R100, R101). -/
def isCall : Instr → Bool
  | .g1add | .g1mul | .g1mexp | .g2add | .g2mul | .g2mexp | .bls12 | .bn | .mnt4 | .mnt6 => true
  | _ => false

/-- What each instruction leaves, by which of the two kinds it is. -/
theorem exec_kinds (i : Instr) : (isCall i = true ∧ StepSafe (exec i)) ∨ (isCall i = false ∧ UnitSafe (exec i)) := by
  have hR := inputsKept_chain
  cases i with
  | g1add => exact .inl ⟨rfl, .of_run (.g1Body hR fun _ => .callAdd hR _ _)⟩
  | g1mul => exact .inl ⟨rfl, .of_run (.g1Body hR fun _ => .callMul hR _ _)⟩
  | g1mexp => exact .inl ⟨rfl, .of_run (.g1Body hR fun _ => .callMexp hR _ _)⟩
  | g2add => exact .inl ⟨rfl, .of_run (.g2Body hR fun F c => .callAdd hR F c)⟩
  | g2mul => exact .inl ⟨rfl, .of_run (.g2Body hR fun F c => .callMul hR F c)⟩
  | g2mexp => exact .inl ⟨rfl, .of_run (.g2Body hR fun F c => .callMexp hR F c)⟩
  | bls12 => exact .inl ⟨rfl, .of_run (.callTwisted hR false)⟩
  | bn => exact .inl ⟨rfl, .of_run (.callTwisted hR true)⟩
  | mnt4 => exact .inl ⟨rfl, .of_run (.mnt4Body hR)⟩
  | mnt6 => exact .inl ⟨rfl, .of_run (.mnt6Body hR)⟩
  | pfNew => exact .inr ⟨rfl, execPfNew_safe _⟩
  | pfAdd => exact .inr ⟨rfl, execPfAdd_safe _ _ _⟩
  | pfSub => exact .inr ⟨rfl, execPfSub_safe _ _ _⟩
  | pfDouble => exact .inr ⟨rfl, execPfDouble_safe _ _⟩
  | pfNegate => exact .inr ⟨rfl, execPfNegate_safe _ _⟩
  | pfMul => exact .inr ⟨rfl, execPfMul_safe _ _ _⟩
  | pfSquare => exact .inr ⟨rfl, execPfSquare_safe _ _⟩
  | pfExp => exact .inr ⟨rfl, execPfExp_safe _ _ _⟩
  | pfInvert => exact .inr ⟨rfl, execPfInvert_safe _ _⟩
  | pfSqrt => exact .inr ⟨rfl, execPfSqrt_safe _ _⟩
  | pfNres => exact .inr ⟨rfl, execPfNres_safe _ _⟩
  | pfFromBytes => exact .inr ⟨rfl, execPfFromBytes_safe _ _⟩
  | pfToBytes => exact .inr ⟨rfl, execPfToBytes_safe _⟩
  | pfToBytesDense => exact .inr ⟨rfl, execPfToBytesDense_safe _⟩
  | pfToMont => exact .inr ⟨rfl, execPfToMont_safe _ _⟩
  | pfFromMont => exact .inr ⟨rfl, execPfFromMont_safe _ _⟩
  | exNew => exact .inr ⟨rfl, execExNew_safe _ _⟩
  | exAdd => exact .inr ⟨rfl, execExAdd_safe _ _ _ _⟩
  | exSub => exact .inr ⟨rfl, execExSub_safe _ _ _ _⟩
  | exNeg => exact .inr ⟨rfl, execExNeg_safe _ _ _⟩
  | exDouble => exact .inr ⟨rfl, execExDouble_safe _ _ _⟩
  | exMul => exact .inr ⟨rfl, execExMul_safe _ _ _ _⟩
  | exSquare => exact .inr ⟨rfl, execExSquare_safe _ _ _⟩
  | exInverse => exact .inr ⟨rfl, execExInverse_safe _ _ _⟩
  | exExp => exact .inr ⟨rfl, execExExp_safe _ _ _ _⟩
  | exConjugate => exact .inr ⟨rfl, execExConjugate_safe _ _ _⟩
  | exFrobeniusMap => exact .inr ⟨rfl, execExFrobeniusMap_safe _ _ _ _⟩
  | exCalcFrob => exact .inr ⟨rfl, execExCalcFrob_safe _⟩
  | exCalcFrobPre => exact .inr ⟨rfl, execExCalcFrobPre_safe _ _⟩
  | exMulBy014 => exact .inr ⟨rfl, execExMulBy014_safe _ _ _ _ _⟩
  | exMulBy034 => exact .inr ⟨rfl, execExMulBy034_safe _ _ _ _ _⟩
  | exCyclotomicSquare => exact .inr ⟨rfl, execExCyclotomicSquare_safe _ _⟩
  | cgNew => exact .inr ⟨rfl, execCgNew_safe _ _ _ _⟩
  | cgIsZero => exact .inr ⟨rfl, execCgIsZero_safe _ _⟩
  | cgIsOnCurve => exact .inr ⟨rfl, execCgIsOnCurve_safe _ _⟩
  | cgAdd => exact .inr ⟨rfl, execCgAdd_safe _ _ _ _⟩
  | cgDouble => exact .inr ⟨rfl, execCgDouble_safe _ _ _⟩
  | cgNegate => exact .inr ⟨rfl, execCgNegate_safe _ _ _⟩
  | cgScalarMul => exact .inr ⟨rfl, execCgScalarMul_safe _ _ _ _⟩
  | cgWnafMul => exact .inr ⟨rfl, execCgWnafMul_safe _ _ _ _⟩
  | cgSubgroupCheck => exact .inr ⟨rfl, execCgSubgroupCheck_safe _ _⟩
  | cgMultiExp => exact .inr ⟨rfl, execCgMultiExp_safe _ _ _ _ _⟩
  | cgToAffine => exact .inr ⟨rfl, execCgToAffine_safe _ _ _⟩
  | peNew => exact .inr ⟨rfl, execPeNew_safe _ _ _ _ _ _ _⟩
  | peDoublingStep => exact .inr ⟨rfl, execPeDoublingStep_safe _ _ _⟩
  | peAdditionStep => exact .inr ⟨rfl, execPeAdditionStep_safe _ _ _ _⟩
  | peEll => exact .inr ⟨rfl, execPeEll_safe _ _ _ _⟩
  | peMillerLoop => exact .inr ⟨rfl, execPeMillerLoop_safe _ _ _⟩
  | peFinalExp => exact .inr ⟨rfl, execPeFinalExp_safe _ _⟩
  | peMultiPair => exact .inr ⟨rfl, execPeMultiPair_safe _ _ _⟩
  | peDoublingStepMnt => exact .inr ⟨rfl, execPeDoublingStepMnt_safe _ _ _⟩
  | peAdditionStepMnt => exact .inr ⟨rfl, execPeAdditionStepMnt_safe _ _ _ _⟩
  | peEllMnt => exact .inr ⟨rfl, execPeEllMnt_safe _ _ _ _ _ _⟩
  | peMillerLoopMnt => exact .inr ⟨rfl, execPeMillerLoopMnt_safe _ _ _⟩
  | peFinalExpMnt => exact .inr ⟨rfl, execPeFinalExpMnt_safe _ _⟩

/-- Every instruction keeps what `StepKept` says. -/
theorem exec_stepKept {i : Instr} {s t : State} (h : exec i s = .next t) : StepKept s t := by
  rcases exec_kinds i with ⟨-, hcall⟩ | ⟨-, hunit⟩
  · exact hcall s t h
  · exact hunit.step s t h

end Sys2Proof.Machine

/-! PROOF. One step: the port decodes to unit operations, the tape starts a call, and every step keeps the invariants of the
state (O12, O13, O15). -/

namespace Sys2Proof

/-! ## The port decodes to unit operations only (30_encoding.md R101) -/

/-- Whatever a port reader answers satisfies `P`. -/
def PortReader.Answers {α : Type} (P : α → Prop) (m : PortReader α) : Prop := ∀ ws a t, m ws = .ok a t → P a

theorem PortReader.Answers.pure {α : Type} {P : α → Prop} {a : α} (h : P a) : Answers P (pure a : PortReader α) := by
  intro ws b t hb
  cases hb
  exact h

theorem PortReader.Answers.bind {α β : Type} {P : β → Prop} {m : PortReader α} {k : α → PortReader β}
    (h : ∀ a, Answers P (k a)) : Answers P (m >>= k) := by
  intro ws b t hb
  rw [PortReader.bind_apply] at hb
  cases hm : m ws with
  | ok a u => rw [hm] at hb; exact h a u b t hb
  | error e u => rw [hm] at hb; cases hb

/-- No selector reads a call: each arm reads its operands and answers its own unit operation. -/
theorem readOperands_answers_unit (sel : Nat) : PortReader.Answers (Machine.isCall · = false) (readOperands sel) := by
  fun_cases readOperands sel
  case case56 => intro _ _ _ h; cases h
  all_goals
    repeat refine .bind fun _ => ?_
    exact .pure rfl

/-- Port words that decode decode to a unit operation. -/
theorem decode_port_unit {ws : List Word} {i : Instr} (h : decode (.port ws) = .ok i) : Machine.isCall i = false := by
  unfold decode decodePort at h
  cases ws with
  | nil => cases h
  | cons sel rest =>
    cases hr : readOperands sel.toNat rest with
    | error e t => simp only [hr] at h; cases h
    | ok j t =>
      simp only [hr] at h
      split at h
      · cases h; exact readOperands_answers_unit _ _ _ _ hr
      · cases h

end Sys2Proof

namespace Sys2Proof.Machine

/-! ## One step -/

/-- A step with words at the port runs the unit operation they decode to, with the port emptied (log 3). -/
theorem step_port {s t : State} (hp : s.port ≠ []) (h : step s = .next t) :
    ∃ i, decode (.port s.port) = .ok i ∧ exec i s.clearPort = .next t := by
  have hne : s.port.isEmpty = false := by simpa using hp
  unfold step fetch at h
  simp only [hne, Bool.false_eq_true, if_false] at h
  cases hd : decode (.port s.port) with
  | error e => simp only [hd] at h; cases h
  | ok i => simp only [hd] at h; exact ⟨i, rfl, h⟩

/-- The state a call's meaning runs in, when byte 0 is there (45_dispatcher.md R380). -/
theorem beginCall_stepKept {s : State} (h : 1 ≤ s.inp.len) : StepKept s s.beginCall :=
  ⟨rfl, rfl, fun _ => ⟨fun _ => rfl, h⟩, fun _ => rfl⟩

/-- A step with no words at the port ends the call with an error, or runs an instruction from the start state of a call. -/
theorem step_tape {s t : State} (hp : s.port = []) (h : step s = .next t) :
    (∃ e, t = s.errorWith e) ∨ 1 ≤ s.inp.len ∧ ∃ i, exec i s.beginCall = .next t := by
  unfold step fetch readByte at h
  simp only [hp, List.isEmpty_nil, if_true, M.bind_apply] at h
  rcases tapeRead_cases 1 s.resetCall with ⟨-, hr⟩ | ⟨hl, hr⟩
  · simp only [hr] at h
    cases h
    exact .inl ⟨_, rfl⟩
  · simp only [hr, M.pure_apply] at h
    split at h
    · next o hd =>
      split at hd
      · cases hd
      · cases hd; cases h; exact .inl ⟨_, rfl⟩
    · next it hd =>
      split at hd
      · cases hd; exact .inr ⟨hl, _, h⟩
      · cases hd

/-- Every step keeps what `StepKept` says. -/
theorem step_stepKept {s t : State} (h : step s = .next t) : StepKept s t := by
  by_cases hp : s.port = []
  · rcases step_tape hp h with ⟨e, rfl⟩ | ⟨hl, i, hi⟩
    · exact .errorWith s e
    · exact (beginCall_stepKept hl).trans (exec_stepKept hi)
  · obtain ⟨i, -, hi⟩ := step_port hp h
    exact (⟨rfl, rfl, id, id⟩ : StepKept s s.clearPort).trans (exec_stepKept hi)

/-! ## The invariants -/

/-- Settles O12: calls leave no slot set, and unit operations write legal words only (`UnitKept.legal`). -/
theorem elementsStayLegal : Obligations.ElementsStayLegal := fun _ _ hs h => (step_stepKept h).legal hs

/-- Settles O13: only the end of a call writes the result, and reads stay inside the tape. -/
theorem resultShapeKept : Obligations.ResultShapeKept := fun _ _ hs h => (step_stepKept h).shape hs

/-- Settles O15: the inputs stand over every step; the port decodes to unit operations only, and each is `UnitSafe`. -/
theorem inputsAndObjectsKept : Obligations.InputsAndObjectsKept := by
  refine ⟨fun s t h => ⟨(step_stepKept h).inp, (step_stepKept h).cfg⟩, fun s t hp h => ?_⟩
  obtain ⟨i, hd, hi⟩ := step_port hp h
  rcases exec_kinds i with ⟨hcall, -⟩ | ⟨-, hunit⟩
  · rw [decode_port_unit hd] at hcall; cases hcall
  · rcases hunit s.clearPort t hi with hk | he
    · exact .inl hk.objects
    · exact .inr he

end Sys2Proof.Machine

/-! PROOF. The tapes: what a write leaves at every offset (20_memory.md R62, R64; O16). -/

namespace Sys2Proof.Machine

/-! ## What a write leaves where -/

/-- Inside the written run each byte of the string reads back. -/
theorem Memory.read_write_inside {m : Memory} {a k : Nat} {bs : List Byte} (hm : m.wf = true)
    (hlo : a ≤ k) (hhi : k < a + bs.length) : (m.write a bs).read k = bs.getD (k - a) 0 := by
  rw [Memory.read_write bs m a k hm, if_pos ⟨hlo, hhi⟩]

/-- The frame of a write: below the written run and past its end every offset reads as before. -/
theorem Memory.read_write_outside {m : Memory} {a k : Nat} {bs : List Byte} (hm : m.wf = true)
    (hout : k < a ∨ a + bs.length ≤ k) : (m.write a bs).read k = m.read k := by
  have hnot : ¬ (a ≤ k ∧ k < a + bs.length) := by omega
  rw [Memory.read_write bs m a k hm, if_neg hnot]

/-- Settles O16: each offset lies inside the written run or outside it; the length and the canonical form are those of
`Memory.write_len` and `Memory.wf_write`, which hold for the empty string too. -/
theorem tapeWriteThenRead : Obligations.TapeWriteThenRead := fun m a bs hm =>
  ⟨fun _ hlo hhi => Memory.read_write_inside hm hlo hhi, fun _ hout => Memory.read_write_outside hm hout,
    Memory.write_len bs m a, Memory.wf_write bs m a hm⟩

end Sys2Proof.Machine

/-! PROOF. The encoding (30_encoding.md): the decoder takes back what the encoder writes (O1, and O2 from it),
byte 0 selects the call (O3), and the length of a call's buffer (O4). -/

namespace Sys2Proof

theorem PortReader.bind_of_ok {α β : Type} {m : PortReader α} {a : α} {ws rest : List Word} (h : m ws = .ok a rest)
    {k : α → PortReader β} : (m >>= k) ws = k a rest := by
  rw [PortReader.bind_apply, h]

/-! ## Slot operands: each reader takes the words of its slots whole -/

theorem read1_wordOf (k : Nat → Instr) {a : Nat} (h : fitsWord a = true) : read1 k [wordOf a] = .ok (k a) [] := by
  rw [read1, PortReader.bind_of_ok (readWord_wordOf h _)]
  rfl

theorem read2_wordOf (k : Nat → Nat → Instr) {a b : Nat} (h : (fitsWord a && fitsWord b) = true) :
    read2 k [wordOf a, wordOf b] = .ok (k a b) [] := by
  simp only [Bool.and_eq_true] at h
  obtain ⟨ha, hb⟩ := h
  rw [read2, PortReader.bind_of_ok (readWord_wordOf ha _), PortReader.bind_of_ok (readWord_wordOf hb _)]
  rfl

theorem read3_wordOf (k : Nat → Nat → Nat → Instr) {a b c : Nat} (h : (fitsWord a && fitsWord b && fitsWord c) = true) :
    read3 k [wordOf a, wordOf b, wordOf c] = .ok (k a b c) [] := by
  simp only [Bool.and_eq_true] at h
  obtain ⟨⟨ha, hb⟩, hc⟩ := h
  rw [read3, PortReader.bind_of_ok (readWord_wordOf ha _), PortReader.bind_of_ok (readWord_wordOf hb _),
    PortReader.bind_of_ok (readWord_wordOf hc _)]
  rfl

theorem read4_wordOf (k : Nat → Nat → Nat → Nat → Instr) {a b c d : Nat}
    (h : (fitsWord a && fitsWord b && fitsWord c && fitsWord d) = true) :
    read4 k [wordOf a, wordOf b, wordOf c, wordOf d] = .ok (k a b c d) [] := by
  simp only [Bool.and_eq_true] at h
  obtain ⟨⟨⟨ha, hb⟩, hc⟩, hd⟩ := h
  rw [read4, PortReader.bind_of_ok (readWord_wordOf ha _), PortReader.bind_of_ok (readWord_wordOf hb _),
    PortReader.bind_of_ok (readWord_wordOf hc _), PortReader.bind_of_ok (readWord_wordOf hd _)]
  rfl

theorem read5_wordOf (k : Nat → Nat → Nat → Nat → Nat → Instr) {a b c d e : Nat}
    (h : (fitsWord a && fitsWord b && fitsWord c && fitsWord d && fitsWord e) = true) :
    read5 k [wordOf a, wordOf b, wordOf c, wordOf d, wordOf e] = .ok (k a b c d e) [] := by
  simp only [Bool.and_eq_true] at h
  obtain ⟨⟨⟨⟨ha, hb⟩, hc⟩, hd⟩, he⟩ := h
  rw [read5, PortReader.bind_of_ok (readWord_wordOf ha _), PortReader.bind_of_ok (readWord_wordOf hb _),
    PortReader.bind_of_ok (readWord_wordOf hc _), PortReader.bind_of_ok (readWord_wordOf hd _),
    PortReader.bind_of_ok (readWord_wordOf he _)]
  rfl

/-- Two slots, then a big integer, which ends the code. -/
theorem read2Big_wordOf (k : Nat → Nat → Nat → Instr) {a b e : Nat} (h : (fitsWord a && fitsWord b && bigFits e) = true) :
    read2Big k (wordOf a :: wordOf b :: wordsOfBig e) = .ok (k a b e) [] := by
  simp only [Bool.and_eq_true] at h
  obtain ⟨⟨ha, hb⟩, he⟩ := h
  rw [read2Big, PortReader.bind_of_ok (readWord_wordOf ha _), PortReader.bind_of_ok (readWord_wordOf hb _),
    PortReader.bind_of_ok (readBig_last he)]
  rfl

/-! ## Operands that stand in one code only -/

/-- The residue degree `n` of `PF.NRES` is the word `n - 1`: `n` is positive (40_prime_field.md R152). -/
theorem read2_pfNres {a n : Nat} (h : (fitsWord a && (decide (1 ≤ n) && decide (n ≤ 65536))) = true) :
    read2 (fun a n => .pfNres a (n + 1)) [wordOf a, wordOf (n - 1)] = .ok (.pfNres a n) [] := by
  simp only [Bool.and_eq_true, decide_eq_true_eq] at h
  obtain ⟨ha, hpos, hle⟩ := h
  have hfit : fitsWord (n - 1) = true := decide_eq_true (by omega)
  rw [read2_wordOf _ (by rw [ha, hfit]; rfl), Nat.sub_add_cancel hpos]

theorem readOperands_pfNew {mb : List Byte} (h : bytesFit mb = true) :
    readOperands 0x1001 (wordsOfBytes mb) = .ok (.pfNew mb) [] := by
  rw [readOperands_1001, PortReader.bind_of_ok (readBytes_last h)]
  rfl

theorem readOperands_pfFromBytes {c : Nat} {bs : List Byte} (h : (fitsWord c && bytesFit bs) = true) :
    readOperands 0x100c (wordOf c :: wordsOfBytes bs) = .ok (.pfFromBytes c bs) [] := by
  obtain ⟨hc, hbs⟩ := Bool.and_eq_true_iff.mp h
  rw [readOperands_100c, PortReader.bind_of_ok (readWord_wordOf hc _), PortReader.bind_of_ok (readBytes_last hbs)]
  rfl

theorem readOperands_cgNew (f : CurveField) {a b : Option Nat} {ob : List Byte}
    (h : (a.all fitsWord && b.all fitsWord && bytesFit ob) = true) :
    readOperands 0x3001 (wordOfCurveField f :: (wordsOfOptSlot a ++ wordsOfOptSlot b ++ wordsOfBytes ob)) =
      .ok (.cgNew f a b ob) [] := by
  simp only [Bool.and_eq_true] at h
  obtain ⟨⟨ha, hb⟩, hob⟩ := h
  rw [readOperands_3001, PortReader.bind_of_ok (readCurveField_wordOf f _), List.append_assoc,
    PortReader.bind_of_ok (readOptSlot_wordsOfOptSlot ha _), PortReader.bind_of_ok (readOptSlot_wordsOfOptSlot hb _),
    PortReader.bind_of_ok (readBytes_last hob)]
  rfl

theorem readOperands_cgMultiExp (g : Group) {r points n : Nat} {scalars : List Nat}
    (h : (fitsWord r && fitsWord points && fitsWord n && fitsWord scalars.length && scalars.all bigFits) = true) :
    readOperands 0x300a (wordOfGroup g :: wordOf r :: wordOf points :: wordOf n :: wordsOfBigs scalars) =
      .ok (.cgMultiExp g r points n scalars) [] := by
  simp only [Bool.and_eq_true] at h
  obtain ⟨⟨⟨⟨hr, hpoints⟩, hn⟩, hlen⟩, hscalars⟩ := h
  rw [readOperands_300a, PortReader.bind_of_ok (readGroup_wordOf g _), PortReader.bind_of_ok (readWord_wordOf hr _),
    PortReader.bind_of_ok (readWord_wordOf hpoints _), PortReader.bind_of_ok (readWord_wordOf hn _),
    PortReader.bind_of_ok (readBigs_last hlen hscalars)]
  rfl

theorem readOperands_peNew (f : Family) (t : Twist) {x : Nat} (xn : Bool) {w0 w1 : Nat} (w0n : Bool)
    (h : (bigFits x && bigFits w0 && bigFits w1) = true) :
    readOperands 0x4001 (wordOfFamily f :: wordOfTwist t ::
        (wordsOfBig x ++ (wordOfBool xn :: (wordsOfBig w0 ++ (wordsOfBig w1 ++ [wordOfBool w0n]))))) =
      .ok (.peNew f t x xn w0 w1 w0n) [] := by
  simp only [Bool.and_eq_true] at h
  obtain ⟨⟨hx, hw0⟩, hw1⟩ := h
  rw [readOperands_4001, PortReader.bind_of_ok (readFamily_wordOf f _), PortReader.bind_of_ok (readTwist_wordOf t _),
    PortReader.bind_of_ok (readBig_wordsOfBig hx _), PortReader.bind_of_ok (readBool_wordOfBool xn _),
    PortReader.bind_of_ok (readBig_wordsOfBig hw0 _), PortReader.bind_of_ok (readBig_wordsOfBig hw1 _),
    PortReader.bind_of_ok (readBool_wordOfBool w0n _)]
  rfl

/-! ## Decoding a code of the unit port, by the reader its selector names -/

/-- The reader of the selector takes the operand words whole. -/
theorem decode_port {sel : Word} {ws : List Word} {m : PortReader Instr} {i : Instr}
    (hm : readOperands sel.toNat = m) (h : m ws = .ok i []) : decode (.port (sel :: ws)) = .ok i :=
  decodePort_of_read (hm ▸ h)

/-- As `decode_port`, when the reader starts with an index word (a level, a group, a line kind). -/
theorem decode_port_at {α : Type} {sel w : Word} {ws : List Word} {index : PortReader α} {m : α → PortReader Instr} {a : α}
    {i : Instr} (hm : readOperands sel.toNat = index >>= m) (hindex : index (w :: ws) = .ok a ws) (h : m a ws = .ok i []) :
    decode (.port (sel :: w :: ws)) = .ok i :=
  decode_port hm ((PortReader.bind_of_ok hindex).trans h)

/-! ## The round trip (O1) and written-out codes (O2) -/

/-- Each instruction by the shape of its operands; its well-formedness is what the lemma of that shape asks. -/
theorem decode_encode (i : Instr) (h : i.wellFormed = true) : decode (encode i) = .ok i := by
  cases i with
  | g1add | g1mul | g1mexp | g2add | g2mul | g2mexp | bls12 | bn | mnt4 | mnt6 => rfl
  | pfToBytes | pfToBytesDense => exact decode_port rfl (read1_wordOf _ h)
  | pfDouble | pfNegate | pfSquare | pfInvert | pfSqrt | pfToMont | pfFromMont | exCyclotomicSquare | peFinalExp
  | peFinalExpMnt => exact decode_port rfl (read2_wordOf _ h)
  | pfAdd | pfSub | pfMul | peDoublingStep | peMillerLoop | peMultiPair | peDoublingStepMnt | peMillerLoopMnt =>
    exact decode_port rfl (read3_wordOf _ h)
  | peAdditionStep | peEll | peAdditionStepMnt => exact decode_port rfl (read4_wordOf _ h)
  | exMulBy014 | exMulBy034 => exact decode_port rfl (read5_wordOf _ h)
  | exCalcFrob => exact decode_port_at rfl (readLevel_wordOf _ _) rfl
  | exNew => exact decode_port_at rfl (readLevel_wordOf _ _) (read1_wordOf _ h)
  | exNeg | exDouble | exSquare | exInverse => exact decode_port_at rfl (readLevel_wordOf _ _) (read2_wordOf _ h)
  | exAdd | exSub | exMul | exFrobeniusMap => exact decode_port_at rfl (readLevel_wordOf _ _) (read3_wordOf _ h)
  | exConjugate => exact decode_port_at rfl (readQuadLevel_wordOf _ _) (read2_wordOf _ h)
  | exCalcFrobPre => exact decode_port_at rfl (readPreLevel_wordOf _ _) (read1_wordOf _ h)
  | cgIsZero | cgIsOnCurve | cgSubgroupCheck => exact decode_port_at rfl (readGroup_wordOf _ _) (read1_wordOf _ h)
  | cgDouble | cgNegate | cgToAffine => exact decode_port_at rfl (readGroup_wordOf _ _) (read2_wordOf _ h)
  | cgAdd => exact decode_port_at rfl (readGroup_wordOf _ _) (read3_wordOf _ h)
  | peEllMnt => exact decode_port_at rfl (readLineKind_wordOf _ _) (read5_wordOf _ h)
  | pfExp => exact decode_port rfl (read2Big_wordOf _ h)
  | exExp => exact decode_port_at rfl (readLevel_wordOf _ _) (read2Big_wordOf _ h)
  | cgScalarMul | cgWnafMul => exact decode_port_at rfl (readGroup_wordOf _ _) (read2Big_wordOf _ h)
  | pfNres => exact decode_port rfl (read2_pfNres h)
  | pfNew => exact decode_port rfl (readOperands_pfNew h)
  | pfFromBytes => exact decode_port rfl (readOperands_pfFromBytes h)
  | cgNew => exact decode_port rfl (readOperands_cgNew _ h)
  | cgMultiExp => exact decode_port rfl (readOperands_cgMultiExp _ h)
  | peNew => exact decode_port rfl (readOperands_peNew _ _ _ _ h)

/-- Settles O1: the round trip holds shape by shape. -/
theorem decodeEncodeRoundTrip : Obligations.DecodeEncodeRoundTrip := decode_encode

/-- Settles O2: each written-out code is the code of the instruction beside it (R100, R101), so it decodes by the round
trip. -/
theorem decodedWords : Obligations.DecodedWords :=
  ⟨decode_encode .g1add rfl, decode_encode .mnt6 rfl, decode_encode (.pfAdd 7 8 9) rfl,
    decode_encode (.exMul .fq12 0 12 24) rfl, decode_encode (.cgAdd .g2 0 6 12) rfl,
    decode_encode (.peDoublingStepMnt 1 2 3) rfl⟩

/-! ## Byte 0 (30_encoding.md R100, R102; O3) -/

/-- A byte outside `0x01 .. 0x0a` is no operation (30_encoding.md R102). -/
theorem decodeOpcode_eq_none {op : Byte} (h : ¬ (1 ≤ op.toNat ∧ op.toNat ≤ 10)) : decodeOpcode op = none := by
  fun_cases decodeOpcode op
  case case11 => rfl
  all_goals omega

theorem decode_tape_badOpcode {op : Byte} (h : ¬ (1 ≤ op.toNat ∧ op.toNat ≤ 10)) :
    decode (.tape op) = .error .badOpcode := by
  rw [decode, decodeOpcode_eq_none h]

/-- Settles O3: a byte in `0x01 .. 0x0a` is one of the ten opcodes, each read off the decoder; any other is none of them. -/
theorem opcodeByteSelectsOperation : Obligations.OpcodeByteSelectsOperation := by
  intro op
  by_cases hin : 1 ≤ op.toNat ∧ op.toNat ≤ 10
  · have hop : op = 0x01 ∨ op = 0x02 ∨ op = 0x03 ∨ op = 0x04 ∨ op = 0x05 ∨ op = 0x06 ∨ op = 0x07 ∨ op = 0x08 ∨ op = 0x09 ∨
        op = 0x0a := by bv_omega
    rcases hop with rfl | rfl | rfl | rfl | rfl | rfl | rfl | rfl | rfl | rfl <;> rfl
  · have hne : ∀ code : Byte, 1 ≤ code.toNat ∧ code.toNat ≤ 10 → op ≠ code := fun _ hcode h => hin (h ▸ hcode)
    rw [decode_tape_badOpcode hin, if_neg (hne 0x01 (by decide)), if_neg (hne 0x02 (by decide)),
      if_neg (hne 0x03 (by decide)), if_neg (hne 0x04 (by decide)), if_neg (hne 0x05 (by decide)),
      if_neg (hne 0x06 (by decide)), if_neg (hne 0x07 (by decide)), if_neg (hne 0x08 (by decide)),
      if_neg (hne 0x09 (by decide)), if_neg (hne 0x0a (by decide))]

/-! ## The length of each field of a call (30_encoding.md R86 to R88) -/

/-- A list whose entries all take `n` bytes. -/
theorem length_flatMap_of_const {α β : Type} {g : α → List β} {n : Nat} :
    ∀ {l : List α}, (∀ x ∈ l, (g x).length = n) → (l.flatMap g).length = l.length * n
  | [], _ => by simp
  | x :: l, h => by
    obtain ⟨hx, hl⟩ := List.forall_mem_cons.mp h
    rw [List.flatMap_cons, List.length_append, hx, length_flatMap_of_const hl, List.length_cons, Nat.succ_mul, Nat.add_comm]

theorem elementBytes_length {lp d : Nat} {v : List Nat} (h : elementWidth lp d v = true) :
    (elementBytes lp v).length = d * lp := by
  have hd : v.length = d := eq_of_beq (Bool.and_eq_true_iff.mp h).1
  rw [elementBytes, length_flatMap_of_const fun c _ => natToBytes_length c lp, hd]

theorem prefixedBytes_length (bs : List Byte) : (prefixedBytes bs).length = bs.length + 1 := rfl

theorem extBytes_length (lp : Nat) (h : ExtHeader) : (extBytes lp h).length = lp + 1 := by
  rw [extBytes, List.length_cons, natToBytes_length]

theorem scalarBytes_length (c : CurveFields) (e : Nat) : (scalarBytes c e).length = c.ord.length :=
  natToBytes_length e _

theorem pointFieldBytes_length {lp d : Nat} {pt : PointFields} (h : pointWidth lp d pt = true) :
    (pointFieldBytes lp pt).length = 2 * (d * lp) := by
  obtain ⟨hx, hy⟩ := Bool.and_eq_true_iff.mp h
  rw [pointFieldBytes, List.length_append, elementBytes_length hx, elementBytes_length hy, Nat.two_mul]

theorem curveBytes_length {lp d : Nat} {c : CurveFields} (h : curveWidth lp d c = true) :
    (curveBytes lp c).length = 2 * (d * lp) + c.ord.length + 1 := by
  simp only [curveWidth, Bool.and_eq_true] at h
  obtain ⟨⟨ha, hb⟩, -⟩ := h
  rw [curveBytes, List.length_append, List.length_append, elementBytes_length ha, elementBytes_length hb,
    prefixedBytes_length]
  ring

theorem mexpListBytes_length {lp d : Nat} {c : CurveFields} {list : List (PointFields × Nat)}
    (h : mexpListWidth lp d c list = true) :
    (mexpListBytes lp c list).length = list.length * (2 * (d * lp) + c.ord.length) + 1 := by
  have hentries := List.all_eq_true.mp (Bool.and_eq_true_iff.mp h).2
  rw [mexpListBytes, List.length_cons, length_flatMap_of_const fun pe hpe => ?_]
  have hpoint := (Bool.and_eq_true_iff.mp (hentries pe hpe)).1
  rw [List.length_append, pointFieldBytes_length hpoint, scalarBytes_length]

/-- Two flag bytes, a point over `Fp` and a point over the degree-`d` field of G2. -/
theorem pairsBytes_length {lp d : Nat} {prs : List PairFields} (h : pairsWidth lp d prs = true) :
    (pairsBytes lp prs).length = prs.length * (2 + 2 * lp + 2 * (d * lp)) + 1 := by
  have hpairs := List.all_eq_true.mp (Bool.and_eq_true_iff.mp h).2
  rw [pairsBytes, List.length_cons, length_flatMap_of_const fun pr hpr => ?_]
  have hpr := hpairs pr hpr
  simp only [Bool.and_eq_true] at hpr
  obtain ⟨⟨⟨-, hp⟩, -⟩, hq⟩ := hpr
  simp only [pairBytes, List.length_cons, List.length_append, pointFieldBytes_length hp, pointFieldBytes_length hq]
  omega

theorem twistedBytes_length {lp : Nat} {t : TwistedFields} (h : twistedWidth lp t = true) :
    (twistedBytes lp t).length = 5 + 3 * lp + t.loop.length + t.pairs.length * (2 + 6 * lp) := by
  simp only [twistedWidth, Bool.and_eq_true] at h
  obtain ⟨⟨⟨⟨⟨-, hxi⟩, -⟩, -⟩, -⟩, hpairs⟩ := h
  simp only [twistedBytes, List.length_append, List.length_cons, extBytes_length, elementBytes_length hxi,
    prefixedBytes_length, pairsBytes_length hpairs]
  ring

theorem mntBytes_length {lp d : Nat} {t : MntFields} (h : mntWidth lp d t = true) :
    (mntBytes lp t).length = 7 + lp + t.loop.length + t.w0.length + t.w1.length
      + t.pairs.length * (2 + 2 * lp + 2 * (d * lp)) := by
  have hpairs := (Bool.and_eq_true_iff.mp h).2
  simp only [mntBytes, List.length_append, List.length_cons, extBytes_length, prefixedBytes_length,
    pairsBytes_length hpairs]
  ring

/-! ## The length of each call (30_encoding.md R90 to R99; O4) -/

/-- Byte 0 comes before the payload. -/
theorem encodeCall_length (c : Call) : (encodeCall c).length = (callPayload c).length + 1 := rfl

/-- Settles O4: the lengths of the fields of each format add up to its formula. -/
theorem callLengths : Obligations.CallLengths := by
  intro c h
  rw [encodeCall_length]
  cases c <;> simp only [Call.encodable, Bool.and_eq_true] at h <;>
    simp only [callPayload, List.length_append, prefixedBytes_length]
  case g1add =>
    obtain ⟨⟨⟨-, hc⟩, hp1⟩, hp2⟩ := h
    rw [curveBytes_length hc, pointFieldBytes_length hp1, pointFieldBytes_length hp2]
    ring
  case g1mul =>
    obtain ⟨⟨⟨-, hc⟩, hp⟩, -⟩ := h
    rw [curveBytes_length hc, pointFieldBytes_length hp, scalarBytes_length]
    ring
  case g1mexp =>
    obtain ⟨⟨-, hc⟩, hlist⟩ := h
    rw [curveBytes_length hc, mexpListBytes_length hlist]
    ring
  case g2add =>
    obtain ⟨⟨⟨⟨-, -⟩, hc⟩, hp1⟩, hp2⟩ := h
    rw [extBytes_length, curveBytes_length hc, pointFieldBytes_length hp1, pointFieldBytes_length hp2]
    ring
  case g2mul =>
    obtain ⟨⟨⟨⟨-, -⟩, hc⟩, hp⟩, -⟩ := h
    rw [extBytes_length, curveBytes_length hc, pointFieldBytes_length hp, scalarBytes_length]
    ring
  case g2mexp =>
    obtain ⟨⟨⟨-, -⟩, hc⟩, hlist⟩ := h
    rw [extBytes_length, curveBytes_length hc, mexpListBytes_length hlist]
    ring
  case bls12 | bn =>
    obtain ⟨⟨-, hc⟩, ht⟩ := h
    rw [curveBytes_length hc, twistedBytes_length ht]
    ring
  case mnt4 | mnt6 =>
    obtain ⟨⟨-, hc⟩, ht⟩ := h
    rw [curveBytes_length hc, mntBytes_length ht]
    ring

end Sys2Proof

/-! PROOF. How the prime-field unit runs (40_prime_field.md R139): one rule for its checks and one for each form of operand. -/

namespace Sys2Proof.Machine

section
variable {s : State} {f : PrimeField}

/-- A check that holds lets the operation go on. -/
theorem runUnit_require_of {ok : Bool} (h : ok = true) (e : Err) (k : Unit → M Unit) (s : State) :
    runUnit (require ok e >>= k) s = runUnit (k ()) s := by
  rw [h]
  rfl

/-- The error of a check that fails ends the call (60_exceptions.md R420). -/
theorem runUnit_require_not {ok : Bool} (h : ok = false) (e : Err) (k : Unit → M Unit) (s : State) :
    runUnit (require ok e >>= k) s = .next (s.errorWith e) := by
  rw [h]
  rfl

/-- An operation on the field block runs with the block that exists. -/
theorem runUnit_getPF_bind (hf : s.pf = some f) (k : PrimeField → M Unit) : runUnit (getPF >>= k) s = runUnit (k f) s := by
  rw [runUnit, M.bind_of_ok (getPF_some hf), runUnit]

/-- An operation on a slot runs with the value it holds. -/
theorem runUnit_readSlot_bind {a x : Nat} (hx : regGet a s.slots = some x) (k : Nat → M Unit) :
    runUnit (readSlot a >>= k) s = runUnit (k x) s := by
  rw [runUnit, M.bind_of_ok (readSlot_some hx), runUnit]

/-- A one-operand operation writes its value to the destination and nothing else. -/
theorem runUnit_slotOp1 (op : PrimeField → Nat → Nat) {a x : Nat} (hf : s.pf = some f) (hx : regGet a s.slots = some x)
    (c : Nat) : runUnit (slotOp1 op c a) s = .next (s.store c [op f x]) := by
  rw [slotOp1, runUnit_getPF_bind hf, runUnit_readSlot_bind hx]
  rfl

/-- A two-operand operation writes its value to the destination and nothing else. -/
theorem runUnit_slotOp2 (op : PrimeField → Nat → Nat → Nat) {a b x y : Nat} (hf : s.pf = some f)
    (hx : regGet a s.slots = some x) (hy : regGet b s.slots = some y) (c : Nat) :
    runUnit (slotOp2 op c a b) s = .next (s.store c [op f x y]) := by
  rw [slotOp2, runUnit_getPF_bind hf, runUnit_readSlot_bind hx, runUnit_readSlot_bind hy]
  rfl

/-- `PF.INVERT` writes the destination and `INV.ok`. -/
theorem execPfInvert_next {a x : Nat} (hf : s.pf = some f) (hx : regGet a s.slots = some x) (c : Nat) :
    execPfInvert c a s = .next ((s.store c [(f.invert x).2]).setFlags { s.flags with invOk := some (f.invert x).1 }) := by
  rw [execPfInvert, runUnit_getPF_bind hf, runUnit_readSlot_bind hx]
  rfl

end

/-! ## Construction (40_prime_field.md R130, R132) -/

/-- `PF.inv`: the low `k` bits of `-p⁻¹`, for an odd modulus. Bit `k` is set exactly when the quotient so far is odd, and
adding `p·2^k` then makes it even. -/
theorem negInvPow2_spec {p : Nat} (hodd : p % 2 = 1) : ∀ k, negInvPow2 p k < 2 ^ k ∧ 2 ^ k ∣ p * negInvPow2 p k + 1
  | 0 => ⟨Nat.one_pos, one_dvd _⟩
  | k + 1 => by
    obtain ⟨hlt, q, hq⟩ := negInvPow2_spec hodd k
    rw [negInvPow2, hq, Nat.mul_div_cancel_left q (Nat.two_pow_pos k), Nat.pow_succ]
    split
    · next heven =>
      exact ⟨by omega, hq ▸ Nat.mul_dvd_mul_left _ (Nat.dvd_of_mod_eq_zero heven)⟩
    · next hq1 =>
      refine ⟨by omega, ?_⟩
      rw [Nat.mul_add, Nat.add_right_comm, hq, Nat.mul_comm p, ← Nat.mul_add]
      exact Nat.mul_dvd_mul_left _ (Nat.dvd_of_mod_eq_zero (by omega))

/-- A modulus that passes the checks of `PF.NEW` has 4 to 16 limbs, so `E_INTERNAL_LIMBS` is never raised. -/
theorem limbCount_bytesToNat_bounds {mb : List Byte} (h : mb.length ≤ 128) :
    1 ≤ limbCount (bytesToNat mb) ∧ limbCount (bytesToNat mb) ≤ Config.limbMax := by
  obtain ⟨hlo, hhi⟩ := limbCount_bounds (bytesToNat_lt mb) h
  exact ⟨Nat.le_trans (by decide) hlo, hhi⟩

/-- Settles O19: the checks of `newPF` are those of the statement in order, and what follows them never fails. -/
theorem pfNewAcceptsOrRejects : Obligations.PfNewAcceptsOrRejects := by
  intro s mb hnone
  simp only [exec, execPfNew, newPF]
  by_cases hzero : mb.length = 0
  · exact (if_pos hzero).mpr (runUnit_require_not (bne_eq_false_iff_eq.2 hzero) ..)
  rw [if_neg hzero, runUnit_require_of (bne_iff_ne.2 hzero)]
  by_cases hlen : 128 < mb.length
  · exact (if_pos hlen).mpr (runUnit_require_not (decide_eq_false (Nat.not_le.2 hlen)) ..)
  rw [if_neg hlen, runUnit_require_of (decide_eq_true (p := mb.length ≤ Config.maxModulusLen) (Nat.le_of_not_lt hlen))]
  by_cases hcanon : mb.headD 0 = 0
  · exact (if_pos hcanon).mpr (runUnit_require_not (bne_eq_false_iff_eq.2 hcanon) ..)
  rw [if_neg hcanon, runUnit_require_of (bne_iff_ne.2 hcanon)]
  by_cases heven : bytesToNat mb % 2 = 0
  · exact (if_pos heven).mpr (runUnit_require_not (by simp [heven]) ..)
  rw [if_neg heven, runUnit_require_of (by simpa using heven)]
  by_cases hsmall : mb.length = 1 ∧ bytesToNat mb ≤ 3
  · exact (if_pos hsmall).mpr (runUnit_require_not (by simp [hsmall]) ..)
  rw [if_neg hsmall, runUnit_require_of (by simpa [or_iff_not_imp_left] using hsmall)]
  obtain ⟨hlo, hhi⟩ := limbCount_bytesToNat_bounds (Nat.le_of_not_lt hlen)
  obtain ⟨hinv, hdvd⟩ := negInvPow2_spec (Nat.mod_two_ne_zero.1 heven) 64
  rw [runUnit_require_of (by simp [hlo, hhi]), runUnit_ok (construct_new (by rw [hnone]; rfl))]
  exact ⟨callField mb, rfl, rfl, rfl, rfl, rfl, hlo, hhi, hinv, Nat.mod_eq_zero_of_dvd hdvd, rfl, rfl, rfl, rfl⟩

end Sys2Proof.Machine

/-! PROOF. The prime-field unit as the ring of residues modulo `p` (40_prime_field.md R133 to R146), and the inverse engine
(R145, R147, R148). -/

namespace Sys2Proof.Machine

section
variable {f : PrimeField}

/-! ## What a legal block holds -/

theorem PrimeField.odd_of_legal (hf : f.legal = true) : f.p % 2 = 1 := by
  obtain ⟨-, hodd, -⟩ := f.legal_iff.1 hf
  exact hodd

theorem PrimeField.three_lt_of_legal (hf : f.legal = true) : 3 < f.p := by
  obtain ⟨-, -, hp, -⟩ := f.legal_iff.1 hf
  exact hp

theorem PrimeField.eq_ofModulus_of_legal (hf : f.legal = true) : f = PrimeField.ofModulus f.p f.lp := by
  obtain ⟨hblock, -⟩ := f.legal_iff.1 hf
  exact hblock

theorem PrimeField.pos_of_legal (hf : f.legal = true) : 0 < f.p := Nat.zero_lt_of_lt (three_lt_of_legal hf)

theorem PrimeField.one_eq_of_legal (hf : f.legal = true) : f.one = f.toMont 1 := by
  rw [eq_ofModulus_of_legal hf, PrimeField.toMont, Nat.one_mul]
  rfl

theorem PrimeField.zero_eq_of_legal (hf : f.legal = true) : f.zero = 0 := by
  rw [eq_ofModulus_of_legal hf]
  rfl

theorem PrimeField.bitlen_eq_of_legal (hf : f.legal = true) : f.bitlen = Sys2Proof.bitlen f.p :=
  congrArg PrimeField.bitlen (eq_ofModulus_of_legal hf)

/-- The words of a legal block hold its modulus (40_prime_field.md R131). -/
theorem PrimeField.lt_two_pow_width (hf : f.legal = true) : f.p < 2 ^ f.width := by
  have hlimbs : f.limbs = limbCount f.p := congrArg PrimeField.limbs (eq_ofModulus_of_legal hf)
  rw [← bitlen_le_iff, PrimeField.width, hlimbs]
  unfold limbCount ceilDiv Config.limbBits
  omega

/-- The operations of a legal field give values below its modulus. -/
theorem fpFld_closed_below (hf : f.legal = true) : (fpFld f).Closed (· < f.p) := fpFld_closed hf fun _ h => h

theorem PrimeField.exp_lt (hf : f.legal = true) (x e : Nat) : f.exp x e < f.p :=
  (fpFld_in (L := (· < f.p)) f _).1 ((fpFld_closed_below hf).exp x e)

theorem PrimeField.one_lt (hf : f.legal = true) : f.one < f.p := (fpFld_in (L := (· < f.p)) f _).1 (fpFld_closed_below hf).one

/-! ## The residue a stored integer stands for

A stored integer `x` is the Montgomery form of `x · 2^-W` modulo `p` (40_prime_field.md R133). The operations are those of
the ring `ZMod p` on these residues, and a value below `p` is determined by its residue. -/

/-- The residue whose Montgomery form a stored integer is. -/
def PrimeField.residue (f : PrimeField) (x : Nat) : ZMod f.p := x * f.rinv

/-- `Rinv` undoes the radix: `(p+1)/2` is the inverse of 2 modulo an odd `p` (40_prime_field.md R138). -/
theorem PrimeField.rinv_mul_two_pow (hodd : f.p % 2 = 1) : (f.rinv : ZMod f.p) * 2 ^ f.width = 1 := by
  have hhalf : (((f.p + 1) / 2 : Nat) : ZMod f.p) * 2 = 1 := by
    have h : (f.p + 1) / 2 * 2 = f.p + 1 := by omega
    have := congrArg (Nat.cast : Nat → ZMod f.p) h
    simpa using this
  rw [PrimeField.rinv, ZMod.natCast_mod, Nat.cast_pow, ← mul_pow, hhalf, one_pow]

/-- The radix undoes the residue. -/
theorem PrimeField.residue_mul_two_pow (hodd : f.p % 2 = 1) (x : Nat) : f.residue x * 2 ^ f.width = x := by
  rw [PrimeField.residue, mul_assoc, rinv_mul_two_pow hodd, mul_one]

/-- Congruent stored integers are those of one residue. -/
theorem PrimeField.residue_eq_iff (hodd : f.p % 2 = 1) (x y : Nat) : f.residue x = f.residue y ↔ x % f.p = y % f.p := by
  rw [← ZMod.natCast_eq_natCast_iff']
  refine ⟨fun h => ?_, fun h => by rw [PrimeField.residue, h, PrimeField.residue]⟩
  rw [← residue_mul_two_pow hodd x, h, residue_mul_two_pow hodd]

theorem PrimeField.residue_inj (hodd : f.p % 2 = 1) {x y : Nat} (hx : x < f.p) (hy : y < f.p) :
    f.residue x = f.residue y ↔ x = y := by
  rw [residue_eq_iff hodd, Nat.mod_eq_of_lt hx, Nat.mod_eq_of_lt hy]

@[simp] theorem PrimeField.residue_zero (f : PrimeField) : f.residue 0 = 0 := by rw [PrimeField.residue, Nat.cast_zero, zero_mul]

@[simp] theorem PrimeField.residue_add (f : PrimeField) (x y : Nat) : f.residue (f.add x y) = f.residue x + f.residue y := by
  simp only [PrimeField.residue, PrimeField.add, ZMod.natCast_mod, Nat.cast_add, add_mul]

@[simp] theorem PrimeField.residue_mul (f : PrimeField) (x y : Nat) : f.residue (f.mul x y) = f.residue x * f.residue y := by
  simp only [PrimeField.residue, PrimeField.mul, ZMod.natCast_mod, Nat.cast_mul]
  ring

theorem PrimeField.residue_negate {x : Nat} (hx : x ≤ f.p) : f.residue (f.negate x) = -f.residue x := by
  unfold PrimeField.negate
  split
  · next h => rw [h, residue_zero, neg_zero]
  · rw [PrimeField.residue, PrimeField.residue, Nat.cast_sub hx, ZMod.natCast_self, zero_sub, neg_mul]

theorem PrimeField.residue_toMont (hodd : f.p % 2 = 1) (a : Nat) : f.residue (f.toMont a) = a := by
  rw [PrimeField.residue, PrimeField.toMont, ZMod.natCast_mod, Nat.cast_mul, mul_assoc, mul_comm _ (f.rinv : ZMod f.p)]
  rw [Nat.cast_pow, Nat.cast_ofNat, rinv_mul_two_pow hodd, mul_one]

/-- `FROM_MONT` gives the residue itself. -/
theorem PrimeField.natCast_fromMont (f : PrimeField) (x : Nat) : (f.fromMont x : ZMod f.p) = f.residue x := by
  rw [PrimeField.fromMont, ZMod.natCast_mod, Nat.cast_mul, PrimeField.residue]

theorem PrimeField.residue_one (hf : f.legal = true) : f.residue f.one = 1 := by
  rw [one_eq_of_legal hf, residue_toMont (odd_of_legal hf), Nat.cast_one]

/-- Square and multiply, most significant bit first, gives the power, of any multiplication that a map takes to that of a
commutative monoid (40_prime_field.md R146). -/
theorem powBits_map {α N : Type} [CommMonoid N] {mul : α → α → α} (φ : α → N) (hmul : ∀ a b, φ (mul a b) = φ a * φ b)
    (a : α) (e : Nat) : ∀ n acc, φ (powBits mul a e n acc) = φ acc ^ 2 ^ n * φ a ^ (e % 2 ^ n)
  | 0, acc => by simp [powBits, Nat.mod_one]
  | n + 1, acc => by
    have hsq : (φ acc * φ acc) ^ 2 ^ n = φ acc ^ 2 ^ (n + 1) := by rw [← pow_two, ← pow_mul, ← Nat.pow_succ']
    rw [powBits, powBits_map φ hmul a e n, Nat.mod_pow_succ, pow_add (φ a), Nat.testBit_eq_decide_div_mod_eq]
    rcases Nat.mod_two_eq_zero_or_one (e / 2 ^ n) with h | h
    · rw [h, if_neg (by decide), hmul, hsq, Nat.mul_zero, pow_zero, mul_one]
    · rw [h, if_pos (by decide), hmul, hmul, mul_pow, hsq, Nat.mul_one, mul_assoc, mul_comm (φ a ^ 2 ^ n)]

theorem PrimeField.residue_exp (hf : f.legal = true) (x e : Nat) : f.residue (f.exp x e) = f.residue x ^ e := by
  rw [PrimeField.exp, powBits_map f.residue (residue_mul f), residue_one hf, one_pow, one_mul,
    Nat.mod_eq_of_lt (lt_two_pow_bitlen e)]

end

/-! ## The inverse engine (40_prime_field.md R147, R148) -/

/-- What the passes of phase 1 keep, for the modulus `p` and the operand `a`. -/
structure InvPhase1Kept (p a u v r s k : Nat) : Prop where
  pos : 0 < u
  bezout : u * s + v * r = p
  gcd : Nat.gcd u v = Nat.gcd p a
  r_le_pow : r ≤ 2 ^ k
  s_le_pow : s ≤ 2 ^ k
  r_le : r ≤ 2 * p

namespace InvPhase1Kept
variable {p a u v r s k : Nat}

/-- The start of phase 1 (40_prime_field.md R147). -/
theorem start (hp : 0 < p) : InvPhase1Kept p a p a 0 1 0 := ⟨hp, by ring, rfl, by simp, by simp, by omega⟩

/-- While `v` is not 0 both `r` and `r + s` are at most `p`, so a pass leaves `r` at most `2p`. -/
theorem r_bounds (h : InvPhase1Kept p a u v r s k) (hv : 0 < v) : r ≤ p ∧ s ≤ p ∧ r + s ≤ p := by
  have h1 : s ≤ u * s := Nat.le_mul_of_pos_left s h.pos
  have h2 : r ≤ v * r := Nat.le_mul_of_pos_left r hv
  have := h.bezout
  omega

/-- The operands are never both even, because their greatest common divisor divides an odd number. -/
theorem odd_of_even (h : InvPhase1Kept p a u v r s k) (hodd : p % 2 = 1) (hu : u % 2 = 0) : v % 2 = 1 := by
  by_contra hv
  have h2 : 2 ∣ Nat.gcd u v := Nat.dvd_gcd (by omega) (by omega)
  rw [h.gcd] at h2
  have := h2.trans (Nat.gcd_dvd_left p a)
  omega

/-! The four passes of R147, in the order in which `invPhase1` tries them. -/

theorem halve_u {w : Nat} (h : InvPhase1Kept p a (2 * w) v r s k) (hodd : p % 2 = 1) :
    InvPhase1Kept p a w v r (2 * s) (k + 1) where
  pos := Nat.pos_of_mul_pos_left h.pos
  bezout := by rw [← h.bezout]; ring
  gcd := by
    have hv := h.odd_of_even hodd (Nat.mul_mod_right 2 w)
    rw [← h.gcd, Nat.Coprime.gcd_mul_left_cancel w (Nat.coprime_two_left.2 (Nat.odd_iff.2 hv))]
  r_le_pow := by have := h.r_le_pow; rw [Nat.pow_succ]; omega
  s_le_pow := by have := h.s_le_pow; rw [Nat.pow_succ]; omega
  r_le := h.r_le

theorem halve_v {w : Nat} (h : InvPhase1Kept p a u (2 * w) r s k) (hu : u % 2 = 1) (hw : 0 < 2 * w) :
    InvPhase1Kept p a u w (2 * r) s (k + 1) where
  pos := h.pos
  bezout := by rw [← h.bezout]; ring
  gcd := by rw [← h.gcd, Nat.Coprime.gcd_mul_left_cancel_right w (Nat.coprime_two_left.2 (Nat.odd_iff.2 hu))]
  r_le_pow := by have := h.r_le_pow; rw [Nat.pow_succ]; omega
  s_le_pow := by have := h.s_le_pow; rw [Nat.pow_succ]; omega
  r_le := Nat.mul_le_mul_left 2 (h.r_bounds hw).1

theorem subtract_v {w : Nat} (h : InvPhase1Kept p a (v + 2 * w) v r s k) (hv : v % 2 = 1) (hw : 0 < w) :
    InvPhase1Kept p a w v (r + s) (2 * s) (k + 1) where
  pos := hw
  bezout := by rw [← h.bezout]; ring
  gcd := by
    rw [← h.gcd, Nat.gcd_self_add_left, Nat.Coprime.gcd_mul_left_cancel w (Nat.coprime_two_left.2 (Nat.odd_iff.2 hv))]
  r_le_pow := by have := h.r_le_pow; have := h.s_le_pow; rw [Nat.pow_succ]; omega
  s_le_pow := by have := h.s_le_pow; rw [Nat.pow_succ]; omega
  r_le := by have := h.r_bounds (by omega); omega

theorem subtract_u {w : Nat} (h : InvPhase1Kept p a u (u + 2 * w) r s k) (hu : u % 2 = 1) :
    InvPhase1Kept p a u w (2 * r) (s + r) (k + 1) where
  pos := h.pos
  bezout := by rw [← h.bezout]; ring
  gcd := by
    rw [← h.gcd, Nat.gcd_self_add_right, Nat.Coprime.gcd_mul_left_cancel_right w (Nat.coprime_two_left.2 (Nat.odd_iff.2 hu))]
  r_le_pow := by have := h.r_le_pow; rw [Nat.pow_succ]; omega
  s_le_pow := by have := h.r_le_pow; have := h.s_le_pow; rw [Nat.pow_succ]; omega
  r_le := Nat.mul_le_mul_left 2 (h.r_bounds (Nat.add_pos_left h.pos _)).1

/-- A phase that ends with `u = 1` and `v = 0` has `s = p`, so it made at least as many passes as an odd `p > 1` has bits. -/
theorem bitlen_le (h : InvPhase1Kept p a 1 0 r s k) (hodd : p % 2 = 1) (hp : 1 < p) : bitlen p ≤ k := by
  have hs : s = p := by simpa using h.bezout
  rw [bitlen_le_iff]
  refine lt_of_le_of_ne (hs ▸ h.s_le_pow) fun hpow => ?_
  cases k with
  | zero => omega
  | succ k => rw [hpow, Nat.pow_succ] at hodd; omega

end InvPhase1Kept

/-- Phase 1 ends with `v = 0`, its invariant kept, after at most `n` passes when `u·v` is below `2^n`: each pass halves the
product. -/
theorem invPhase1_kept {p a : Nat} (hodd : p % 2 = 1) : ∀ n {u v r s k : Nat}, InvPhase1Kept p a u v r s k → u * v < 2 ^ n →
    ∃ u' r' s' k', invPhase1 n u v r s k = (u', 0, r', k') ∧ InvPhase1Kept p a u' 0 r' s' k' ∧ k' ≤ k + n
  | 0, u, v, r, s, k, h, huv => by
    obtain rfl : v = 0 := Nat.eq_zero_of_not_pos fun hv => Nat.not_lt.2 (Nat.mul_pos h.pos hv) huv
    exact ⟨u, r, s, k, rfl, h, le_rfl⟩
  | n + 1, u, v, r, s, k, h, huv => by
    have pass : ∀ {u' v' r' s'}, InvPhase1Kept p a u' v' r' s' (k + 1) → 2 * (u' * v') ≤ u * v → ∃ u'' r'' s'' k'',
        invPhase1 n u' v' r' s' (k + 1) = (u'', 0, r'', k'') ∧ InvPhase1Kept p a u'' 0 r'' s'' k'' ∧ k'' ≤ k + (n + 1) := by
      intro u' v' r' s' h' hprod
      obtain ⟨u'', r'', s'', k'', hrun, hend, hk⟩ := invPhase1_kept hodd n h' (by rw [Nat.pow_succ] at huv; omega)
      exact ⟨u'', r'', s'', k'', hrun, hend, by omega⟩
    rw [invPhase1]
    split
    · next hv =>
      subst hv
      exact ⟨u, r, s, k, rfl, h, by omega⟩
    split
    · next hv hu =>
      obtain ⟨w, rfl⟩ : ∃ w, u = 2 * w := ⟨u / 2, by omega⟩
      rw [Nat.mul_div_cancel_left w two_pos]
      exact pass (h.halve_u hodd) (by rw [mul_assoc])
    split
    · next hv hu hv2 =>
      obtain ⟨w, rfl⟩ : ∃ w, v = 2 * w := ⟨v / 2, by omega⟩
      rw [Nat.mul_div_cancel_left w two_pos]
      exact pass (h.halve_v (Nat.mod_two_ne_zero.1 hu) (by omega)) (by rw [mul_left_comm])
    split
    · next hv hu hv2 huv =>
      obtain ⟨w, rfl⟩ : ∃ w, u = v + 2 * w := ⟨(u - v) / 2, by omega⟩
      rw [Nat.add_sub_cancel_left, Nat.mul_div_cancel_left w two_pos]
      exact pass (h.subtract_v (Nat.mod_two_ne_zero.1 hv2) (by omega))
        (by rw [← mul_assoc]; exact Nat.mul_le_mul_right v (by omega))
    · next hv hu hv2 huv =>
      obtain ⟨w, rfl⟩ : ∃ w, v = u + 2 * w := ⟨(v - u) / 2, by omega⟩
      rw [Nat.add_sub_cancel_left, Nat.mul_div_cancel_left w two_pos]
      exact pass (h.subtract_u (Nat.mod_two_ne_zero.1 hu))
        (by rw [mul_left_comm]; exact Nat.mul_le_mul_left u (by omega))

/-- `n` doublings multiply by `2^n` (40_prime_field.md R148). -/
theorem PrimeField.natCast_doubleTimes (f : PrimeField) : ∀ n y, (f.doubleTimes n y : ZMod f.p) = 2 ^ n * y
  | 0, y => by rw [PrimeField.doubleTimes, pow_zero, one_mul]
  | n + 1, y => by
    rw [PrimeField.doubleTimes, natCast_doubleTimes f n, PrimeField.double, ZMod.natCast_mod]
    push_cast
    ring

/-- The end of phase 1 negates `r`, reduced once, modulo `p` (40_prime_field.md R147). -/
theorem PrimeField.natCast_negateReduced (f : PrimeField) {r : Nat} (hr : r ≤ 2 * f.p) :
    ((f.p - (if r ≥ f.p then r - f.p else r) : Nat) : ZMod f.p) = -r := by
  split
  · rw [Nat.cast_sub (by omega), Nat.cast_sub ‹_›, ZMod.natCast_self]; ring
  · rw [Nat.cast_sub (by omega), ZMod.natCast_self, zero_sub]

/-- Phase 1 of the inverse engine, run on an operand below a legal modulus. -/
theorem PrimeField.invPhase1_run {f : PrimeField} (hf : f.legal = true) {x : Nat} (hx : x < f.p) :
    ∃ r s k, invPhase1 (2 * f.width) f.p x 0 1 0 = (Nat.gcd f.p x, 0, r, k) ∧
      InvPhase1Kept f.p x (Nat.gcd f.p x) 0 r s k ∧ k ≤ 2 * f.width := by
  have hW := lt_two_pow_width hf
  have hprod : f.p * x < 2 ^ (2 * f.width) := by
    rw [Nat.two_mul, Nat.pow_add]
    exact Nat.mul_lt_mul'' hW (hx.trans hW)
  obtain ⟨u, r, s, k, hrun, hend, hk⟩ :=
    invPhase1_kept (odd_of_legal hf) _ (InvPhase1Kept.start (pos_of_legal hf)) hprod
  obtain rfl : u = Nat.gcd f.p x := by rw [← hend.gcd, Nat.gcd_zero_right]
  exact ⟨r, s, k, hrun, hend, by omega⟩

/-- `PF.INVERT` of an operand that has a common factor with the modulus, 0 among them. -/
theorem PrimeField.invert_of_not_coprime {f : PrimeField} (hf : f.legal = true) {x : Nat} (hx : x < f.p)
    (hco : ¬ Nat.Coprime x f.p) : f.invert x = (false, 0) := by
  obtain ⟨r, s, k, hrun, -, -⟩ := invPhase1_run hf hx
  have hgcd : Nat.gcd f.p x ≠ 1 := fun h => hco ((Nat.gcd_comm x f.p).trans h)
  rw [PrimeField.invert, hrun]
  simp [hgcd]

/-- The doublings of phase 2 complete the power `2^k` that phase 1 left to `2^(2W)` (40_prime_field.md R147, R148). -/
theorem PrimeField.invert_of_coprime {f : PrimeField} (hf : f.legal = true) {x : Nat} (hx : x < f.p)
    (hco : Nat.Coprime x f.p) : ∃ v, v < f.p ∧ f.invert x = (true, v) ∧ (v * x : ZMod f.p) = 2 ^ (2 * f.width) := by
  have hp := three_lt_of_legal hf
  have hodd := odd_of_legal hf
  obtain ⟨r, s, k, hrun, hend, hk⟩ := invPhase1_run hf hx
  have hdvd := invPhase1_dvd (p := f.p) (a := x) (2 * f.width) f.p x 0 1 0 (by simp) (by simp)
  rw [(Nat.gcd_comm f.p x).trans hco] at hrun hend
  rw [hrun] at hdvd
  have hx0 : x ≠ 0 := by
    rintro rfl
    rw [Nat.coprime_zero_left] at hco
    omega
  have hbits : f.bitlen ≤ k := bitlen_eq_of_legal hf ▸ hend.bitlen_le hodd (by omega)
  have hlt := invert_lt hodd (by omega) x
  rw [PrimeField.invert, if_neg hx0, hrun] at hlt ⊢
  simp only [hbits, hk, and_self, if_true] at hlt ⊢
  refine ⟨_, hlt, rfl, ?_⟩
  have hxr : (x * r + 2 ^ k : ZMod f.p) = 0 := by
    have := (ZMod.intCast_zmod_eq_zero_iff_dvd _ f.p).2 hdvd
    simpa using this
  calc ((f.doubleTimes (2 * f.width - k) _ : Nat) * x : ZMod f.p) = 2 ^ (2 * f.width - k) * (-r * x) := by
        rw [natCast_doubleTimes, natCast_negateReduced f hend.r_le, mul_assoc]
    _ = 2 ^ (2 * f.width - k) * 2 ^ k := by rw [eq_neg_of_add_eq_zero_right hxr]; ring
    _ = 2 ^ (2 * f.width) := by rw [← pow_add, Nat.sub_add_cancel hk]

end Sys2Proof.Machine

/-! PROOF. The statements on the prime-field unit (40_prime_field.md): each names the rule by which its operation runs and the
law of the residues its value obeys. -/

namespace Sys2Proof.Machine

/-! ## Values of the operations -/

section
variable {f : PrimeField}

/-- `PF.SUB` gives the least non-negative residue (40_prime_field.md R141). -/
theorem PrimeField.sub_eq_toNat_emod (hp : 0 < f.p) (x y : Nat) : f.sub x y = (((x : Int) - y) % f.p).toNat := by
  have hcast : ((x + (f.p - y % f.p) : Nat) : Int) = x - y + f.p * (1 + y / f.p) := by
    have hdiv := Int.emod_add_mul_ediv (y : Int) f.p
    push_cast [Nat.cast_sub (Nat.mod_lt y hp).le]
    linarith
  rw [← Int.add_mul_emod_self_left _ (f.p : Int) (1 + y / f.p), ← hcast, ← Int.natCast_mod, Int.toNat_natCast, PrimeField.sub]

/-- The Montgomery reduction is undone by the radix (40_prime_field.md R135, R138). -/
theorem PrimeField.fromMont_mul_two_pow_mod (hodd : f.p % 2 = 1) (x : Nat) :
    f.fromMont x * 2 ^ (64 * f.limbs) % f.p = x % f.p := by
  have h : ((f.fromMont x * 2 ^ f.width : Nat) : ZMod f.p) = x := by
    push_cast
    rw [natCast_fromMont, residue_mul_two_pow hodd]
  exact (ZMod.natCast_eq_natCast_iff' _ _ _).1 h

/-- A power is the form of the power of the plain value (40_prime_field.md R146). -/
theorem PrimeField.exp_eq_toMont (hf : f.legal = true) (x e : Nat) : f.exp x e = f.toMont (f.fromMont x ^ e % f.p) := by
  have hodd := odd_of_legal hf
  rw [← residue_inj hodd (exp_lt hf x e) (toMont_lt (pos_of_legal hf) _),
    residue_exp hf, residue_toMont hodd, ZMod.natCast_mod, Nat.cast_pow, natCast_fromMont]

/-- A power is the one of the field exactly when the power of the plain value is 1. -/
theorem PrimeField.exp_eq_one_iff (hf : f.legal = true) (x e : Nat) : f.exp x e = f.one ↔ f.fromMont x ^ e % f.p = 1 := by
  have hp := three_lt_of_legal hf
  rw [← residue_inj (odd_of_legal hf) (exp_lt hf x e) (one_lt hf),
    residue_exp hf, residue_one hf, ← natCast_fromMont, ← Nat.cast_pow, ← Nat.cast_one,
    ZMod.natCast_eq_natCast_iff', Nat.mod_eq_of_lt (a := 1) (by omega)]

/-- `PF.NRES` (40_prime_field.md R152): the remainder is 0 exactly when `n` divides `p - 1`, also for `n = 0`. -/
theorem PrimeField.nres_eq_decide (hf : f.legal = true) (x n : Nat) :
    f.nres x n = decide (n ∣ f.p - 1 ∧ f.fromMont x ^ ((f.p - 1) / n) % f.p ≠ 1) := by
  rw [PrimeField.nres]
  by_cases hn : n ∣ f.p - 1
  · rw [if_neg (not_not.2 (Nat.mod_eq_zero_of_dvd hn)), Bool.eq_iff_iff, bne_iff_ne, decide_eq_true_eq, ne_eq,
      exp_eq_one_iff hf]
    exact ⟨fun h => ⟨hn, h⟩, And.right⟩
  · rw [if_pos fun h => hn (Nat.dvd_of_mod_eq_zero h), decide_eq_false fun h => hn h.1]

/-- The value `PF.INVERT` writes with true stands for the inverse residue. -/
theorem PrimeField.residue_mul_residue_of_inverse (hf : f.legal = true) {v x : Nat}
    (h : (v * x : ZMod f.p) = 2 ^ (2 * f.width)) : f.residue v * f.residue x = 1 := by
  have hR := rinv_mul_two_pow (odd_of_legal hf)
  calc f.residue v * f.residue x = v * x * (f.rinv * f.rinv) := mul_mul_mul_comm ..
    _ = (f.rinv * 2 ^ f.width) * (f.rinv * 2 ^ f.width) := by rw [h]; ring
    _ = 1 := by rw [hR, one_mul]

/-- A product is the one of the field exactly when the residues of its factors are inverse. -/
theorem PrimeField.mul_eq_one_iff (hf : f.legal = true) (v x : Nat) : f.mul v x = f.one ↔ f.residue v * f.residue x = 1 := by
  rw [← residue_inj (odd_of_legal hf) (mul_lt (pos_of_legal hf) v x)
    (one_lt hf), residue_mul, residue_one hf]

/-- The plain value fits the words of the unit and the bytes of the modulus (40_prime_field.md R154, R156). -/
theorem PrimeField.fromMont_fits (hf : f.legal = true) (x : Nat) :
    f.fromMont x < 256 ^ (8 * f.limbs) ∧ f.fromMont x < 256 ^ f.lp := by
  obtain ⟨-, -, -, -, -, -, hlp⟩ := f.legal_iff.1 hf
  have hv := fromMont_lt (pos_of_legal hf) x
  have hW : f.p < 256 ^ (8 * f.limbs) := by
    rw [show 256 = 2 ^ 8 from rfl, ← Nat.pow_mul, ← Nat.mul_assoc]
    exact lt_two_pow_width hf
  exact ⟨hv.trans hW, hv.trans hlp⟩

end

/-! ## Square roots over a prime modulus (40_prime_field.md R150) -/

section
variable {f : PrimeField}

/-- A residue is nonzero exactly when the stored integer below the modulus is. -/
theorem PrimeField.residue_eq_zero_iff (hf : f.legal = true) {x : Nat} (hx : x < f.p) : f.residue x = 0 ↔ x = 0 := by
  rw [← residue_zero f, residue_inj (odd_of_legal hf) hx (pos_of_legal hf)]

/-- Euler's criterion, with 0 among the squares. -/
theorem isSquare_iff_pow_ne_neg_one {p : Nat} [Fact p.Prime] (hp : 2 < p) (a : ZMod p) : IsSquare a ↔ a ^ (p / 2) ≠ -1 := by
  have : Fact (2 < p) := ⟨hp⟩
  by_cases ha : a = 0
  · subst ha
    rw [zero_pow (by omega)]
    exact ⟨fun _ => (neg_ne_zero.2 one_ne_zero).symm, fun _ => IsSquare.zero⟩
  · rw [ZMod.euler_criterion p ha]
    rcases ZMod.pow_div_two_eq_neg_one_or_one p ha with h | h
    · simp [h, (ZMod.neg_one_ne_one (n := p)).symm]
    · simp [h, (ZMod.neg_one_ne_one (n := p))]

/-- The plain value is a square modulo `p` exactly when the residue is a square. -/
theorem PrimeField.exists_sq_mod_iff (hp : 0 < f.p) (x : Nat) :
    (∃ y, y * y % f.p = f.fromMont x) ↔ IsSquare (f.residue x) := by
  have : NeZero f.p := ⟨hp.ne'⟩
  rw [← natCast_fromMont]
  refine ⟨fun ⟨y, hy⟩ => ⟨y, ?_⟩, fun ⟨r, hr⟩ => ⟨r.val, ?_⟩⟩
  · rw [← hy, ZMod.natCast_mod, Nat.cast_mul]
  · rw [← Nat.mod_eq_of_lt (fromMont_lt hp x), ← ZMod.natCast_eq_natCast_iff', Nat.cast_mul, hr,
      ZMod.natCast_zmod_val]

/-- The value `b` of the pseudocode, `t²·x` for `t = x^((p-3)/4)`. -/
def PrimeField.eulerValue (f : PrimeField) (x : Nat) : Nat :=
  f.mul (f.mul (f.exp x ((f.p - 3) / 4)) (f.exp x ((f.p - 3) / 4))) x

/-- `PF.SQRT` by its Euler value. -/
theorem PrimeField.sqrt_eq_ite (f : PrimeField) (x : Nat) :
    f.sqrt x = if f.eulerValue x = f.negate f.one then (false, 0) else (true, f.mul (f.exp x ((f.p - 3) / 4)) x) := rfl

/-- The Euler value is the power `(p-1)/2` of the operand. -/
theorem PrimeField.residue_eulerValue (hf : f.legal = true) (h4 : f.p % 4 = 3) (x : Nat) :
    f.residue (f.eulerValue x) = f.residue x ^ (f.p / 2) := by
  rw [PrimeField.eulerValue, residue_mul, residue_mul, residue_exp hf, ← pow_add, ← pow_succ]
  congr 1
  omega

theorem PrimeField.eulerValue_eq_negate_one_iff (hf : f.legal = true) (h4 : f.p % 4 = 3) (x : Nat) :
    f.eulerValue x = f.negate f.one ↔ f.residue x ^ (f.p / 2) = -1 := by
  have hp := pos_of_legal hf
  rw [← residue_inj (odd_of_legal hf) (x := f.eulerValue x) (mul_lt hp _ _) (negate_lt hp _),
    residue_eulerValue hf h4, residue_negate (one_lt hf).le, residue_one hf]

/-- When the Euler value is not minus one, the value `PF.SQRT` writes is a root. -/
theorem PrimeField.sqrt_root (hf : f.legal = true) [Fact f.p.Prime] (h4 : f.p % 4 = 3) {x : Nat} (hx : x < f.p)
    (hE : f.residue x ^ (f.p / 2) ≠ -1) :
    f.mul (f.mul (f.exp x ((f.p - 3) / 4)) x) (f.mul (f.exp x ((f.p - 3) / 4)) x) = x := by
  have hE' : f.residue x ^ (f.p / 2) * f.residue x = f.residue x := by
    by_cases h0 : f.residue x = 0
    · rw [h0, mul_zero]
    · rw [(ZMod.pow_div_two_eq_neg_one_or_one f.p h0).resolve_right hE, one_mul]
  rw [← residue_inj (odd_of_legal hf) (mul_lt (pos_of_legal hf) _ _) hx]
  calc _ = f.residue (f.eulerValue x) * f.residue x := by
        simp only [PrimeField.eulerValue, residue_mul]; ring
    _ = f.residue x := by rw [residue_eulerValue hf h4, hE']

end

/-! ## Inverses over a prime modulus (40_prime_field.md R160) -/

/-- Over a prime modulus the inverse is the power `p - 2`. -/
theorem PrimeField.invert_eq_exp {f : PrimeField} (hf : f.legal = true) (hprime : f.p.Prime) {x : Nat} (hx : x < f.p)
    (hx0 : x ≠ 0) : f.invert x = (true, f.exp x (f.p - 2)) := by
  have : Fact f.p.Prime := ⟨hprime⟩
  have hres : f.residue x ≠ 0 := (residue_eq_zero_iff hf hx).not.2 hx0
  obtain ⟨v, hv, hrun, hinv⟩ := invert_of_coprime hf hx (Nat.coprime_of_lt_prime hx0 hx hprime).symm
  rw [hrun, ← (residue_inj (odd_of_legal hf) hv (exp_lt hf x (f.p - 2))).1]
  refine mul_right_cancel₀ hres ?_
  rw [residue_mul_residue_of_inverse hf hinv, residue_exp hf, ← pow_succ,
    show f.p - 2 + 1 = f.p - 1 by have := hprime.two_le; omega, ZMod.pow_card_sub_one_eq_one hres]

/-! ## The statements -/

/-- Settles O20: each operation writes the value its definition gives, whichever slots coincide; the subtraction is that of
the integers modulo `p`. -/
theorem pfAddSubDoubleNegate : Obligations.PfAddSubDoubleNegate := by
  intro s f c a b x y hf hp hx hy
  refine ⟨runUnit_slotOp2 PrimeField.add hf hx hy c, ?_, runUnit_slotOp1 PrimeField.double hf hx c,
    runUnit_slotOp1 PrimeField.negate hf hx c⟩
  rw [← PrimeField.sub_eq_toNat_emod hp]
  exact runUnit_slotOp2 PrimeField.sub hf hx hy c

/-- Settles O21: the product and `FROM_MONT` are Montgomery reductions, which the radix undoes. -/
theorem pfMontgomery : Obligations.PfMontgomery := by
  intro s f c a b x y hf hlegal hx hy
  have hp := PrimeField.pos_of_legal hlegal
  have hred := PrimeField.fromMont_mul_two_pow_mod (PrimeField.odd_of_legal hlegal)
  exact ⟨⟨f.mul x y, PrimeField.mul_lt hp x y, hred (x * y), runUnit_slotOp2 PrimeField.mul hf hx hy c⟩,
    ⟨f.square x, PrimeField.mul_lt hp x x, hred (x * x), runUnit_slotOp1 PrimeField.square hf hx c⟩,
    runUnit_slotOp1 PrimeField.toMont hf hx c,
    ⟨f.fromMont x, PrimeField.fromMont_lt hp x, hred x, runUnit_slotOp1 PrimeField.fromMont hf hx c⟩⟩

/-- Settles O22: the residue of a power is the power of the residue, and the form of a value below `p` is determined by it. -/
theorem pfExpIsThePower : Obligations.PfExpIsThePower := by
  intro s f c a e x hf hlegal hx _
  rw [← PrimeField.exp_eq_toMont hlegal]
  exact runUnit_slotOp1 (fun f x => f.exp x e) hf hx c

/-- Settles O23: phase 1 ends with the greatest common divisor of the operand and the modulus, and the boolean says that it
is 1. -/
theorem pfInvertIsTheInverse : Obligations.PfInvertIsTheInverse := by
  intro s f c a x hf hlegal hx hlt
  simp only [exec, execPfInvert_next hf hx]
  split
  · next hco =>
    obtain ⟨v, hv, hrun, hinv⟩ := PrimeField.invert_of_coprime hlegal hlt hco
    refine ⟨v, hv, ?_, ?_, by rw [hrun]⟩
    · refine (ZMod.natCast_eq_natCast_iff' _ _ _).1 ?_
      push_cast
      exact hinv
    · exact (PrimeField.mul_eq_one_iff hlegal v x).2 (PrimeField.residue_mul_residue_of_inverse hlegal hinv)
  · next hco => rw [PrimeField.invert_of_not_coprime hlegal hlt hco]

/-- Settles O24: the pseudocode of `PrimeField.sqrt`, case by case. -/
theorem pfSqrtOrRefusal : Obligations.PfSqrtOrRefusal := by
  intro s f c a x hf hx
  simp only [exec, execPfSqrt, runUnit_getPF_bind hf, runUnit_readSlot_bind hx]
  split
  · rw [PrimeField.sqrt]
    split <;> rfl
  · rfl

/-- Settles O25: the Euler value is minus one exactly for the non-squares, and otherwise leaves a root. -/
theorem pfSqrtFindsRoots : Obligations.PfSqrtFindsRoots := by
  intro f x hf hprime h4 hx
  have : Fact f.p.Prime := ⟨hprime⟩
  have hp := PrimeField.three_lt_of_legal hf
  have hE := PrimeField.eulerValue_eq_negate_one_iff hf h4 x
  rw [PrimeField.exists_sq_mod_iff (PrimeField.pos_of_legal hf), isSquare_iff_pow_ne_neg_one (by omega), ne_eq, ← hE,
    PrimeField.sqrt_eq_ite]
  split
  · next h => simp [h]
  · next h => exact ⟨by simp [h], fun _ => PrimeField.sqrt_root hf h4 hx (hE.not.1 h)⟩

/-- Settles O26: the power is compared with the form of 1, which is Euler's criterion on the plain value. -/
theorem pfNresIsEulersCriterion : Obligations.PfNresIsEulersCriterion := by
  intro s f a n x hf hlegal hx _
  simp only [exec, execPfNres, runUnit_getPF_bind hf, runUnit_readSlot_bind hx]
  rw [← PrimeField.nres_eq_decide hlegal]
  rfl

/-- Settles O27: the two checks of `PF.FROM_BYTES` in order, and a plain value that fits both byte widths. -/
theorem pfByteCodec : Obligations.PfByteCodec := by
  refine ⟨fun s f c bs hf => ?_, fun s f a x hf hlegal hx => ?_⟩
  · simp only [exec, execPfFromBytes, runUnit_getPF_bind hf]
    split
    · next hlen => exact runUnit_require_not (beq_eq_false_iff_ne.2 hlen) ..
    · next hlen =>
      rw [runUnit_require_of (beq_iff_eq.2 (not_not.1 hlen))]
      split
      · next hrange => exact runUnit_require_not (decide_eq_false (Nat.not_lt.2 hrange)) ..
      · next hrange =>
        rw [runUnit_require_of (decide_eq_true (Nat.lt_of_not_le hrange))]
        rfl
  · obtain ⟨hwords, hdense⟩ := PrimeField.fromMont_fits hlegal x
    simp only [exec, execPfToBytes, execPfToBytesDense, runUnit_getPF_bind hf, runUnit_readSlot_bind hx]
    exact ⟨f.fromMont x, PrimeField.fromMont_lt (PrimeField.pos_of_legal hlegal) x,
      PrimeField.fromMont_mul_two_pow_mod (PrimeField.odd_of_legal hlegal) x, rfl, rfl,
      bytesToNat_natToBytes_of_lt hwords, bytesToNat_natToBytes_of_lt hdense⟩

/-- Settles O28: the laws of the field `ZMod p`, carried back from the residues; the first is read off the definitions. -/
theorem primeFieldContract : Obligations.PrimeFieldContract := by
  intro f hf hprime a b c ha hb hc
  have : Fact f.p.Prime := ⟨hprime⟩
  have hp := PrimeField.pos_of_legal hf
  have hodd := PrimeField.odd_of_legal hf
  have hone := PrimeField.residue_one hf
  have hres : a ≠ 0 → f.residue a ≠ 0 := (PrimeField.residue_eq_zero_iff hf ha).not.2
  have hadd := fun x y => PrimeField.add_lt hp x y
  have hmul := fun x y => PrimeField.mul_lt hp x y
  refine ⟨?_, ?_, ?_, ?_, ?_, fun h0 => ?_, fun h0 => ⟨PrimeField.invert_eq_exp hf hprime ha h0, ?_⟩, ?_⟩
  · rw [PrimeField.zero_eq_of_legal hf, PrimeField.add, Nat.add_zero, Nat.mod_eq_of_lt ha]
  · rw [← PrimeField.residue_inj hodd (hmul _ _) ha, PrimeField.residue_mul, hone, mul_one]
  · rw [← PrimeField.residue_inj hodd (hadd _ _) (hadd _ _), PrimeField.residue_add, PrimeField.residue_add, add_comm]
  · rw [← PrimeField.residue_inj hodd (hadd _ _) (hadd _ _)]
    simp only [PrimeField.residue_add, add_assoc]
  · rw [← PrimeField.residue_inj hodd (hmul _ _) (hadd _ _)]
    simp only [PrimeField.residue_add, PrimeField.residue_mul, mul_add]
  · rw [← PrimeField.residue_inj hodd (PrimeField.exp_lt hf _ _) (PrimeField.one_lt hf), PrimeField.residue_exp hf, hone,
      ZMod.pow_card_sub_one_eq_one (hres h0)]
  · obtain ⟨v, -, hrun, hinv⟩ := PrimeField.invert_of_coprime hf ha (Nat.coprime_of_lt_prime h0 ha hprime).symm
    rw [hrun, PrimeField.mul_eq_one_iff hf, PrimeField.residue_mul_residue_of_inverse hf hinv]
  · rw [← Nat.mod_eq_of_lt (PrimeField.fromMont_lt hp _), ← Nat.mod_eq_of_lt ha, ← ZMod.natCast_eq_natCast_iff',
      PrimeField.natCast_fromMont, PrimeField.residue_toMont hodd, Nat.mod_eq_of_lt ha]

end Sys2Proof.Machine

/-! PROOF. How the extension unit runs (41_extension_tower.md R172 to R216): one rule for a step that answers, one for each form
of operand, and what each level's operations do to the base-field coordinates of their operands. -/

namespace Sys2Proof.Machine

/-! ## Running an operation -/

section
variable {α β : Type} {s : State}

/-- A unit operation whose first step answers runs on with its answer. -/
theorem runUnit_bind_of_ok {m : M β} {k : β → M Unit} {u : State} {b : β} (h : m s = .ok b u) :
    runUnit (m >>= k) s = runUnit (k b) u := by
  rw [runUnit, M.bind_of_ok h, runUnit]

/-- An operation at a level that exists runs in its tower. -/
theorem runUnit_withLevel {l : Level} {t : Tow α} (h : LevelIs s l α t) (k : {α : Type} → Tow α → M Unit) :
    runUnit (withLevel l k) s = runUnit (k t) s := by
  rw [runUnit, withLevel_of h, runUnit]

/-- A one-operand operation at a level writes its value to the destination and nothing else. -/
theorem runUnit_levelOp1 {l : Level} {t : Tow α} (h : LevelIs s l α t) (op : {α : Type} → Fld α → α → α) {a : Nat} {x : α}
    (hx : ElemAt s t.fld a x) (c : Nat) :
    runUnit (levelOp1 l op c a) s = .next (s.store c (t.fld.coords (op t.fld x))) := by
  rw [levelOp1, runUnit_withLevel h, runUnit_bind_of_ok (readElem_at hx)]
  rfl

/-- A two-operand operation at a level writes its value to the destination and nothing else. -/
theorem runUnit_levelOp2 {l : Level} {t : Tow α} (h : LevelIs s l α t) (op : {α : Type} → Fld α → α → α → α) {a b : Nat}
    {x y : α} (hx : ElemAt s t.fld a x) (hy : ElemAt s t.fld b y) (c : Nat) :
    runUnit (levelOp2 l op c a b) s = .next (s.store c (t.fld.coords (op t.fld x y))) := by
  rw [levelOp2, runUnit_withLevel h, runUnit_bind_of_ok (readElem_at hx), runUnit_bind_of_ok (readElem_at hy)]
  rfl

end

/-! ## The coordinates of a level's elements -/

/-- A level whose words are the coordinates of the elements they make, and whose sums, differences, negatives and doubles are
those of the coordinates (41_extension_tower.md R173). -/
structure Fld.Coordinatewise {α : Type} (F : Fld α) (f : PrimeField) : Prop where
  coords_ofCoords : ∀ vs, vs.length = F.deg → F.coords (F.ofCoords vs) = vs
  add : ∀ a b, F.coords (F.add a b) = List.zipWith f.add (F.coords a) (F.coords b)
  sub : ∀ a b, F.coords (F.sub a b) = List.zipWith f.sub (F.coords a) (F.coords b)
  neg : ∀ a, F.coords (F.neg a) = (F.coords a).map f.negate
  dbl : ∀ a, F.coords (F.dbl a) = (F.coords a).map f.double

theorem fpFld_coordinatewise (f : PrimeField) : (fpFld f).Coordinatewise f where
  coords_ofCoords vs h := by
    obtain ⟨v, rfl⟩ := List.length_eq_one_iff.1 h
    rfl
  add _ _ := rfl
  sub _ _ := rfl
  neg _ := rfl
  dbl _ := rfl

section
variable {α : Type} {B : Fld α} {f : PrimeField}

@[simp] theorem quadFld_coords (B : Fld α) (nr : α → α) (x : α × α) :
    (quadFld B nr).coords x = B.coords x.1 ++ B.coords x.2 := rfl

@[simp] theorem cubicFld_coords (B : Fld α) (nr : α → α) (x : α × α × α) :
    (cubicFld B nr).coords x = B.coords x.1 ++ B.coords x.2.1 ++ B.coords x.2.2 := rfl

theorem quadFld_coordinatewise (hB : B.Coordinates) (h : B.Coordinatewise f) (nr : α → α) :
    (quadFld B nr).Coordinatewise f where
  coords_ofCoords vs hvs := by
    have hlen : vs.length = 2 * B.deg := hvs
    calc B.coords (B.ofCoords (vs.take B.deg)) ++ B.coords (B.ofCoords (vs.drop B.deg))
        = vs.take B.deg ++ vs.drop B.deg := by
          rw [h.coords_ofCoords _ (by rw [List.length_take]; omega), h.coords_ofCoords _ (by rw [List.length_drop]; omega)]
      _ = vs := List.take_append_drop _ _
  add a b := by simp only [quadFld, h.add, List.zipWith_append, hB.length]
  sub a b := by simp only [quadFld, h.sub, List.zipWith_append, hB.length]
  neg a := by simp only [quadFld, h.neg, List.map_append]
  dbl a := by simp only [quadFld, h.dbl, List.map_append]

theorem cubicFld_coordinatewise (hB : B.Coordinates) (h : B.Coordinatewise f) (nr : α → α) :
    (cubicFld B nr).Coordinatewise f where
  coords_ofCoords vs hvs := by
    have hlen : vs.length = 3 * B.deg := hvs
    calc B.coords (B.ofCoords (vs.take B.deg)) ++ B.coords (B.ofCoords ((vs.drop B.deg).take B.deg))
          ++ B.coords (B.ofCoords (vs.drop (2 * B.deg)))
        = vs.take B.deg ++ (vs.drop B.deg).take B.deg ++ vs.drop (2 * B.deg) := by
          rw [h.coords_ofCoords _ (by rw [List.length_take]; omega),
            h.coords_ofCoords _ (by rw [List.length_take, List.length_drop]; omega),
            h.coords_ofCoords _ (by rw [List.length_drop]; omega)]
      _ = vs := by
          rw [Nat.two_mul, ← List.drop_drop, List.append_assoc, List.take_append_drop, List.take_append_drop]
  add a b := by simp only [cubicFld, h.add, List.zipWith_append, List.length_append, hB.length]
  sub a b := by simp only [cubicFld, h.sub, List.zipWith_append, List.length_append, hB.length]
  neg a := by simp only [cubicFld, h.neg, List.map_append]
  dbl a := by simp only [cubicFld, h.dbl, List.map_append]

/-- `CONJUGATE` keeps the coordinates of the first half and negates those of the second (41_extension_tower.md R180). -/
theorem coords_conjugate (hB : B.Coordinates) (h : B.Coordinatewise f) (nr : α → α) (x : α × α) :
    (quadFld B nr).coords (conjugate B x) =
      ((quadFld B nr).coords x).take B.deg ++ (((quadFld B nr).coords x).drop B.deg).map f.negate := by
  rw [quadFld_coords, quadFld_coords, List.take_left' (hB.length _), List.drop_left' (hB.length _), ← h.neg]
  rfl

end

theorem fq2Fld_coordinatewise (f : PrimeField) (beta : Nat) : (fq2Fld (fpFld f) beta).Coordinatewise f :=
  quadFld_coordinatewise (fpFld_coordinates f) (fpFld_coordinatewise f) _
theorem fq3Fld_coordinatewise (f : PrimeField) (beta : Nat) : (fq3Fld (fpFld f) beta).Coordinatewise f :=
  cubicFld_coordinatewise (fpFld_coordinates f) (fpFld_coordinatewise f) _
theorem fq4Fld_coordinatewise (f : PrimeField) (beta : Nat) : (fq4Fld (fpFld f) beta).Coordinatewise f :=
  quadFld_coordinatewise (fq2Fld_coordinates f beta) (fq2Fld_coordinatewise f beta) _
theorem fq6cFld_coordinatewise (f : PrimeField) (beta : Nat) (xi : E2) :
    (fq6cFld (fq2Fld (fpFld f) beta) xi).Coordinatewise f :=
  cubicFld_coordinatewise (fq2Fld_coordinates f beta) (fq2Fld_coordinatewise f beta) _
theorem fq6qFld_coordinatewise (f : PrimeField) (beta : Nat) : (fq6qFld (fpFld f) beta).Coordinatewise f :=
  quadFld_coordinatewise (fq3Fld_coordinates f beta) (fq3Fld_coordinatewise f beta) _
theorem fq12Fld_coordinatewise (f : PrimeField) (beta : Nat) (xi : E2) :
    (fq12Fld (fq2Fld (fpFld f) beta) xi).Coordinatewise f :=
  quadFld_coordinatewise (fq6cFld_coordinates f beta xi) (fq6cFld_coordinatewise f beta xi) _

/-! ## The levels of a state -/

section
variable {s : State} {l : Level} {α : Type} {t : Tow α}

/-- An element of a level has the level's number of coordinates (10_state.md R24). -/
theorem LevelIs.deg_eq (h : LevelIs s l α t) : t.fld.deg = levelSlots l := by cases h <;> rfl

/-- A level acts coordinate by coordinate, and its map is a free element where its tables are not computed (log 5). -/
theorem LevelIs.coordinatewise_mkTow {f : PrimeField} (hf : s.pf = some f) (h : LevelIs s l α t) :
    t.fld.Coordinatewise f ∧ ∃ real, t = mkTow t.fld f.p s.freeCtr l t.valid real := by
  cases h with
  | fq2 f' e2 hf' => cases hf.symm.trans hf'; exact ⟨fq2Fld_coordinatewise f _, _, rfl⟩
  | fq3 f' e3 hf' => cases hf.symm.trans hf'; exact ⟨fq3Fld_coordinatewise f _, _, rfl⟩
  | fq4 f' e2 e4 hf' => cases hf.symm.trans hf'; exact ⟨fq4Fld_coordinatewise f _, _, rfl⟩
  | fq6c f' e2 e6 hf' => cases hf.symm.trans hf'; exact ⟨fq6cFld_coordinatewise f _ _, _, rfl⟩
  | fq6q f' e3 e6 hf' => cases hf.symm.trans hf'; exact ⟨fq6qFld_coordinatewise f _, _, rfl⟩
  | fq12 f' e2 e6 e12 hf' => cases hf.symm.trans hf'; exact ⟨fq12Fld_coordinatewise f _ _, _, rfl⟩

/-- Words in the slots of a level are the coordinates of the element that stands there. -/
theorem LevelIs.elemAt_of_slots {f : PrimeField} (hf : s.pf = some f) (h : LevelIs s l α t) {a : Nat} {vs : List Nat}
    (hvs : regGetGroup s.slots a (levelSlots l) = .ok vs) : ∃ x, ElemAt s t.fld a x ∧ t.fld.coords x = vs := by
  rw [← h.deg_eq] at hvs
  exact ⟨_, ⟨vs, hvs, rfl⟩, (h.coordinatewise_mkTow hf).1.coords_ofCoords vs (regGetGroup_length _ _ hvs)⟩

/-- Without its tables a level's map gives an element whose coordinates are below the modulus (70_reset_and_hazards.md R472). -/
theorem LevelIs.coords_frob_of_not_valid {f : PrimeField} (hf : s.pf = some f) (hp : 0 < f.p) (h : LevelIs s l α t)
    (hvalid : t.valid = false) (x : α) (power : Nat) :
    (t.fld.coords (t.frob x power)).length = levelSlots l ∧ belowModulus f.p (t.fld.coords (t.frob x power)) = true := by
  obtain ⟨hcoords, real, ht⟩ := h.coordinatewise_mkTow hf
  have hfree : t.frob x power = freeElement t.fld f.p s.freeCtr l x power := by
    rw [ht, hvalid]
    rfl
  rw [hfree, freeElement, hcoords.coords_ofCoords _ (by simp), ← h.deg_eq]
  refine ⟨by simp, List.all_eq_true.2 fun v hv => ?_⟩
  obtain ⟨i, -, rfl⟩ := List.mem_map.1 hv
  exact decide_eq_true (Nat.mod_lt _ hp)

end

end Sys2Proof.Machine

/-! PROOF. The statements on what the extension unit's operations write (41_extension_tower.md R172 to R216). -/

namespace Sys2Proof.Machine

/-! ## Steps shared by the statements -/

section
variable {s : State}

/-- The base of a level that may be built is there (41_extension_tower.md R172). -/
theorem demandBase_ok {l : Level} (h : BaseExists s l) : demandBase l s = .ok () s := by
  obtain ⟨hpf, hbase⟩ := h
  obtain ⟨f, hf⟩ := Option.isSome_iff_exists.1 hpf
  unfold demandBase
  split at hbase
  · next hl => rw [hl]; exact M.bind_of_ok (getPF_some hf)
  · next b hl =>
    obtain ⟨e, he⟩ := Option.isSome_iff_exists.1 hbase
    rw [hl]
    exact (M.bind_of_ok (getPF_some hf)).trans (M.bind_of_ok (getEX_some he))

/-- The tower of `FQ2` is the one of its block. -/
theorem LevelIs.eq_towFq2 {f : PrimeField} {t : Tow E2} {e2 : ExtField} (hf : s.pf = some f) (he : s.ex.fq2 = some e2)
    (h : LevelIs s .fq2 E2 t) : t = towFq2 f s.freeCtr e2 := by
  cases h with
  | fq2 f' e2' hf' he' =>
    cases hf.symm.trans hf'
    cases he.symm.trans he'
    rfl

/-- `CALC_FROB` computes the tables of the level's rule (41_extension_tower.md R184 to R212). -/
theorem frobTables_of {l : Level} {o : Option (List (List Nat) × List (List Nat))} (h : TablesOf s l o) :
    frobTables l s = .ok o s := by
  unfold frobTables
  cases h with
  | fq2 f e2 hf h2 => exact (M.bind_of_ok (getPF_some hf)).trans (M.bind_of_ok (getEX_some (l := .fq2) h2))
  | fq3 f e3 hf h3 => exact (M.bind_of_ok (getPF_some hf)).trans (M.bind_of_ok (getEX_some (l := .fq3) h3))
  | fq4 f e2 hf h2 => exact (M.bind_of_ok (getPF_some hf)).trans (M.bind_of_ok (getEX_some (l := .fq2) h2))
  | fq6c f e2 e6 t hf ht h2 h6 =>
    rw [ht.eq_towFq2 hf h2]
    exact (M.bind_of_ok (getPF_some hf)).trans
      ((M.bind_of_ok (getEX_some (l := .fq2) h2)).trans (M.bind_of_ok (getEX_some (l := .fq6c) h6)))
  | fq6q f e3 hf h3 => exact (M.bind_of_ok (getPF_some hf)).trans (M.bind_of_ok (getEX_some (l := .fq3) h3))
  | fq12 f e2 e6 t hf ht h2 h6 =>
    rw [ht.eq_towFq2 hf h2]
    exact (M.bind_of_ok (getPF_some hf)).trans
      ((M.bind_of_ok (getEX_some (l := .fq2) h2)).trans (M.bind_of_ok (getEX_some (l := .fq6c) h6)))

/-- A level without tables may compute them. -/
theorem demandNoTable_ok {l : Level} {e : ExtField} (h : e.frobValid = false) : demandNoTable l e s = .ok () s := by
  unfold demandNoTable
  rw [h]
  rfl

/-- Conjugation of what stands in the slots: the second half of its words is negated (41_extension_tower.md R180). -/
theorem runUnit_conjOp {f : PrimeField} {α : Type} {B : Fld α} (hB : B.Coordinates) (hf : B.Coordinatewise f) (nr : α → α)
    {a : Nat} {x : α × α} (hx : ElemAt s (quadFld B nr) a x) (c : Nat) :
    runUnit (conjOp B (quadFld B nr) c a) s = .next (s.store c
      (((quadFld B nr).coords x).take B.deg ++ (((quadFld B nr).coords x).drop B.deg).map f.negate)) := by
  rw [conjOp, runUnit_bind_of_ok (readElem_at hx), ← coords_conjugate hB hf]
  rfl

/-- `CALC_FROB` writes the tables of the level's rule, or its boolean alone (41_extension_tower.md R177). -/
theorem calcFrob_ok {l : Level} {e : ExtField} {o : Option (List (List Nat) × List (List Nat))} (he : s.ex.get l = some e)
    (hvalid : e.frobValid = false) (ho : TablesOf s l o) : calcFrob l s = .ok o.isSome (s.withTables l e o) := by
  rw [calcFrob, M.bind_of_ok (getEX_some he), M.bind_of_ok (demandNoTable_ok hvalid), M.bind_of_ok (frobTables_of ho)]
  cases o <;> rfl

/-- `CALC_FROB_PRE` writes the tables it computes from `f1`, or its boolean alone (41_extension_tower.md R179). -/
theorem calcFrobPre_ok {f : PrimeField} {e2 : ExtField} {l : PreLevel} {e : ExtField} (hf : s.pf = some f)
    (h2 : s.ex.fq2 = some e2) (he : s.ex.get (preLevelLevel l) = some e) (hvalid : e.frobValid = false) (f1 : E2) :
    calcFrobPre l f1 s = .ok (preTablesOf (towFq2 f s.freeCtr e2) f.p l f1).isSome
      ((s.withTables (preLevelLevel l) e (preTablesOf (towFq2 f s.freeCtr e2) f.p l f1)).noted e2.frobValid) := by
  rw [calcFrobPre, M.bind_of_ok (getPF_some hf), M.bind_of_ok (look_apply _ _), M.bind_of_ok (getEX_some (l := .fq2) h2),
    M.bind_of_ok (getEX_some he), M.bind_of_ok (demandNoTable_ok hvalid)]
  change (writeTables _ e (preTablesOf (towFq2 f s.freeCtr e2) f.p l f1) >>= _) s = _
  generalize preTablesOf (towFq2 f s.freeCtr e2) f.p l f1 = o
  have hnote : (towFq2 f s.freeCtr e2).valid = e2.frobValid := rfl
  rw [hnote]
  generalize e2.frobValid = valid
  cases o <;> cases valid <;> rfl

end

/-! ## The entries of a table -/

/-- A table exists exactly when its divisions are exact (41_extension_tower.md R177). -/
theorem frobTable_eq_none_iff {α : Type} (F : Fld α) (p : Nat) (c : α) (n m k : Nat) :
    frobTable F p c n m k = none ↔ ∃ i, i < k ∧ ¬ n ∣ p ^ i - 1 := by
  simp [frobTable, Nat.dvd_iff_mod_eq_zero]

theorem frobTable_eq_some_iff {α : Type} (F : Fld α) (p : Nat) (c : α) (n m k : Nat) (tbl : List (List Nat)) :
    frobTable F p c n m k = some tbl ↔ (∀ i, i < k → n ∣ p ^ i - 1) ∧
      (List.range k).map (fun i => F.coords (F.exp c (m * (p ^ i - 1) / n))) = tbl := by
  simp [frobTable, Nat.dvd_iff_mod_eq_zero]

/-- Entry `i` of a table (41_extension_tower.md R177). -/
theorem frobTable_getD {α : Type} {F : Fld α} {p : Nat} {c : α} {n m k : Nat} {tbl : List (List Nat)}
    (h : frobTable F p c n m k = some tbl) {i : Nat} (hi : i < k) :
    tbl.getD i [] = F.coords (F.exp c (m * (p ^ i - 1) / n)) := by
  obtain ⟨-, rfl⟩ := (frobTable_eq_some_iff F p c n m k tbl).1 h
  simp [hi]

/-! ## The statements -/

/-- Settles O30: the base is there, the constant is read, and the level is free to be built. -/
theorem exNewBuildsALevel : Obligations.ExNewBuildsALevel := by
  intro s l nr vs hnew hbase hvs
  simp only [exec, execExNew]
  rw [runUnit_bind_of_ok (demandBase_ok hbase), runUnit_bind_of_ok (readGroup_ok hvs), runUnit_ok (newEX_new hnew)]

/-- Settles O31: each operation of a level is that of the prime field on every coordinate. -/
theorem exCoordinatewise : Obligations.ExCoordinatewise := by
  intro s f l α t c a b vs ws hf ht hvs hws
  obtain ⟨x, hx, rfl⟩ := ht.elemAt_of_slots hf hvs
  obtain ⟨y, hy, rfl⟩ := ht.elemAt_of_slots hf hws
  obtain ⟨hcoords, -⟩ := ht.coordinatewise_mkTow hf
  rw [← hcoords.add, ← hcoords.sub, ← hcoords.neg, ← hcoords.dbl]
  exact ⟨runUnit_levelOp2 ht (fun F => F.add) hx hy c, runUnit_levelOp2 ht (fun F => F.sub) hx hy c,
    runUnit_levelOp1 ht (fun F => F.neg) hx c, runUnit_levelOp1 ht (fun F => F.dbl) hx c⟩

/-- Settles O32: each operation runs in the tower of the level's blocks. -/
theorem exProducts : Obligations.ExProducts := by
  intro s l α t c a b e x y ht hx hy
  refine ⟨runUnit_levelOp2 ht (fun F => F.mul) hx hy c, runUnit_levelOp1 ht (fun F => F.sq) hx c, ?_,
    runUnit_levelOp1 ht (fun F x => F.exp x e) hx c⟩
  simp only [exec, execExInverse]
  rw [runUnit_withLevel ht, runUnit_bind_of_ok (readElem_at hx)]
  rfl

/-- Settles O34: the conjugate of an element keeps its first half and negates its second. -/
theorem exConjugateNegatesTheOddHalf : Obligations.ExConjugateNegatesTheOddHalf := by
  intro s f l α t c a vs n hf ht hn hvs
  subst hn
  simp only [exec, execExConjugate]
  rw [runUnit_bind_of_ok (getPF_some hf)]
  obtain ⟨x, hx, rfl⟩ : ∃ x, ElemAt s t.fld a x ∧ t.fld.coords x = vs := by
    cases l <;> exact ht.elemAt_of_slots hf hvs
  cases l with
  | fq2 =>
    cases ht with
    | fq2 f' e2 hf' h2 =>
      cases hf.symm.trans hf'
      exact (runUnit_bind_of_ok (getEX_some (l := .fq2) h2)).trans
        (runUnit_conjOp (fpFld_coordinates f) (fpFld_coordinatewise f) _ hx c)
  | fq4 =>
    cases ht with
    | fq4 f' e2 e4 hf' h2 h4 =>
      cases hf.symm.trans hf'
      exact (runUnit_bind_of_ok (getEX_some (l := .fq2) h2)).trans ((runUnit_bind_of_ok (getEX_some (l := .fq4) h4)).trans
        (runUnit_conjOp (fq2Fld_coordinates f _) (fq2Fld_coordinatewise f _) _ hx c))
  | fq6q =>
    cases ht with
    | fq6q f' e3 e6 hf' h3 h6 =>
      cases hf.symm.trans hf'
      exact (runUnit_bind_of_ok (getEX_some (l := .fq3) h3)).trans ((runUnit_bind_of_ok (getEX_some (l := .fq6q) h6)).trans
        (runUnit_conjOp (fq3Fld_coordinates f _) (fq3Fld_coordinatewise f _) _ hx c))
  | fq12 =>
    cases ht with
    | fq12 f' e2 e6 e12 hf' h2 h6 h12 =>
      cases hf.symm.trans hf'
      exact (runUnit_bind_of_ok (getBnTower_of ⟨f, e2, e6, e12, hf, h2, h6, h12, rfl⟩)).trans
        (runUnit_conjOp (fq6cFld_coordinates f _ _) (fq6cFld_coordinatewise f _ _) _ hx c)

/-- Settles O35: the sparse products and the square are products of `FQ12` by definition. -/
theorem exTowerProducts : Obligations.ExTowerProducts := by
  intro s t c a e1 e2 e3 x y1 y2 y3 ht hx h1 h2 h3
  simp only [exec, execExMulBy014, execExMulBy034, execExCyclotomicSquare, runUnit_bind_of_ok (getBnTower_of ht),
    runUnit_bind_of_ok (readElem_at hx), runUnit_bind_of_ok (readElem_at h1), runUnit_bind_of_ok (readElem_at h2),
    runUnit_bind_of_ok (readElem_at h3)]
  exact ⟨rfl, rfl, rfl⟩

/-- `EX.FROBENIUS_MAP` writes what the level's map gives, and the counter moves on when its tables are missing (log 5). -/
theorem execExFrobeniusMap_next {s : State} {l : Level} {α : Type} {t : Tow α} (ht : LevelIs s l α t) {a : Nat} {x : α}
    (hx : ElemAt s t.fld a x) (c power : Nat) :
    execExFrobeniusMap l c a power s = .next ((s.store c (t.fld.coords (t.frob x power))).noted t.valid) := by
  rw [execExFrobeniusMap, runUnit_withLevel ht, runUnit_bind_of_ok (readElem_at hx)]
  rfl

/-- Settles O36: with the tables the counter stays, and without them the map is a free element. -/
theorem exFrobeniusMapOrAnyElement : Obligations.ExFrobeniusMapOrAnyElement := by
  intro s f l α t c a power x hf hp ht hx
  have hrun := execExFrobeniusMap_next ht hx c power
  refine ⟨fun hvalid => ?_, fun hvalid => ?_⟩
  · rw [hvalid] at hrun
    exact hrun
  · obtain ⟨hlen, hlt⟩ := ht.coords_frob_of_not_valid hf hp hvalid x power
    rw [hvalid] at hrun
    exact ⟨_, hlen, hlt, hrun⟩

/-- Settles O38: the level has no table, so the one of its rule is computed and written; its entries are read off. -/
theorem exCalcFrobWritesTheTables : Obligations.ExCalcFrobWritesTheTables := by
  refine ⟨fun s l e o he hvalid ho => ?_, fun α F p c n m k _ => ?_⟩
  · simp only [exec, execExCalcFrob]
    rw [runUnit_bind_of_ok (calcFrob_ok he hvalid ho)]
    rfl
  · split
    · next h => exact (frobTable_eq_none_iff F p c n m k).1 h
    · next tbl h =>
      obtain ⟨hdvd, htbl⟩ := (frobTable_eq_some_iff F p c n m k tbl).1 h
      exact ⟨hdvd, by simp [← htbl], fun i hi => frobTable_getD h hi⟩

/-- Settles O39: `f1` is read as an element of `FQ2`, and the realisation's tables are written. -/
theorem exCalcFrobPreWritesTheTables : Obligations.ExCalcFrobPreWritesTheTables := by
  intro s f t l e f1 v hf ht he hvalid hv
  cases ht with
  | fq2 f' e2 hf' h2 =>
    cases hf.symm.trans hf'
    have hread : ElemAt s (fq2Fld (fpFld f) (e2.nonResidue.headD 0)) f1 v := hv
    simp only [exec, execExCalcFrobPre]
    rw [runUnit_bind_of_ok (getPF_some hf), runUnit_bind_of_ok (getEX_some (l := .fq2) h2),
      runUnit_bind_of_ok (readElem_at hread), runUnit_bind_of_ok (calcFrobPre_ok hf h2 he hvalid v)]
    rfl

end Sys2Proof.Machine

/-! PROOF. The levels as rings (41_extension_tower.md R170 to R176, R219): each level's operations are those of a commutative
ring that contains the residues modulo `p`, and a level of degree 2 or 3 represents the ring below with a root of its constant
adjoined. -/

namespace Sys2Proof.Machine

/-! ## Rings with a root of a constant adjoined -/

/-- `S` is `R` with an element `w` whose `n`-th power is `c`: every element has unique coordinates over `R`. -/
structure AdjoinsRoot {R S : Type} [CommRing R] [CommRing S] [Algebra R S] (n : Nat) (c : R) (w : S) : Prop where
  root_pow : w ^ n = algebraMap R S c
  bijective : Function.Bijective fun a : Fin n → R => ∑ i, algebraMap R S (a i) * w ^ (i : Nat)

/-- There is such a ring (41_extension_tower.md R170). -/
theorem adjoinRoot_adjoinsRoot {R : Type} [CommRing R] [Nontrivial R] (n : Nat) (hn : n ≠ 0) (c : R) :
    AdjoinsRoot (S := AdjoinRoot (Polynomial.X ^ n - Polynomial.C c)) n c (AdjoinRoot.root _) where
  root_pow := by
    have h := AdjoinRoot.eval₂_root (Polynomial.X ^ n - Polynomial.C c)
    rw [Polynomial.eval₂_sub, Polynomial.eval₂_pow, Polynomial.eval₂_X, Polynomial.eval₂_C, sub_eq_zero] at h
    exact h
  bijective := by
    have hmonic := Polynomial.monic_X_pow_sub_C c hn
    let b := (AdjoinRoot.powerBasis' hmonic).basis.reindex
      (finCongr (show (AdjoinRoot.powerBasis' hmonic).dim = n from Polynomial.natDegree_X_pow_sub_C))
    convert b.equivFun.symm.bijective using 1
    funext a
    rw [Module.Basis.equivFun_symm_apply]
    refine Finset.sum_congr rfl fun i _ => ?_
    rw [Algebra.smul_def]
    simp [b]

section
variable {R S : Type} [CommRing R] [CommRing S] [Algebra R S] {n : Nat} {c : R} {w : S}

/-- Coordinates over a square root are unique. -/
theorem AdjoinsRoot.eq_of_quadratic (h : AdjoinsRoot 2 c w) {a0 a1 b0 b1 : R}
    (he : algebraMap R S a0 + algebraMap R S a1 * w = algebraMap R S b0 + algebraMap R S b1 * w) : a0 = b0 ∧ a1 = b1 := by
  have := h.bijective.1 (a₁ := ![a0, a1]) (a₂ := ![b0, b1]) (by simpa [Fin.sum_univ_two] using he)
  exact ⟨congrFun this 0, congrFun this 1⟩

/-- Coordinates over a cube root are unique. -/
theorem AdjoinsRoot.eq_of_cubic (h : AdjoinsRoot 3 c w) {a0 a1 a2 b0 b1 b2 : R}
    (he : algebraMap R S a0 + algebraMap R S a1 * w + algebraMap R S a2 * w ^ 2 =
      algebraMap R S b0 + algebraMap R S b1 * w + algebraMap R S b2 * w ^ 2) : a0 = b0 ∧ a1 = b1 ∧ a2 = b2 := by
  have := h.bijective.1 (a₁ := ![a0, a1, a2]) (a₂ := ![b0, b1, b2]) (by simpa [Fin.sum_univ_three] using he)
  exact ⟨congrFun this 0, congrFun this 1, congrFun this 2⟩

theorem AdjoinsRoot.exists_quadratic (h : AdjoinsRoot 2 c w) (x : S) :
    ∃ a0 a1 : R, algebraMap R S a0 + algebraMap R S a1 * w = x := by
  obtain ⟨a, ha⟩ := h.bijective.2 x
  exact ⟨a 0, a 1, by simpa [Fin.sum_univ_two] using ha⟩

theorem AdjoinsRoot.exists_cubic (h : AdjoinsRoot 3 c w) (x : S) :
    ∃ a0 a1 a2 : R, algebraMap R S a0 + algebraMap R S a1 * w + algebraMap R S a2 * w ^ 2 = x := by
  obtain ⟨a, ha⟩ := h.bijective.2 x
  exact ⟨a 0, a 1, a 2, by simpa [Fin.sum_univ_three] using ha⟩

theorem AdjoinsRoot.card_eq (h : AdjoinsRoot n c w) : Nat.card S = Nat.card R ^ n := by
  rw [← Nat.card_congr (Equiv.ofBijective _ h.bijective), Nat.card_fun, Nat.card_fin]

/-! ### Norms and units (41_extension_tower.md R175) -/

/-- The norm of `a0 + a1·w` for `w² = c`. -/
def squareRootNorm (c a0 a1 : R) : R := a0 * a0 - c * (a1 * a1)

/-- The norm of `a0 + a1·w + a2·w²` for `w³ = c`. -/
def cubeRootNorm (c a0 a1 a2 : R) : R :=
  a0 * (a0 * a0 - c * (a1 * a2)) + c * (a2 * (c * (a2 * a2) - a0 * a1) + a1 * (a1 * a1 - a0 * a2))

/-- An element times its conjugate is its norm. -/
theorem AdjoinsRoot.mul_conjugate (h : AdjoinsRoot 2 c w) (a0 a1 : R) :
    (algebraMap R S a0 + algebraMap R S a1 * w) * (algebraMap R S a0 - algebraMap R S a1 * w) =
      algebraMap R S (squareRootNorm c a0 a1) := by
  simp only [squareRootNorm, map_sub, map_mul]
  linear_combination -(algebraMap R S a1 * algebraMap R S a1) * h.root_pow

/-- An element times its adjugate is its norm. -/
theorem AdjoinsRoot.mul_adjugate (h : AdjoinsRoot 3 c w) (a0 a1 a2 : R) :
    (algebraMap R S a0 + algebraMap R S a1 * w + algebraMap R S a2 * w ^ 2) *
      (algebraMap R S (a0 * a0 - c * (a1 * a2)) + algebraMap R S (c * (a2 * a2) - a0 * a1) * w
        + algebraMap R S (a1 * a1 - a0 * a2) * w ^ 2) = algebraMap R S (cubeRootNorm c a0 a1 a2) := by
  simp only [cubeRootNorm, map_sub, map_mul, map_add]
  generalize algebraMap R S a0 = x, algebraMap R S a1 = y, algebraMap R S a2 = z
  linear_combination (y * (y * y - x * z) + z * (algebraMap R S c * (z * z) - x * y) + z * (y * y - x * z) * w) * h.root_pow

/-- An element over a square root is a unit exactly when its norm is: the norm is multiplicative, and the element divides
it. -/
theorem AdjoinsRoot.isUnit_quadratic_iff (h : AdjoinsRoot 2 c w) (a0 a1 : R) :
    IsUnit (algebraMap R S a0 + algebraMap R S a1 * w) ↔ IsUnit (squareRootNorm c a0 a1) := by
  refine ⟨fun hu => ?_, fun hu => isUnit_of_dvd_unit (Dvd.intro _ (h.mul_conjugate a0 a1)) (hu.map (algebraMap R S))⟩
  obtain ⟨y, hy⟩ := isUnit_iff_exists_inv.1 hu
  obtain ⟨b0, b1, rfl⟩ := h.exists_quadratic y
  obtain ⟨h0, h1⟩ := h.eq_of_quadratic (a0 := a0 * b0 + c * (a1 * b1)) (a1 := a0 * b1 + a1 * b0) (b0 := 1) (b1 := 0) (by
    simp only [map_add, map_mul, map_one, map_zero]
    linear_combination hy - algebraMap R S a1 * algebraMap R S b1 * h.root_pow)
  refine isUnit_iff_exists_inv.2 ⟨squareRootNorm c b0 b1, ?_⟩
  calc squareRootNorm c a0 a1 * squareRootNorm c b0 b1
      = squareRootNorm c (a0 * b0 + c * (a1 * b1)) (a0 * b1 + a1 * b0) := by simp only [squareRootNorm]; ring
    _ = 1 := by rw [h0, h1, squareRootNorm]; ring

/-- The same over a cube root. -/
theorem AdjoinsRoot.isUnit_cubic_iff (h : AdjoinsRoot 3 c w) (a0 a1 a2 : R) :
    IsUnit (algebraMap R S a0 + algebraMap R S a1 * w + algebraMap R S a2 * w ^ 2) ↔ IsUnit (cubeRootNorm c a0 a1 a2) := by
  refine ⟨fun hu => ?_, fun hu => isUnit_of_dvd_unit (Dvd.intro _ (h.mul_adjugate a0 a1 a2)) (hu.map (algebraMap R S))⟩
  obtain ⟨y, hy⟩ := isUnit_iff_exists_inv.1 hu
  obtain ⟨b0, b1, b2, rfl⟩ := h.exists_cubic y
  obtain ⟨h0, h1, h2⟩ := h.eq_of_cubic (a0 := a0 * b0 + c * (a1 * b2 + a2 * b1)) (a1 := a0 * b1 + a1 * b0 + c * (a2 * b2))
    (a2 := a0 * b2 + a1 * b1 + a2 * b0) (b0 := 1) (b1 := 0) (b2 := 0) (by
    simp only [map_add, map_mul, map_one, map_zero]
    linear_combination hy - (algebraMap R S a1 * algebraMap R S b2 + algebraMap R S a2 * algebraMap R S b1
      + algebraMap R S a2 * algebraMap R S b2 * w) * h.root_pow)
  refine isUnit_iff_exists_inv.2 ⟨cubeRootNorm c b0 b1 b2, ?_⟩
  calc cubeRootNorm c a0 a1 a2 * cubeRootNorm c b0 b1 b2
      = cubeRootNorm c (a0 * b0 + c * (a1 * b2 + a2 * b1)) (a0 * b1 + a1 * b0 + c * (a2 * b2))
          (a0 * b2 + a1 * b1 + a2 * b0) := by simp only [cubeRootNorm]; ring
    _ = 1 := by rw [h0, h1, h2, cubeRootNorm]; ring

end

/-! ## What a level represents -/

/-- The elements of a level are those whose coordinates are below the modulus. -/
theorem isElem_iff {α : Type} {F : Fld α} {p : Nat} {a : α} : IsElem F p a ↔ F.In (· < p) a := by
  simp [IsElem, belowModulus, Fld.In]

@[simp] theorem isElem_fpFld {f : PrimeField} {p a : Nat} : IsElem (fpFld f) p a ↔ a < p := by
  rw [isElem_iff, fpFld_in]

@[simp] theorem isElem_quadFld {α : Type} {B : Fld α} {nr : α → α} {p : Nat} {a : α × α} :
    IsElem (quadFld B nr) p a ↔ IsElem B p a.1 ∧ IsElem B p a.2 := by
  simp only [isElem_iff, quadFld_in]

@[simp] theorem isElem_cubicFld {α : Type} {B : Fld α} {nr : α → α} {p : Nat} {a : α × α × α} :
    IsElem (cubicFld B nr) p a ↔ IsElem B p a.1 ∧ IsElem B p a.2.1 ∧ IsElem B p a.2.2 := by
  simp only [isElem_iff, cubicFld_in]

/-- The level `F` over the field block `f` represents the ring `R`: `φ` takes its operations to those of `R`, and every element
of `R` is that of exactly one element of the level (41_extension_tower.md R173 to R175). -/
structure Fld.Represents {α : Type} (F : Fld α) (f : PrimeField) {R : Type} [CommRing R] [Algebra (ZMod f.p) R] (φ : α → R) :
    Prop where
  closed : F.Closed (· < f.p)
  zero : φ F.zero = 0
  one : φ F.one = 1
  add : ∀ a b, φ (F.add a b) = φ a + φ b
  sub : ∀ a b, φ (F.sub a b) = φ a - φ b
  neg : ∀ a, IsElem F f.p a → φ (F.neg a) = -φ a
  dbl : ∀ a, φ (F.dbl a) = φ a + φ a
  mul : ∀ a b, φ (F.mul a b) = φ a * φ b
  scale : ∀ c a, φ (F.scale c a) = algebraMap (ZMod f.p) R (f.residue c) * φ a
  inv : ∀ a, IsElem F f.p a →
    (∃ v, F.inv a = (true, v) ∧ IsElem F f.p v ∧ φ v * φ a = 1) ∨ (F.inv a = (false, F.zero) ∧ ¬ IsUnit (φ a))
  inj : ∀ a b, IsElem F f.p a → IsElem F f.p b → φ a = φ b → a = b
  surj : ∀ x, ∃ a, IsElem F f.p a ∧ φ a = x
  card : Nat.card R = f.p ^ F.deg

/-! ### The prime field -/

/-- The prime field represents the residues modulo `p` (40_prime_field.md R133 to R145). -/
theorem fpFld_represents {f : PrimeField} (hf : f.legal = true) : (fpFld f).Represents f f.residue where
  closed := fpFld_closed_below hf
  zero := by
    show f.residue f.zero = 0
    rw [PrimeField.zero_eq_of_legal hf, PrimeField.residue_zero]
  one := PrimeField.residue_one hf
  add := PrimeField.residue_add f
  sub a b := by
    have hle : b % f.p ≤ f.p := (Nat.mod_lt b (PrimeField.pos_of_legal hf)).le
    show f.residue (f.sub a b) = _
    rw [PrimeField.residue, PrimeField.sub, ZMod.natCast_mod, Nat.cast_add, Nat.cast_sub hle, ZMod.natCast_self,
      ZMod.natCast_mod, PrimeField.residue, PrimeField.residue]
    ring
  neg a ha := PrimeField.residue_negate (isElem_fpFld.1 ha).le
  dbl a := by
    show f.residue (f.double a) = _
    rw [PrimeField.residue, PrimeField.double, ZMod.natCast_mod, PrimeField.residue]
    push_cast
    ring
  mul := PrimeField.residue_mul f
  scale c a := by
    show f.residue (f.mul a c) = _
    rw [PrimeField.residue_mul, mul_comm]
    rfl
  inv a ha := by
    have ha' := isElem_fpFld.1 ha
    have hunit : IsUnit (f.residue a) ↔ Nat.Coprime a f.p := by
      rw [← ZMod.isUnit_iff_coprime, PrimeField.residue, IsUnit.mul_iff]
      exact and_iff_left (IsUnit.of_mul_eq_one _ (PrimeField.rinv_mul_two_pow (PrimeField.odd_of_legal hf)))
    by_cases hco : Nat.Coprime a f.p
    · obtain ⟨v, hv, hrun, hinv⟩ := PrimeField.invert_of_coprime hf ha' hco
      exact .inl ⟨v, hrun, isElem_fpFld.2 hv, PrimeField.residue_mul_residue_of_inverse hf hinv⟩
    · refine .inr ⟨?_, hunit.not.2 hco⟩
      show f.invert a = (false, f.zero)
      rw [PrimeField.zero_eq_of_legal hf, PrimeField.invert_of_not_coprime hf ha' hco]
  inj a b ha hb := (PrimeField.residue_inj (PrimeField.odd_of_legal hf) (isElem_fpFld.1 ha) (isElem_fpFld.1 hb)).1
  surj x := by
    have : NeZero f.p := ⟨(PrimeField.pos_of_legal hf).ne'⟩
    refine ⟨f.toMont x.val, isElem_fpFld.2 (PrimeField.toMont_lt (PrimeField.pos_of_legal hf) _), ?_⟩
    rw [PrimeField.residue_toMont (PrimeField.odd_of_legal hf), ZMod.natCast_zmod_val]
  card := by rw [Nat.card_zmod, fpFld_deg, pow_one]

/-! ### A level of degree 2 or 3 -/

section
variable {α : Type}

/-- The norm of an element of a level of degree 2 (41_extension_tower.md R175). -/
def quadNorm (B : Fld α) (nr : α → α) (a : α × α) : α := B.sub (B.mul a.1 a.1) (nr (B.mul a.2 a.2))

/-- The adjugate of an element of a level of degree 3, `t0`, `t1`, `t2` of R175. -/
def cubicAdjugate (B : Fld α) (nr : α → α) (a : α × α × α) : α × α × α :=
  (B.sub (B.mul a.1 a.1) (nr (B.mul a.2.1 a.2.2)), B.sub (nr (B.mul a.2.2 a.2.2)) (B.mul a.1 a.2.1),
    B.sub (B.mul a.2.1 a.2.1) (B.mul a.1 a.2.2))

/-- The norm of an element of a level of degree 3 (41_extension_tower.md R175). -/
def cubicNorm (B : Fld α) (nr : α → α) (a : α × α × α) : α :=
  B.add (B.mul a.1 (cubicAdjugate B nr a).1)
    (nr (B.add (B.mul a.2.2 (cubicAdjugate B nr a).2.1) (B.mul a.2.1 (cubicAdjugate B nr a).2.2)))

variable {B : Fld α} {nr : α → α} {v : α}

theorem quadFld_inv_of_true {a : α × α} (h : B.inv (quadNorm B nr a) = (true, v)) :
    (quadFld B nr).inv a = (true, (B.mul a.1 v, B.neg (B.mul a.2 v))) := by
  rw [quadNorm] at h
  simp only [quadFld, h]

theorem quadFld_inv_of_false {a : α × α} (h : B.inv (quadNorm B nr a) = (false, v)) :
    (quadFld B nr).inv a = (false, (quadFld B nr).zero) := by
  rw [quadNorm] at h
  simp only [quadFld, h]

theorem cubicFld_inv_of_true {a : α × α × α} (h : B.inv (cubicNorm B nr a) = (true, v)) :
    (cubicFld B nr).inv a = (true, (B.mul (cubicAdjugate B nr a).1 v, B.mul (cubicAdjugate B nr a).2.1 v,
      B.mul (cubicAdjugate B nr a).2.2 v)) := by
  rw [cubicNorm, cubicAdjugate] at h
  simp only [cubicFld, h, cubicAdjugate]

theorem cubicFld_inv_of_false {a : α × α × α} (h : B.inv (cubicNorm B nr a) = (false, v)) :
    (cubicFld B nr).inv a = (false, (cubicFld B nr).zero) := by
  rw [cubicNorm, cubicAdjugate] at h
  simp only [cubicFld, h]

end

section
variable {f : PrimeField} {α R S : Type} [CommRing R] [CommRing S] [Algebra R S]

/-- The ring element an element of a level of degree 2 stands for. -/
def quadValue (S : Type) [CommRing S] [Algebra R S] (ψ : α → R) (w : S) (a : α × α) : S :=
  algebraMap R S (ψ a.1) + algebraMap R S (ψ a.2) * w

/-- The ring element an element of a level of degree 3 stands for. -/
def cubicValue (S : Type) [CommRing S] [Algebra R S] (ψ : α → R) (w : S) (a : α × α × α) : S :=
  algebraMap R S (ψ a.1) + algebraMap R S (ψ a.2.1) * w + algebraMap R S (ψ a.2.2) * w ^ 2

variable [Algebra (ZMod f.p) R] {B : Fld α} {ψ : α → R} {nr : α → α} {c : R} {w : S}

theorem quadValue_generator (hB : B.Represents f ψ) : quadValue S ψ w (B.zero, B.one) = w := by
  simp [quadValue, hB.zero, hB.one]

theorem cubicValue_generator (hB : B.Represents f ψ) : cubicValue S ψ w (B.zero, B.one, B.zero) = w := by
  simp [cubicValue, hB.zero, hB.one]

variable [Algebra (ZMod f.p) S] [IsScalarTower (ZMod f.p) R S]

/-- A level of degree 2 represents the ring below with a square root of its constant adjoined. -/
theorem quadFld_represents (hB : B.Represents f ψ) (hw : AdjoinsRoot 2 c w) (hnr : ∀ x, ψ (nr x) = c * ψ x) :
    (quadFld B nr).Represents f (quadValue S ψ w) where
  closed := quadFld_closed hB.closed nr
  zero := by simp [quadValue, quadFld, hB.zero]
  one := by simp [quadValue, quadFld, hB.zero, hB.one]
  add a b := by simp only [quadValue, quadFld, hB.add, map_add]; ring
  sub a b := by simp only [quadValue, quadFld, hB.sub, map_sub]; ring
  neg a ha := by
    obtain ⟨h1, h2⟩ := isElem_quadFld.1 ha
    simp only [quadValue, quadFld, hB.neg _ h1, hB.neg _ h2, map_neg]; ring
  dbl a := by simp only [quadValue, quadFld, hB.dbl, map_add]; ring
  mul a b := by
    simp only [quadValue, quadFld, hB.add, hB.sub, hB.mul, hnr, map_add, map_sub, map_mul]
    linear_combination -(algebraMap R S (ψ a.2) * algebraMap R S (ψ b.2)) * hw.root_pow
  scale k a := by
    simp only [quadValue, quadFld, hB.scale, map_mul, ← IsScalarTower.algebraMap_apply]; ring
  inv a ha := by
    have hnorm : ψ (quadNorm B nr a) = squareRootNorm c (ψ a.1) (ψ a.2) := by
      simp only [quadNorm, squareRootNorm, hB.sub, hB.mul, hnr]
    rcases hB.inv _ (isElem_iff.2 (hB.closed.sub _ _) : IsElem B f.p (quadNorm B nr a)) with ⟨v, hv, -, hinv⟩ | ⟨hv, hno⟩
    · refine .inl ⟨_, quadFld_inv_of_true hv,
        isElem_quadFld.2 ⟨isElem_iff.2 (hB.closed.mul _ _), isElem_iff.2 (hB.closed.neg _)⟩, ?_⟩
      have hinv' := congrArg (algebraMap R S) hinv
      rw [hnorm, map_mul, ← hw.mul_conjugate, map_one] at hinv'
      simp only [quadValue, hB.mul, hB.neg _ (isElem_iff.2 (hB.closed.mul _ _)), map_neg, map_mul]
      linear_combination hinv'
    · exact .inr ⟨quadFld_inv_of_false hv, by rwa [quadValue, hw.isUnit_quadratic_iff, ← hnorm]⟩
  inj a b ha hb hab := by
    obtain ⟨ha1, ha2⟩ := isElem_quadFld.1 ha
    obtain ⟨hb1, hb2⟩ := isElem_quadFld.1 hb
    obtain ⟨h1, h2⟩ := hw.eq_of_quadratic hab
    exact Prod.ext (hB.inj _ _ ha1 hb1 h1) (hB.inj _ _ ha2 hb2 h2)
  surj x := by
    obtain ⟨x0, x1, rfl⟩ := hw.exists_quadratic x
    obtain ⟨a0, h0, rfl⟩ := hB.surj x0
    obtain ⟨a1, h1, rfl⟩ := hB.surj x1
    exact ⟨(a0, a1), isElem_quadFld.2 ⟨h0, h1⟩, rfl⟩
  card := by rw [hw.card_eq, hB.card, ← pow_mul, Nat.mul_comm]; rfl

/-- A level of degree 3 represents the ring below with a cube root of its constant adjoined. -/
theorem cubicFld_represents (hB : B.Represents f ψ) (hw : AdjoinsRoot 3 c w) (hnr : ∀ x, ψ (nr x) = c * ψ x) :
    (cubicFld B nr).Represents f (cubicValue S ψ w) where
  closed := cubicFld_closed hB.closed nr
  zero := by simp [cubicValue, cubicFld, hB.zero]
  one := by simp [cubicValue, cubicFld, hB.zero, hB.one]
  add a b := by simp only [cubicValue, cubicFld, hB.add, map_add]; ring
  sub a b := by simp only [cubicValue, cubicFld, hB.sub, map_sub]; ring
  neg a ha := by
    obtain ⟨h1, h2, h3⟩ := isElem_cubicFld.1 ha
    simp only [cubicValue, cubicFld, hB.neg _ h1, hB.neg _ h2, hB.neg _ h3, map_neg]; ring
  dbl a := by simp only [cubicValue, cubicFld, hB.dbl, map_add]; ring
  mul a b := by
    simp only [cubicValue, cubicFld, hB.add, hB.mul, hnr, map_add, map_mul]
    linear_combination -(algebraMap R S (ψ a.2.1) * algebraMap R S (ψ b.2.2) + algebraMap R S (ψ a.2.2) * algebraMap R S (ψ b.2.1)
        + algebraMap R S (ψ a.2.2) * algebraMap R S (ψ b.2.2) * w) * hw.root_pow
  scale k a := by
    simp only [cubicValue, cubicFld, hB.scale, map_mul, ← IsScalarTower.algebraMap_apply]; ring
  inv a ha := by
    have hnorm : ψ (cubicNorm B nr a) = cubeRootNorm c (ψ a.1) (ψ a.2.1) (ψ a.2.2) := by
      simp only [cubicNorm, cubicAdjugate, cubeRootNorm, hB.add, hB.sub, hB.mul, hnr]
    rcases hB.inv _ (isElem_iff.2 (hB.closed.add _ _) : IsElem B f.p (cubicNorm B nr a)) with ⟨v, hv, -, hinv⟩ | ⟨hv, hno⟩
    · refine .inl ⟨_, cubicFld_inv_of_true hv, isElem_cubicFld.2
        ⟨isElem_iff.2 (hB.closed.mul _ _), isElem_iff.2 (hB.closed.mul _ _), isElem_iff.2 (hB.closed.mul _ _)⟩, ?_⟩
      have hinv' := congrArg (algebraMap R S) hinv
      rw [hnorm, map_mul, ← hw.mul_adjugate, map_one] at hinv'
      simp only [cubicValue, cubicAdjugate, hB.sub, hB.mul, hnr, map_mul] at hinv' ⊢
      linear_combination hinv'
    · exact .inr ⟨cubicFld_inv_of_false hv, by rwa [cubicValue, hw.isUnit_cubic_iff, ← hnorm]⟩
  inj a b ha hb hab := by
    obtain ⟨ha1, ha2, ha3⟩ := isElem_cubicFld.1 ha
    obtain ⟨hb1, hb2, hb3⟩ := isElem_cubicFld.1 hb
    obtain ⟨h1, h2, h3⟩ := hw.eq_of_cubic hab
    exact Prod.ext (hB.inj _ _ ha1 hb1 h1) (Prod.ext (hB.inj _ _ ha2 hb2 h2) (hB.inj _ _ ha3 hb3 h3))
  surj x := by
    obtain ⟨x0, x1, x2, rfl⟩ := hw.exists_cubic x
    obtain ⟨a0, h0, rfl⟩ := hB.surj x0
    obtain ⟨a1, h1, rfl⟩ := hB.surj x1
    obtain ⟨a2, h2, rfl⟩ := hB.surj x2
    exact ⟨(a0, a1, a2), isElem_cubicFld.2 ⟨h0, h1, h2⟩, rfl⟩
  card := by rw [hw.card_eq, hB.card, ← pow_mul, Nat.mul_comm]; rfl

/-- Multiplication by the square root moves the coordinates round (41_extension_tower.md R182). -/
theorem quadValue_rotate (hw : AdjoinsRoot 2 c w) (hnr : ∀ x, ψ (nr x) = c * ψ x) (a : α × α) :
    quadValue S ψ w (nr a.2, a.1) = w * quadValue S ψ w a := by
  simp only [quadValue, hnr, map_mul]
  linear_combination -(algebraMap R S (ψ a.2)) * hw.root_pow

/-- Multiplication by the cube root moves the coordinates round (41_extension_tower.md R182). -/
theorem cubicValue_rotate (hw : AdjoinsRoot 3 c w) (hnr : ∀ x, ψ (nr x) = c * ψ x) (a : α × α × α) :
    cubicValue S ψ w (nr a.2.2, a.1, a.2.1) = w * cubicValue S ψ w a := by
  simp only [cubicValue, hnr, map_mul]
  linear_combination -(algebraMap R S (ψ a.2.2)) * hw.root_pow

end

end Sys2Proof.Machine

/-! PROOF. The laws of a level from the ring it represents, and the six levels (41_extension_tower.md R170; O33). -/

namespace Sys2Proof.Machine

/-! ## The laws of a level -/

/-- The product of a level of degree 2 (41_extension_tower.md R174). -/
theorem quadFld_mul {α : Type} (B : Fld α) (nr : α → α) (a b : α × α) : (quadFld B nr).mul a b =
    (B.add (B.mul a.1 b.1) (nr (B.mul a.2 b.2)),
      B.sub (B.sub (B.mul (B.add a.1 a.2) (B.add b.1 b.2)) (B.mul a.1 b.1)) (B.mul a.2 b.2)) := rfl

/-- The product of a level of degree 3 (41_extension_tower.md R174). -/
theorem cubicFld_mul {α : Type} (B : Fld α) (nr : α → α) (a b : α × α × α) : (cubicFld B nr).mul a b =
    (B.add (B.mul a.1 b.1) (nr (B.add (B.mul a.2.1 b.2.2) (B.mul a.2.2 b.2.1))),
      B.add (B.add (B.mul a.1 b.2.1) (B.mul a.2.1 b.1)) (nr (B.mul a.2.2 b.2.2)),
      B.add (B.add (B.mul a.1 b.2.2) (B.mul a.2.1 b.2.1)) (B.mul a.2.2 b.1)) := rfl

section
variable {f : PrimeField} {α R : Type} [CommRing R] [Algebra (ZMod f.p) R] {F : Fld α} {φ : α → R}

/-- A power is the power of the represented element (41_extension_tower.md R176). -/
theorem Fld.Represents.exp (h : F.Represents f φ) (a : α) (e : Nat) : φ (F.exp a e) = φ a ^ e := by
  rw [Fld.exp, powBits_map φ h.mul, h.one, one_pow, one_mul, Nat.mod_eq_of_lt (lt_two_pow_bitlen e)]

theorem Fld.Represents.exp_isElem (h : F.Represents f φ) (a : α) (e : Nat) : IsElem F f.p (F.exp a e) :=
  isElem_iff.2 (h.closed.exp a e)

/-- The square of a power. -/
theorem Fld.Represents.sq_exp (h : F.Represents f φ) (a : α) (e : Nat) : F.sq (F.exp a e) = F.exp a (2 * e) := by
  refine h.inj _ _ (isElem_iff.2 (h.closed.sq _)) (h.exp_isElem a _) ?_
  rw [Fld.sq, h.mul, h.exp, h.exp, two_mul, pow_add]

/-- An inverse is found exactly when the represented element is a unit (41_extension_tower.md R175). -/
theorem Fld.Represents.inv_eq_true_iff (h : F.Represents f φ) {a : α} (ha : IsElem F f.p a) :
    (F.inv a).1 = true ↔ IsUnit (φ a) := by
  rcases h.inv a ha with ⟨v, hv, -, hinv⟩ | ⟨hv, hno⟩
  · rw [hv]
    exact iff_of_true rfl (IsUnit.of_mul_eq_one _ ((mul_comm _ _).trans hinv))
  · rw [hv]
    exact iff_of_false Bool.false_ne_true hno

theorem Fld.Represents.eq_zero_iff (h : F.Represents f φ) {a : α} (ha : IsElem F f.p a) : φ a = 0 ↔ a = F.zero :=
  ⟨fun h0 => h.inj a F.zero ha (isElem_iff.2 h.closed.zero) (h0.trans h.zero.symm), fun h0 => h0 ▸ h.zero⟩

theorem Fld.Represents.nontrivial (h : F.Represents f φ) (hf : f.legal = true) (hdeg : F.deg ≠ 0) : Nontrivial R := by
  by_contra hR
  have := not_nontrivial_iff_subsingleton.1 hR
  have hp := PrimeField.three_lt_of_legal hf
  have hlt : 1 < f.p ^ F.deg := Nat.one_lt_pow hdeg (by omega)
  rw [← h.card, Nat.card_of_subsingleton (0 : R)] at hlt
  exact lt_irrefl 1 hlt

/-- A level where every non-zero element has an inverse represents a field with `p^k` elements (41_extension_tower.md R219). -/
theorem Fld.Represents.pow_card_sub_one (h : F.Represents f φ) (hf : f.legal = true)
    (hunits : ∀ b, IsElem F f.p b → b ≠ F.zero → (F.inv b).1 = true) {a : α} (ha : IsElem F f.p a) (ha0 : a ≠ F.zero) :
    φ a ^ (f.p ^ F.deg - 1) = 1 := by
  have hunit : ∀ x : R, x ≠ 0 → IsUnit x := by
    intro x hx
    obtain ⟨b, hb, rfl⟩ := h.surj x
    exact (h.inv_eq_true_iff hb).1 (hunits b hb ((h.eq_zero_iff hb).not.1 hx))
  have ha0' : φ a ≠ 0 := (h.eq_zero_iff ha).not.2 ha0
  have hfield : IsField R := ⟨⟨_, _, ha0'⟩, mul_comm, fun hx => isUnit_iff_exists_inv.1 (hunit _ hx)⟩
  have : Finite R := Nat.finite_of_card_ne_zero (h.card ▸ pow_ne_zero _ (PrimeField.pos_of_legal hf).ne')
  let _ := hfield.toField
  let _ := Fintype.ofFinite R
  rw [← h.card, Nat.card_eq_fintype_card]
  exact FiniteField.pow_card_sub_one_eq_one _ ha0'

/-- A level that represents a ring obeys the laws of a ring on its elements. -/
theorem Fld.Represents.levelLaws (h : F.Represents f φ) (hf : f.legal = true) : LevelLaws F f.p := by
  have hadd : ∀ a b, IsElem F f.p (F.add a b) := fun a b => isElem_iff.2 (h.closed.add a b)
  have hmul : ∀ a b, IsElem F f.p (F.mul a b) := fun a b => isElem_iff.2 (h.closed.mul a b)
  have hneg : ∀ a, IsElem F f.p (F.neg a) := fun a => isElem_iff.2 (h.closed.neg a)
  have hsub : ∀ a b, IsElem F f.p (F.sub a b) := fun a b => isElem_iff.2 (h.closed.sub a b)
  have hdbl : ∀ a, IsElem F f.p (F.dbl a) := fun a => isElem_iff.2 (h.closed.dbl a)
  have hexp := h.exp_isElem
  have hzero : IsElem F f.p F.zero := isElem_iff.2 h.closed.zero
  have hone : IsElem F f.p F.one := isElem_iff.2 h.closed.one
  constructor
  case closed => exact fun a b _ _ => ⟨hadd a b, hneg a, hmul a b⟩
  case constants => exact ⟨hzero, hone⟩
  case add_comm => exact fun a b _ _ => h.inj _ _ (hadd _ _) (hadd _ _) (by simp only [h.add, add_comm])
  case add_assoc => exact fun a b c _ _ _ => h.inj _ _ (hadd _ _) (hadd _ _) (by simp only [h.add, add_assoc])
  case add_zero => exact fun a ha => h.inj _ _ (hadd _ _) ha (by rw [h.add, h.zero, add_zero])
  case add_neg => exact fun a ha => h.inj _ _ (hadd _ _) hzero (by rw [h.add, h.neg a ha, h.zero, add_neg_cancel])
  case sub_eq => exact fun a b _ hb => h.inj _ _ (hsub _ _) (hadd _ _) (by rw [h.sub, h.add, h.neg b hb, sub_eq_add_neg])
  case dbl_eq => exact fun a _ => h.inj _ _ (hdbl _) (hadd _ _) (by rw [h.dbl, h.add])
  case mul_comm => exact fun a b _ _ => h.inj _ _ (hmul _ _) (hmul _ _) (by simp only [h.mul, mul_comm])
  case mul_assoc => exact fun a b c _ _ _ => h.inj _ _ (hmul _ _) (hmul _ _) (by simp only [h.mul, mul_assoc])
  case mul_add => exact fun a b c _ _ _ => h.inj _ _ (hmul _ _) (hadd _ _) (by simp only [h.mul, h.add, mul_add])
  case mul_one => exact fun a ha => h.inj _ _ (hmul _ _) ha (by rw [h.mul, h.one, mul_one])
  case exp_zero => exact fun a _ => h.inj _ _ (hexp _ _) hone (by rw [h.exp, h.one, pow_zero])
  case exp_succ => exact fun a e _ => h.inj _ _ (hexp _ _) (hmul _ _) (by rw [h.exp, h.mul, h.exp, pow_succ])
  case inv_true =>
    intro a ha
    rw [h.inv_eq_true_iff ha, isUnit_iff_exists_inv']
    refine ⟨fun ⟨x, hx⟩ => ?_, fun ⟨b, _, hb⟩ => ⟨φ b, by rw [← h.mul, hb, h.one]⟩⟩
    obtain ⟨b, hb, rfl⟩ := h.surj x
    exact ⟨b, hb, h.inj _ _ (hmul _ _) hone (by rw [h.mul, hx, h.one])⟩
  case inv_mul =>
    intro a ha htrue
    rcases h.inv a ha with ⟨v, hv, helem, hinv⟩ | ⟨hv, -⟩
    · rw [hv]
      exact ⟨helem, h.inj _ _ (hmul _ _) hone (by rw [h.mul, hinv, h.one])⟩
    · rw [hv] at htrue
      cases htrue
  case inv_false =>
    intro a ha hfalse
    rcases h.inv a ha with ⟨v, hv, -⟩ | ⟨hv, -⟩
    · rw [hv] at hfalse
      cases hfalse
    · rw [hv]
  case exp_units =>
    exact fun hunits a ha ha0 => h.inj _ _ (hexp _ _) hone (by rw [h.exp, h.pow_card_sub_one hf hunits ha ha0, h.one])

variable {nr : α → α} {c : α}

/-- The product of a level of degree 2 is that of polynomials with the square of its generator replaced (R174). -/
theorem Fld.Represents.quadraticOver (h : F.Represents f φ) (hnr : ∀ x, φ (nr x) = φ c * φ x) :
    QuadraticOver F (quadFld F nr) c f.p := by
  intro a0 a1 b0 b1 _ _ _ _
  rw [quadFld_mul]
  refine Prod.ext (h.inj _ _ (isElem_iff.2 (h.closed.add _ _)) (isElem_iff.2 (h.closed.add _ _)) ?_)
    (h.inj _ _ (isElem_iff.2 (h.closed.sub _ _)) (isElem_iff.2 (h.closed.add _ _)) ?_)
  · simp only [h.add, h.mul, hnr]
  · simp only [h.add, h.sub, h.mul]
    ring

/-- The product of a level of degree 3 is that of polynomials with the cube of its generator replaced (R174). -/
theorem Fld.Represents.cubicOver (h : F.Represents f φ) (hnr : ∀ x, φ (nr x) = φ c * φ x) :
    CubicOver F (cubicFld F nr) c f.p := by
  intro a0 a1 a2 b0 b1 b2 _ _ _ _ _ _
  rw [cubicFld_mul]
  refine Prod.ext (h.inj _ _ (isElem_iff.2 (h.closed.add _ _)) (isElem_iff.2 (h.closed.add _ _)) ?_)
    (Prod.ext (h.inj _ _ (isElem_iff.2 (h.closed.add _ _)) (isElem_iff.2 (h.closed.add _ _)) ?_) rfl)
  · simp only [h.add, h.mul, hnr]
  · simp only [h.add, h.mul, hnr]

end

/-! ## The six levels -/

section
variable (f : PrimeField) (β : Nat) (ξ : E2)

/-- `R` with a root of `X^n - c`. -/
abbrev RootRing {R : Type} [CommRing R] (n : Nat) (c : R) : Type := AdjoinRoot (Polynomial.X ^ n - Polynomial.C c)

/-- The root of `RootRing`. -/
noncomputable abbrev RootRing.root {R : Type} [CommRing R] (n : Nat) (c : R) : RootRing n c := AdjoinRoot.root _

/-- The ring of `FQ2` (41_extension_tower.md R170). -/
abbrev RingFq2 : Type := RootRing 2 (f.residue β)
/-- The ring of `FQ3`. -/
abbrev RingFq3 : Type := RootRing 3 (f.residue β)
/-- The ring of `FQ4`: `w² = u`. -/
abbrev RingFq4 : Type := RootRing 2 (RootRing.root 2 (f.residue β))
/-- The ring of `FQ6Q`: `w² = u`. -/
abbrev RingFq6q : Type := RootRing 2 (RootRing.root 3 (f.residue β))

/-- What an element of `FQ2` stands for. -/
noncomputable def valueFq2 : E2 → RingFq2 f β := quadValue _ f.residue (RootRing.root 2 (f.residue β))
/-- What an element of `FQ3` stands for. -/
noncomputable def valueFq3 : E3 → RingFq3 f β := cubicValue _ f.residue (RootRing.root 3 (f.residue β))
/-- What an element of `FQ4` stands for. -/
noncomputable def valueFq4 : E4 → RingFq4 f β := quadValue _ (valueFq2 f β) (RootRing.root 2 _)
/-- What an element of `FQ6Q` stands for. -/
noncomputable def valueFq6q : E6q → RingFq6q f β := quadValue _ (valueFq3 f β) (RootRing.root 2 _)

/-- The ring of `FQ6C`: `v³ = ξ`. -/
abbrev RingFq6c : Type := RootRing 3 (valueFq2 f β ξ)
/-- The ring of `FQ12`: `w² = v`. -/
abbrev RingFq12 : Type := RootRing 2 (RootRing.root 3 (valueFq2 f β ξ))

/-- What an element of `FQ6C` stands for. -/
noncomputable def valueFq6c : E6 → RingFq6c f β ξ := cubicValue _ (valueFq2 f β) (RootRing.root 3 _)
/-- What an element of `FQ12` stands for. -/
noncomputable def valueFq12 : E12 → RingFq12 f β ξ := quadValue _ (valueFq6c f β ξ) (RootRing.root 2 _)

variable {f} {β} {ξ}

theorem Fld.Represents.adjoinsRoot {α R : Type} [CommRing R] [Algebra (ZMod f.p) R] {F : Fld α} {φ : α → R}
    (h : F.Represents f φ) (hf : f.legal = true) (hdeg : F.deg ≠ 0) {n : Nat} (hn : n ≠ 0) (c : R) :
    AdjoinsRoot n c (RootRing.root n c) := by
  have := h.nontrivial hf hdeg
  exact adjoinRoot_adjoinsRoot n hn c

variable (hf : f.legal = true)
include hf

theorem adjoinsRoot_fp {n : Nat} (hn : n ≠ 0) (c : ZMod f.p) : AdjoinsRoot n c (RootRing.root n c) :=
  (fpFld_represents hf).adjoinsRoot hf one_ne_zero hn c

theorem fq2Fld_represents : (fq2Fld (fpFld f) β).Represents f (valueFq2 f β) :=
  quadFld_represents (fpFld_represents hf) (adjoinsRoot_fp hf two_ne_zero _) (PrimeField.residue_mul f β)

theorem fq3Fld_represents : (fq3Fld (fpFld f) β).Represents f (valueFq3 f β) :=
  cubicFld_represents (fpFld_represents hf) (adjoinsRoot_fp hf three_ne_zero _) (PrimeField.residue_mul f β)

theorem adjoinsRoot_fq2 {n : Nat} (hn : n ≠ 0) (c : RingFq2 f β) : AdjoinsRoot n c (RootRing.root n c) :=
  (fq2Fld_represents hf).adjoinsRoot hf two_ne_zero hn c

theorem adjoinsRoot_fq3 {n : Nat} (hn : n ≠ 0) (c : RingFq3 f β) : AdjoinsRoot n c (RootRing.root n c) :=
  (fq3Fld_represents hf).adjoinsRoot hf three_ne_zero hn c

/-- Multiplication by `u` in `FQ2`. -/
theorem valueFq2_rotate (x : E2) :
    valueFq2 f β ((fpFld f).mul β x.2, x.1) = RootRing.root 2 (f.residue β) * valueFq2 f β x :=
  quadValue_rotate (adjoinsRoot_fp hf two_ne_zero _) (PrimeField.residue_mul f β) x

/-- Multiplication by `u` in `FQ3`. -/
theorem valueFq3_rotate (x : E3) :
    valueFq3 f β ((fpFld f).mul β x.2.2, x.1, x.2.1) = RootRing.root 3 (f.residue β) * valueFq3 f β x :=
  cubicValue_rotate (adjoinsRoot_fp hf three_ne_zero _) (PrimeField.residue_mul f β) x

theorem fq4Fld_represents : (fq4Fld (fpFld f) β).Represents f (valueFq4 f β) :=
  quadFld_represents (fq2Fld_represents hf) (adjoinsRoot_fq2 hf two_ne_zero _) (valueFq2_rotate hf)

theorem fq6qFld_represents : (fq6qFld (fpFld f) β).Represents f (valueFq6q f β) :=
  quadFld_represents (fq3Fld_represents hf) (adjoinsRoot_fq3 hf two_ne_zero _) (valueFq3_rotate hf)

theorem fq6cFld_represents : (fq6cFld (fq2Fld (fpFld f) β) ξ).Represents f (valueFq6c f β ξ) :=
  cubicFld_represents (fq2Fld_represents hf) (adjoinsRoot_fq2 hf three_ne_zero _) ((fq2Fld_represents hf).mul ξ)

theorem adjoinsRoot_fq6c {n : Nat} (hn : n ≠ 0) (c : RingFq6c f β ξ) : AdjoinsRoot n c (RootRing.root n c) :=
  (fq6cFld_represents hf).adjoinsRoot hf (by simp) hn c

/-- Multiplication by `v` in `FQ6C`. -/
theorem valueFq6c_rotate (x : E6) : valueFq6c f β ξ ((fq2Fld (fpFld f) β).mul ξ x.2.2, x.1, x.2.1) =
    RootRing.root 3 (valueFq2 f β ξ) * valueFq6c f β ξ x :=
  cubicValue_rotate (adjoinsRoot_fq2 hf three_ne_zero _) ((fq2Fld_represents hf).mul ξ) x

theorem fq12Fld_represents : (fq12Fld (fq2Fld (fpFld f) β) ξ).Represents f (valueFq12 f β ξ) :=
  quadFld_represents (fq6cFld_represents hf) (adjoinsRoot_fq6c hf two_ne_zero _) (valueFq6c_rotate hf)

/-- Over a prime modulus, when `β` is no square, only zero has no inverse in `FQ2`: its norm would make `β` a square. -/
theorem fq2Fld_inv_of_ne_zero (hprime : Nat.Prime f.p) (hβ : ¬ ∃ y, y * y % f.p = f.fromMont β) {a : E2}
    (ha : IsElem (fq2Fld (fpFld f) β) f.p a) (ha0 : a ≠ (fq2Fld (fpFld f) β).zero) :
    ((fq2Fld (fpFld f) β).inv a).1 = true := by
  have : Fact f.p.Prime := ⟨hprime⟩
  rw [PrimeField.exists_sq_mod_iff (PrimeField.pos_of_legal hf)] at hβ
  obtain ⟨h1, h2⟩ := isElem_quadFld.1 ha
  have hne : ¬ (f.residue a.1 = 0 ∧ f.residue a.2 = 0) := by
    rintro ⟨hr1, hr2⟩
    exact ha0 (Prod.ext (((fpFld_represents hf).eq_zero_iff h1).1 hr1) (((fpFld_represents hf).eq_zero_iff h2).1 hr2))
  rw [(fq2Fld_represents hf).inv_eq_true_iff ha, valueFq2, quadValue,
    (adjoinsRoot_fp hf two_ne_zero _).isUnit_quadratic_iff, isUnit_iff_ne_zero, squareRootNorm]
  intro hnorm
  by_cases hr2 : f.residue a.2 = 0
  · rw [hr2, mul_zero, mul_zero, sub_zero] at hnorm
    exact hne ⟨mul_self_eq_zero.1 hnorm, hr2⟩
  · refine hβ ⟨f.residue a.1 / f.residue a.2, ?_⟩
    field_simp
    linear_combination -hnorm

end

/-- Settles O33: each level represents the ring below with a root of its constant adjoined. -/
theorem levelsAreTheQuotientRings : Obligations.LevelsAreTheQuotientRings := by
  intro f β ξ hf _ F F2 F3 F6 _
  have h2 : F2.Represents f (valueFq2 f β) := fq2Fld_represents hf
  have h3 : F3.Represents f (valueFq3 f β) := fq3Fld_represents hf
  have h6 : F6.Represents f (valueFq6c f β ξ) := fq6cFld_represents hf
  refine ⟨⟨h2.levelLaws hf, ?_⟩, ⟨h3.levelLaws hf, ?_⟩, ⟨(fq4Fld_represents hf).levelLaws hf, ?_⟩, ⟨h6.levelLaws hf, ?_⟩,
    ⟨(fq6qFld_represents hf).levelLaws hf, ?_⟩, ⟨(fq12Fld_represents hf).levelLaws hf, ?_⟩, ?_⟩
  · exact (fpFld_represents hf).quadraticOver (PrimeField.residue_mul f β)
  · exact (fpFld_represents hf).cubicOver (PrimeField.residue_mul f β)
  · exact h2.quadraticOver fun x => (valueFq2_rotate hf x).trans
      (congrArg (· * valueFq2 f β x) (quadValue_generator (fpFld_represents hf)).symm)
  · exact h2.cubicOver (h2.mul ξ)
  · exact h3.quadraticOver fun x => (valueFq3_rotate hf x).trans
      (congrArg (· * valueFq3 f β x) (cubicValue_generator (fpFld_represents hf)).symm)
  · exact h6.quadraticOver fun x => (valueFq6c_rotate hf x).trans
      (congrArg (· * valueFq6c f β ξ x) (cubicValue_generator h2).symm)
  · exact fun hprime hβ a ha ha0 => fq2Fld_inv_of_ne_zero hf hprime hβ ha ha0

end Sys2Proof.Machine

/-! PROOF. The Frobenius maps as powers (41_extension_tower.md R177, R178, R219; O37). -/

namespace Sys2Proof.Machine

/-! ## Powers of a root -/

/-- The `p^N`-th power of the powers of an `n`-th root of `c` is given by entry `N mod k` of the tables of `c`
(41_extension_tower.md R177, R178). -/
def RootPow {R S : Type} [CommRing R] [CommRing S] [Algebra R S] (w : S) (c : R) (p n k N : Nat) : Prop :=
  ∀ j, (w ^ j) ^ p ^ N = w ^ j * algebraMap R S (c ^ (j * (p ^ (N % k) - 1) / n))

theorem RootPow.root {R S : Type} [CommRing R] [CommRing S] [Algebra R S] {w : S} {c : R} {p n k N : Nat}
    (h : RootPow w c p n k N) : w ^ p ^ N = w * algebraMap R S (c ^ (1 * (p ^ (N % k) - 1) / n)) := by
  have h1 := h 1
  rwa [pow_one] at h1

section
variable {S : Type} [CommRing S] {w c : S} {n : Nat}

/-- A power of a root of `c` by one more than a multiple of its degree is a power of `c` times the root. -/
theorem root_pow_eq_mul (hw : w ^ n = c) (hn : n ≠ 0) {q : Nat} (hq : 0 < q) (hdvd : n ∣ q - 1) (j : Nat) :
    (w ^ j) ^ q = w ^ j * c ^ (j * (q - 1) / n) := by
  obtain ⟨t, ht⟩ := hdvd
  obtain rfl : q = n * t + 1 := by omega
  rw [Nat.add_sub_cancel, Nat.mul_left_comm, Nat.mul_div_cancel_left _ (Nat.pos_of_ne_zero hn), ← hw]
  ring

/-- A root of `c` is its own `q^n`-th power when `c` is a unit whose order divides `q - 1`. -/
theorem root_pow_pow_eq (hw : w ^ n = c) {q : Nat} (hq : 0 < q) (hdvd : n ∣ q - 1) (hc : c ^ (q - 1) = 1) : w ^ q ^ n = w := by
  obtain ⟨x, rfl⟩ : ∃ x, q = x + 1 := ⟨q - 1, by omega⟩
  rw [Nat.add_sub_cancel] at hdvd hc
  have hsum : n ∣ ∑ i ∈ Finset.range n, (x + 1) ^ i := by
    rw [← ZMod.natCast_eq_zero_iff]
    have hx : (x : ZMod n) = 0 := (ZMod.natCast_eq_zero_iff x n).2 hdvd
    simp [hx]
  obtain ⟨z, hz⟩ := hsum
  rw [← geom_sum_mul_add x n, hz, pow_succ, show n * z * x = n * (x * z) by ring, pow_mul, hw, pow_mul, hc, one_pow, one_mul]

theorem pow_pow_eq_of_pow_eq {x : S} {q : Nat} (h : x ^ q = x) : ∀ m, x ^ q ^ m = x
  | 0 => by rw [pow_zero, pow_one]
  | m + 1 => by rw [pow_succ, pow_mul, pow_pow_eq_of_pow_eq h m, h]

/-- The `p^N`-th power of a root of `c` depends on `N` modulo its period only (41_extension_tower.md R178). -/
theorem rootPow_of_period {R : Type} [CommRing R] [Algebra R S] {c : R} {p d : Nat} (hp : 0 < p) (hw : w ^ n = algebraMap R S c)
    (hn : 1 < n) (hd : 0 < d) (hc : c ^ (p ^ d - 1) = 1) (hdvd : ∀ i, i < d * n → n ∣ p ^ i - 1) (N : Nat) :
    RootPow w c p n (d * n) N := by
  intro j
  have hperiod : w ^ p ^ (d * n) = w := by
    rw [pow_mul]
    exact root_pow_pow_eq hw (Nat.pow_pos hp) (hdvd d (by nlinarith)) (by rw [← map_pow, hc, map_one])
  have hj : (w ^ j) ^ p ^ (d * n) = w ^ j := by rw [pow_right_comm, hperiod]
  have hlt : N % (d * n) < d * n := Nat.mod_lt _ (by positivity)
  calc (w ^ j) ^ p ^ N = (w ^ j) ^ ((p ^ (d * n)) ^ (N / (d * n)) * p ^ (N % (d * n))) := by
        rw [← pow_mul p, ← pow_add, Nat.div_add_mod]
    _ = (w ^ j) ^ p ^ (N % (d * n)) := by rw [pow_mul, pow_pow_eq_of_pow_eq hj]
    _ = _ := by rw [root_pow_eq_mul hw (by omega) (Nat.pow_pos hp) (hdvd _ hlt) j, map_pow]

/-- Below the period no condition on `c` is needed. -/
theorem rootPow_of_lt {R : Type} [CommRing R] [Algebra R S] {c : R} {p k N : Nat} (hp : 0 < p) (hw : w ^ n = algebraMap R S c)
    (hn : n ≠ 0) (hdvd : n ∣ p ^ N - 1) (hN : N < k) : RootPow w c p n k N := by
  intro j
  rw [Nat.mod_eq_of_lt hN, root_pow_eq_mul hw hn (Nat.pow_pos hp) hdvd j, map_pow]

end

/-! ## Powers of the elements of a level -/

/-- Over a prime modulus the `p^N`-th power is additive. -/
theorem add_pow_prime_pow {p : Nat} (hprime : p.Prime) (S : Type) [CommRing S] [Algebra (ZMod p) S] (x y : S) (N : Nat) :
    (x + y) ^ p ^ N = x ^ p ^ N + y ^ p ^ N := by
  have hp : (p : S) = 0 := by
    rw [← map_natCast (algebraMap (ZMod p) S), ZMod.natCast_self, map_zero]
  obtain ⟨r, hr⟩ := exists_add_pow_prime_pow_eq hprime x y N
  rw [hr, hp, zero_mul, zero_mul, zero_mul, add_zero]

section
variable {p : Nat} {α R S : Type} [CommRing R] [CommRing S] [Algebra (ZMod p) S] [Algebra R S] {ψ : α → R} {w : S} {N : Nat}

/-- The `p^N`-th power over a square root, from those of the coordinates and of the root. -/
theorem quadValue_pow (hprime : p.Prime) {e : R} (hw : w ^ p ^ N = w * algebraMap R S e) {a b : α × α}
    (h1 : ψ b.1 = ψ a.1 ^ p ^ N) (h2 : ψ b.2 = ψ a.2 ^ p ^ N * e) :
    quadValue S ψ w b = quadValue S ψ w a ^ p ^ N := by
  simp only [quadValue, add_pow_prime_pow hprime S, mul_pow, hw, h1, h2, map_mul, map_pow]
  ring

/-- The `p^N`-th power over a cube root, from those of the coordinates and of the root. -/
theorem cubicValue_pow (hprime : p.Prime) {e1 e2 : R} (hw1 : w ^ p ^ N = w * algebraMap R S e1)
    (hw2 : (w ^ 2) ^ p ^ N = w ^ 2 * algebraMap R S e2) {a b : α × α × α}
    (h1 : ψ b.1 = ψ a.1 ^ p ^ N) (h2 : ψ b.2.1 = ψ a.2.1 ^ p ^ N * e1) (h3 : ψ b.2.2 = ψ a.2.2 ^ p ^ N * e2) :
    cubicValue S ψ w b = cubicValue S ψ w a ^ p ^ N := by
  simp only [cubicValue, add_pow_prime_pow hprime S, mul_pow, hw1, hw2, h1, h2, h3, map_mul, map_pow]
  ring

end

/-! ## The maps with the tables of `CALC_FROB` -/

/-- The map of a level is the power `p^N` (41_extension_tower.md R178). -/
def Tow.PowerAt {α R : Type} [CommRing R] (t : Tow α) (φ : α → R) (p N : Nat) : Prop :=
  ∀ a, IsElem t.fld p a → φ (t.frob a N) = φ a ^ p ^ N

section
variable {f : PrimeField} {α R : Type} [CommRing R] [Algebra (ZMod f.p) R] {F : Fld α} {φ : α → R}

/-- A level whose map is the power in the ring it represents. -/
theorem frobeniusIsThePower_of_powerAt {t : Tow α} (h : t.fld.Represents f φ) (ht : t.Closed (· < f.p))
    (hpow : t.valid = true → ∀ N, t.PowerAt φ f.p N) : FrobeniusIsThePower t f.p := by
  intro hvalid a N ha
  refine h.inj _ _ (isElem_iff.2 (ht.frob a N (isElem_iff.1 ha))) (isElem_iff.2 (h.closed.exp a _)) ?_
  rw [hpow hvalid N a ha, h.exp]

/-- Entry `i` of a table stands for the power of the constant (41_extension_tower.md R177). -/
theorem Fld.Represents.table_entry (h : F.Represents f φ) (hF : F.Coordinates) {c : α} {n m k : Nat} {tbl : List (List Nat)}
    (ht : frobTable F f.p c n m k = some tbl) {i : Nat} (hi : i < k) :
    φ (F.ofCoords (tbl.getD i [])) = φ c ^ (m * (f.p ^ i - 1) / n) := by
  rw [frobTable_getD ht hi, hF.back, h.exp]

/-- The divisions of a table that exists are exact. -/
theorem frobTable_dvd {c : α} {p n m k : Nat} {tbl : List (List Nat)} (ht : frobTable F p c n m k = some tbl) :
    ∀ i, i < k → n ∣ p ^ i - 1 := ((frobTable_eq_some_iff F p c n m k tbl).1 ht).1

end

/-- A level whose table is the one of its rule (41_extension_tower.md R177). -/
structure QuadTabled {α : Type} (F : Fld α) (p : Nat) (c : α) (n k : Nat) (e : ExtField) : Prop where
  valid : e.frobValid = true
  table : frobTable F p c n 1 k = some e.frob1

/-- A level of degree 3 whose table and companion are those of its rule (41_extension_tower.md R192, R202). -/
structure CubicTabled {α : Type} (F : Fld α) (p : Nat) (c : α) (n k : Nat) (e : ExtField) : Prop extends
    QuadTabled F p c n k e where
  companion : frobTable F p c n 2 k = some e.frob2

section
variable {α : Type} {F : Fld α} {p : Nat} {c : α} {n k : Nat} {l : Level} {nr : List Nat}

@[simp] theorem tabledLevel_nonResidue (o : Option (List (List Nat) × List (List Nat))) :
    (tabledLevel l nr o).nonResidue = nr := by cases o <;> rfl

theorem quadTabled_of_valid (h : (tabledLevel l nr (quadTables (frobTable F p c n 1 k))).frobValid = true) :
    QuadTabled F p c n k (tabledLevel l nr (quadTables (frobTable F p c n 1 k))) := by
  refine ⟨h, ?_⟩
  cases ht : frobTable F p c n 1 k with
  | none =>
    rw [ht] at h
    cases h
  | some tbl => rfl

theorem cubicTabled_of_valid
    (h : (tabledLevel l nr (cubicTables (frobTable F p c n 1 k) (frobTable F p c n 2 k))).frobValid = true) :
    CubicTabled F p c n k (tabledLevel l nr (cubicTables (frobTable F p c n 1 k) (frobTable F p c n 2 k))) := by
  cases h1 : frobTable F p c n 1 k with
  | none =>
    rw [h1] at h
    cases h
  | some tbl1 =>
    cases h2 : frobTable F p c n 2 k with
    | none =>
      rw [h1, h2] at h
      cases h
    | some tbl2 => exact ⟨⟨rfl, h1⟩, h2⟩

end

/-! ### Level by level -/

/-- A stored integer's residue is its own `p^N`-th power. -/
theorem residue_pow_prime_pow {f : PrimeField} (hprime : f.p.Prime) (x N : Nat) : f.residue x ^ f.p ^ N = f.residue x := by
  have : Fact f.p.Prime := ⟨hprime⟩
  exact pow_pow_eq_of_pow_eq (ZMod.pow_card _) N

theorem isElem_fq4Fld (f : PrimeField) (β : Nat) (a : E4) : IsElem (fq4Fld (fpFld f) β) f.p a ↔
    IsElem (fq2Fld (fpFld f) β) f.p a.1 ∧ IsElem (fq2Fld (fpFld f) β) f.p a.2 := isElem_quadFld

theorem isElem_fq6qFld (f : PrimeField) (β : Nat) (a : E6q) : IsElem (fq6qFld (fpFld f) β) f.p a ↔
    IsElem (fq3Fld (fpFld f) β) f.p a.1 ∧ IsElem (fq3Fld (fpFld f) β) f.p a.2 := isElem_quadFld

theorem isElem_fq12Fld (f : PrimeField) (β : Nat) (ξ : E2) (a : E12) :
    IsElem (fq12Fld (fq2Fld (fpFld f) β) ξ) f.p a ↔
      IsElem (fq6cFld (fq2Fld (fpFld f) β) ξ) f.p a.1 ∧ IsElem (fq6cFld (fq2Fld (fpFld f) β) ξ) f.p a.2 := isElem_quadFld

section
variable {f : PrimeField} (hf : f.legal = true) {β : Nat} {n m k N : Nat} {tbl : List (List Nat)}
include hf

/-- The entries of a table over `Fp`. -/
theorem residue_tableFp (ht : frobTable (fpFld f) f.p β n m k = some tbl) (hk : 0 < k) (N : Nat) :
    f.residue (tableFp tbl (N % k)) = f.residue β ^ (m * (f.p ^ (N % k) - 1) / n) :=
  (fpFld_represents hf).table_entry (fpFld_coordinates f) ht (Nat.mod_lt N hk)

/-- The entries of a table over `Fq2`. -/
theorem valueFq2_tableFq2 {ξ : E2} (ht : frobTable (fq2Fld (fpFld f) β) f.p ξ n m k = some tbl) (hk : 0 < k) (N : Nat) :
    valueFq2 f β (tableFq2 (fq2Fld (fpFld f) β) tbl (N % k)) = valueFq2 f β ξ ^ (m * (f.p ^ (N % k) - 1) / n) :=
  (fq2Fld_represents hf).table_entry (fq2Fld_coordinates f β) ht (Nat.mod_lt N hk)

/-- Scaling by an element of `Fq2` is multiplication by it. -/
theorem valueFq6c_scaleFq6c (ξ c : E2) (a : E6) : valueFq6c f β ξ (scaleFq6c (fq2Fld (fpFld f) β) c a) =
    valueFq6c f β ξ a * algebraMap (RingFq2 f β) _ (valueFq2 f β c) := by
  simp only [valueFq6c, cubicValue, scaleFq6c, (fq2Fld_represents hf).mul, map_mul]
  ring

variable (hprime : f.p.Prime)
include hprime

/-- The map of a level of degree 2 whose table lies in `Fp`, over a base whose map is the power (41_extension_tower.md R178). -/
theorem quadValue_frobQuadFp {α R S : Type} [CommRing R] [CommRing S] [Algebra (ZMod f.p) R] [Algebra (ZMod f.p) S]
    [Algebra R S] [IsScalarTower (ZMod f.p) R S] {B : Fld α} {ψ : α → R} {w : S} {phi : α → Nat → α}
    {e : ExtField} (hB : B.Represents f ψ) (hphi : ∀ a, IsElem B f.p a → ψ (phi a N) = ψ a ^ f.p ^ N)
    (he : QuadTabled (fpFld f) f.p β n k e) (hk : 0 < k) (hroot : RootPow w (f.residue β) f.p n k N) {a : α × α}
    (h1 : IsElem B f.p a.1) (h2 : IsElem B f.p a.2) :
    quadValue S ψ w (frobQuadFp B phi k e a N) = quadValue S ψ w a ^ f.p ^ N := by
  have hw := hroot.root
  rw [IsScalarTower.algebraMap_apply (ZMod f.p) R S] at hw
  refine quadValue_pow hprime hw (hphi a.1 h1) ?_
  rw [frobQuadFp, hB.scale, hphi a.2 h2, residue_tableFp hf he.table hk, mul_comm]

end

section
variable {f : PrimeField} (hf : f.legal = true) (hprime : f.p.Prime) {β : Nat} {ctr N : Nat} {e2 e3 e4 e6 e12 : ExtField}
include hf hprime

theorem towFq2_powerAt (hc : e2.nonResidue.headD 0 = β) (h2 : QuadTabled (fpFld f) f.p β 2 2 e2)
    (hroot : RootPow (RootRing.root 2 (f.residue β)) (f.residue β) f.p 2 2 N) :
    (towFq2 f ctr e2).PowerAt (valueFq2 f β) f.p N := by
  subst hc
  intro a _
  simp only [towFq2, mkTow, h2.valid, if_true]
  refine quadValue_pow hprime hroot.root (residue_pow_prime_pow hprime a.1 N).symm ?_
  rw [residue_pow_prime_pow hprime, frobFq2, (fpFld_represents hf).mul, residue_tableFp hf h2.table two_pos]

theorem towFq3_powerAt (hc : e3.nonResidue.headD 0 = β) (h3 : CubicTabled (fpFld f) f.p β 3 3 e3)
    (hroot : RootPow (RootRing.root 3 (f.residue β)) (f.residue β) f.p 3 3 N) :
    (towFq3 f ctr e3).PowerAt (valueFq3 f β) f.p N := by
  subst hc
  intro a _
  simp only [towFq3, mkTow, h3.valid, if_true]
  refine cubicValue_pow hprime hroot.root (hroot 2) (residue_pow_prime_pow hprime a.1 N).symm ?_ ?_
  · rw [residue_pow_prime_pow hprime, frobFq3, (fpFld_represents hf).mul, residue_tableFp hf h3.table three_pos]
  · rw [residue_pow_prime_pow hprime, frobFq3, (fpFld_represents hf).mul, residue_tableFp hf h3.companion three_pos]

theorem towFq4_powerAt (hc : e2.nonResidue.headD 0 = β) (hvalid : e2.frobValid = true)
    (h4 : QuadTabled (fpFld f) f.p β 4 4 e4) (hbase : (towFq2 f ctr e2).PowerAt (valueFq2 f β) f.p N)
    (hroot : RootPow (S := RingFq4 f β) (RootRing.root 2 _) (f.residue β) f.p 4 4 N) :
    (towFq4 f ctr e2 e4).PowerAt (valueFq4 f β) f.p N := by
  subst hc
  intro a ha
  obtain ⟨h1, h2⟩ := (isElem_fq4Fld f _ a).1 ha
  have hT : (towFq2 f ctr e2).valid = true := hvalid
  simp only [towFq4, mkTow, hT, h4.valid, Bool.and_self, if_true]
  exact quadValue_frobQuadFp hf hprime (fq2Fld_represents hf) hbase h4 four_pos hroot h1 h2

theorem towFq6q_powerAt (hc : e3.nonResidue.headD 0 = β) (hvalid : e3.frobValid = true)
    (h6 : QuadTabled (fpFld f) f.p β 6 6 e6) (hbase : (towFq3 f ctr e3).PowerAt (valueFq3 f β) f.p N)
    (hroot : RootPow (S := RingFq6q f β) (RootRing.root 2 _) (f.residue β) f.p 6 6 N) :
    (towFq6q f ctr e3 e6).PowerAt (valueFq6q f β) f.p N := by
  subst hc
  intro a ha
  obtain ⟨h1, h2⟩ := (isElem_fq6qFld f _ a).1 ha
  have hT : (towFq3 f ctr e3).valid = true := hvalid
  simp only [towFq6q, mkTow, hT, h6.valid, Bool.and_self, if_true]
  exact quadValue_frobQuadFp hf hprime (fq3Fld_represents hf) hbase h6 (by decide) hroot h1 h2

theorem towFq6c_powerAt {ξ : E2} (hc : e2.nonResidue.headD 0 = β) (hξ : (fq2Fld (fpFld f) β).ofCoords e6.nonResidue = ξ)
    (hvalid : e2.frobValid = true) (h6 : CubicTabled (fq2Fld (fpFld f) β) f.p ξ 3 6 e6)
    (hbase : (towFq2 f ctr e2).PowerAt (valueFq2 f β) f.p N)
    (hroot : RootPow (RootRing.root 3 (valueFq2 f β ξ)) (valueFq2 f β ξ) f.p 3 6 N) :
    (towFq6c f ctr e2 e6).PowerAt (valueFq6c f β ξ) f.p N := by
  subst hc hξ
  intro a ha
  obtain ⟨h1, h2, h3⟩ := isElem_cubicFld.1 ha
  have hT : (towFq2 f ctr e2).valid = true := hvalid
  have hF : (towFq2 f ctr e2).fld = fq2Fld (fpFld f) (e2.nonResidue.headD 0) := rfl
  simp only [towFq6c, mkTow, hT, h6.valid, Bool.and_self, if_true]
  refine cubicValue_pow hprime hroot.root (hroot 2) (hbase a.1 h1) ?_ ?_
  · rw [frobFq6c, hF, (fq2Fld_represents hf).mul, hbase a.2.1 h2, valueFq2_tableFq2 hf h6.table (by decide)]
  · rw [frobFq6c, hF, (fq2Fld_represents hf).mul, hbase a.2.2 h3, valueFq2_tableFq2 hf h6.companion (by decide)]

theorem towFq12_powerAt {ξ : E2} (hc : e2.nonResidue.headD 0 = β) (hξ : (fq2Fld (fpFld f) β).ofCoords e6.nonResidue = ξ)
    (hvalid2 : e2.frobValid = true) (hvalid6 : e6.frobValid = true) (h12 : QuadTabled (fq2Fld (fpFld f) β) f.p ξ 6 12 e12)
    (hbase : (towFq6c f ctr e2 e6).PowerAt (valueFq6c f β ξ) f.p N)
    (hroot : RootPow (S := RingFq12 f β ξ) (RootRing.root 2 _) (valueFq2 f β ξ) f.p 6 12 N) :
    (towFq12 f ctr e2 e6 e12).PowerAt (valueFq12 f β ξ) f.p N := by
  subst hc hξ
  intro a ha
  obtain ⟨h1, h2⟩ := (isElem_fq12Fld f _ _ a).1 ha
  have hT : (towFq6c f ctr e2 e6).valid = true := Bool.and_eq_true_iff.2 ⟨hvalid2, hvalid6⟩
  have hF : (towFq2 f ctr e2).fld = fq2Fld (fpFld f) (e2.nonResidue.headD 0) := rfl
  have hw := hroot.root
  rw [IsScalarTower.algebraMap_apply (RingFq2 f _)
    (RingFq6c f (e2.nonResidue.headD 0) ((fq2Fld (fpFld f) (e2.nonResidue.headD 0)).ofCoords e6.nonResidue))] at hw
  simp only [towFq12, mkTow, hT, h12.valid, Bool.and_self, if_true]
  refine quadValue_pow hprime hw (hbase a.1 h1) ?_
  rw [frobFq12, hF, valueFq6c_scaleFq6c hf, hbase a.2 h2, valueFq2_tableFq2 hf h12.table (by decide)]

end

/-! ### The roots of the six levels -/

/-- In a tower of two roots the upper one is a root of the constant of the lower one. -/
theorem root_pow_mul {R S T : Type} [CommRing R] [CommRing S] [CommRing T] [Algebra R S] [Algebra S T] [Algebra R T]
    [IsScalarTower R S T] {m n : Nat} {c : R} {u : S} {w : T} (hu : u ^ n = algebraMap R S c) (hw : w ^ m = algebraMap S T u) :
    w ^ (m * n) = algebraMap R T c := by
  rw [pow_mul, hw, ← map_pow, hu, IsScalarTower.algebraMap_apply R S T]

section
variable {f : PrimeField} (hf : f.legal = true) (hprime : f.p.Prime) {β : Nat} (hβ0 : 0 < β) (hβ : β < f.p) {n : Nat}
include hf hprime hβ0 hβ

/-- Fermat: the order of a constant of `Fp` that is not 0 divides `p - 1`. -/
theorem residue_pow_sub_one : f.residue β ^ (f.p - 1) = 1 := by
  have : Fact f.p.Prime := ⟨hprime⟩
  exact ZMod.pow_card_sub_one_eq_one ((PrimeField.residue_eq_zero_iff hf hβ).not.2 hβ0.ne')

/-- A root of a constant of `Fp`, in any ring over it. -/
theorem rootPow_of_residue {S : Type} [CommRing S] [Algebra (ZMod f.p) S] {w : S}
    (hw : w ^ n = algebraMap (ZMod f.p) S (f.residue β)) (hn : 1 < n) (hdvd : ∀ i, i < n → n ∣ f.p ^ i - 1) (N : Nat) :
    RootPow w (f.residue β) f.p n n N := by
  have h := rootPow_of_period (d := 1) hprime.pos hw hn one_pos
    (by rw [pow_one, residue_pow_sub_one hf hprime hβ0 hβ])
    (by simpa only [one_mul] using hdvd) N
  rwa [one_mul] at h

/-- An element of `FQ2` with an inverse: its order divides `p² - 1`, because its `p²`-th power is itself. -/
theorem valueFq2_pow_sub_one {ξ : E2} (hξ : IsUnit (valueFq2 f β ξ)) : valueFq2 f β ξ ^ (f.p ^ 2 - 1) = 1 := by
  have hdvd : 2 ∣ f.p - 1 := by have := PrimeField.odd_of_legal hf; omega
  have hroot : RootRing.root 2 (f.residue β) ^ f.p ^ 2 = RootRing.root 2 (f.residue β) :=
    root_pow_pow_eq (adjoinsRoot_fp hf two_ne_zero _).root_pow hprime.pos hdvd
      (by rw [← map_pow, residue_pow_sub_one hf hprime hβ0 hβ, map_one])
  have hself : valueFq2 f β ξ = valueFq2 f β ξ ^ f.p ^ 2 :=
    quadValue_pow hprime (e := 1) (by rw [hroot, map_one, mul_one]) (residue_pow_prime_pow hprime _ 2).symm
      (by rw [residue_pow_prime_pow hprime, mul_one])
  refine hξ.mul_right_cancel ?_
  rw [one_mul, ← pow_succ, Nat.sub_add_cancel (Nat.pow_pos hprime.pos), ← hself]

/-- A root of an element of `FQ2` with an inverse, in any ring over `FQ2`. -/
theorem rootPow_of_valueFq2 {ξ : E2} (hξ : IsUnit (valueFq2 f β ξ)) {S : Type} [CommRing S] [Algebra (RingFq2 f β) S] {w : S}
    (hw : w ^ n = algebraMap (RingFq2 f β) S (valueFq2 f β ξ)) (hn : 1 < n) (hdvd : ∀ i, i < 2 * n → n ∣ f.p ^ i - 1) (N : Nat) :
    RootPow w (valueFq2 f β ξ) f.p n (2 * n) N :=
  rootPow_of_period hprime.pos hw hn two_pos (valueFq2_pow_sub_one hf hprime hβ0 hβ hξ) hdvd N

end

/-! ### The six maps -/

section
variable {f : PrimeField} (hf : f.legal = true) (hprime : f.p.Prime) {β : Nat} (hβ0 : 0 < β) (hβ : β < f.p) {ctr : Nat}
  {e2 e3 e4 e6 e12 : ExtField}
include hf hprime hβ0 hβ

theorem towFq2_powerAt_of_tabled (hc : e2.nonResidue.headD 0 = β) (h2 : QuadTabled (fpFld f) f.p β 2 2 e2) (N : Nat) :
    (towFq2 f ctr e2).PowerAt (valueFq2 f β) f.p N :=
  towFq2_powerAt hf hprime hc h2 (rootPow_of_residue hf hprime hβ0 hβ (adjoinsRoot_fp hf two_ne_zero _).root_pow
    (by decide) (frobTable_dvd h2.table) N)

theorem towFq3_powerAt_of_tabled (hc : e3.nonResidue.headD 0 = β) (h3 : CubicTabled (fpFld f) f.p β 3 3 e3) (N : Nat) :
    (towFq3 f ctr e3).PowerAt (valueFq3 f β) f.p N :=
  towFq3_powerAt hf hprime hc h3 (rootPow_of_residue hf hprime hβ0 hβ (adjoinsRoot_fp hf three_ne_zero _).root_pow
    (by decide) (frobTable_dvd h3.table) N)

theorem towFq2_frobeniusIsThePower (hc : e2.nonResidue.headD 0 = β)
    (h2 : e2.frobValid = true → QuadTabled (fpFld f) f.p β 2 2 e2) : FrobeniusIsThePower (towFq2 f ctr e2) f.p :=
  frobeniusIsThePower_of_powerAt (φ := valueFq2 f β) (hc ▸ fq2Fld_represents hf) (towFq2_closed (fpFld_closed_below hf) ctr e2)
    fun hv => towFq2_powerAt_of_tabled hf hprime hβ0 hβ hc (h2 hv)

theorem towFq3_frobeniusIsThePower (hc : e3.nonResidue.headD 0 = β)
    (h3 : e3.frobValid = true → CubicTabled (fpFld f) f.p β 3 3 e3) : FrobeniusIsThePower (towFq3 f ctr e3) f.p :=
  frobeniusIsThePower_of_powerAt (φ := valueFq3 f β) (hc ▸ fq3Fld_represents hf) (towFq3_closed (fpFld_closed_below hf) ctr e3)
    fun hv => towFq3_powerAt_of_tabled hf hprime hβ0 hβ hc (h3 hv)

theorem towFq4_frobeniusIsThePower (hc : e2.nonResidue.headD 0 = β)
    (h2 : e2.frobValid = true → QuadTabled (fpFld f) f.p β 2 2 e2)
    (h4 : e4.frobValid = true → QuadTabled (fpFld f) f.p β 4 4 e4) : FrobeniusIsThePower (towFq4 f ctr e2 e4) f.p := by
  refine frobeniusIsThePower_of_powerAt (φ := valueFq4 f β) (hc ▸ fq4Fld_represents hf)
    (towFq4_closed (fpFld_closed_below hf) ctr e2 e4) fun hv N => ?_
  obtain ⟨hv2, hv4⟩ := Bool.and_eq_true_iff.1 hv
  exact towFq4_powerAt hf hprime hc hv2 (h4 hv4) (towFq2_powerAt_of_tabled hf hprime hβ0 hβ hc (h2 hv2) N)
    (rootPow_of_residue hf hprime hβ0 hβ
      (root_pow_mul (adjoinsRoot_fp hf two_ne_zero _).root_pow (adjoinsRoot_fq2 hf two_ne_zero _).root_pow)
      (by decide) (frobTable_dvd (h4 hv4).table) N)

theorem towFq6q_frobeniusIsThePower (hc : e3.nonResidue.headD 0 = β)
    (h3 : e3.frobValid = true → CubicTabled (fpFld f) f.p β 3 3 e3)
    (h6 : e6.frobValid = true → QuadTabled (fpFld f) f.p β 6 6 e6) : FrobeniusIsThePower (towFq6q f ctr e3 e6) f.p := by
  refine frobeniusIsThePower_of_powerAt (φ := valueFq6q f β) (hc ▸ fq6qFld_represents hf)
    (towFq6q_closed (fpFld_closed_below hf) ctr e3 e6) fun hv N => ?_
  obtain ⟨hv3, hv6⟩ := Bool.and_eq_true_iff.1 hv
  exact towFq6q_powerAt hf hprime hc hv3 (h6 hv6) (towFq3_powerAt_of_tabled hf hprime hβ0 hβ hc (h3 hv3) N)
    (rootPow_of_residue hf hprime hβ0 hβ
      (root_pow_mul (adjoinsRoot_fp hf three_ne_zero _).root_pow (adjoinsRoot_fq3 hf two_ne_zero _).root_pow)
      (by decide) (frobTable_dvd (h6 hv6).table) N)

variable {ξ : E2} (hξ : IsUnit (valueFq2 f β ξ)) (hc2 : e2.nonResidue.headD 0 = β)
  (hc6 : (fq2Fld (fpFld f) β).ofCoords e6.nonResidue = ξ) (h2 : e2.frobValid = true → QuadTabled (fpFld f) f.p β 2 2 e2)
  (h6 : e6.frobValid = true → CubicTabled (fq2Fld (fpFld f) β) f.p ξ 3 6 e6)
include hξ hc2 hc6 h2 h6

theorem towFq6c_powerAt_of_valid (hv : (towFq6c f ctr e2 e6).valid = true) (N : Nat) :
    (towFq6c f ctr e2 e6).PowerAt (valueFq6c f β ξ) f.p N := by
  obtain ⟨hv2, hv6⟩ := Bool.and_eq_true_iff.1 hv
  exact towFq6c_powerAt hf hprime hc2 hc6 hv2 (h6 hv6) (towFq2_powerAt_of_tabled hf hprime hβ0 hβ hc2 (h2 hv2) N)
    (rootPow_of_valueFq2 hf hprime hβ0 hβ hξ (adjoinsRoot_fq2 hf three_ne_zero _).root_pow (by decide)
      (frobTable_dvd (h6 hv6).table) N)

theorem towFq6c_frobeniusIsThePower : FrobeniusIsThePower (towFq6c f ctr e2 e6) f.p := by
  refine frobeniusIsThePower_of_powerAt (φ := valueFq6c f β ξ) ?_ (towFq6c_closed (fpFld_closed_below hf) ctr e2 e6)
    (towFq6c_powerAt_of_valid hf hprime hβ0 hβ hξ hc2 hc6 h2 h6)
  subst hc2 hc6
  exact fq6cFld_represents hf

theorem towFq12_frobeniusIsThePower (h12 : e12.frobValid = true → QuadTabled (fq2Fld (fpFld f) β) f.p ξ 6 12 e12) :
    FrobeniusIsThePower (towFq12 f ctr e2 e6 e12) f.p := by
  refine frobeniusIsThePower_of_powerAt (φ := valueFq12 f β ξ) ?_ (towFq12_closed (fpFld_closed_below hf) ctr e2 e6 e12)
    fun hv N => ?_
  · subst hc2 hc6
    exact fq12Fld_represents hf
  · obtain ⟨hv6, hv12⟩ := Bool.and_eq_true_iff.1 hv
    have hbase := towFq6c_powerAt_of_valid hf hprime hβ0 hβ hξ hc2 hc6 h2 h6 hv6 N
    obtain ⟨hv2, hv6⟩ := Bool.and_eq_true_iff.1 hv6
    exact towFq12_powerAt hf hprime hc2 hc6 hv2 hv6 (h12 hv12) hbase (rootPow_of_valueFq2 hf hprime hβ0 hβ hξ
      (root_pow_mul (adjoinsRoot_fq2 hf three_ne_zero _).root_pow (adjoinsRoot_fq6c hf two_ne_zero _).root_pow)
      (by decide) (frobTable_dvd (h12 hv12).table) N)

end

/-- Settles O37: a table entry is what the root of its level is multiplied by when it is raised to the power `p^n`. -/
theorem frobeniusMapIsThePower : Obligations.FrobeniusMapIsThePower := by
  intro f β ctr ξ hf hprime hβ0 hβ F F2 e2 e3 e4 e6q e6c e12 hξ hinv
  have hunit : IsUnit (valueFq2 f β ξ) := ((fq2Fld_represents hf).inv_eq_true_iff hξ).1 hinv
  have hc2 : e2.nonResidue.headD 0 = β := by simp [e2]
  have hc3 : e3.nonResidue.headD 0 = β := by simp [e3]
  have hc6 : F2.ofCoords e6c.nonResidue = ξ := by
    simp only [e6c, tabledLevel_nonResidue]
    exact (fq2Fld_coordinates f β).back ξ
  exact ⟨towFq2_frobeniusIsThePower hf hprime hβ0 hβ hc2 quadTabled_of_valid,
    towFq3_frobeniusIsThePower hf hprime hβ0 hβ hc3 cubicTabled_of_valid,
    towFq4_frobeniusIsThePower hf hprime hβ0 hβ hc2 quadTabled_of_valid quadTabled_of_valid,
    towFq6c_frobeniusIsThePower hf hprime hβ0 hβ hunit hc2 hc6 quadTabled_of_valid cubicTabled_of_valid,
    towFq6q_frobeniusIsThePower hf hprime hβ0 hβ hc3 cubicTabled_of_valid quadTabled_of_valid,
    towFq12_frobeniusIsThePower hf hprime hβ0 hβ hunit hc2 hc6 quadTabled_of_valid cubicTabled_of_valid quadTabled_of_valid⟩

end Sys2Proof.Machine

/-! PROOF. The tables of `CALC_FROB_PRE` are those of `CALC_FROB` (41_extension_tower.md R179, R203, R213; O40). -/

namespace Sys2Proof.Machine

/-- Every division of a table is exact when the first is. -/
theorem dvd_pow_sub_one {p n : Nat} (hdvd : n ∣ p - 1) (i : Nat) : n ∣ p ^ i - 1 := hdvd.trans (Nat.sub_one_dvd_pow_sub_one p i)

/-- The exponents of a table step by a `p`-th power and the first exponent (41_extension_tower.md R203). -/
theorem pow_succ_sub_one_div {p n : Nat} (hp : 0 < p) (hn : 0 < n) (hdvd : n ∣ p - 1) (i : Nat) :
    (p ^ (i + 1) - 1) / n = (p ^ i - 1) / n * p + (p ^ 1 - 1) / n := by
  obtain ⟨r, hr⟩ := dvd_pow_sub_one hdvd i
  obtain ⟨t, ht⟩ := dvd_pow_sub_one hdvd 1
  have hpow : p ^ i = n * r + 1 := by have := Nat.pow_pos (n := i) hp; omega
  have hp1 : p = n * t + 1 := by rw [← ht, pow_one]; omega
  have hsucc : p ^ (i + 1) = n * (r * p + t) + 1 :=
    calc p ^ (i + 1) = n * (r * p) + p := by rw [pow_succ, hpow]; ring
      _ = n * (r * p + t) + 1 := by rw [Nat.mul_add]; omega
  rw [hsucc, Nat.add_sub_cancel, hr, ht, Nat.mul_div_cancel_left _ hn, Nat.mul_div_cancel_left _ hn,
    Nat.mul_div_cancel_left _ hn]

/-- A table whose first division is exact, entry 0 apart. -/
theorem frobTable_eq_cons {α : Type} (F : Fld α) {p : Nat} (c : α) {n : Nat} (m k : Nat) (hdvd : n ∣ p - 1) :
    frobTable F p c n m (k + 1) =
      some (F.coords F.one :: (List.range' 1 k).map fun i => F.coords (F.exp c (m * (p ^ i - 1) / n))) := by
  rw [frobTable_eq_some_iff]
  refine ⟨fun i _ => dvd_pow_sub_one hdvd i, ?_⟩
  rw [List.range_eq_range', List.range'_succ, List.map_cons, pow_zero, Nat.sub_self, Nat.mul_zero, Nat.zero_div]
  rfl

section
variable {f : PrimeField} {R : Type} [CommRing R] [Algebra (ZMod f.p) R] {T2 : Tow E2} {φ : E2 → R}
  (h : T2.fld.Represents f φ)
include h

/-- The running product of R203 and R213 runs through the powers of the constant, one exponent after another. -/
theorem preEntries_eq (hpow : T2.PowerAt φ f.p 1) (ξ : E2) {E : Nat → Nat} (hE : ∀ i, E (i + 1) = E i * f.p + E 1) :
    ∀ n i, preEntries T2 (T2.fld.exp ξ (E 1)) n (T2.fld.exp ξ (E i)) = (List.range' i n).map fun j => T2.fld.exp ξ (E j)
  | 0, _ => rfl
  | n + 1, i => by
    have hstep : T2.fld.mul (T2.frob (T2.fld.exp ξ (E i)) 1) (T2.fld.exp ξ (E 1)) = T2.fld.exp ξ (E (i + 1)) := by
      refine h.inj _ _ (isElem_iff.2 (h.closed.mul _ _)) (h.exp_isElem ξ _) ?_
      rw [h.mul, hpow _ (h.exp_isElem ξ _), h.exp, h.exp, h.exp, hE i, pow_add, pow_mul, pow_one]
    rw [preEntries, hstep, preEntries_eq hpow ξ hE n (i + 1), List.range'_succ, List.map_cons]

variable (hf : f.legal = true) (hpow : T2.PowerAt φ f.p 1) (h6 : 6 ∣ f.p - 1) (ξ : E2)
include hf hpow h6

/-- `FQ6C` (41_extension_tower.md R202, R203). -/
theorem preTablesFq6c_eq : preTablesFq6c T2 f.p (T2.fld.exp ξ ((f.p - 1) / 6)) =
    cubicTables (frobTable T2.fld f.p ξ 3 1 6) (frobTable T2.fld f.p ξ 3 2 6) := by
  have h3 : 3 ∣ f.p - 1 := dvd_trans (by decide) h6
  have hg : T2.fld.sq (T2.fld.exp ξ ((f.p - 1) / 6)) = T2.fld.exp ξ ((f.p ^ 1 - 1) / 3) := by
    rw [h.sq_exp, pow_one]
    congr 1
    omega
  have hentries := preEntries_eq h hpow ξ (E := fun i => (f.p ^ i - 1) / 3)
    (pow_succ_sub_one_div (PrimeField.pos_of_legal hf) three_pos h3) 5 1
  rw [preTablesFq6c, if_neg (not_not.2 (Nat.mod_eq_zero_of_dvd h6)), hg, frobTable_eq_cons T2.fld ξ 1 5 h3,
    frobTable_eq_cons T2.fld ξ 2 5 h3]
  simp only [hentries, cubicTables, List.map_map, Function.comp_def, Nat.one_mul, h.sq_exp,
    Nat.mul_div_assoc 2 (dvd_pow_sub_one h3 _)]

/-- `FQ12` (41_extension_tower.md R212, R213). -/
theorem preTableFq12_eq : preTableFq12 T2 f.p (T2.fld.exp ξ ((f.p - 1) / 6)) = frobTable T2.fld f.p ξ 6 1 12 := by
  have hentries := preEntries_eq h hpow ξ (E := fun i => (f.p ^ i - 1) / 6)
    (pow_succ_sub_one_div (PrimeField.pos_of_legal hf) (by decide) h6) 11 1
  simp only [pow_one] at hentries
  rw [preTableFq12, if_neg (not_not.2 (Nat.mod_eq_zero_of_dvd h6)), frobTable_eq_cons T2.fld ξ 1 11 h6]
  simp only [hentries, List.map_map, Function.comp_def, Nat.one_mul]

end

/-- Settles O40: with the table of `FQ2` the map of `FQ2` is the `p`-th power, so the running products are the entries. No
inverse of the constants is needed, because the map is applied once at a time. -/
theorem precomputedTablesAgree : Obligations.PrecomputedTablesAgree := by
  intro f β ctr tbl ξ0 ξ1 hf hprime _ h6 _ _ htbl t
  have hroot : RootPow (RootRing.root 2 (f.residue β)) (f.residue β) f.p 2 2 1 :=
    rootPow_of_lt hprime.pos (adjoinsRoot_fp hf two_ne_zero _).root_pow two_ne_zero (frobTable_dvd htbl 1 one_lt_two)
      one_lt_two
  have hpow : t.PowerAt (valueFq2 f β) f.p 1 := towFq2_powerAt hf hprime rfl ⟨rfl, htbl⟩ hroot
  have hrep : t.fld.Represents f (valueFq2 f β) := fq2Fld_represents hf
  exact ⟨preTablesFq6c_eq hrep hf hpow h6 _, preTableFq12_eq hrep hf hpow h6 _⟩

end Sys2Proof.Machine

/-! PROOF. How the curve-group unit runs (42_curve_group.md; O41, O42, O44, O45): one rule for the group an operation works
in, one for its operands, one for the operations that give a point. -/

namespace Sys2Proof.Machine

section
variable {s : State} {α : Type} {F : Fld α}

/-- The field a new group lies over is the one of its reference (42_curve_group.md R220). -/
theorem withFieldRef_of {β : Type} {field : CurveField} (h : FieldIs s field α F) (k : {α : Type} → Fld α → M β) :
    withFieldRef (refOfField field) k s = k F s := by
  cases h with
  | fp f hf => exact M.bind_of_ok (getPF_some hf)
  | fq2 t ht => exact withLevel_of ht fun t => k t.fld
  | fq3 t ht => exact withLevel_of ht fun t => k t.fld

/-- A coefficient operand: zero for nil, the element in its slots otherwise (42_curve_group.md R220). -/
theorem readCoeff_at {o : Option Nat} {v : α} (h : CoeffAt s F o v) : readCoeff F o s = .ok v s := by
  cases o with
  | none => cases h; rfl
  | some a => exact readElem_at h

variable {g : Group} {c : CurveGroup}

/-- An operation of a group that exists runs in its field and its block (42_curve_group.md R249). -/
theorem runUnit_withGroup (h : GroupIs s g α F c) (k : {α : Type} → Fld α → CurveGroup → M Unit) :
    runUnit (withGroup g k) s = runUnit (k F c) s := by
  rw [runUnit, withGroup_of h, runUnit]

/-- A one-point operation writes its point to the destination and nothing else. -/
theorem runUnit_groupOp1 (h : GroupIs s g α F c) (op : {α : Type} → Fld α → CurveGroup → Pt α → Pt α) {p : Nat} {P : Pt α}
    (hP : PtAt s F p P) (r : Nat) : runUnit (groupOp1 g op r p) s = .next (s.store r (ptCoords F (op F c P))) := by
  rw [groupOp1, runUnit_withGroup h, runUnit_bind_of_ok (readPt_at hP)]
  rfl

/-- A point at infinity passes the curve test (42_curve_group.md R223). -/
theorem ptOnCurve_of_isZero {P : Pt α} (h : ptIsZero F P = true) (a b : α) : ptOnCurve F a b P = true := if_pos h

/-- `MULTI_EXP` of lists of one length (42_curve_group.md R240). -/
theorem multiExp_ok {ps : List (Pt α)} {scalars : List Nat} (h : ps.length = scalars.length) (a : α) (q : Nat) :
    multiExp F a q ps scalars s = .ok (ptMultiExp F a q (ps.zip scalars)) s :=
  M.bind_of_ok (require_of (beq_iff_eq.2 h) _ _)

/-- `CG.IS_ON_CURVE` at infinity answers from `Z` alone (42_curve_group.md R223). -/
theorem execCgIsOnCurve_of_isZero (h : GroupIs s g α F c) {p : Nat} {z : α} (hz : ElemAt s F (p + 2 * F.deg) z)
    (hzero : F.isZero z = true) :
    execCgIsOnCurve g p s = .next (s.setFlags { s.flags with ptOnCurve := some true }) := by
  rw [execCgIsOnCurve, runUnit_withGroup h, runUnit_bind_of_ok (readPtZ_at hz), if_pos hzero]
  rfl

/-- `CG.IS_ON_CURVE` of a point that stands whole in its slots (42_curve_group.md R223). -/
theorem execCgIsOnCurve_next (h : GroupIs s g α F c) {p : Nat} {P : Pt α} (hP : PtAt s F p P) :
    execCgIsOnCurve g p s = .next (s.setFlags { s.flags with
      ptOnCurve := some (ptOnCurve F (F.ofCoords c.a) (F.ofCoords c.b) P) }) := by
  obtain ⟨-, -, hz⟩ := id hP
  by_cases hzero : F.isZero P.z = true
  · rw [execCgIsOnCurve_of_isZero h hz hzero, ptOnCurve_of_isZero hzero]
  · rw [execCgIsOnCurve, runUnit_withGroup h, runUnit_bind_of_ok (readPtZ_at hz), if_neg hzero,
      runUnit_bind_of_ok (readPt_at hP)]
    rfl

end

/-- Settles O41: the field is there, each coefficient is zero or read from its slots, and the group is free to be built. -/
theorem cgNewBuildsAGroup : Obligations.CgNewBuildsAGroup := by
  intro s field α F a b ob va vb hF hnew ha hb
  simp only [exec, execCgNew]
  rw [runUnit, withFieldRef_of hF, ← runUnit, runUnit_bind_of_ok (readCoeff_at ha), runUnit_bind_of_ok (readCoeff_at hb),
    runUnit_ok (newCG_new hnew)]

/-- Settles O42: each predicate reads its operand and sets one flag; two of them stop at `Z` when it says enough. -/
theorem cgPredicates : Obligations.CgPredicates := by
  refine ⟨fun s g α F cg p z hg hz => ⟨?_, fun hzero => execCgIsOnCurve_of_isZero hg hz hzero⟩,
    fun s g α F cg p P hg hP => ⟨execCgIsOnCurve_next hg hP, ?_⟩⟩
  · simp only [exec, execCgIsZero]
    rw [runUnit_withGroup hg, runUnit_bind_of_ok (readPtZ_at hz)]
    rfl
  · simp only [exec, execCgSubgroupCheck]
    rw [runUnit_withGroup hg, runUnit_bind_of_ok (readPt_at hP)]
    rfl

/-- Settles O44: the operands are read whole before the destination is written. -/
theorem cgPointOperations : Obligations.CgPointOperations := by
  intro s g α F cg r p1 p2 e P Q hg hP hQ
  refine ⟨?_, runUnit_groupOp1 hg (fun F c x => ptDouble F (F.ofCoords c.a) x) hP r,
    runUnit_groupOp1 hg (fun F _ x => ptNegate F x) hP r,
    runUnit_groupOp1 hg (fun F c x => ptScalarMul F (F.ofCoords c.a) x e) hP r,
    runUnit_groupOp1 hg (fun F c x => ptWnafMul F (F.ofCoords c.a) x e) hP r, ?_⟩
  · simp only [exec, execCgAdd]
    rw [runUnit_withGroup hg, runUnit_bind_of_ok (readPt_at hP), runUnit_bind_of_ok (readPt_at hQ)]
    rfl
  · simp only [exec, execCgToAffine]
    rw [runUnit_withGroup hg, runUnit_bind_of_ok (readPt_at hP)]
    rfl

/-- Settles O45: the lengths are compared before any point is read, and again on the points that were read. -/
theorem cgMultiExpOrMismatch : Obligations.CgMultiExpOrMismatch := by
  refine ⟨fun s g α F cg r points n scalars hg hn => ?_, fun s g α F cg r points scalars ps hg hps hlen => ?_⟩
  · simp only [exec, execCgMultiExp]
    rw [runUnit_withGroup hg, runUnit_require_not (beq_eq_false_iff_ne.2 hn)]
  · simp only [exec, execCgMultiExp]
    rw [runUnit_withGroup hg, runUnit_require_of (beq_iff_eq.2 hlen), runUnit_bind_of_ok (readPts_at hps),
      runUnit_bind_of_ok (multiExp_ok hlen _ _)]
    rfl

end Sys2Proof.Machine

/-! PROOF. The signed recoding of a scalar (42_curve_group.md R236, R266; O48) and the bucket window (R241; O49). -/

namespace Sys2Proof.Machine

/-! ## One digit of a recoding -/

/-- The digit a recoding of `e` starts with (42_curve_group.md R236). -/
def wnafHead (w e : Nat) : Int := if e % 2 = 1 then wnafDigit e w else 0

/-- What is left of `e` to recode after its first digit (42_curve_group.md R236). -/
def wnafRest (w e : Nat) : Nat := ((e : Int) - wnafHead w e).toNat / 2

/-- 0 has no digits. -/
@[simp] theorem wnafDigits_of_zero (w n : Nat) : wnafDigits w n 0 = [] := by cases n <;> rfl

theorem wnafDigits_of_pos (w n : Nat) {e : Nat} (he : 0 < e) :
    wnafDigits w (n + 1) e = wnafHead w e :: wnafDigits w n (wnafRest w e) := by
  rw [wnafDigits, if_neg he.ne', wnafRest, wnafHead]
  split
  · rfl
  · rw [sub_zero, Int.toNat_natCast]

theorem wnafHead_of_even (w : Nat) {e : Nat} (he : e % 2 = 0) : wnafHead w e = 0 := if_neg (by omega)

theorem wnafRest_of_even (w : Nat) {e : Nat} (he : e % 2 = 0) : wnafRest w e = e / 2 := by
  rw [wnafRest, wnafHead_of_even w he, sub_zero, Int.toNat_natCast]

/-- The digit of an odd `e` is its residue modulo `2^w` of least magnitude, and what is left is a multiple of `2^(w-1)`. The
multiple is rounded up only when `e` is above `2^(w-1)`. -/
theorem wnafHead_of_odd {w e : Nat} (hw : 2 ≤ w) (he : e % 2 = 1) :
    ∃ m : Nat, (e : Int) = wnafHead w e + 2 * (2 ^ (w - 1) * m : Nat) ∧ wnafHead w e % 2 = 1 ∧
      (wnafHead w e).natAbs < 2 ^ (w - 1) ∧
      (2 ^ w * m ≤ e ∨ 2 ^ (w - 1) < e ∧ ∃ q, m = q + 1 ∧ 2 ^ w * q < e) := by
  have hfull : 2 ^ w = 2 * 2 ^ (w - 1) := (mul_pow_sub_one (by omega) 2).symm
  have heven : 2 ∣ 2 ^ (w - 1) := dvd_pow_self 2 (by omega)
  have hpos : 0 < 2 ^ (w - 1) := Nat.two_pow_pos (w - 1)
  rw [wnafHead, if_pos he, wnafDigit]
  simp only [hfull, Nat.mul_assoc]
  generalize 2 ^ (w - 1) = M at *
  have hdiv : 2 * (M * (e / (2 * M))) + e % (2 * M) = e := by rw [← Nat.mul_assoc, Nat.div_add_mod]
  have hodd : e % (2 * M) % 2 = 1 := by rw [Nat.mod_mod_of_dvd _ (Nat.dvd_mul_right 2 M), he]
  have hlt : e % (2 * M) < 2 * M := Nat.mod_lt e (by omega)
  generalize e / (2 * M) = q at *
  generalize e % (2 * M) = z at *
  by_cases hz : z > M
  · have hnext : M * (q + 1) = M * q + M := Nat.mul_succ M q
    rw [if_pos hz]
    exact ⟨q + 1, by omega, by omega, by omega, .inr ⟨by omega, q, rfl, by omega⟩⟩
  · rw [if_neg hz]
    exact ⟨q, by omega, by omega, by omega, .inl (by omega)⟩

theorem wnafRest_of_odd {w e m : Nat} (h : (e : Int) = wnafHead w e + 2 * (2 ^ (w - 1) * m : Nat)) :
    wnafRest w e = 2 ^ (w - 1) * m := by
  rw [wnafRest, h]
  omega

/-! ## The digits of a recoding -/

/-- The digits of a multiple of `2^k` start with `k` zeros. -/
theorem wnafDigits_getD_of_dvd (w : Nat) : ∀ (n : Nat) {k j e : Nat}, 2 ^ k ∣ e → j < k → (wnafDigits w n e).getD j 0 = 0
  | 0, _, _, _, _, _ => rfl
  | n + 1, k + 1, j, e, hdvd, hj => by
    rcases Nat.eq_zero_or_pos e with rfl | hpos
    · rw [wnafDigits_of_zero]; rfl
    obtain ⟨t, rfl⟩ := hdvd
    have heven : 2 ^ (k + 1) * t % 2 = 0 := by rw [Nat.pow_succ', Nat.mul_assoc, Nat.mul_mod_right]
    rw [wnafDigits_of_pos w n hpos, wnafHead_of_even w heven, wnafRest_of_even w heven]
    cases j with
    | zero => rfl
    | succ j =>
      rw [List.getD_cons_succ]
      refine wnafDigits_getD_of_dvd w n (k := k) ⟨t, ?_⟩ (Nat.lt_of_succ_lt_succ hj)
      rw [Nat.pow_succ', Nat.mul_assoc, Nat.mul_div_cancel_left _ two_pos]

/-- The value of digits, least significant first. -/
theorem digitsValue_reverse_cons (d : Int) (ds : List Int) :
    digitsValue (d :: ds).reverse = d + 2 * digitsValue ds.reverse := by
  rw [List.reverse_cons, digitsValue, List.foldl_append, List.foldl_cons, List.foldl_nil, ← digitsValue, add_comm]

section
variable {w : Nat} (hw : 2 ≤ w)
include hw

/-- The first digit and what is left make up `e`. -/
theorem wnafHead_add_wnafRest (e : Nat) : wnafHead w e + 2 * (wnafRest w e : Int) = e := by
  rcases Nat.mod_two_eq_zero_or_one e with he | he
  · rw [wnafHead_of_even w he, wnafRest_of_even w he]
    omega
  · obtain ⟨m, hm, -⟩ := wnafHead_of_odd hw he
    rw [wnafRest_of_odd hm, ← hm]

/-- What is left stays within half of any power of two that bounds `e`, so the recoding ends. -/
theorem wnafRest_le {e n : Nat} (he : e ≤ 2 ^ n) : 2 * wnafRest w e ≤ 2 ^ n := by
  rcases Nat.mod_two_eq_zero_or_one e with hpar | hpar
  · rw [wnafRest_of_even w hpar]
    omega
  · obtain ⟨m, hm, -, -, hbound⟩ := wnafHead_of_odd hw hpar
    have hfull : 2 * (2 ^ (w - 1) * m) = 2 ^ w * m := by
      rw [← Nat.mul_assoc, mul_pow_sub_one (by omega)]
    rw [wnafRest_of_odd hm, hfull]
    rcases hbound with hle | ⟨hlarge, q, rfl, hq⟩
    · exact hle.trans he
    · have hwn : w ≤ n := by
        have := (Nat.pow_lt_pow_iff_right one_lt_two).1 (hlarge.trans_le he)
        omega
      rw [← Nat.add_sub_cancel' hwn, Nat.pow_add] at he ⊢
      exact Nat.mul_le_mul_left _ (Nat.lt_of_mul_lt_mul_left (hq.trans_le he))

/-- The form of the digits (42_curve_group.md R236). -/
theorem wnafDigits_form : ∀ n e, WnafForm w (wnafDigits w n e)
  | 0, _ => fun i hi => absurd rfl hi
  | n + 1, e => by
    rcases Nat.eq_zero_or_pos e with rfl | hpos
    · rw [wnafDigits_of_zero]
      exact fun i hi => absurd rfl hi
    rw [wnafDigits_of_pos w n hpos]
    rintro (_ | i) hi
    · have hodd : e % 2 = 1 := by
        by_contra h
        exact hi (wnafHead_of_even w (by omega))
      obtain ⟨m, hm, hmod, habs, -⟩ := wnafHead_of_odd hw hodd
      refine ⟨hmod, habs, fun j hj hjw => ?_⟩
      obtain ⟨j, rfl⟩ : ∃ i, j = i + 1 := ⟨j - 1, by omega⟩
      rw [List.getD_cons_succ, wnafRest_of_odd hm]
      exact wnafDigits_getD_of_dvd w n (Dvd.intro m rfl) (by omega)
    · rw [List.getD_cons_succ] at hi ⊢
      obtain ⟨hmod, habs, hzeros⟩ := wnafDigits_form n (wnafRest w e) i hi
      refine ⟨hmod, habs, fun j hj hjw => ?_⟩
      obtain ⟨j, rfl⟩ : ∃ i, j = i + 1 := ⟨j - 1, by omega⟩
      exact hzeros j (by omega) (by omega)

/-- With room for them, the digits denote the number. -/
theorem digitsValue_wnafDigits : ∀ {n e : Nat}, 2 * e ≤ 2 ^ n → digitsValue (wnafDigits w n e).reverse = e
  | 0, e, he => by
    obtain rfl : e = 0 := by rw [pow_zero] at he; omega
    rfl
  | n + 1, e, he => by
    rcases Nat.eq_zero_or_pos e with rfl | hpos
    · rw [wnafDigits_of_zero]; rfl
    have hrest := wnafRest_le hw (n := n) (by rw [Nat.pow_succ] at he; omega : e ≤ 2 ^ n)
    rw [wnafDigits_of_pos w n hpos, digitsValue_reverse_cons, digitsValue_wnafDigits hrest, wnafHead_add_wnafRest hw]

/-- With room for them, the last digit of a positive number is positive: it is what is left when nothing follows. -/
theorem wnafDigits_getLastD_pos : ∀ {n e : Nat}, 2 * e ≤ 2 ^ n → 0 < e → 0 < (wnafDigits w n e).getLastD 0
  | 0, e, he, hpos => by rw [pow_zero] at he; omega
  | n + 1, e, he, hpos => by
    have hrest := wnafRest_le hw (n := n) (by rw [Nat.pow_succ] at he; omega : e ≤ 2 ^ n)
    have hsum := wnafHead_add_wnafRest hw e
    rw [wnafDigits_of_pos w n hpos]
    rcases Nat.eq_zero_or_pos (wnafRest w e) with h0 | h0
    · rw [h0] at hsum ⊢
      rw [wnafDigits_of_zero]
      show 0 < wnafHead w e
      omega
    · have ih := wnafDigits_getLastD_pos hrest h0
      cases hds : wnafDigits w n (wnafRest w e) with
      | nil => rw [hds] at ih; exact absurd ih (lt_irrefl 0)
      | cons d ds => rwa [hds] at ih

end

/-- A recoding has room for its digits (42_curve_group.md R236). -/
theorem two_mul_le_two_pow_bitlen_add_two (e : Nat) : 2 * e ≤ 2 ^ (bitlen e + 2) := by
  have := lt_two_pow_bitlen e
  rw [Nat.pow_add]
  omega

/-- Settles O48: each digit takes the residue of least magnitude, which leaves a multiple of `2^(w-1)`. -/
theorem wnafDenotesTheNumber : Obligations.WnafDenotesTheNumber :=
  ⟨fun _ e hw => ⟨digitsValue_wnafDigits hw (two_mul_le_two_pow_bitlen_add_two e), wnafDigits_form hw _ e⟩,
    fun _ e hw he => wnafDigits_getLastD_pos hw (two_mul_le_two_pow_bitlen_add_two e) he,
    fun w => wnafDigits_of_zero w _⟩

/-! ## The bucket window -/

/-- The search ends at the least exponent from `k` on, when there is room to reach it. -/
theorem ceilLog10_spec {n : Nat} : ∀ {fuel k : Nat}, n ≤ 10 ^ (k + fuel) → (∀ j, j < k → 10 ^ j < n) →
    n ≤ 10 ^ ceilLog10 n fuel k ∧ ∀ j, j < ceilLog10 n fuel k → 10 ^ j < n
  | 0, _, hroom, hbelow => ⟨hroom, hbelow⟩
  | fuel + 1, k, hroom, hbelow => by
    rw [ceilLog10]
    split
    · next h => exact ⟨h, hbelow⟩
    · next h =>
      refine ceilLog10_spec (by rwa [Nat.add_right_comm, Nat.add_assoc]) fun j hj => ?_
      rcases Nat.lt_succ_iff_lt_or_eq.1 hj with hlt | rfl
      · exact hbelow j hlt
      · exact Nat.lt_of_not_le h

theorem mexpWindow_of_le {n : Nat} (h : n ≤ 32) : mexpWindow n = 3 := if_pos h

theorem mexpWindow_of_lt {n : Nat} (h : 32 < n) : mexpWindow n = ceilLog10 n (bitlen n) 0 := if_neg (Nat.not_le.2 h)

theorem le_ten_pow_bitlen (n : Nat) : n ≤ 10 ^ bitlen n :=
  (lt_two_pow_bitlen n).le.trans (Nat.pow_le_pow_left (by decide) _)

/-- Settles O49: the search starts at 0 and has room up to the bit length of the number of pairs. -/
theorem multiExpWindow : Obligations.MultiExpWindow := by
  refine ⟨fun n hn => mexpWindow_of_le hn, fun n hn => ?_⟩
  rw [mexpWindow_of_lt hn]
  exact ceilLog10_spec (by rw [Nat.zero_add]; exact le_ten_pow_bitlen n) fun j hj => absurd hj (Nat.not_lt_zero j)

end Sys2Proof.Machine

/-! PROOF. The fields of the two groups (42_curve_group.md R249) as fields, and the curve test as an equation (R223; O43). -/

namespace Sys2Proof.Machine

/-! ## Equality of elements -/

/-- The comparison of a level tells elements apart exactly (41_extension_tower.md R173). -/
def Fld.ExactEq {α : Type} (F : Fld α) : Prop := ∀ a b, F.beq a b = true ↔ a = b

theorem fpFld_exactEq (f : PrimeField) : (fpFld f).ExactEq := fun _ _ => beq_iff_eq

section
variable {α : Type} {B : Fld α}

theorem quadFld_exactEq (h : B.ExactEq) (nr : α → α) : (quadFld B nr).ExactEq := fun a b => by
  simp only [quadFld, Bool.and_eq_true, h _ _, Prod.ext_iff]

theorem cubicFld_exactEq (h : B.ExactEq) (nr : α → α) : (cubicFld B nr).ExactEq := fun a b => by
  simp only [cubicFld, Bool.and_eq_true, h _ _, Prod.ext_iff, and_assoc]

end

/-! ## The fields of the two groups -/

/-- A field with a root of a constant that has none of its own adjoined, of prime degree, is a field. -/
theorem rootRing_isField {K : Type} [Field K] {n : Nat} (hn : n.Prime) {c : K} (hc : ∀ b : K, b ^ n ≠ c) :
    IsField (RootRing n c) := by
  have : Fact (Irreducible (Polynomial.X ^ n - Polynomial.C c)) := ⟨X_pow_sub_C_irreducible_of_prime hn hc⟩
  exact Field.toIsField (RootRing n c)

/-- A constant whose plain value is no `n`-th power modulo `p` is no `n`-th power of residues. -/
theorem residue_ne_pow {f : PrimeField} (hf : f.legal = true) {β n : Nat} (hβ : ¬ ∃ y, y ^ n % f.p = f.fromMont β)
    (b : ZMod f.p) : b ^ n ≠ f.residue β := by
  have hp := PrimeField.pos_of_legal hf
  have : NeZero f.p := ⟨hp.ne'⟩
  refine fun hb => hβ ⟨b.val, ?_⟩
  rw [← Nat.mod_eq_of_lt (PrimeField.fromMont_lt hp β), ← ZMod.natCast_eq_natCast_iff', Nat.cast_pow, ZMod.natCast_zmod_val,
    PrimeField.natCast_fromMont, hb]

/-- In a field over the residues modulo an odd number 2 is not 0. -/
theorem two_ne_zero_of_algebra {f : PrimeField} (hf : f.legal = true) (K : Type) [Field K] [Algebra (ZMod f.p) K] :
    (2 : K) ≠ 0 := by
  intro h2
  have hp := congrArg (algebraMap (ZMod f.p) K) (ZMod.natCast_self f.p)
  obtain ⟨k, hk⟩ := Nat.odd_iff.2 (PrimeField.odd_of_legal hf)
  rw [map_natCast, map_zero, hk, Nat.cast_add, Nat.cast_mul, Nat.cast_ofNat, h2, zero_mul, zero_add, Nat.cast_one] at hp
  exact one_ne_zero hp

/-- Each field a group may lie over represents a field, and compares its elements exactly (42_curve_group.md R249). -/
theorem CurveFieldOver.exists_field {f : PrimeField} (hf : f.legal = true) (hprime : f.p.Prime) {α : Type} {F : Fld α}
    (h : CurveFieldOver f α F) : ∃ (K : Type) (_ : Field K) (_ : Algebra (ZMod f.p) K) (φ : α → K),
      F.Represents f φ ∧ F.ExactEq := by
  have : Fact f.p.Prime := ⟨hprime⟩
  cases h with
  | fp => exact ⟨ZMod f.p, inferInstance, inferInstance, f.residue, fpFld_represents hf, fpFld_exactEq f⟩
  | fq2 β _ hβ =>
    exact ⟨RingFq2 f β, (rootRing_isField Nat.prime_two (residue_ne_pow hf hβ)).toField, inferInstance, valueFq2 f β,
      fq2Fld_represents hf, quadFld_exactEq (fpFld_exactEq f) _⟩
  | fq3 β _ hβ =>
    exact ⟨RingFq3 f β, (rootRing_isField Nat.prime_three (residue_ne_pow hf hβ)).toField, inferInstance, valueFq3 f β,
      fq3Fld_represents hf, cubicFld_exactEq (fpFld_exactEq f) _⟩

/-! ## The tests on a point -/

section
variable {α : Type} (F : Fld α)

/-- The right side of the curve equation, as `ptOnCurve` computes it (42_curve_group.md R223). -/
def curveRhs (a b : α) (P : Pt α) : α :=
  let cubic := F.add (F.mul (F.sq P.x) P.x) (F.mul b (F.mul (F.sq (F.sq P.z)) (F.sq P.z)))
  if F.isZero a then cubic else F.add cubic (F.mul (F.mul a P.x) (F.sq (F.sq P.z)))

variable {F}

theorem ptOnCurve_of_not_isZero {P : Pt α} (h : ¬ ptIsZero F P = true) (a b : α) :
    ptOnCurve F a b P = F.beq (F.sq P.y) (curveRhs F a b P) := if_neg h

theorem curveRhs_in {L : Nat → Prop} (h : F.Closed L) (a b : α) (P : Pt α) : F.In L (curveRhs F a b P) := by
  unfold curveRhs
  dsimp only
  split <;> exact h.add _ _

end

section
variable {f : PrimeField} {α R : Type} [CommRing R] [Algebra (ZMod f.p) R] {F : Fld α} {φ : α → R}
  (h : F.Represents f φ)
include h

theorem Fld.Represents.sq (a : α) : φ (F.sq a) = φ a ^ 2 := by rw [Fld.sq, h.mul, pow_two]

theorem Fld.Represents.triple (a : α) : φ (F.triple a) = 3 * φ a := by
  rw [Fld.triple, h.add, h.dbl]
  ring

variable (he : F.ExactEq)
include he

/-- Elements are equal when what they stand for is. -/
theorem Fld.Represents.beq_iff {a b : α} (ha : F.In (· < f.p) a) (hb : F.In (· < f.p) b) :
    F.beq a b = true ↔ φ a = φ b := by
  rw [he]
  exact ⟨congrArg φ, h.inj a b (isElem_iff.2 ha) (isElem_iff.2 hb)⟩

theorem Fld.Represents.isZero_iff {a : α} (ha : F.In (· < f.p) a) : F.isZero a = true ↔ φ a = 0 := by
  rw [Fld.isZero, h.beq_iff he ha h.closed.zero, h.zero]

/-- `IS_ZERO` (42_curve_group.md R222). -/
theorem ptIsZero_iff {P : Pt α} (hP : F.PtIn (· < f.p) P) : ptIsZero F P = true ↔ φ P.z = 0 := h.isZero_iff he hP.z

/-- Skipping a term that has a zero factor changes nothing (42_curve_group.md R221). -/
theorem Fld.Represents.ite_isZero {a : α} (ha : F.In (· < f.p) a) {t : α} (ht : φ a = 0 → φ t = 0) (x : α) :
    φ (if F.isZero a then x else F.add x t) = φ x + φ t := by
  split
  · next h0 => rw [ht ((h.isZero_iff he ha).1 h0), add_zero]
  · exact h.add x t

theorem curveRhs_value {a : α} (ha : F.In (· < f.p) a) (b : α) (P : Pt α) :
    φ (curveRhs F a b P) = φ P.x ^ 3 + φ a * φ P.x * φ P.z ^ 4 + φ b * φ P.z ^ 6 := by
  rw [curveRhs, h.ite_isZero he ha (fun h0 => by rw [h.mul, h.mul, h0, zero_mul, zero_mul])]
  simp only [h.add, h.mul, h.sq]
  ring

/-- `IS_ON_CURVE` is the curve equation in Jacobian form, whatever the coefficient `a` is (42_curve_group.md R223). -/
theorem ptOnCurve_iff {a b : α} (ha : F.In (· < f.p) a) {P : Pt α} (hP : F.PtIn (· < f.p) P) :
    ptOnCurve F a b P = true ↔
      φ P.z = 0 ∨ φ P.y ^ 2 = φ P.x ^ 3 + φ a * φ P.x * φ P.z ^ 4 + φ b * φ P.z ^ 6 := by
  have hzero := ptIsZero_iff h he hP
  by_cases hz : φ P.z = 0
  · exact iff_of_true (ptOnCurve_of_isZero (hzero.2 hz) a b) (.inl hz)
  · rw [ptOnCurve_of_not_isZero (hzero.not.2 hz), or_iff_right hz, h.beq_iff he (h.closed.sq _) (curveRhs_in h.closed a b P),
      h.sq, curveRhs_value h he ha]

end

/-- Settles O43: the residues of the coordinates are the plain values. -/
theorem onCurveIsTheEquation : Obligations.OnCurveIsTheEquation := by
  intro f a b P hf ha hb hx hy hz
  have hin : ∀ {x}, x < f.p → (fpFld f).In (· < f.p) x := fun hlt => (fpFld_in f _).2 hlt
  rw [ptOnCurve_iff (fpFld_represents hf) (fpFld_exactEq f) (hin ha) ⟨hin hx, hin hy, hin hz⟩,
    PrimeField.residue_eq_zero_iff hf hz, ← Nat.ModEq, ← ZMod.natCast_eq_natCast_iff]
  simp only [Nat.cast_add, Nat.cast_mul, Nat.cast_pow, PrimeField.natCast_fromMont]

end Sys2Proof.Machine

/-! PROOF. The addition formulas case by case (42_curve_group.md R224 to R232), and the first laws of the group (R248; O46). -/

namespace Sys2Proof.Machine

/-! ## The cases of `ADD` and `DOUBLE` -/

section
variable {α : Type} (F : Fld α)

/-- The two points have one affine `x`, as `ptAdd` compares it (42_curve_group.md R226). -/
def ptSameX (P Q : Pt α) : Bool := F.beq (F.mul P.x (F.sq Q.z)) (F.mul Q.x (F.sq P.z))

/-- The two points have one affine `y`, as `ptAdd` compares it (42_curve_group.md R226). -/
def ptSameY (P Q : Pt α) : Bool := F.beq (F.mul (F.mul P.y Q.z) (F.sq Q.z)) (F.mul (F.mul Q.y P.z) (F.sq P.z))

/-- The third point of `ptAdd` on two points with different affine `x` (42_curve_group.md R226). -/
def ptChord (P Q : Pt α) : Pt α :=
  let u1 := F.mul P.x (F.sq Q.z)
  let s1 := F.mul (F.mul P.y Q.z) (F.sq Q.z)
  let h := F.sub (F.mul Q.x (F.sq P.z)) u1
  let r := F.sub (F.mul (F.mul Q.y P.z) (F.sq P.z)) s1
  let hhh := F.mul h (F.sq h)
  let v := F.mul u1 (F.sq h)
  let x3 := F.sub (F.sub (F.sq r) hhh) (F.dbl v)
  { x := x3, y := F.sub (F.mul r (F.sub v x3)) (F.mul s1 hhh), z := F.mul (F.mul P.z Q.z) h }

variable {F} {P Q : Pt α} (a : α)

theorem ptAdd_of_isZero_left (hP : ptIsZero F P = true) : ptAdd F a P Q = Q := if_pos hP

theorem ptAdd_of_isZero_right (hP : ¬ ptIsZero F P = true) (hQ : ptIsZero F Q = true) : ptAdd F a P Q = P := by
  rw [ptAdd, if_neg hP, if_pos hQ]

theorem ptAdd_of_finite (hP : ¬ ptIsZero F P = true) (hQ : ¬ ptIsZero F Q = true) : ptAdd F a P Q =
    if ptSameX F P Q then if ptSameY F P Q then ptDouble F a P else ptIdentity F else ptChord F P Q := by
  rw [ptAdd, if_neg hP, if_neg hQ]
  rfl

theorem ptDouble_of_isZero (h : ptIsZero F P = true ∨ F.isZero P.y = true) : ptDouble F a P = ptIdentity F :=
  if_pos (Bool.or_eq_true_iff.2 h)

theorem ptDouble_of_finite (hz : ¬ ptIsZero F P = true) (hy : ¬ F.isZero P.y = true) :
    ptDouble F a P = ptDoubleFormula F a P :=
  if_neg (Bool.or_eq_true_iff.not.2 (not_or.2 ⟨hz, hy⟩))

theorem ptSame_of_isZero (hP : ptIsZero F P = true) (hQ : ptIsZero F Q = true) : ptSame F P Q = true := by
  rw [ptSame, hP, hQ]
  rfl

theorem ptSame_of_finite (hP : ¬ ptIsZero F P = true) (hQ : ¬ ptIsZero F Q = true) : ptSame F P Q =
    (F.beq (F.mul P.x (F.sq Q.z)) (F.mul Q.x (F.sq P.z)) &&
      F.beq (F.mul P.y (F.mul (F.sq Q.z) Q.z)) (F.mul Q.y (F.mul (F.sq P.z) P.z))) :=
  if_neg (Bool.or_eq_true_iff.not.2 (not_or.2 ⟨hP, hQ⟩))

theorem ptSame_refl (he : F.ExactEq) (P : Pt α) : ptSame F P P = true := by
  by_cases hP : ptIsZero F P = true
  · exact ptSame_of_isZero hP hP
  · rw [ptSame_of_finite hP hP, (he _ _).2 rfl, (he _ _).2 rfl]
    rfl

theorem ptIsZero_identity (he : F.ExactEq) : ptIsZero F (ptIdentity F) = true := (he _ _).2 rfl

@[simp] theorem ptIsZero_negate (P : Pt α) : ptIsZero F (ptNegate F P) = ptIsZero F P := rfl

end

/-! ## What the formulas compute -/

section
variable {f : PrimeField} {α R : Type} [CommRing R] [Algebra (ZMod f.p) R] {F : Fld α} {φ : α → R}
  (h : F.Represents f φ)
include h

theorem ptChord_z (P Q : Pt α) :
    φ (ptChord F P Q).z = φ P.z * φ Q.z * (φ Q.x * φ P.z ^ 2 - φ P.x * φ Q.z ^ 2) := by
  simp only [ptChord, h.mul, h.sub, h.sq]

theorem ptChord_x (P Q : Pt α) : φ (ptChord F P Q).x = (φ Q.y * φ P.z ^ 3 - φ P.y * φ Q.z ^ 3) ^ 2
    - (φ Q.x * φ P.z ^ 2 + φ P.x * φ Q.z ^ 2) * (φ Q.x * φ P.z ^ 2 - φ P.x * φ Q.z ^ 2) ^ 2 := by
  simp only [ptChord, h.mul, h.sub, h.sq, h.dbl]
  ring

theorem ptChord_y (P Q : Pt α) : φ (ptChord F P Q).y =
    (φ Q.y * φ P.z ^ 3 - φ P.y * φ Q.z ^ 3) *
        (φ P.x * φ Q.z ^ 2 * (φ Q.x * φ P.z ^ 2 - φ P.x * φ Q.z ^ 2) ^ 2 - φ (ptChord F P Q).x)
      - φ P.y * φ Q.z ^ 3 * (φ Q.x * φ P.z ^ 2 - φ P.x * φ Q.z ^ 2) ^ 3 := by
  simp only [ptChord, h.mul, h.sub, h.sq, h.dbl]
  ring

theorem ptDoubleFormula_z (a : α) (P : Pt α) : φ (ptDoubleFormula F a P).z = 2 * φ P.y * φ P.z := by
  simp only [ptDoubleFormula, h.mul, h.dbl]
  ring

variable (he : F.ExactEq)
include he

/-- The slope term of the doubling, whether or not `a` is zero (42_curve_group.md R229). -/
theorem ptDoubleFormula_slope {a : α} (ha : F.In (· < f.p) a) (P : Pt α) :
    φ (if F.isZero a then F.triple (F.sq P.x) else F.add (F.triple (F.sq P.x)) (F.mul a (F.sq (F.sq P.z)))) =
      3 * φ P.x ^ 2 + φ a * φ P.z ^ 4 := by
  rw [h.ite_isZero he ha (fun h0 => by rw [h.mul, h0, zero_mul]), h.triple, h.mul, h.sq, h.sq, h.sq, ← pow_mul]

theorem ptDoubleFormula_x {a : α} (ha : F.In (· < f.p) a) (P : Pt α) :
    φ (ptDoubleFormula F a P).x = (3 * φ P.x ^ 2 + φ a * φ P.z ^ 4) ^ 2 - 8 * φ P.x * φ P.y ^ 2 := by
  simp only [ptDoubleFormula, h.sub, h.sq, h.dbl, h.add, ptDoubleFormula_slope h he ha]
  ring

theorem ptDoubleFormula_y {a : α} (ha : F.In (· < f.p) a) (P : Pt α) : φ (ptDoubleFormula F a P).y =
    (3 * φ P.x ^ 2 + φ a * φ P.z ^ 4) * (4 * φ P.x * φ P.y ^ 2 - φ (ptDoubleFormula F a P).x) - 8 * φ P.y ^ 4 := by
  simp only [ptDoubleFormula, h.sub, h.sq, h.dbl, h.add, h.mul, ptDoubleFormula_slope h he ha]
  ring

theorem ptSameX_iff (P Q : Pt α) : ptSameX F P Q = true ↔ φ P.x * φ Q.z ^ 2 = φ Q.x * φ P.z ^ 2 := by
  rw [ptSameX, h.beq_iff he (h.closed.mul _ _) (h.closed.mul _ _)]
  simp only [h.mul, h.sq]

theorem ptSameY_iff (P Q : Pt α) : ptSameY F P Q = true ↔ φ P.y * φ Q.z ^ 3 = φ Q.y * φ P.z ^ 3 := by
  rw [ptSameY, h.beq_iff he (h.closed.mul _ _) (h.closed.mul _ _)]
  simp only [h.mul, h.sq, mul_assoc, ← pow_succ']

/-- Equality of points that are not at infinity (42_curve_group.md R224). -/
theorem ptSame_iff {P Q : Pt α} (hP : ¬ ptIsZero F P = true) (hQ : ¬ ptIsZero F Q = true) : ptSame F P Q = true ↔
    φ P.x * φ Q.z ^ 2 = φ Q.x * φ P.z ^ 2 ∧ φ P.y * φ Q.z ^ 3 = φ Q.y * φ P.z ^ 3 := by
  rw [ptSame_of_finite hP hQ, Bool.and_eq_true, h.beq_iff he (h.closed.mul _ _) (h.closed.mul _ _),
    h.beq_iff he (h.closed.mul _ _) (h.closed.mul _ _)]
  simp only [h.mul, h.sq, ← pow_succ]

end

/-! ## The first laws of the group -/

/-- A point whose coordinates are elements. -/
theorem isPt_iff {α : Type} {F : Fld α} {p : Nat} {P : Pt α} : IsPt F p P ↔ F.PtIn (· < p) P := by
  rw [IsPt, isElem_iff, isElem_iff, isElem_iff]
  exact ⟨fun ⟨hx, hy, hz⟩ => ⟨hx, hy, hz⟩, fun ⟨hx, hy, hz⟩ => ⟨hx, hy, hz⟩⟩

section
variable {α : Type} {F : Fld α} (he : F.ExactEq) (a : α) (P : Pt α)
include he

/-- `P + O` is `P` (42_curve_group.md R248). -/
theorem ptAdd_identity : ptSame F (ptAdd F a P (ptIdentity F)) P = true := by
  by_cases hP : ptIsZero F P = true
  · rw [ptAdd_of_isZero_left a hP]
    exact ptSame_of_isZero (ptIsZero_identity he) hP
  · rw [ptAdd_of_isZero_right a hP (ptIsZero_identity he)]
    exact ptSame_refl he P

/-- The double is `P + P` (42_curve_group.md R248). -/
theorem ptDouble_same_ptAdd : ptSame F (ptDouble F a P) (ptAdd F a P P) = true := by
  by_cases hP : ptIsZero F P = true
  · rw [ptAdd_of_isZero_left a hP, ptDouble_of_isZero a (.inl hP)]
    exact ptSame_of_isZero (ptIsZero_identity he) hP
  · have hx : ptSameX F P P = true := (he _ _).2 rfl
    have hy : ptSameY F P P = true := (he _ _).2 rfl
    rw [ptAdd_of_finite a hP hP, if_pos hx, if_pos hy]
    exact ptSame_refl he _

end

section
variable {f : PrimeField} {α K : Type} [Field K] [Algebra (ZMod f.p) K] {F : Fld α} {φ : α → K}

/-- `P + (-P)` is at infinity: where the two affine `y` agree they are 0, because 2 is not (42_curve_group.md R248). -/
theorem ptAdd_negate (hf : f.legal = true) (h : F.Represents f φ) (he : F.ExactEq) (a : α) {P : Pt α}
    (hP : F.PtIn (· < f.p) P) :
    ptIsZero F (ptAdd F a P (ptNegate F P)) = true := by
  by_cases hzero : ptIsZero F P = true
  · rwa [ptAdd_of_isZero_left a hzero, ptIsZero_negate]
  have hz : φ P.z ≠ 0 := (ptIsZero_iff h he hP).not.1 hzero
  have hx : ptSameX F P (ptNegate F P) = true := (he _ _).2 rfl
  rw [ptAdd_of_finite a hzero (by rwa [ptIsZero_negate]), if_pos hx]
  split
  · next hsame =>
    have hsum := (ptSameY_iff h he P (ptNegate F P)).1 hsame
    rw [ptNegate, h.neg _ (isElem_iff.2 hP.y)] at hsum
    have hy : φ P.y = 0 := by
      have h2 : 2 * (φ P.y * φ P.z ^ 3) = 0 := by linear_combination hsum
      simpa [two_ne_zero_of_algebra hf K, hz] using h2
    rw [ptDouble_of_isZero a (.inr ((h.isZero_iff he hP.y).2 hy))]
    exact ptIsZero_identity he
  · exact ptIsZero_identity he

end

/-- Settles O46: over a field the two affine `y` of `P` and `-P` agree only at 0, where the double is at infinity. -/
theorem curveGroupLaws : Obligations.CurveGroupLaws := by
  intro f α F a P hf hprime hF _ hP
  obtain ⟨K, _, _, φ, hrep, he⟩ := hF.exists_field hf hprime
  exact ⟨ptAdd_identity he a P, ptAdd_negate hf hrep he a (isPt_iff.1 hP), ptDouble_same_ptAdd he a P⟩

end Sys2Proof.Machine

/-! PROOF. The Jacobian triples on a curve that is not singular stand for the points of its group (42_curve_group.md R224, R226,
R228, R248). -/

namespace Sys2Proof.Machine

section
open WeierstrassCurve

/-- The curve `y² = x³ + A x + B` (42_curve_group.md R223). -/
def shortCurve {K : Type} [Field K] (A B : K) : Affine K := { a₁ := 0, a₂ := 0, a₃ := 0, a₄ := A, a₆ := B }

section
variable {K : Type} [Field K] {A B : K}

theorem shortCurve_equation_iff (x y : K) : (shortCurve A B).Equation x y ↔ y ^ 2 = x ^ 3 + A * x + B := by
  simp [Affine.equation_iff, shortCurve]

@[simp] theorem shortCurve_negY (x y : K) : (shortCurve A B).negY x y = -y := by
  simp [Affine.negY, shortCurve]

@[simp] theorem shortCurve_addX (x1 x2 l : K) : (shortCurve A B).addX x1 x2 l = l ^ 2 - x1 - x2 := by
  simp [Affine.addX, shortCurve]

@[simp] theorem shortCurve_addY (x1 x2 y1 l : K) :
    (shortCurve A B).addY x1 x2 y1 l = -(l * (l ^ 2 - x1 - x2 - x1) + y1) := by
  rw [Affine.addY, Affine.negAddY, shortCurve_negY, shortCurve_addX]

/-- On a curve that is not singular every point has a tangent (42_curve_group.md R248). -/
theorem shortCurve_nonsingular (h2 : (2 : K) ≠ 0) (hdisc : 4 * A ^ 3 + 27 * B ^ 2 ≠ 0) {x y : K}
    (h : y ^ 2 = x ^ 3 + A * x + B) : (shortCurve A B).Nonsingular x y := by
  have hΔ : (shortCurve A B).Δ = -2 ^ 4 * (4 * A ^ 3 + 27 * B ^ 2) := by
    simp only [shortCurve, Δ, b₂, b₄, b₆, b₈]
    ring
  refine ((shortCurve A B).equation_iff_nonsingular_of_Δ_ne_zero ?_).1 ((shortCurve_equation_iff x y).2 h)
  rw [hΔ]
  exact mul_ne_zero (neg_ne_zero.2 (pow_ne_zero 4 h2)) hdisc

variable [DecidableEq K]

/-- The slope of a chord. -/
theorem shortCurve_slope_chord {x1 x2 : K} (hx : x1 ≠ x2) (y1 y2 : K) :
    (shortCurve A B).slope x1 x2 y1 y2 * (x1 - x2) = y1 - y2 := by
  rw [Affine.slope_of_X_ne hx, div_mul_cancel₀ _ (sub_ne_zero.2 hx)]

/-- The slope of a tangent. -/
theorem shortCurve_slope_tangent (h2 : (2 : K) ≠ 0) (x : K) {y : K} (hy : y ≠ 0) :
    (shortCurve A B).slope x x y y * (2 * y) = 3 * x ^ 2 + A := by
  have hneg : y ≠ (shortCurve A B).negY x y := by
    rw [shortCurve_negY, ne_eq, eq_neg_iff_add_eq_zero, ← two_mul]
    exact mul_ne_zero h2 hy
  rw [Affine.slope_of_Y_ne rfl hneg, shortCurve_negY, sub_neg_eq_add, ← two_mul,
    div_mul_cancel₀ _ (mul_ne_zero h2 hy)]
  simp [shortCurve]

end

/-- The triple stands for the point of the curve: `(x, y) = (X / Z², Y / Z³)`, or `Z = 0` at infinity (42_curve_group.md
R224). -/
inductive PtDenotes {α K : Type} [Field K] (F : Fld α) (p : Nat) (φ : α → K) {W : Affine K} (P : Pt α) :
    W.Point → Prop
  | infinity : F.PtIn (· < p) P → φ P.z = 0 → PtDenotes F p φ P 0
  | affine (x y : K) (h : W.Nonsingular x y) : F.PtIn (· < p) P → φ P.z ≠ 0 → φ P.x = x * φ P.z ^ 2 → φ P.y = y * φ P.z ^ 3 →
      PtDenotes F p φ P (.some x y h)

section
variable {f : PrimeField} {α K : Type} [Field K] [Algebra (ZMod f.p) K] {F : Fld α} {φ : α → K}
  {W : Affine K} {P P' : Pt α} {Q : W.Point}

omit [Algebra (ZMod f.p) K] in
theorem PtDenotes.ptIn (hP : PtDenotes F f.p φ P Q) : F.PtIn (· < f.p) P := by
  cases hP with
  | infinity hin => exact hin
  | affine _ _ _ hin => exact hin

variable (h : F.Represents f φ)
include h

/-- The identity is the zero of the group. -/
theorem ptDenotes_identity : PtDenotes F f.p φ (ptIdentity F) (0 : W.Point) := .infinity (ptIdentity_in h.closed) h.zero

variable (he : F.ExactEq)
include he

theorem PtDenotes.isZero (hP : PtDenotes F f.p φ P (0 : W.Point)) : ptIsZero F P = true := by
  generalize hQ : (0 : W.Point) = Q at hP
  cases hP with
  | infinity hin hz => exact (ptIsZero_iff h he hin).2 hz
  | affine x y hns => cases hQ

/-- Triples that stand for one point are equal as points (42_curve_group.md R224). -/
theorem PtDenotes.same (hP : PtDenotes F f.p φ P Q) (hP' : PtDenotes F f.p φ P' Q) : ptSame F P P' = true := by
  cases hP with
  | infinity hin hz => exact ptSame_of_isZero ((ptIsZero_iff h he hin).2 hz) (hP'.isZero h he)
  | affine x y hns hin hz hx hy =>
    cases hP' with
    | affine _ _ _ hin' hz' hx' hy' =>
      rw [ptSame_iff h he ((ptIsZero_iff h he hin).not.2 hz) ((ptIsZero_iff h he hin').not.2 hz'), hx, hy, hx', hy']
      exact ⟨by ring, by ring⟩

end

/-! ## The operations on triples are those of the group -/

section
variable {f : PrimeField} {α K : Type} [Field K] [Algebra (ZMod f.p) K] {F : Fld α} {φ : α → K}
  (h : F.Represents f φ) (he : F.ExactEq) (h2 : (2 : K) ≠ 0) {a : α} (ha : F.In (· < f.p) a) {B : K}
include h he h2 ha

/-- A triple on the curve stands for a point of its group (42_curve_group.md R223, R224). -/
theorem exists_ptDenotes {b : α} (hdisc : 4 * φ a ^ 3 + 27 * φ b ^ 2 ≠ 0) {P : Pt α} (hP : F.PtIn (· < f.p) P)
    (hon : ptOnCurve F a b P = true) :
    ∃ Q : (shortCurve (φ a) (φ b)).Point, PtDenotes F f.p φ P Q := by
  by_cases hz : φ P.z = 0
  · exact ⟨0, .infinity hP hz⟩
  have heq := ((ptOnCurve_iff h he ha hP).1 hon).resolve_left hz
  have haffine : (φ P.y / φ P.z ^ 3) ^ 2 = (φ P.x / φ P.z ^ 2) ^ 3 + φ a * (φ P.x / φ P.z ^ 2) + φ b := by
    field_simp
    linear_combination heq
  refine ⟨.some _ _ (shortCurve_nonsingular h2 hdisc haffine), .affine _ _ _ hP hz ?_ ?_⟩
  · rw [div_mul_cancel₀ _ (pow_ne_zero 2 hz)]
  · rw [div_mul_cancel₀ _ (pow_ne_zero 3 hz)]

variable {P P' : Pt α} {Q Q' : (shortCurve (φ a) B).Point}

omit he h2 ha in
/-- `NEGATE` (42_curve_group.md R232). -/
theorem PtDenotes.neg (hP : PtDenotes F f.p φ P Q) : PtDenotes F f.p φ (ptNegate F P) (-Q) := by
  have hin' : F.PtIn (· < f.p) (ptNegate F P) := ptNegate_in h.closed hP.ptIn
  cases hP with
  | infinity hin hz => exact .infinity hin' hz
  | affine x y hns hin hz hx hy =>
    rw [Affine.Point.neg_some]
    refine .affine _ _ _ hin' hz hx ?_
    rw [ptNegate, h.neg _ (isElem_iff.2 hin.y), hy, shortCurve_negY, neg_mul]

variable [DecidableEq K]

/-- The tangent formula (42_curve_group.md R229). -/
theorem ptDenotes_tangent {x y : K} (hns : (shortCurve (φ a) B).Nonsingular x y) (hin : F.PtIn (· < f.p) P) (hz : φ P.z ≠ 0)
    (hx : φ P.x = x * φ P.z ^ 2) (hy : φ P.y = y * φ P.z ^ 3) (hy0 : y ≠ 0) :
    PtDenotes F f.p φ (ptDouble F a P) (Affine.Point.some x y hns + .some x y hns) := by
  have hPy : φ P.y ≠ 0 := by rw [hy]; exact mul_ne_zero hy0 (pow_ne_zero 3 hz)
  have hneg : y ≠ (shortCurve (φ a) B).negY x y := by
    rw [shortCurve_negY, ne_eq, eq_neg_iff_add_eq_zero, ← two_mul]
    exact mul_ne_zero h2 hy0
  have hslope := shortCurve_slope_tangent (A := φ a) (B := B) h2 x hy0
  rw [Affine.Point.add_self_of_Y_ne hneg]
  refine .affine _ _ _ (ptDouble_in h.closed a P) ?_ ?_ ?_ <;>
    rw [ptDouble_of_finite a ((ptIsZero_iff h he hin).not.2 hz) ((h.isZero_iff he hin.y).not.2 hPy), ptDoubleFormula_z h]
  · exact mul_ne_zero (mul_ne_zero h2 hPy) hz
  all_goals
    generalize (shortCurve (φ a) B).slope x x y y = l at *
    have hA : φ a = l * (2 * y) - 3 * x ^ 2 := by linear_combination -hslope
  · rw [ptDoubleFormula_x h he ha, shortCurve_addX, hx, hy, hA]
    ring
  · rw [ptDoubleFormula_y h he ha, ptDoubleFormula_x h he ha, shortCurve_addY, hx, hy, hA]
    ring

/-- `DOUBLE` (42_curve_group.md R228, R229). -/
theorem PtDenotes.double (hP : PtDenotes F f.p φ P Q) : PtDenotes F f.p φ (ptDouble F a P) (Q + Q) := by
  cases hP with
  | infinity hin hz =>
    rw [ptDouble_of_isZero a (.inl ((ptIsZero_iff h he hin).2 hz)), add_zero]
    exact ptDenotes_identity h
  | affine x y hns hin hz hx hy =>
    by_cases hy0 : y = 0
    · have hPy : φ P.y = 0 := by rw [hy, hy0, zero_mul]
      rw [ptDouble_of_isZero a (.inr ((h.isZero_iff he hin.y).2 hPy)),
        Affine.Point.add_self_of_Y_eq (by rw [shortCurve_negY, hy0, neg_zero])]
      exact ptDenotes_identity h
    · exact ptDenotes_tangent h he h2 ha hns hin hz hx hy hy0

omit he h2 ha in
/-- The chord formula (42_curve_group.md R226). -/
theorem ptDenotes_chord {x y x' y' : K} (hns : (shortCurve (φ a) B).Nonsingular x y)
    (hns' : (shortCurve (φ a) B).Nonsingular x' y') (hz : φ P.z ≠ 0) (hx : φ P.x = x * φ P.z ^ 2) (hy : φ P.y = y * φ P.z ^ 3)
    (hz' : φ P'.z ≠ 0) (hx' : φ P'.x = x' * φ P'.z ^ 2) (hy' : φ P'.y = y' * φ P'.z ^ 3) (hne : x ≠ x') :
    PtDenotes F f.p φ (ptChord F P P') (Affine.Point.some x y hns + .some x' y' hns') := by
  have hslope := shortCurve_slope_chord (A := φ a) (B := B) hne y y'
  rw [Affine.Point.add_of_X_ne hne]
  refine .affine _ _ _ ⟨h.closed.sub _ _, h.closed.sub _ _, h.closed.mul _ _⟩ ?_ ?_ ?_ <;> rw [ptChord_z h, hx, hx']
  · have hfactor : φ P.z * φ P'.z * (x' * φ P'.z ^ 2 * φ P.z ^ 2 - x * φ P.z ^ 2 * φ P'.z ^ 2) =
        (x' - x) * (φ P.z ^ 3 * φ P'.z ^ 3) := by ring
    rw [hfactor]
    exact mul_ne_zero (sub_ne_zero.2 hne.symm) (mul_ne_zero (pow_ne_zero 3 hz) (pow_ne_zero 3 hz'))
  all_goals
    generalize (shortCurve (φ a) B).slope x x' y y' = l at *
    obtain rfl : y' = y - l * (x - x') := by linear_combination hslope
  · rw [ptChord_x h, shortCurve_addX, hx, hx', hy, hy']
    ring
  · rw [ptChord_y h, ptChord_x h, shortCurve_addY, hx, hx', hy, hy']
    ring

/-- `ADD` (42_curve_group.md R226). -/
theorem PtDenotes.add (hP : PtDenotes F f.p φ P Q) (hP' : PtDenotes F f.p φ P' Q') :
    PtDenotes F f.p φ (ptAdd F a P P') (Q + Q') := by
  have hP0 := hP
  have hP0' := hP'
  cases hP with
  | infinity hin hz =>
    rw [ptAdd_of_isZero_left a ((ptIsZero_iff h he hin).2 hz), zero_add]
    exact hP0'
  | affine x y hns hin hz hx hy =>
    have hzero := (ptIsZero_iff h he hin).not.2 hz
    cases hP' with
    | infinity hin' hz' =>
      rw [ptAdd_of_isZero_right a hzero ((ptIsZero_iff h he hin').2 hz'), add_zero]
      exact hP0
    | affine x' y' hns' hin' hz' hx' hy' =>
      have hsameX : ptSameX F P P' = true ↔ x = x' := by
        rw [ptSameX_iff h he, hx, hx', mul_assoc, mul_assoc, mul_comm (φ P'.z ^ 2)]
        exact mul_left_inj' (mul_ne_zero (pow_ne_zero 2 hz) (pow_ne_zero 2 hz'))
      have hsameY : ptSameY F P P' = true ↔ y = y' := by
        rw [ptSameY_iff h he, hy, hy', mul_assoc, mul_assoc, mul_comm (φ P'.z ^ 3)]
        exact mul_left_inj' (mul_ne_zero (pow_ne_zero 3 hz) (pow_ne_zero 3 hz'))
      rw [ptAdd_of_finite a hzero ((ptIsZero_iff h he hin').not.2 hz')]
      by_cases hxx : x = x'
      · rw [if_pos (hsameX.2 hxx)]
        subst hxx
        by_cases hyy : y = y'
        · rw [if_pos (hsameY.2 hyy)]
          subst hyy
          exact hP0.double h he h2 ha
        · have hopp := (Affine.Y_eq_of_X_eq hns.1 hns'.1 rfl).resolve_left hyy
          rw [if_neg (hsameY.not.2 hyy), Affine.Point.add_of_Y_eq rfl hopp]
          exact ptDenotes_identity h
      · rw [if_neg (hsameX.not.2 hxx)]
        exact ptDenotes_chord h hns hns' hz hx hy hz' hx' hy' hxx

end

end

end Sys2Proof.Machine

/-! PROOF. The multiplication loops of the curve unit in any commutative group its operations stand for (42_curve_group.md R234,
R237, R240 to R243), and the multiples of a point (R248; O47). -/

namespace Sys2Proof.Machine

/-- `D P Q` says that the triple `P` stands for the element `Q` of a group: the operations of the curve unit are then those of
the group (42_curve_group.md R226, R228, R232). -/
structure PtGroup {α G : Type} [AddCommGroup G] (F : Fld α) (a : α) (D : Pt α → G → Prop) : Prop where
  identity : D (ptIdentity F) 0
  add : ∀ {P P' Q Q'}, D P Q → D P' Q' → D (ptAdd F a P P') (Q + Q')
  double : ∀ {P Q}, D P Q → D (ptDouble F a P) (Q + Q)
  neg : ∀ {P Q}, D P Q → D (ptNegate F P) (-Q)

section
variable {α G : Type} [AddCommGroup G] {F : Fld α} {a : α} {D : Pt α → G → Prop} (hD : PtGroup F a D)
include hD

/-! ## Multiples by bits (42_curve_group.md R234) -/

/-- The loop adds the bits `i .. i + n - 1` of the scalar times `t`. -/
theorem PtGroup.scalarMulFrom (e : Nat) : ∀ (n i : Nat) {acc t : Pt α} {A T : G}, D acc A → D t T →
    D (scalarMulFrom F a e n i acc t) (A + (e / 2 ^ i % 2 ^ n) • T)
  | 0, _, _, _, _, _, hacc, _ => by
    rw [pow_zero, Nat.mod_one, zero_smul, add_zero]
    exact hacc
  | n + 1, i, acc, t, A, T, hacc, ht => by
    have hbit : D (if e.testBit i then ptAdd F a acc t else acc) (A + (e / 2 ^ i % 2) • T) := by
      rw [Nat.testBit_eq_decide_div_mod_eq]
      rcases Nat.mod_two_eq_zero_or_one (e / 2 ^ i) with hb | hb <;> rw [hb]
      · rw [zero_smul, add_zero]
        exact hacc
      · rw [one_smul]
        exact hD.add hacc ht
    have hsplit : e / 2 ^ i % 2 ^ (n + 1) = e / 2 ^ i % 2 + e / 2 ^ (i + 1) % 2 ^ n * 2 := by
      rw [Nat.pow_succ', Nat.mod_mul, Nat.div_div_eq_div_mul, ← Nat.pow_succ, Nat.mul_comm 2]
    rw [Machine.scalarMulFrom, hsplit, add_smul, mul_smul, two_smul, ← add_assoc]
    exact PtGroup.scalarMulFrom e n (i + 1) hbit (hD.double ht)

/-- `SCALAR_MUL` gives the multiple. -/
theorem PtGroup.scalarMul {P : Pt α} {Q : G} (hP : D P Q) (e : Nat) : D (ptScalarMul F a P e) (e • Q) := by
  have h := hD.scalarMulFrom e (bitlen e) 0 hD.identity hP
  rwa [pow_zero, Nat.div_one, Nat.mod_eq_of_lt (lt_two_pow_bitlen e), zero_add] at h

/-! ## Multiples by signed digits (42_curve_group.md R237) -/

omit hD in
/-- The digits of a recoding of window 3 are 0 or odd, below 4 in magnitude (42_curve_group.md R236). -/
theorem wnaf_digit {e : Nat} {z : Int} (hz : z ∈ wnaf e Config.wnafWindow) (h0 : z ≠ 0) : z.natAbs = 1 ∨ z.natAbs = 3 := by
  obtain ⟨i, hi, rfl⟩ := List.mem_iff_getElem.1 hz
  have hform : WnafForm 3 (wnaf e Config.wnafWindow) := wnafDigits_form (by decide) _ e
  rw [← List.getD_eq_getElem _ 0 hi] at h0 ⊢
  obtain ⟨hodd, habs, -⟩ := hform i h0
  omega

/-- The loop doubles for every digit and adds the digit's odd multiple of the point. -/
theorem PtGroup.wnafMulLoop {t0 t1 : Pt α} {Q : G} (h0 : D t0 Q) (h1 : D t1 ((3 : Nat) • Q)) :
    ∀ (zs : List Int) {acc : Pt α} {c : Int}, (∀ z ∈ zs, z ≠ 0 → z.natAbs = 1 ∨ z.natAbs = 3) → D acc (c • Q) →
      D (wnafMulLoop F a t0 t1 zs acc) (zs.foldl (fun acc d => 2 * acc + d) c • Q)
  | [], _, _, _, hacc => hacc
  | z :: zs, acc, c, hzs, hacc => by
    obtain ⟨hz, hzs⟩ := List.forall_mem_cons.1 hzs
    have hentry : z ≠ 0 → D (if z.natAbs / 2 = 0 then t0 else t1) ((z.natAbs : Int) • Q) := by
      intro hne
      rw [natCast_zsmul]
      rcases hz hne with h | h <;> rw [h]
      · rwa [one_smul]
      · exact h1
    have hdouble : D (ptDouble F a acc) ((2 * c) • Q) := by
      rw [two_mul, add_smul]
      exact hD.double hacc
    rw [Machine.wnafMulLoop, List.foldl_cons]
    refine PtGroup.wnafMulLoop h0 h1 zs hzs ?_
    rw [add_smul]
    split
    · next hpos =>
      have hz : z • Q = (z.natAbs : Int) • Q := by rw [Int.natAbs_of_nonneg hpos.le]
      rw [hz]
      exact hD.add hdouble (hentry hpos.ne')
    split
    · next hneg =>
      have hz : z • Q = -((z.natAbs : Int) • Q) := by rw [Int.ofNat_natAbs_of_nonpos hneg.le, neg_smul, neg_neg]
      rw [hz]
      exact hD.add hdouble (hD.neg (hentry hneg.ne))
    · obtain rfl : z = 0 := by omega
      rwa [zero_smul, add_zero]

/-- `WNAF_MUL` gives the multiple: the digits denote the scalar (42_curve_group.md R236). -/
theorem PtGroup.wnafMul {P : Pt α} {Q : G} (hP : D P Q) (e : Nat) : D (ptWnafMul F a P e) (e • Q) := by
  have htriple : D (ptAdd F a P (ptDouble F a P)) ((3 : Nat) • Q) := by
    rw [show (3 : Nat) • Q = Q + (Q + Q) by rw [succ_nsmul', two_nsmul]]
    exact hD.add hP (hD.double hP)
  have hzero : D (ptIdentity F) ((0 : Int) • Q) := by
    rw [zero_smul]
    exact hD.identity
  have hvalue : digitsValue (wnaf e Config.wnafWindow).reverse = e :=
    digitsValue_wnafDigits (by decide) (two_mul_le_two_pow_bitlen_add_two e)
  rw [← natCast_zsmul, ← hvalue]
  exact hD.wnafMulLoop hP htriple _ (fun z hz => wnaf_digit (List.mem_reverse.1 hz)) hzero

end

/-! ## Sums of multiples (42_curve_group.md R240 to R243) -/

/-- The sum of the elements `g` gives the points of a list, each taken as often as `k` says of its scalar. -/
def weightedSum {α G : Type} [AddCommGroup G] (g : Pt α → G) (list : List (Pt α × Nat)) (k : Nat → Nat) : G :=
  (list.map fun pe => k pe.2 • g pe.1).sum

section
variable {α G : Type} [AddCommGroup G] {g : Pt α → G}

@[simp] theorem weightedSum_nil (k : Nat → Nat) : weightedSum g [] k = 0 := rfl

@[simp] theorem weightedSum_cons (pe : Pt α × Nat) (list : List (Pt α × Nat)) (k : Nat → Nat) :
    weightedSum g (pe :: list) k = k pe.2 • g pe.1 + weightedSum g list k := List.sum_cons

theorem weightedSum_add (list : List (Pt α × Nat)) (k l : Nat → Nat) :
    weightedSum g list (fun e => k e + l e) = weightedSum g list k + weightedSum g list l := by
  simp only [weightedSum, add_smul, List.sum_map_add]

theorem weightedSum_mul (list : List (Pt α × Nat)) (n : Nat) (k : Nat → Nat) :
    weightedSum g list (fun e => n * k e) = n • weightedSum g list k := by
  simp only [weightedSum, mul_smul, List.smul_sum, List.map_map, Function.comp_def]

theorem weightedSum_congr {list : List (Pt α × Nat)} {k l : Nat → Nat} (h : ∀ pe ∈ list, k pe.2 = l pe.2) :
    weightedSum g list k = weightedSum g list l :=
  congrArg List.sum (List.map_congr_left fun pe hpe => by rw [h pe hpe])

theorem weightedSum_zero (list : List (Pt α × Nat)) : weightedSum g list (fun _ => 0) = 0 := by
  have h := weightedSum_mul (g := g) list 0 (fun _ => 0)
  rwa [zero_smul] at h

end

/-- Digit `w` of a scalar in base `2^c` (42_curve_group.md R242). -/
def windowDigit (c w e : Nat) : Nat := e / 2 ^ (w * c) % 2 ^ c

theorem bucketSum_cons {α : Type} (F : Fld α) (a : α) (c w d : Nat) (p : Pt α) (e : Nat) (rest : List (Pt α × Nat))
    (acc : Pt α) : bucketSum F a c w d ((p, e) :: rest) acc =
      bucketSum F a c w d rest (if windowDigit c w e = d then ptAdd F a acc p else acc) := rfl

section
variable {α G : Type} [AddCommGroup G] {F : Fld α} {a : α} {D : Pt α → G → Prop} (hD : PtGroup F a D) {g : Pt α → G}
include hD

/-- A bucket holds the sum of the points whose digit is its number (42_curve_group.md R242). -/
theorem PtGroup.bucketSum (c w d : Nat) : ∀ {list : List (Pt α × Nat)} {acc : Pt α} {A : G}, (∀ pe ∈ list, D pe.1 (g pe.1)) →
    D acc A → D (bucketSum F a c w d list acc) (A + weightedSum g list fun e => if windowDigit c w e = d then 1 else 0)
  | [], _, _, _, hacc => by rwa [weightedSum_nil, add_zero]
  | (p, e) :: rest, acc, A, hlist, hacc => by
    obtain ⟨hp, hrest⟩ := List.forall_mem_cons.1 hlist
    rw [bucketSum_cons, weightedSum_cons, ← add_assoc]
    refine PtGroup.bucketSum c w d hrest ?_
    by_cases hd : windowDigit c w e = d
    · rw [if_pos hd, if_pos hd, one_smul]
      exact hD.add hacc hp
    · rwa [if_neg hd, if_neg hd, zero_smul, add_zero]

/-- The sweep adds bucket `d` as often as its number: it stands in every running sum from `d` down to 1 (42_curve_group.md
R242). -/
theorem PtGroup.bucketSweep (c w : Nat) {list : List (Pt α × Nat)} (hlist : ∀ pe ∈ list, D pe.1 (g pe.1)) :
    ∀ (d : Nat) {running total : Pt α} {R T : G}, D running R → D total T →
      D (bucketSweep F a c w list d running total)
        (T + d • R + weightedSum g list fun e => if windowDigit c w e ≤ d then windowDigit c w e else 0)
  | 0, _, _, R, T, _, htotal => by
    have hzero : (weightedSum g list fun e => if windowDigit c w e ≤ 0 then windowDigit c w e else 0) = 0 :=
      (weightedSum_congr fun pe _ => by split <;> omega).trans (weightedSum_zero list)
    rwa [hzero, zero_smul, add_zero, add_zero]
  | d + 1, running, total, R, T, hrunning, htotal => by
    have hrunning' := hD.add hrunning (hD.bucketSum c w (d + 1) hlist hD.identity)
    have h := PtGroup.bucketSweep c w hlist d hrunning' (hD.add htotal hrunning')
    have hweights : (weightedSum g list fun e => if windowDigit c w e ≤ d + 1 then windowDigit c w e else 0) =
        (d + 1) • (weightedSum g list fun e => if windowDigit c w e = d + 1 then 1 else 0) +
          weightedSum g list fun e => if windowDigit c w e ≤ d then windowDigit c w e else 0 := by
      rw [← weightedSum_mul, ← weightedSum_add]
      refine weightedSum_congr fun pe _ => ?_
      split_ifs <;> omega
    rw [hweights, Machine.bucketSweep]
    convert h using 1
    module

/-- The sum of a window is that of its digits' multiples (42_curve_group.md R242). -/
theorem PtGroup.windowSum (c w : Nat) {list : List (Pt α × Nat)} (hlist : ∀ pe ∈ list, D pe.1 (g pe.1)) :
    D (windowSum F a c w list) (weightedSum g list (windowDigit c w)) := by
  have h := hD.bucketSweep c w hlist (2 ^ c - 1) hD.identity hD.identity
  rw [smul_zero, add_zero, zero_add] at h
  have hall : ∀ e, windowDigit c w e ≤ 2 ^ c - 1 := fun e => Nat.le_sub_one_of_lt (Nat.mod_lt _ (Nat.two_pow_pos c))
  simp only [hall, if_true] at h
  exact h

theorem PtGroup.doubleTimes : ∀ (n : Nat) {P : Pt α} {Q : G}, D P Q → D (ptDoubleTimes F a n P) (2 ^ n • Q)
  | 0, _, _, hP => by rwa [pow_zero, one_smul]
  | n + 1, _, Q, hP => by
    rw [pow_succ, mul_smul, two_smul]
    exact PtGroup.doubleTimes n (hD.double hP)

/-- The windows are the digits of the scalars in base `2^c` (42_curve_group.md R243). -/
theorem PtGroup.combineWindows (c : Nat) {list : List (Pt α × Nat)} (hlist : ∀ pe ∈ list, D pe.1 (g pe.1)) :
    ∀ (n : Nat) {acc : Pt α} {A : G}, D acc A →
      D (combineWindows F a c list n acc) (2 ^ (n * c) • A + weightedSum g list fun e => e % 2 ^ (n * c))
  | 0, _, A, hacc => by
    have hzero : (weightedSum g list fun e => e % 2 ^ (0 * c)) = 0 :=
      (weightedSum_congr fun pe _ => by rw [Nat.zero_mul, pow_zero, Nat.mod_one]).trans (weightedSum_zero list)
    rwa [hzero, Nat.zero_mul, pow_zero, one_smul, add_zero]
  | w + 1, acc, A, hacc => by
    have h := PtGroup.combineWindows c hlist w (hD.add (hD.doubleTimes c hacc) (hD.windowSum c w hlist))
    have hweights : (weightedSum g list fun e => e % 2 ^ ((w + 1) * c)) =
        2 ^ (w * c) • weightedSum g list (windowDigit c w) + weightedSum g list fun e => e % 2 ^ (w * c) := by
      rw [← weightedSum_mul, ← weightedSum_add]
      refine weightedSum_congr fun pe _ => ?_
      rw [Nat.succ_mul, Nat.pow_add, Nat.mod_mul, Nat.add_comm]
      rfl
    rw [hweights, Nat.succ_mul, Nat.pow_add, mul_smul, ← add_assoc, ← smul_add]
    exact h

omit hD in
/-- The bucket window is never 0 (42_curve_group.md R241). -/
theorem mexpWindow_pos (n : Nat) : 0 < mexpWindow n := by
  rcases Nat.lt_or_ge 32 n with hn | hn
  · obtain ⟨-, hwindow⟩ := multiExpWindow
    obtain ⟨hle, -⟩ := hwindow n hn
    refine Nat.pos_of_ne_zero fun h0 => ?_
    rw [h0, pow_zero] at hle
    omega
  · rw [mexpWindow_of_le hn]
    decide

omit hD in
theorem le_ceilDiv_mul (n : Nat) {c : Nat} (hc : 0 < c) : n ≤ ceilDiv n c * c := by
  have := Nat.lt_div_mul_add (a := n + (c - 1)) hc
  unfold ceilDiv
  omega

/-- `MULTI_EXP` of scalars below the order: its windows hold all their bits (42_curve_group.md R240, R243). -/
theorem PtGroup.multiExp {q : Nat} {list : List (Pt α × Nat)} (hlist : ∀ pe ∈ list, D pe.1 (g pe.1))
    (hq : ∀ pe ∈ list, pe.2 < q) : D (ptMultiExp F a q list) (weightedSum g list id) := by
  have h := hD.combineWindows (mexpWindow list.length) hlist (ceilDiv (bitlen q) (mexpWindow list.length)) hD.identity
  rw [smul_zero, zero_add] at h
  have hbits := (bitlen_le_iff q _).1 (le_ceilDiv_mul (bitlen q) (mexpWindow_pos list.length))
  rwa [weightedSum_congr (l := id) fun pe hpe => Nat.mod_eq_of_lt ((hq pe hpe).trans_le hbits.le)] at h

/-- The sum of the multiples, one after another (42_curve_group.md R240). -/
theorem PtGroup.foldl_add_scalarMul : ∀ {list : List (Pt α × Nat)} {acc : Pt α} {A : G}, (∀ pe ∈ list, D pe.1 (g pe.1)) →
    D acc A → D (list.foldl (fun acc pe => ptAdd F a acc (ptScalarMul F a pe.1 pe.2)) acc) (A + weightedSum g list id)
  | [], _, _, _, hacc => by rwa [weightedSum_nil, add_zero]
  | pe :: rest, acc, A, hlist, hacc => by
    obtain ⟨hp, hrest⟩ := List.forall_mem_cons.1 hlist
    rw [weightedSum_cons, ← add_assoc]
    exact PtGroup.foldl_add_scalarMul hrest (hD.add hacc (hD.scalarMul hp pe.2))

theorem PtGroup.sumOfMultiples {list : List (Pt α × Nat)} (hlist : ∀ pe ∈ list, D pe.1 (g pe.1)) :
    D (sumOfMultiples F a list) (weightedSum g list id) := by
  have h := hD.foldl_add_scalarMul hlist hD.identity
  rwa [zero_add] at h

end

/-! ## The group of a curve -/

section
variable {f : PrimeField} {α K : Type} [Field K] [Algebra (ZMod f.p) K] [DecidableEq K] {F : Fld α} {φ : α → K}

/-- The operations on triples are those of the group of the curve. -/
theorem ptDenotes_ptGroup (h : F.Represents f φ) (he : F.ExactEq) (h2 : (2 : K) ≠ 0) {a : α} (ha : F.In (· < f.p) a) (B : K) :
    PtGroup F a fun P (Q : (shortCurve (φ a) B).Point) => PtDenotes F f.p φ P Q where
  identity := ptDenotes_identity h
  add hP hP' := hP.add h he h2 ha hP'
  double hP := hP.double h he h2 ha
  neg hP := hP.neg h

omit [DecidableEq K] in
/-- The discriminant of a curve (42_curve_group.md R248). -/
theorem curveDiscriminant_value (h : F.Represents f φ) (a b : α) :
    φ (curveDiscriminant F a b) = 4 * φ a ^ 3 + 27 * φ b ^ 2 := by
  simp only [curveDiscriminant, h.add, h.dbl, h.mul, h.sq, h.triple]
  ring

omit [DecidableEq K] in
theorem curveDiscriminant_isElem (h : F.Represents f φ) (a b : α) : IsElem F f.p (curveDiscriminant F a b) :=
  isElem_iff.2 (h.closed.add _ _)

end

/-- Settles O47: every triple on the curve stands for a point of its group, and each side of an equation stands for the same
multiple or sum of multiples there. -/
theorem multiplesAgree : Obligations.MultiplesAgree := by
  intro f α F a b hf hprime hF ha _ hdisc
  obtain ⟨K, _, _, φ, h, he⟩ := hF.exists_field hf hprime
  classical
  have h2 := two_ne_zero_of_algebra hf K
  have ha := isElem_iff.1 ha
  have hdisc : 4 * φ a ^ 3 + 27 * φ b ^ 2 ≠ 0 := by
    rw [← curveDiscriminant_value h]
    exact (h.eq_zero_iff (curveDiscriminant_isElem h a b)).not.2 hdisc
  have hD := ptDenotes_ptGroup h he h2 ha (φ b)
  have hpoint : ∀ P, IsPt F f.p P → ptOnCurve F a b P = true → ∃ Q : (shortCurve (φ a) (φ b)).Point, PtDenotes F f.p φ P Q :=
    fun P hP hon => exists_ptDenotes h he h2 ha hdisc (isPt_iff.1 hP) hon
  refine ⟨fun P hP hon => ?_, fun q list hlist => ?_⟩
  · obtain ⟨Q, hQ⟩ := hpoint P hP hon
    have hmul := hD.scalarMul hQ
    refine ⟨?_, ?_, fun k1 k2 => ?_, fun e => (hD.wnafMul hQ e).same h he (hmul e)⟩
    · exact (zero_nsmul Q ▸ hmul 0).isZero h he
    · exact (one_nsmul Q ▸ hmul 1).same h he hQ
    · exact (hmul (k1 + k2)).same h he (add_nsmul Q k1 k2 ▸ hD.add (hmul k1) (hmul k2))
  · have hex : ∀ P : Pt α, ∃ Q : (shortCurve (φ a) (φ b)).Point,
        IsPt F f.p P → ptOnCurve F a b P = true → PtDenotes F f.p φ P Q := by
      intro P
      by_cases hP : IsPt F f.p P ∧ ptOnCurve F a b P = true
      · obtain ⟨Q, hQ⟩ := hpoint P hP.1 hP.2
        exact ⟨Q, fun _ _ => hQ⟩
      · exact ⟨0, fun hin hon => absurd ⟨hin, hon⟩ hP⟩
    choose g hg using hex
    have hdenotes : ∀ pe ∈ list, PtDenotes F f.p φ pe.1 (g pe.1) := fun pe hpe => by
      obtain ⟨hin, hon, -⟩ := hlist pe hpe
      exact hg pe.1 hin hon
    have hq : ∀ pe ∈ list, pe.2 < q := fun pe hpe => by
      obtain ⟨-, -, hlt⟩ := hlist pe hpe
      exact hlt
    exact (hD.multiExp hdenotes hq).same h he (hD.sumOfMultiples hdenotes)

end Sys2Proof.Machine

/-! PROOF. The traversal digits of a loop (43_pairing.md R266, R268; O51): the binary digits and the non-adjacent form both
denote the loop count, and the cheaper of the two is chosen. -/

namespace Sys2Proof.Machine

/-! ## Binary digits -/

theorem mem_binaryDigitsFrom {e : Nat} : ∀ {n : Nat} {d : Int}, d ∈ binaryDigitsFrom e n → d = 0 ∨ d = 1
  | n + 1, d, h => by
    rcases List.mem_cons.1 h with rfl | h
    · split
      · exact .inr rfl
      · exact .inl rfl
    · exact mem_binaryDigitsFrom h

/-- Reading on from a value shifts it left and adds the low bits. -/
theorem foldl_binaryDigitsFrom (e : Nat) : ∀ (n : Nat) (acc : Int),
    (binaryDigitsFrom e n).foldl (fun acc d => 2 * acc + d) acc = acc * 2 ^ n + (e % 2 ^ n : Nat)
  | 0, acc => by simp [binaryDigitsFrom, Nat.mod_one]
  | n + 1, acc => by
    have hbit : (if e.testBit n then 1 else 0 : Int) = (e / 2 ^ n % 2 : Nat) := by
      rw [Nat.testBit_eq_decide_div_mod_eq]
      rcases Nat.mod_two_eq_zero_or_one (e / 2 ^ n) with h | h <;> rw [h] <;> rfl
    rw [binaryDigitsFrom, List.foldl_cons, foldl_binaryDigitsFrom e n, hbit, Nat.mod_pow_succ]
    push_cast
    ring

theorem digitsValue_binaryDigits (e : Nat) : digitsValue (binaryDigits e) = e := by
  rw [digitsValue, binaryDigits, foldl_binaryDigitsFrom, zero_mul, zero_add, Nat.mod_eq_of_lt (lt_two_pow_bitlen e)]

theorem binaryDigits_headD {e : Nat} (he : 0 < e) : (binaryDigits e).headD 0 = 1 := by
  have hlen : bitlen e = e.log2 + 1 := if_neg he.ne'
  rw [binaryDigits, hlen, binaryDigitsFrom, List.headD_cons, if_pos (Nat.testBit_log2 he.ne')]

/-! ## The non-adjacent form -/

theorem naf_form (e : Nat) : WnafForm 2 (naf e) := wnafDigits_form le_rfl _ e

theorem digitsValue_naf_reverse (e : Nat) : digitsValue (naf e).reverse = e :=
  digitsValue_wnafDigits le_rfl (two_mul_le_two_pow_bitlen_add_two e)

/-- A digit that is not 0 is odd and below 2 in magnitude. -/
theorem mem_naf {e : Nat} {d : Int} (hd : d ∈ naf e) : d = -1 ∨ d = 0 ∨ d = 1 := by
  obtain ⟨i, hi, rfl⟩ := List.mem_iff_getElem.1 hd
  rw [← List.getD_eq_getElem _ 0 hi]
  by_cases h0 : (naf e).getD i 0 = 0
  · exact .inr (.inl h0)
  · obtain ⟨hodd, habs, -⟩ := naf_form e i h0
    omega

theorem naf_reverse_headD {e : Nat} (he : 0 < e) : (naf e).reverse.headD 0 = 1 := by
  have hpos : 0 < (naf e).getLastD 0 :=
    wnafDigits_getLastD_pos le_rfl (two_mul_le_two_pow_bitlen_add_two e) he
  rw [List.headD_eq_head?_getD, List.head?_reverse, ← List.getLastD_eq_getLast?]
  rcases List.mem_cons.1 (List.getLastD_mem_cons (l := naf e) (a := 0)) with h0 | hmem
  · omega
  · have := mem_naf hmem
    omega

/-! ## The choice -/

/-- The non-adjacent form is chosen when it may be and costs less, and the binary digits otherwise (43_pairing.md R268). -/
theorem traversal_cases (forceBinary : Bool) (e : Nat) :
    ((forceBinary = false ∧ traversalCost (naf e).reverse < traversalCost (binaryDigits e)) ∧
      traversal forceBinary e = ((naf e).reverse, true)) ∨
    (¬ (forceBinary = false ∧ traversalCost (naf e).reverse < traversalCost (binaryDigits e)) ∧
      traversal forceBinary e = (binaryDigits e, false)) := by
  have hcond : (!forceBinary && decide (traversalCost (naf e).reverse < traversalCost (binaryDigits e))) = true ↔
      forceBinary = false ∧ traversalCost (naf e).reverse < traversalCost (binaryDigits e) := by
    rw [Bool.and_eq_true, Bool.not_eq_true', decide_eq_true_iff]
  by_cases h : forceBinary = false ∧ traversalCost (naf e).reverse < traversalCost (binaryDigits e)
  · exact .inl ⟨h, if_pos (hcond.2 h)⟩
  · exact .inr ⟨h, if_neg (hcond.not.2 h)⟩

/-- Settles O51: either choice gives digits that denote the loop count and start with 1. -/
theorem traversalDenotesTheLoop : Obligations.TraversalDenotesTheLoop := by
  intro forceBinary e he
  rcases traversal_cases forceBinary e with ⟨hnaf, heq⟩ | ⟨hbin, heq⟩ <;> rw [heq]
  · exact ⟨digitsValue_naf_reverse e, naf_reverse_headD he, fun d hd => mem_naf (List.mem_reverse.1 hd),
      iff_of_true rfl hnaf, fun _ => ⟨rfl, naf_form e⟩, nofun⟩
  · exact ⟨digitsValue_binaryDigits e, binaryDigits_headD he, fun d hd => .inr (mem_binaryDigitsFrom hd),
      iff_of_false Bool.false_ne_true hbin, nofun, fun _ d hd => mem_binaryDigitsFrom hd⟩

end Sys2Proof.Machine

/-! PROOF. How the pairing engine is built and runs (43_pairing.md R262 to R312; O50, O52 to O55): one rule for the engine an
operation works in, one for each form of operand, and what each whole operation of the engine answers. -/

namespace Sys2Proof.Machine

/-! ## Building an engine -/

section
variable {s : State} {c1 c2 : CurveGroup} {et : ExtField} {x w0 w1 : Nat} {xNeg w0Neg : Bool} {tw : Twist}
  (h1 : s.cg1 = some c1) (h2 : s.cg2 = some c2)
include h1 h2

/-- What follows the references of an engine runs when they are there (43_pairing.md R262). -/
theorem runUnit_engineRefs {l : Level} (ht : s.ex.get l = some et) (k : Bool → M Unit) :
    runUnit (do
      let _ ← getCG .g1
      let _ ← getCG .g2
      let _ ← getEX l
      let fb ← look (fun s => s.cfg.forceBinary)
      k fb) s = runUnit (k s.cfg.forceBinary) s := by
  rw [runUnit_bind_of_ok (getCG_some (g := .g1) h1), runUnit_bind_of_ok (getCG_some (g := .g2) h2),
    runUnit_bind_of_ok (getEX_some ht), runUnit_bind_of_ok (look_apply _ _)]

variable (hnew : s.pe = none)
include hnew

/-- `PE.NEW` of BLS12, over the traversal that `CFG` asks for (43_pairing.md R262). -/
theorem execPeNew_bls12 (ht : s.ex.fq12 = some et) : execPeNew .bls12 tw x xNeg w0 w1 w0Neg s =
    .next (s.setPE (twistedEngine s.cfg.forceBinary false tw x xNeg)) :=
  (runUnit_engineRefs h1 h2 (l := .fq12) ht _).trans (runUnit_ok (constructPE_new hnew))

/-- `PE.NEW` of BN, over the traversal that `CFG` asks for (43_pairing.md R262). -/
theorem execPeNew_bn (ht : s.ex.fq12 = some et) : execPeNew .bn tw x xNeg w0 w1 w0Neg s =
    .next (s.setPE (twistedEngine s.cfg.forceBinary true tw x xNeg)) :=
  (runUnit_engineRefs h1 h2 (l := .fq12) ht _).trans (runUnit_ok (constructPE_new hnew))

variable {f : PrimeField} (hf : s.pf = some f)
include hf

/-- `PE.NEW` of MNT4, its generator that of `FQ2` (43_pairing.md R262). -/
theorem execPeNew_mnt4 {t : Tow E2} (ht : s.ex.fq4 = some et) (hl : LevelIs s .fq2 E2 t) :
    execPeNew .mnt4 tw x xNeg w0 w1 w0Neg s = .next (s.setPE (mntEngine t.fld f.one .mnt4 x xNeg w0 w1 w0Neg)) :=
  (runUnit_engineRefs h1 h2 (l := .fq4) ht _).trans <| (runUnit_bind_of_ok (getPF_some hf)).trans <|
    (runUnit_withLevel hl _).trans (runUnit_ok (constructPE_new hnew))

/-- `PE.NEW` of MNT6, its generator that of `FQ3` (43_pairing.md R262). -/
theorem execPeNew_mnt6 {t : Tow E3} (ht : s.ex.fq6q = some et) (hl : LevelIs s .fq3 E3 t) :
    execPeNew .mnt6 tw x xNeg w0 w1 w0Neg s = .next (s.setPE (mntEngine t.fld f.one .mnt6 x xNeg w0 w1 w0Neg)) :=
  (runUnit_engineRefs h1 h2 (l := .fq6q) ht _).trans <| (runUnit_bind_of_ok (getPF_some hf)).trans <|
    (runUnit_withLevel hl _).trans (runUnit_ok (constructPE_new hnew))

end

/-- The generator of `FQ2` (41_extension_tower.md R170). -/
theorem LevelIs.fq2_generator {s : State} {t : Tow E2} (h : LevelIs s .fq2 E2 t) (one : Nat) :
    t.fld.generator one = (0, one) := by cases h; rfl

/-- The generator of `FQ3` (41_extension_tower.md R170). -/
theorem LevelIs.fq3_generator {s : State} {t : Tow E3} (h : LevelIs s .fq3 E3 t) (one : Nat) :
    t.fld.generator one = (0, one, 0) := by cases h; rfl

/-- Settles O50: the references are there and no engine is, so the one of the family's fields is built; each field is read off
it. -/
theorem peNewBuildsTheEngine : Obligations.PeNewBuildsTheEngine := by
  refine ⟨?_, ?_, ?_⟩
  · intro s c1 c2 e12 tw x xNeg w0 w1 w0Neg h1 h2 h12 hnew
    exact ⟨⟨_, execPeNew_bls12 h1 h2 hnew h12, rfl, rfl, rfl, rfl, rfl, rfl, rfl, rfl, rfl, rfl, rfl, rfl, rfl, rfl,
        rfl, rfl⟩,
      ⟨_, _, rfl, execPeNew_bn h1 h2 hnew h12, rfl, rfl, rfl, rfl, rfl, rfl, rfl, rfl, rfl, rfl, rfl, rfl, rfl, rfl,
        rfl, rfl⟩⟩
  · intro s f c1 c2 e4 t tw x xNeg w0 w1 w0Neg hf h1 h2 h4 ht hnew
    refine ⟨_, execPeNew_mnt4 h1 h2 hnew hf h4 ht, rfl, rfl, rfl, rfl, rfl, rfl, rfl, rfl, rfl, ?_, ?_, rfl, rfl, rfl,
      rfl, rfl⟩
    · rw [mntEngine, ht.fq2_generator]
      cases ht
      rfl
    · rw [mntEngine, ht.fq2_generator]
  · intro s f c1 c2 e6 t tw x xNeg w0 w1 w0Neg hf h1 h2 h6 ht hnew
    refine ⟨_, execPeNew_mnt6 h1 h2 hnew hf h6 ht, rfl, rfl, rfl, rfl, rfl, rfl, rfl, rfl, rfl, ?_, ?_, rfl, rfl, rfl,
      rfl, rfl⟩
    · rw [mntEngine, ht.fq3_generator]
      cases ht
      rfl
    · rw [mntEngine, ht.fq3_generator]

/-! ## The engine an operation works in -/

section
variable {s : State}

/-- A BN or BLS12 engine operation runs in its tower. -/
theorem runUnit_withBn {t : BnTower} {pe : Engine} {isBn : Bool} (h : TwistedIs s t pe isBn)
    (k : BnTower → Engine → Bool → M Unit) : runUnit (withBn k) s = runUnit (k t pe isBn) s := by
  rw [runUnit, withBn_of h, runUnit]

/-- An MNT engine operation runs in its tower. -/
theorem runUnit_withMnt {α : Type} {t : MntTower α} {pe : Engine} (h : MntIs s α t pe)
    (k : {α : Type} → MntTower α → Engine → M Unit) : runUnit (withMnt k) s = runUnit (k t pe) s := by
  rw [runUnit, withMnt_of h, runUnit]

/-- A field of the engine that is set. -/
theorem getPEField_of {β : Type} {o : Option β} {v : β} (h : o = some v) : getPEField o s = .ok v s := by
  rw [h, getPEField_some]

/-- An operation that ends by noting whether the tables it used were there (log 5). -/
theorem runUnit_noteFree (valid : Bool) : runUnit (noteFree valid) s = .next (s.noted valid) := rfl

theorem runUnit_writeGroup (a : Nat) (vs : List Nat) : runUnit (writeGroup a vs) s = .next (s.store a vs) := rfl

/-- The counter and the slots are written independently. -/
theorem State.store_noted (valid : Bool) (a : Nat) (vs : List Nat) :
    (s.noted valid).store a vs = (s.store a vs).noted valid := by
  cases valid <;> rfl

end

/-! ## BN and BLS12 -/

section
variable {s : State} {t : BnTower} {pe : Engine} {isBn : Bool}

/-- An element of the engine's `FQ2` takes two slots (10_state.md R24). -/
theorem TwistedIs.deg_t2 (h : TwistedIs s t pe isBn) : t.t2.fld.deg = 2 := by
  obtain ⟨-, -, f, e2, e6, e12, -, -, -, -, rfl⟩ := h
  rfl

/-- A coefficient triple is read. -/
theorem readLine3_at {F : Fld E2} {co : Nat} {l : Line3} (h0 : ElemAt s F co l.c0) (h1 : ElemAt s F (co + F.deg) l.c1)
    (h2 : ElemAt s F (co + 2 * F.deg) l.c2) : readLine3 F co s = .ok l s := by
  rw [readLine3, M.bind_of_ok (readElem_at h0), M.bind_of_ok (readElem_at h1), M.bind_of_ok (readElem_at h2)]
  rfl

theorem loopSign_of {neg : Bool} (h : if isBn then pe.loopNeg = some neg else pe.xNeg = neg) :
    loopSign pe isBn s = .ok neg s := by
  cases isBn with
  | true => exact getPEField_of h
  | false => cases h; rfl

section
variable {tw : Twist} {ds : List Int} {neg : Bool} (htw : pe.twist = some tw) (hds : pe.digits = some ds)
  (hneg : if isBn then pe.loopNeg = some neg else pe.xNeg = neg)
include htw hds hneg

/-- The Miller loop over the engine's digits (43_pairing.md R279). -/
theorem millerBn_of (ms : List (MillerPair E2 Unit)) : millerBn t pe isBn ms s = .ok (bnMillerLoop t tw isBn ds neg ms) s := by
  rw [millerBn, M.bind_of_ok (getPEField_of htw), M.bind_of_ok (getPEField_of hds), M.bind_of_ok (loopSign_of hneg),
    M.pure_apply]

/-- The pairing product, noting missing tables (43_pairing.md R264). -/
theorem multiPairBn_of (ms : List (MillerPair E2 Unit)) : multiPairBn t pe isBn ms s =
    .ok (bnMultiPair t tw isBn ds neg pe.x pe.xNeg ms) (s.noted t.t12.valid) := by
  rw [multiPairBn, M.bind_of_ok (getPEField_of htw), M.bind_of_ok (getPEField_of hds), M.bind_of_ok (loopSign_of hneg)]
  rfl

end

/-- `PE.MULTI_PAIR` of a BN or BLS12 engine runs in its tower (43_pairing.md R264). -/
theorem execPeMultiPair_twisted (h : TwistedIs s t pe isBn) (c pairs n : Nat) : execPeMultiPair c pairs n s =
    runUnit (do
      let ms ← readPairs t.t2.fld pairs n
      let v ← multiPairBn t pe isBn ms
      writeElem t.t12.fld c v) s := by
  obtain ⟨hpe, hfam, -⟩ := id h
  rw [execPeMultiPair, runUnit_bind_of_ok (getPE_some hpe), hfam]
  cases isBn <;> exact runUnit_withBn h _

end

/-- Settles O52: the operands are read whole in the engine's `FQ2` and `FQ12`, then the results are written. -/
theorem twistedEngineSteps : Obligations.TwistedEngineSteps := by
  refine ⟨fun s t pe isBn r co src R h hR => ⟨_, _, rfl, ?_⟩, fun s t pe isBn r co src q R Q h hR hQ => ⟨_, _, rfl, ?_⟩,
    fun s t pe isBn tw co c f p x l0 l1 l2 px py h htw hx h0 h1 h2 hpx hpy => ?_⟩ <;>
    simp only [exec, execPeDoublingStep, execPeAdditionStep, execPeEll]
  · rw [runUnit_withBn h, runUnit_bind_of_ok (readPt_at hR)]
    rfl
  · rw [runUnit_withBn h, runUnit_bind_of_ok (readPt_at hR), runUnit_bind_of_ok (readXY_at hQ)]
    rfl
  · rw [← h.deg_t2] at h1
    rw [show 4 = 2 * t.t2.fld.deg by rw [h.deg_t2]] at h2
    rw [runUnit_withBn h, runUnit_bind_of_ok (getPEField_of htw), runUnit_bind_of_ok (readElem_at hx),
      runUnit_bind_of_ok (readLine3_at (l := ⟨l0, l1, l2⟩) h0 h1 h2), runUnit_bind_of_ok (readSlot_some hpx),
      runUnit_bind_of_ok (readSlot_some hpy), writeElem, runUnit_writeGroup]
    cases tw <;> rfl

/-- Settles O53: the pairs are read, and each value is the engine's function of them and of its own fields. -/
theorem twistedEngineLoops : Obligations.TwistedEngineLoops := by
  refine ⟨fun s t pe isBn tw ds neg c pairs ms h htw hds hneg hms => ⟨?_, ?_⟩, fun s t pe isBn c f x h hx => ?_⟩ <;>
    simp only [exec, execPeMillerLoop, execPeFinalExp]
  · rw [runUnit_withBn h, runUnit_bind_of_ok (readPairs_at hms), runUnit_bind_of_ok (millerBn_of htw hds hneg ms)]
    rfl
  · rw [execPeMultiPair_twisted h, runUnit_bind_of_ok (readPairs_at hms),
      runUnit_bind_of_ok (multiPairBn_of htw hds hneg ms), writeElem, runUnit_writeGroup, State.store_noted, bnMultiPair]
    simp only [List.isEmpty_iff]
  · rw [runUnit_withBn h, runUnit_bind_of_ok (readElem_at hx)]
    rfl

/-! ## MNT4 and MNT6 -/

section
variable {s : State} {α : Type} {t : MntTower α} {pe : Engine}

/-- `PE.ELL` of an MNT engine multiplies by the line value it reads (43_pairing.md R304). -/
theorem execPeEllMnt_next {co q c f p px py : Nat} {Q x g : α × α} {kind : LineKind} (h : MntIs s α t pe)
    (hQ : XYAt s t.te.fld q Q) (hx : ElemAt s t.tt.fld f x) (hpx : regGet p s.slots = some px)
    (hpy : regGet (p + 1) s.slots = some py) (hg : readLineValue t kind co (mntConsts t px py Q.1 Q.2) s = .ok g s) :
    execPeEllMnt kind c f co p q s = .next (s.store c (t.tt.fld.coords (t.tt.fld.mul x g))) := by
  rw [execPeEllMnt, runUnit_withMnt h, runUnit_bind_of_ok (readElem_at hx), runUnit_bind_of_ok (readSlot_some hpx),
    runUnit_bind_of_ok (readSlot_some hpy), runUnit_bind_of_ok (readXY_at hQ), runUnit_bind_of_ok hg]
  rfl

/-- The line value of a doubling step's coefficients (43_pairing.md R304). -/
theorem readLineValue_doubling {co : Nat} {l : Line4 α} (hl : Pt4At s t.te.fld co ⟨l.cH, l.c4C, l.cJ, l.cL⟩)
    (k : MntConsts α) : readLineValue t .doubling co k s = .ok (mntLineDouble t.te.fld k l) s :=
  M.bind_of_ok (readPt4_at hl)

/-- The line value of an addition step's coefficients (43_pairing.md R304). -/
theorem readLineValue_addition {co : Nat} {l : Line2 α} (hl : XYAt s t.te.fld co (l.l1, l.rz)) (k : MntConsts α) :
    readLineValue t .addition co k s = .ok (mntLineAdd t.te.fld k l) s :=
  M.bind_of_ok (readXY_at hl)

/-- The pairing product, noting missing tables (43_pairing.md R264). -/
theorem multiPairMnt_of {w0 w1 : Nat} {w0Neg : Bool} (h0 : pe.w0 = some w0) (h1 : pe.w1 = some w1)
    (hneg : pe.w0Neg = some w0Neg) (ms : List (MillerPair α Unit)) : multiPairMnt t pe ms s =
      .ok (mntMultiPair t pe.x pe.xNeg w0 w1 w0Neg ms) (s.noted t.tt.valid) := by
  rw [multiPairMnt, M.bind_of_ok (getPEField_of h0), M.bind_of_ok (getPEField_of h1), M.bind_of_ok (getPEField_of hneg)]
  rfl

/-- An MNT engine stands in the state, of one of its two families. -/
theorem MntIs.engine (h : MntIs s α t pe) : s.pe = some pe ∧ (pe.family = .mnt4 ∨ pe.family = .mnt6) := by
  cases h with
  | mnt4 _ _ _ _ _ _ _ _ _ _ _ _ hpe hfam => exact ⟨hpe, .inl hfam⟩
  | mnt6 _ _ _ _ _ _ _ _ _ _ _ _ hpe hfam => exact ⟨hpe, .inr hfam⟩

/-- `PE.MULTI_PAIR` of an MNT engine runs in its tower (43_pairing.md R264). -/
theorem execPeMultiPair_mnt (h : MntIs s α t pe) (c pairs n : Nat) : execPeMultiPair c pairs n s =
    runUnit (do
      let ms ← readPairs t.te.fld pairs n
      let v ← multiPairMnt t pe ms
      writeElem t.tt.fld c v) s := by
  obtain ⟨hpe, hfam⟩ := h.engine
  rw [execPeMultiPair, runUnit_bind_of_ok (getPE_some hpe)]
  rcases hfam with hfam | hfam <;> rw [hfam] <;> exact runUnit_withMnt h _

end

/-- Settles O54: the operands are read whole in the engine's two fields, then the results are written. -/
theorem mntEngineSteps : Obligations.MntEngineSteps := by
  refine ⟨fun s α t pe r co src R h hR => ⟨_, _, rfl, ?_⟩, fun s α t pe r co src q R Q h hR hQ => ⟨_, _, rfl, ?_⟩,
    fun s α t pe co q c f p Q x px py h hQ hx hpx hpy =>
      ⟨fun l hl => execPeEllMnt_next h hQ hx hpx hpy (readLineValue_doubling hl _),
        fun l hl => execPeEllMnt_next h hQ hx hpx hpy (readLineValue_addition hl _)⟩⟩ <;>
    simp only [exec, execPeDoublingStepMnt, execPeAdditionStepMnt]
  · rw [runUnit_withMnt h, runUnit_bind_of_ok (readPt4_at hR)]
    rfl
  · rw [runUnit_withMnt h, runUnit_bind_of_ok (readPt4_at hR), runUnit_bind_of_ok (readXY_at hQ)]
    rfl

/-- Settles O55: the pairs are read, and each value is the engine's function of them and of its own fields. -/
theorem mntEngineLoops : Obligations.MntEngineLoops := by
  refine ⟨fun s α t pe c pairs ms h hms => ?_, fun s α t pe w0 w1 w0Neg c f x h h0 h1 hneg hx => ?_,
    fun s α t pe w0 w1 w0Neg c pairs ms h h0 h1 hneg hms => ?_⟩ <;>
    simp only [exec, execPeMillerLoopMnt, execPeFinalExpMnt]
  · rw [runUnit_withMnt h, runUnit_bind_of_ok (readPairs_at hms)]
    rfl
  · rw [runUnit_withMnt h, runUnit_bind_of_ok (getPEField_of h0), runUnit_bind_of_ok (getPEField_of h1),
      runUnit_bind_of_ok (getPEField_of hneg), runUnit_bind_of_ok (readElem_at hx)]
    rfl
  · rw [execPeMultiPair_mnt h, runUnit_bind_of_ok (readPairs_at hms), runUnit_bind_of_ok (multiPairMnt_of h0 h1 hneg ms),
      writeElem, runUnit_writeGroup, State.store_noted, mntMultiPair]

end Sys2Proof.Machine

/-! PROOF. One read of the tape (44_decoder.md R321; O17). -/

namespace Sys2Proof.Machine

/-- Byte `i` of a run of bytes is the byte at offset `i` from its start. -/
theorem Memory.readList_getD (m : Memory) : ∀ {n i : Nat} (a : Nat), i < n → (m.readList a n).getD i 0 = m.read (a + i)
  | n + 1, 0, a, _ => rfl
  | n + 1, i + 1, a, h => by
    rw [Memory.readList, List.getD_cons_succ, Memory.readList_getD m (a + 1) (Nat.lt_of_succ_lt_succ h), Nat.add_right_comm,
      Nat.add_assoc]

/-- Settles O17: the two cases of a read are those of its bound, and they exclude each other. -/
theorem tapeReadAllOrNothing : Obligations.TapeReadAllOrNothing := by
  intro s n
  rcases tapeRead_cases n s with ⟨hlen, hread⟩ | ⟨hlen, hread⟩
  · exact ⟨fun _ => hread, fun h => absurd hlen (Nat.not_lt.2 h)⟩
  · exact ⟨fun h => absurd h (Nat.not_lt.2 hlen),
      fun _ => ⟨_, hread, Memory.readList_length _ _ _, fun _ hi => Memory.readList_getD _ _ hi⟩⟩

end Sys2Proof.Machine

/-! PROOF. A call on a tape that is cut short (44_decoder.md R321; O60). A parse step sees the tape through its reads alone, so on
the front of a tape it does what it does on the whole tape, until a read passes the cut and raises `E_SHORT`. -/

namespace Sys2Proof.Machine

/-! ## What every step of a call keeps -/

/-- What the host presented and the port stand, and the free-value counter has not gone back. -/
structure Later (s t : State) : Prop where
  cfg : t.cfg = s.cfg
  inp : t.inp = s.inp
  port : t.port = s.port
  freeCtr : s.freeCtr ≤ t.freeCtr

theorem later_chain : CallChain Later where
  refl _ := ⟨rfl, rfl, rfl, le_rfl⟩
  trans h1 h2 := ⟨h2.cfg.trans h1.cfg, h2.inp.trans h1.inp, h2.port.trans h1.port, h1.freeCtr.trans h2.freeCtr⟩
  off _ _ _ := ⟨rfl, rfl, rfl, le_rfl⟩
  field _ _ := ⟨rfl, rfl, rfl, le_rfl⟩
  lq _ _ := ⟨rfl, rfl, rfl, le_rfl⟩
  pf _ _ := ⟨rfl, rfl, rfl, le_rfl⟩
  ex _ _ _ := ⟨rfl, rfl, rfl, le_rfl⟩
  cg _ g _ := by cases g <;> exact ⟨rfl, rfl, rfl, le_rfl⟩
  pe _ _ := ⟨rfl, rfl, rfl, le_rfl⟩
  flags _ _ := ⟨rfl, rfl, rfl, le_rfl⟩
  free _ := ⟨rfl, rfl, rfl, Nat.le_succ _⟩

/-- An error leaves what it would have left at the start, when the counter has not moved (60_exceptions.md R420). -/
theorem Later.raiseErr {s t : State} (h : Later s t) (hctr : t.freeCtr ≤ s.freeCtr) (e : Err) :
    t.raiseErr e = s.errorWith e := by
  simp only [State.raiseErr, State.errorWith, State.resetCall, h.cfg, h.inp, h.port, Nat.le_antisymm hctr h.freeCtr]

/-- The state a sequence of steps leaves, however it ends. -/
def leftState {α : Type} : EStateM.Result Stop State α → State
  | .ok _ t => t
  | .error _ t => t

theorem Along.left {R : State → State → Prop} {α : Type} {m : M α} (h : Along R m) (s : State) : R s (leftState (m s)) := by
  cases hm : m s with
  | ok a t => exact (h s).1 a t hm
  | error e t => exact (h s).2 e t hm

/-! ## Two tapes -/

/-- The same state with another input tape. -/
def State.onTape (s : State) (m : Memory) : State := { s with inp := m }

/-- `front` holds the first bytes of `whole`, and `b` is an offset from the end of `front` on and inside `whole`. -/
structure Memory.CutAt (front whole : Memory) (b : Nat) : Prop where
  le : front.len ≤ b
  lt : b < whole.len
  read : ∀ i, i < front.len → whole.read i = front.read i

theorem Memory.CutAt.readList {front whole : Memory} {b : Nat} (h : front.CutAt whole b) :
    ∀ {n a : Nat}, a + n ≤ front.len → whole.readList a n = front.readList a n
  | 0, _, _ => rfl
  | n + 1, a, ha => by
    rw [Memory.readList, Memory.readList, h.read a (by omega), h.readList (n := n) (a := a + 1) (by omega)]

/-- The first `n` bytes of a byte string, cut from a longer one. -/
theorem Memory.cutAt_take {bs extra : List Byte} {n b : Nat} (hn : n ≤ bs.length) (hb : n ≤ b)
    (hlt : b < (bs ++ extra).length) : (Memory.ofBytes (bs.take n)).CutAt (Memory.ofBytes (bs ++ extra)) b where
  le := by rwa [Memory.ofBytes_len, List.length_take_of_le hn]
  lt := by rwa [Memory.ofBytes_len]
  read i hi := by
    rw [Memory.ofBytes_len, List.length_take_of_le hn] at hi
    have hbs : i < bs.length := hi.trans_le hn
    simp only [Memory.ofBytes_read, List.getD_eq_getElem?_getD, List.getElem?_append_left hbs, List.getElem?_take_of_lt hi]

/-- How a run on the cut tape compares with the run on the whole one: it is out of bytes, or the whole run has ended with an error
where the cursor is not past `b`, or both go on with the same answer from the same state. -/
inductive CutRun (whole : Memory) (b : Nat) {α : Type} : EStateM.Result Stop State α → EStateM.Result Stop State α → Prop
  | short {t r} : t.freeCtr ≤ (leftState r).freeCtr → CutRun whole b (.error (.raise .short) t) r
  | stop {r e t} : t.cur.off ≤ b → CutRun whole b r (.error e t)
  | both {a t} : t.cur.off ≤ b → CutRun whole b (.ok a t) (.ok a (t.onTape whole))

/-- A step that sees the tape through its reads alone. -/
structure CutSafe {α : Type} (m : M α) : Prop where
  later : Along Later m
  cut : ∀ {s whole b}, s.inp.CutAt whole b → s.cur.off ≤ b → CutRun whole b (m s) (m (s.onTape whole))

/-- A call that sees the tape through its reads and `DEC.END` alone: on the whole tape it ends with an error at `b` or before it, or
on the cut tape it is out of bytes. -/
structure CutEnds {α : Type} (m : M α) : Prop where
  later : Along Later m
  cut : ∀ {s whole b}, s.inp.CutAt whole b → s.cur.off ≤ b →
    (∃ t, m s = .error (.raise .short) t ∧ t.freeCtr ≤ (leftState (m (s.onTape whole))).freeCtr) ∨
      ∃ e t, m (s.onTape whole) = .error e t ∧ t.cur.off ≤ b

section
variable {α β : Type}

/-- A step that ends in an error on the cut tape leaves a counter that no later step puts back. -/
theorem later_bind_left {k : α → M β} (hk : ∀ a, Along Later (k a)) {m : M α} (s : State) :
    (leftState (m s)).freeCtr ≤ (leftState ((m >>= k) s)).freeCtr := by
  rw [M.bind_apply]
  cases m s with
  | ok a t => exact ((hk a).left t).freeCtr
  | error e t => exact le_rfl

theorem CutSafe.bind {m : M α} {k : α → M β} (hm : CutSafe m) (hk : ∀ a, CutSafe (k a)) : CutSafe (m >>= k) where
  later := .bind later_chain.toChain hm.later fun a => (hk a).later
  cut {s whole b} hcut hoff := by
    have hleft := later_bind_left (fun a => (hk a).later) (m := m) (s.onTape whole)
    have hrun := hm.cut hcut hoff
    rw [M.bind_apply m k s]
    cases hr : m s with
    | error e t =>
      rw [hr] at hrun
      generalize hr' : m (s.onTape whole) = r' at hrun hleft
      cases hrun with
      | short h => exact .short (h.trans hleft)
      | stop h => rw [M.bind_of_error hr']; exact .stop h
    | ok a t =>
      rw [hr] at hrun
      generalize hr' : m (s.onTape whole) = r' at hrun
      cases hrun with
      | stop h => rw [M.bind_of_error hr']; exact .stop h
      | both h =>
        rw [M.bind_of_ok hr']
        exact (hk a).cut (by rwa [((hm.later s).1 a t hr).inp]) h

theorem CutEnds.bind {m : M α} {k : α → M β} (hm : CutSafe m) (hk : ∀ a, CutEnds (k a)) : CutEnds (m >>= k) where
  later := .bind later_chain.toChain hm.later fun a => (hk a).later
  cut {s whole b} hcut hoff := by
    have hleft := later_bind_left (fun a => (hk a).later) (m := m) (s.onTape whole)
    have hrun := hm.cut hcut hoff
    generalize hr : m s = r at hrun
    generalize hr' : m (s.onTape whole) = r' at hrun hleft
    cases hrun with
    | short h => exact .inl ⟨_, M.bind_of_error hr, h.trans hleft⟩
    | stop h => exact .inr ⟨_, _, M.bind_of_error hr', h⟩
    | both h =>
      rw [M.bind_of_ok hr, M.bind_of_ok hr']
      exact (hk _).cut (by rwa [((hm.later s).1 _ _ hr).inp]) h

/-- What follows the end of the input is not reached on the whole tape. -/
theorem CutEnds.andThen {m : M α} {k : α → M β} (hm : CutEnds m) (hk : ∀ a, Along Later (k a)) : CutEnds (m >>= k) where
  later := .bind later_chain.toChain hm.later hk
  cut {s whole b} hcut hoff := by
    rcases hm.cut hcut hoff with ⟨t, ht, hctr⟩ | ⟨e, t, ht, hb⟩
    · exact .inl ⟨t, M.bind_of_error ht, hctr.trans (later_bind_left hk _)⟩
    · exact .inr ⟨e, t, M.bind_of_error ht, hb⟩

/-- `DEC.END` before the end of the whole tape (44_decoder.md R356). -/
theorem CutEnds.decEnd : CutEnds Machine.decEnd where
  later := .decEnd later_chain
  cut {s whole b} hcut hoff := by
    have hne : ((s.onTape whole).cur.off == (s.onTape whole).inp.len) = false :=
      beq_false_of_ne (Nat.ne_of_lt (hoff.trans_lt hcut.lt))
    refine .inr ⟨.raise .trailing, s.onTape whole, ?_, hoff⟩
    rw [Machine.decEnd, M.bind_of_ok (look_apply _ _), require_not hne]

/-! ## The shared steps -/

/-- A step that does not look at the tape. -/
theorem CutSafe.of_blind {m : M α} (hm : Along Later m)
    (h : ∀ s whole, (∃ a t, m s = .ok a t ∧ m (s.onTape whole) = .ok a (t.onTape whole) ∧ t.cur.off = s.cur.off) ∨
      ∃ e t, m (s.onTape whole) = .error e t ∧ t.cur.off = s.cur.off) : CutSafe m where
  later := hm
  cut {s whole b} _ hoff := by
    rcases h s whole with ⟨a, t, h1, h2, ht⟩ | ⟨e, t, h2, ht⟩
    · rw [h1, h2]
      exact .both (ht.trans_le hoff)
    · rw [h2]
      exact .stop (ht.trans_le hoff)

theorem CutSafe.pure (a : α) : CutSafe (pure a : M α) :=
  .of_blind (.pure later_chain.toChain a) fun s _ => .inl ⟨a, s, rfl, rfl, rfl⟩

theorem CutSafe.require (ok : Bool) (e : Err) : CutSafe (Machine.require ok e) :=
  .of_blind (.require later_chain.toChain ok e) fun s _ => by
    cases ok with
    | true => exact .inl ⟨(), s, rfl, rfl, rfl⟩
    | false => exact .inr ⟨_, _, rfl, rfl⟩

theorem CutSafe.requireSome (o : Option α) (e : Err) : CutSafe (Machine.requireSome o e) :=
  .of_blind (.requireSome later_chain.toChain o e) fun s _ => by
    cases o with
    | some v => exact .inl ⟨v, s, rfl, rfl, rfl⟩
    | none => exact .inr ⟨_, _, rfl, rfl⟩

theorem CutSafe.look {f : State → α} (hf : ∀ s whole, f (s.onTape whole) = f s) : CutSafe (Machine.look f) :=
  .of_blind (.look later_chain.toChain f) fun s whole =>
    .inl ⟨f s, s, rfl, by rw [look_apply, hf], rfl⟩

theorem CutSafe.getSet (what : Item) {o : State → Option α} (ho : ∀ s whole, o (s.onTape whole) = o s) :
    CutSafe (Machine.getSet what o) :=
  .of_blind (.getSet later_chain.toChain what o) fun s whole => by
    cases h : o s with
    | some v => exact .inl ⟨v, s, getSet_some h, getSet_some ((ho s whole).trans h), rfl⟩
    | none => exact .inr ⟨_, _, getSet_none ((ho s whole).trans h), rfl⟩

theorem CutSafe.update {f : State → State} (hR : ∀ s, Later s (f s)) (hf : ∀ s whole, f (s.onTape whole) = (f s).onTape whole)
    (hoff : ∀ s, (f s).cur.off = s.cur.off) : CutSafe (Machine.update f) :=
  .of_blind (.update hR) fun s whole => .inl ⟨(), f s, rfl, by rw [update_apply, hf], hoff s⟩

theorem CutSafe.construct (what : Item) {present : State → Bool} {f : State → State} (hR : ∀ s, Later s (f s))
    (hp : ∀ s whole, present (s.onTape whole) = present s) (hf : ∀ s whole, f (s.onTape whole) = (f s).onTape whole)
    (hoff : ∀ s, (f s).cur.off = s.cur.off) : CutSafe (Machine.construct what present f) :=
  .of_blind (.construct later_chain.toChain fun s _ => hR s) fun s whole => by
    cases h : present s with
    | false => exact .inl ⟨(), f s, construct_new h, by rw [construct_new ((hp s whole).trans h), hf], hoff s⟩
    | true => exact .inr ⟨_, _, construct_frozen ((hp s whole).trans h), rfl⟩

theorem CutSafe.demandNoTable (l : Level) (e : ExtField) : CutSafe (Machine.demandNoTable l e) :=
  .of_blind (.demandNoTable later_chain.toChain l e) fun s whole => by
    unfold Machine.demandNoTable
    cases e.frobValid with
    | false => exact .inl ⟨(), s, rfl, rfl, rfl⟩
    | true => exact .inr ⟨_, _, rfl, rfl⟩

/-- A read of bytes the cut tape holds gives the same bytes on the whole tape; any other is the one that runs out. -/
theorem CutSafe.tapeRead (n : Nat) : CutSafe (Machine.tapeRead n) where
  later := .tapeRead later_chain n
  cut {s whole b} hcut hoff := by
    rcases tapeRead_cases n s with ⟨-, hread⟩ | ⟨hlen, hread⟩
    · rw [hread]
      exact .short ((Along.tapeRead later_chain n).left (s.onTape whole)).freeCtr
    · have hwhole : s.cur.off + n ≤ whole.len := hlen.trans (hcut.le.trans hcut.lt.le)
      have hbytes : whole.readBytes s.cur.off n = some (s.inp.readList s.cur.off n) := by
        rw [Memory.readBytes, if_pos hwhole, hcut.readList hlen]
      rw [hread, tapeRead_ok (s := s.onTape whole) hbytes]
      exact .both (hlen.trans hcut.le)

theorem CutSafe.setFlags (f : State → Flags) (hf : ∀ s whole, f (s.onTape whole) = f s) :
    CutSafe (Machine.update fun s => s.setFlags (f s)) :=
  .update (fun s => later_chain.flags s _) (fun s whole => by rw [hf]; rfl) fun _ => rfl

theorem CutSafe.getPF : CutSafe Machine.getPF := .getSet _ fun _ _ => rfl
theorem CutSafe.getEX (l : Level) : CutSafe (Machine.getEX l) := .getSet _ fun _ _ => rfl
theorem CutSafe.getCG (g : Group) : CutSafe (Machine.getCG g) := .getSet _ fun _ _ => by cases g <;> rfl
theorem CutSafe.getLp : CutSafe Machine.getLp := .getSet _ fun _ _ => rfl
theorem CutSafe.getLq : CutSafe Machine.getLq := .getSet _ fun _ _ => rfl
theorem CutSafe.getCurField : CutSafe Machine.getCurField := .bind (.getSet _ fun _ _ => rfl) fun _ => .getPF

theorem CutSafe.readByte : CutSafe Machine.readByte := .bind (.tapeRead 1) fun _ => .pure _

theorem CutSafe.readFlag : CutSafe Machine.readFlag := .bind .readByte fun _ => .bind (.require _ _) fun _ => .pure _

theorem CutSafe.newPF (mb : List Byte) : CutSafe (Machine.newPF mb) :=
  .bind (.require _ _) fun _ => .bind (.require _ _) fun _ => .bind (.require _ _) fun _ => .bind (.require _ _) fun _ =>
    .bind (.require _ _) fun _ => .bind (.require _ _) fun _ =>
    .construct _ (fun s => later_chain.pf s _) (fun _ _ => rfl) (fun _ _ => rfl) fun _ => rfl

theorem CutSafe.newEX (l : Level) (nr : List Nat) : CutSafe (Machine.newEX l nr) :=
  .construct _ (fun s => later_chain.ex s l _) (fun _ _ => rfl) (fun _ _ => rfl) fun _ => rfl

theorem CutSafe.newCG (g : Group) (c : CurveGroup) : CutSafe (Machine.newCG g c) :=
  .construct _ (fun s => later_chain.cg s g c) (fun _ _ => by cases g <;> rfl) (fun _ _ => by cases g <;> rfl)
    fun _ => by cases g <;> rfl

theorem CutSafe.twistCG2 (a b : List Nat) : CutSafe (Machine.twistCG2 a b) :=
  .bind (.getCG _) fun _ => .update (fun s => later_chain.cg s _ _) (fun _ _ => rfl) fun _ => rfl

theorem CutSafe.noteFree (v : Bool) : CutSafe (Machine.noteFree v) := by
  cases v with
  | true => exact .update (fun s => later_chain.refl s) (fun _ _ => rfl) fun _ => rfl
  | false => exact .update (fun s => later_chain.free s) (fun _ _ => rfl) fun _ => rfl

theorem CutSafe.writeTables (l : Level) (e : ExtField) (t : Option (List (List Nat) × List (List Nat))) :
    CutSafe (Machine.writeTables l e t) := by
  cases t with
  | none => exact .pure _
  | some tt => exact .bind (.update (fun s => later_chain.ex s l _) (fun _ _ => rfl) fun _ => rfl) fun _ => .pure _

theorem CutSafe.frobTables (l : Level) : CutSafe (Machine.frobTables l) := by
  refine .bind .getPF fun f => ?_
  cases l
  case fq6c | fq12 => exact .bind (.getEX _) fun _ => .bind (.getEX _) fun _ => .pure _
  all_goals exact .bind (.getEX _) fun _ => .pure _

theorem CutSafe.calcFrob (l : Level) : CutSafe (Machine.calcFrob l) :=
  .bind (.getEX _) fun _ => .bind (.demandNoTable _ _) fun _ => .bind (.frobTables _) fun _ => .bind (.writeTables _ _ _) fun _ =>
    .bind (.setFlags _ fun _ _ => rfl) fun _ => .pure _

theorem CutSafe.calcFrobPre (l : PreLevel) (f1 : E2) : CutSafe (Machine.calcFrobPre l f1) :=
  .bind .getPF fun _ => .bind (.look fun _ _ => rfl) fun _ => .bind (.getEX _) fun _ => .bind (.getEX _) fun _ =>
    .bind (.demandNoTable _ _) fun _ => .bind (.writeTables _ _ _) fun _ => .bind (.noteFree _) fun _ =>
    .bind (.setFlags _ fun _ _ => rfl) fun _ => .pure _

theorem CutSafe.getBnTower : CutSafe Machine.getBnTower :=
  .bind .getPF fun _ => .bind (.look fun _ _ => rfl) fun _ => .bind (.getEX _) fun _ => .bind (.getEX _) fun _ =>
    .bind (.getEX _) fun _ => .pure _

/-! ## The parse steps -/

theorem CutSafe.decBase : CutSafe Machine.decBase :=
  .bind .readByte fun _ => .bind (.require _ _) fun _ => .bind (.require _ _) fun _ => .bind (.tapeRead _) fun _ =>
    .bind (.newPF _) fun _ => .update (fun s => later_chain.field s _) (fun _ _ => rfl) fun _ => rfl

theorem CutSafe.decFE : CutSafe Machine.decFE :=
  .bind .getCurField fun _ => .bind .getLp fun _ => .bind (.tapeRead _) fun _ => .bind (.require _ _) fun _ => .pure _

theorem CutSafe.decFEs : ∀ n, CutSafe (Machine.decFEs n)
  | 0 => .pure _
  | n + 1 => .bind .decFE fun _ => .bind (CutSafe.decFEs n) fun _ => .pure _

theorem CutSafe.decElem (F : Fld α) : CutSafe (Machine.decElem F) := .bind (.decFEs _) fun _ => .pure _

theorem CutSafe.decOrder : CutSafe Machine.decOrder :=
  .bind .readByte fun _ => .bind (.require _ _) fun _ => .bind (.require _ _) fun _ => .bind (.tapeRead _) fun _ =>
    .bind (.require _ _) fun _ => .bind (.update (fun s => later_chain.lq s _) (fun _ _ => rfl) fun _ => rfl) fun _ => .pure _

theorem CutSafe.decCurve (F : Fld α) (g : Group) (field : FieldRef) : CutSafe (Machine.decCurve F g field) :=
  .bind (.decElem F) fun _ => .bind (.decElem F) fun _ => .bind .decOrder fun _ => .bind (.newCG _ _) fun _ => .pure _

theorem CutSafe.decExtHdr (allowed : List Nat) (n : Nat → Nat) : CutSafe (Machine.decExtHdr allowed n) :=
  .bind .readByte fun _ => .bind (.require _ _) fun _ => .bind .decFE fun _ => .bind .getPF fun _ => .bind (.require _ _) fun _ =>
    .bind (.setFlags _ fun _ _ => rfl) fun _ => .bind (.require _ _) fun _ => .bind (.newEX _ _) fun _ => .pure _

theorem CutSafe.decPoint (F : Fld α) (c : CurveGroup) : CutSafe (Machine.decPoint F c) := by
  refine .bind (.decElem F) fun x => .bind (.decElem F) fun y => ?_
  split
  · exact .pure _
  · exact .bind (.setFlags _ fun _ _ => rfl) fun _ => .bind (.require _ _) fun _ => .pure _

theorem CutSafe.decScalar (c : CurveGroup) : CutSafe (Machine.decScalar c) :=
  .bind .getLq fun _ => .bind (.tapeRead _) fun _ => .bind (.require _ _) fun _ => .pure _

theorem CutSafe.decXi : CutSafe Machine.decXi :=
  .bind .getPF fun _ => .bind (.getEX _) fun _ => .bind (.decElem _) fun _ => .bind (.require _ _) fun _ =>
    .bind (.require _ _) fun _ => .bind (.require _ _) fun _ => .pure _

theorem CutSafe.twistMultiplier (F2 : Fld E2) (t : Twist) (xi : E2) : CutSafe (Machine.twistMultiplier F2 t xi) := by
  cases t with
  | m => exact .pure _
  | d => exact .bind (.setFlags _ fun _ _ => rfl) fun _ => .bind (.require _ _) fun _ => .pure _

theorem CutSafe.decTwist (xi : E2) : CutSafe (Machine.decTwist xi) :=
  .bind .getPF fun _ => .bind (.getEX _) fun _ => .bind .readByte fun _ => .bind (.requireSome _ _) fun _ =>
    .bind (.getCG _) fun _ => .bind (.newCG _ _) fun _ => .bind (.twistMultiplier _ _ _) fun _ => .bind (.twistCG2 _ _) fun _ =>
    .pure _

theorem CutSafe.decTower (xi : E2) : CutSafe (Machine.decTower xi) :=
  .bind .getPF fun _ => .bind (.getEX _) fun _ => .bind (.calcFrob _) fun _ => .bind (.require _ _) fun _ =>
    .bind (.require _ _) fun _ => .bind (.newEX _ _) fun _ => .bind (.calcFrobPre _ _) fun _ => .bind (.require _ _) fun _ =>
    .bind (.newEX _ _) fun _ => .bind (.calcFrobPre _ _) fun _ => .require _ _

theorem CutSafe.decLoop : CutSafe Machine.decLoop :=
  .bind .readByte fun _ => .bind (.require _ _) fun _ => .bind (.tapeRead _) fun _ => .bind (.require _ _) fun _ =>
    .bind (.require _ _) fun _ => .pure _

theorem CutSafe.decCount : CutSafe Machine.decCount := .bind .readByte fun _ => .bind (.require _ _) fun _ => .pure _

theorem CutSafe.checkSubgroup (F : Fld α) (c : CurveGroup) (wanted : Bool) (p : Pt α) :
    CutSafe (Machine.checkSubgroup F c wanted p) := by
  cases wanted with
  | true => exact .bind (.setFlags _ fun _ _ => rfl) fun _ => .require _ _
  | false => exact .pure _

theorem CutSafe.decPair (F1 : Fld Nat) (c1 : CurveGroup) (F : Fld α) (c2 : CurveGroup) : CutSafe (Machine.decPair F1 c1 F c2) :=
  .bind .readFlag fun _ => .bind (.setFlags _ fun _ _ => rfl) fun _ => .bind (.decPoint _ _) fun _ =>
    .bind (.checkSubgroup _ _ _ _) fun _ => .bind .readFlag fun _ => .bind (.setFlags _ fun _ _ => rfl) fun _ =>
    .bind (.decPoint _ _) fun _ => .bind (.checkSubgroup _ _ _ _) fun _ => .bind (.setFlags _ fun _ _ => rfl) fun _ => .pure _

theorem CutSafe.decPairs (F1 : Fld Nat) (c1 : CurveGroup) (F : Fld α) (c2 : CurveGroup) :
    ∀ n, CutSafe (Machine.decPairs F1 c1 F c2 n)
  | 0 => .pure _
  | n + 1 => .bind (.decPair _ _ _ _) fun _ => .bind (CutSafe.decPairs F1 c1 F c2 n) fun _ => .pure _

theorem CutSafe.decEntries (F : Fld α) (c : CurveGroup) : ∀ n, CutSafe (Machine.decEntries F c n)
  | 0 => .pure _
  | n + 1 => .bind (.decPoint _ _) fun _ => .bind (.decScalar _) fun _ => .bind (CutSafe.decEntries F c n) fun _ => .pure _

theorem CutSafe.decMexpList (F : Fld α) (c : CurveGroup) : CutSafe (Machine.decMexpList F c) :=
  .bind .decCount fun _ => .decEntries _ _ _

theorem CutSafe.decMntTwist (F : Fld α) (l : Level) : CutSafe (Machine.decMntTwist F l) :=
  .bind .getPF fun _ => .bind (.getCG _) fun _ => .bind (.newCG _ _) fun _ => .twistCG2 _ _

theorem CutSafe.decMntTower (F : Fld α) (l t : Level) : CutSafe (Machine.decMntTower F l t) :=
  .bind .getPF fun _ => .bind (.calcFrob _) fun _ => .bind (.require _ _) fun _ => .bind (.newEX _ _) fun _ =>
    .bind (.calcFrob _) fun _ => .require _ _

theorem CutSafe.decG1 : CutSafe Machine.decG1 :=
  .bind .decBase fun _ => .bind .getPF fun _ => .bind (.decCurve _ _ _) fun _ => .bind (.getCG _) fun _ => .pure _

theorem CutSafe.decG2 (F : Fld α) (d : Nat) : CutSafe (Machine.decG2 F d) := .bind (.decCurve F _ _) fun _ => .getCG _

theorem CutSafe.decMntLoops : CutSafe Machine.decMntLoops :=
  .bind .decLoop fun _ => .bind .readFlag fun _ => .bind .decLoop fun _ => .bind .decLoop fun _ => .bind .readFlag fun _ => .pure _

/-! ## The calls -/

theorem CutEnds.callAdd (F : Fld α) (c : CurveGroup) : CutEnds (Machine.callAdd F c) :=
  .bind (.decPoint F c) fun _ => .bind (.decPoint F c) fun _ => .andThen .decEnd fun _ => .pointBytes later_chain F _

theorem CutEnds.callMul (F : Fld α) (c : CurveGroup) : CutEnds (Machine.callMul F c) :=
  .bind (.decPoint F c) fun _ => .bind (.decScalar c) fun _ => .andThen .decEnd fun _ => .pointBytes later_chain F _

theorem CutEnds.callMexp (F : Fld α) (c : CurveGroup) : CutEnds (Machine.callMexp F c) :=
  .bind (.decMexpList F c) fun _ => .andThen .decEnd fun _ =>
    .bind later_chain.toChain (.multiExp later_chain F _ _ _ _) fun _ => .pointBytes later_chain F _

theorem CutEnds.g1Body {k : PrimeField × CurveGroup → M (List Byte)} (hk : ∀ fc, CutEnds (k fc)) :
    CutEnds (do
      let fc ← Machine.decG1
      k fc) :=
  .bind .decG1 hk

theorem CutEnds.g2Body {k : {α : Type} → Fld α → CurveGroup → M (List Byte)}
    (hk : ∀ {α : Type} (F : Fld α) (c : CurveGroup), CutEnds (k F c)) :
    CutEnds (do
      Machine.decBase
      let d ← Machine.decExtHdr [2, 3] (fun d => d)
      Machine.withDegree d (fun F => do
        let c ← Machine.decG2 F d
        k F c)) := by
  refine .bind .decBase fun _ => .bind (.decExtHdr _ _) fun d => .bind .getPF fun f => ?_
  split <;> exact .bind (.getEX _) fun _ => .bind (.decG2 _ d) fun c => hk _ c

theorem CutEnds.callTwisted (isBn : Bool) : CutEnds (Machine.callTwisted isBn) := by
  refine .bind .decG1 fun fc => .bind (.decExtHdr _ _) fun _ => .bind .decXi fun xi => .bind (.decTwist xi) fun tw =>
    .bind (.decTower xi) fun _ => .bind .decLoop fun x => .bind .readFlag fun neg => ?_
  cases isBn
  case' true => refine .bind (.require _ _) fun _ => ?_
  all_goals
    exact .bind .decCount fun n => .bind .getBnTower fun _ => .bind (.getCG _) fun _ => .bind (.decPairs _ _ _ _ n) fun _ =>
      .andThen .decEnd fun _ => .bind later_chain.toChain (.newPE later_chain _ _ _ _ _ _ _) fun _ =>
      .bind later_chain.toChain (.getPE later_chain.toChain) fun _ =>
      .bind later_chain.toChain (.multiPairBn later_chain _ _ _ _) fun _ => .pairingResult later_chain _

theorem CutEnds.decMntCall (f : PrimeField) (c1 : CurveGroup) (F : Fld α) (l target : Level) (family : Family) :
    CutEnds (Machine.decMntCall f c1 F l target family) :=
  .bind (.decMntTwist F l) fun _ => .bind (.decMntTower F l target) fun _ => .bind .decMntLoops fun _ => .bind .decCount fun n =>
    .bind (.getCG _) fun _ => .bind (.decPairs _ _ _ _ n) fun _ => .andThen .decEnd fun _ =>
    .bind later_chain.toChain (.newPE later_chain _ _ _ _ _ _ _) fun _ => .pure later_chain.toChain _

theorem CutEnds.mnt4Body : CutEnds Machine.mnt4Body :=
  .bind .decG1 fun _ => .bind (.decExtHdr _ _) fun _ => .bind (.getEX _) fun _ => .andThen (.decMntCall _ _ _ _ _ _) fun _ =>
    .bind later_chain.toChain (.getPE later_chain.toChain) fun _ =>
    .bind later_chain.toChain (.getMnt4Tower later_chain.toChain _) fun _ =>
    .bind later_chain.toChain (.multiPairMnt later_chain _ _ _) fun _ => .pairingResult later_chain _

theorem CutEnds.mnt6Body : CutEnds Machine.mnt6Body :=
  .bind .decG1 fun _ => .bind (.decExtHdr _ _) fun _ => .bind (.getEX _) fun _ => .andThen (.decMntCall _ _ _ _ _ _) fun _ =>
    .bind later_chain.toChain (.getPE later_chain.toChain) fun _ =>
    .bind later_chain.toChain (.getMnt6Tower later_chain.toChain _) fun _ =>
    .bind later_chain.toChain (.multiPairMnt later_chain _ _ _) fun _ => .pairingResult later_chain _

/-- A call whose run on the whole tape gets past the cut before it ends with an error ends with `E_SHORT` on the cut tape. -/
theorem CutEnds.runCall_short {m : M (List Byte)} (hm : CutEnds m) {s t : State} {whole : Memory} {b : Nat} {e : Stop}
    (hcut : s.inp.CutAt whole b) (hoff : s.cur.off ≤ b) (hwhole : m (s.onTape whole) = .error e t) (hpast : b < t.cur.off)
    (hctr : t.freeCtr = s.freeCtr) : runCall m s = .next (s.errorWith .short) := by
  rcases hm.cut hcut hoff with ⟨u, hu, hfree⟩ | ⟨e', u, hu, hb⟩
  · rw [hwhole, leftState, hctr] at hfree
    rw [runCall_raise hu, ((hm.later s).2 _ u hu).raiseErr hfree]
  · rw [hwhole] at hu
    cases hu
    exact absurd hb (Nat.not_le.2 hpast)

end

end Sys2Proof.Machine

/-! PROOF. The parse of a call that passes its checks (44_decoder.md R330 to R356; O60): what each step takes off the tape, answers
and leaves, put together field by field in the order of the format. -/

namespace Sys2Proof.Machine

/-! ## Parsing -/

/-- `s` is `s0` with its cursor and its flags elsewhere, and `bs` is what is left to read. -/
structure Reading (s0 : State) (bs : List Byte) (s : State) : Prop where
  state : ∃ o g, s = (s0.setOff o).setFlags g
  unread : Unread s bs

/-- From `s0`, `m` takes the bytes `xs`, whatever bytes follow, answers `v` and leaves `s1`. -/
structure Parses {α : Type} (s0 : State) (xs : List Byte) (m : M α) (v : α) (s1 : State) : Prop where
  frame : s1.resetCall = s0.resetCall
  run : ∀ {rest s}, Reading s0 (xs ++ rest) s → ∃ t, m s = .ok v t ∧ Reading s1 rest t

/-- From `s0`, `m` takes the bytes `xs` and ends with `E_TRAILING` when bytes follow them. -/
def Trails {α : Type} (s0 : State) (xs : List Byte) (m : M α) : Prop :=
  ∀ ⦃extra s⦄, extra ≠ [] → Reading s0 (xs ++ extra) s →
    ∃ t, m s = .error (.raise .trailing) t ∧ Unread t extra ∧ t.resetCall = s0.resetCall

section
variable {α β : Type} {s0 s1 s2 s : State} {xs ys bs : List Byte} {v : α} {w : β} {m : M α} {k : α → M β} {f : PrimeField}

theorem Reading.ready (h : Reading s0 bs s) (hr : Ready s0 f) : Ready s f := by
  obtain ⟨o, g, rfl⟩ := h.state
  exact (hr.setOff o).setFlags g

theorem Reading.setOff (h : Reading s0 bs s) {o : Nat} (hu : Unread (s.setOff o) ys) : Reading s0 ys (s.setOff o) := by
  obtain ⟨o', g, rfl⟩ := h.state
  exact ⟨⟨o, g, rfl⟩, hu⟩

theorem Reading.parseFrame {t : State} (h : Reading s0 bs s) (hf : ParseFrame s t) (hu : Unread t ys) : Reading s0 ys t := by
  obtain ⟨o, g, rfl⟩ := h.state
  exact ⟨⟨_, _, hf⟩, hu⟩

theorem Parses.bind (hm : Parses s0 xs m v s1) (hk : Parses s1 ys (k v) w s2) : Parses s0 (xs ++ ys) (m >>= k) w s2 where
  frame := hk.frame.trans hm.frame
  run {rest s} h := by
    rw [List.append_assoc] at h
    obtain ⟨t, hmt, ht⟩ := hm.run h
    rw [M.bind_of_ok hmt]
    exact hk.run ht

/-- A first step that reads nothing. -/
theorem Parses.silentBind (hm : Parses s0 [] m v s1) (hk : Parses s1 xs (k v) w s2) : Parses s0 xs (m >>= k) w s2 :=
  Parses.bind hm hk

/-- Last steps that read nothing. -/
theorem Parses.bindSilent (hm : Parses s0 xs m v s1) (hk : Parses s1 [] (k v) w s2) : Parses s0 xs (m >>= k) w s2 := by
  have h := Parses.bind hm hk
  rwa [List.append_nil] at h

theorem Trails.bind (hm : Parses s0 xs m v s1) (hk : Trails s1 ys (k v)) : Trails s0 (xs ++ ys) (m >>= k) := by
  intro extra s hne h
  rw [List.append_assoc] at h
  obtain ⟨t, hmt, ht⟩ := hm.run h
  rw [M.bind_of_ok hmt, ← hm.frame]
  exact hk hne ht

theorem Trails.silentBind (hm : Parses s0 [] m v s1) (hk : Trails s1 xs (k v)) : Trails s0 xs (m >>= k) := Trails.bind hm hk

theorem Trails.bindSilent (hm : Parses s0 xs m v s1) (hk : Trails s1 [] (k v)) : Trails s0 xs (m >>= k) := by
  have h := Trails.bind hm hk
  rwa [List.append_nil] at h

/-- What follows the end of the input is not reached. -/
theorem Trails.andThen (hm : Trails s0 xs m) : Trails s0 xs (m >>= k) := by
  intro extra s hne h
  obtain ⟨t, ht, hu, hframe⟩ := hm hne h
  exact ⟨t, M.bind_of_error ht, hu, hframe⟩

/-- `DEC.END` with bytes left (44_decoder.md R356). -/
theorem Trails.decEnd : Trails s0 [] Machine.decEnd := by
  rintro (_ | ⟨b, extra⟩) s hne h
  · exact absurd rfl hne
  · obtain ⟨o, g, rfl⟩ := h.state
    exact ⟨_, decEnd_trailing h.unread, h.unread, rfl⟩

/-! ### Steps that read nothing -/

/-- The reset of a call keeps the tape (10_state.md R45). -/
theorem inp_of_resetCall_eq (h : s1.resetCall = s0.resetCall) : s1.inp = s0.inp := by
  rw [← State.resetCall_inp s1, h, State.resetCall_inp]

/-- A step that looks at neither the cursor nor the flags. -/
theorem Parses.silent (hframe : s1.resetCall = s0.resetCall)
    (h : ∀ o g, ∃ g', m ((s0.setOff o).setFlags g) = .ok v ((s1.setOff o).setFlags g')) : Parses s0 [] m v s1 where
  frame := hframe
  run {rest s} hs := by
    obtain ⟨o, g, rfl⟩ := hs.state
    obtain ⟨g', hm⟩ := h o g
    exact ⟨_, hm, ⟨o, g', rfl⟩, hs.unread.congr (inp_of_resetCall_eq hframe) rfl⟩

theorem Parses.pure (v : α) : Parses s0 [] (pure v : M α) v s0 := .silent rfl fun _ g => ⟨g, rfl⟩

theorem Parses.require {ok : Bool} (h : ok = true) (e : Err) : Parses s0 [] (Machine.require ok e) () s0 :=
  .silent rfl fun _ g => ⟨g, require_of h _ _⟩

theorem Parses.setFlags (f : State → Flags) : Parses s0 [] (update fun s => s.setFlags (f s)) () s0 :=
  .silent rfl fun _ _ => ⟨_, rfl⟩

theorem Parses.getPF (h : s0.pf = some f) : Parses s0 [] Machine.getPF f s0 := .silent rfl fun _ g => ⟨g, getPF_some h⟩

theorem Parses.getEX {l : Level} {e : ExtField} (h : s0.ex.get l = some e) : Parses s0 [] (Machine.getEX l) e s0 :=
  .silent rfl fun _ g => ⟨g, getEX_some h⟩

theorem Parses.getCG {g : Group} {c : CurveGroup} (h : s0.cg g = some c) : Parses s0 [] (Machine.getCG g) c s0 :=
  .silent rfl fun _ fl => ⟨fl, getCG_some (by cases g <;> exact h)⟩

theorem Parses.newEX {l : Level} (nr : List Nat) (h : s0.ex.get l = none) :
    Parses s0 [] (Machine.newEX l nr) () (s0.setEX l (freshLevel l nr)) :=
  .silent rfl fun _ g => ⟨g, newEX_new h⟩

theorem Parses.newCG {g : Group} (c : CurveGroup) (h : s0.cg g = none) : Parses s0 [] (Machine.newCG g c) () (s0.setCG g c) :=
  .silent (by cases g <;> rfl) fun _ fl => ⟨fl, by cases g <;> exact newCG_new h⟩

/-- The twist write (10_state.md R35). -/
theorem Parses.twistCG2 {c : CurveGroup} (a b : List Nat) (h : s0.cg2 = some c) :
    Parses s0 [] (Machine.twistCG2 a b) () (s0.setCG .g2 { c with a := a, b := b }) :=
  .silent rfl fun _ g => ⟨g, twistCG2_apply a b h⟩

/-- `CALC_FROB` where every division is exact (41_extension_tower.md R177). -/
theorem Parses.calcFrob {l : Level} {nr : List Nat} {tt : List (List Nat) × List (List Nat)}
    (he : s0.ex.get l = some (freshLevel l nr)) (ht : ∀ o g, TablesOf ((s0.setOff o).setFlags g) l (some tt)) :
    Parses s0 [] (Machine.calcFrob l) true (s0.setEX l (tabledLevel l nr (some tt))) :=
  .silent rfl fun o g => ⟨_, calcFrob_ok (s := (s0.setOff o).setFlags g) he rfl (ht o g)⟩

/-- `CALC_FROB_PRE` where 6 divides `p - 1` (41_extension_tower.md R179). -/
theorem Parses.calcFrobPre {e2 : ExtField} {l : PreLevel} {nr : List Nat} {tt : List (List Nat) × List (List Nat)} {f1 : E2}
    (hf : s0.pf = some f) (h2 : s0.ex.fq2 = some e2) (hvalid : e2.frobValid = true)
    (he : s0.ex.get (preLevelLevel l) = some (freshLevel (preLevelLevel l) nr))
    (ht : preTablesOf (towFq2 f s0.freeCtr e2) f.p l f1 = some tt) :
    Parses s0 [] (Machine.calcFrobPre l f1) true (s0.setEX (preLevelLevel l) (tabledLevel (preLevelLevel l) nr (some tt))) :=
  .silent rfl fun o g => ⟨{ g with frobOk := some true }, by
    rw [calcFrobPre_ok (s := (s0.setOff o).setFlags g) hf h2 he rfl f1]
    change EStateM.Result.ok (preTablesOf (towFq2 f s0.freeCtr e2) f.p l f1).isSome _ = _
    rw [State.setFlags_freeCtr, State.setOff_freeCtr, ht, hvalid]
    rfl⟩

/-! ### Bytes and elements -/

theorem Parses.readByte {n : Nat} (hn : n < 256) : Parses s0 [byteOf n] Machine.readByte n s0 where
  frame := rfl
  run h := ⟨_, (readByte_byteOf hn h.unread).1, h.setOff (readByte_byteOf hn h.unread).2⟩

theorem Parses.tapeRead (xs : List Byte) : Parses s0 xs (Machine.tapeRead xs.length) xs s0 where
  frame := rfl
  run h := ⟨_, (tapeRead_unread h.unread rfl).1, h.setOff (tapeRead_unread h.unread rfl).2⟩

theorem Parses.readFlag {n : Nat} (hn : n ≤ 1) : Parses s0 [byteOf n] Machine.readFlag (n == 1) s0 where
  frame := rfl
  run h := ⟨_, (readFlag_unread hn h.unread).1, h.setOff (readFlag_unread hn h.unread).2⟩

theorem Parses.decFE {x : Nat} (hr : Ready s0 f) (hx : x < f.p) : Parses s0 (natToBytes x f.lp) Machine.decFE (f.toMont x) s0 where
  frame := rfl
  run h := ⟨_, (decFE_ok (h.ready hr) hx h.unread).1, h.setOff (decFE_ok (h.ready hr) hx h.unread).2⟩

theorem Parses.decElem {F : Fld α} {x : List Nat} (hr : Ready s0 f) (hx : elementFits f.p F.deg x = true) :
    Parses s0 (elementBytes f.lp x) (Machine.decElem F) (elemOf f F x) s0 where
  frame := rfl
  run h := ⟨_, (decElem_ok (h.ready hr) hx h.unread).1, h.setOff (decElem_ok (h.ready hr) hx h.unread).2⟩

theorem Parses.decBase {mb : List Byte} (hm : modulusFits mb = true) (hp : s0.pf = none) :
    Parses s0 (prefixedBytes mb) Machine.decBase () ((s0.setPF (callField mb)).setField mb.length) where
  frame := rfl
  run {rest s} h := by
    obtain ⟨o, g, rfl⟩ := h.state
    obtain ⟨hrun, hu⟩ := decBase_ok (s := (s0.setOff o).setFlags g) hm hp h.unread
    exact ⟨_, hrun, ⟨o + 1 + mb.length, g, rfl⟩, hu⟩

theorem Parses.decCurve {F : Fld α} {g : Group} {field : FieldRef} {c : CurveFields} (hr : Ready s0 f)
    (hc : curveFits f.p F.deg c = true) (hg : s0.cg g = none) :
    Parses s0 (curveBytes f.lp c) (Machine.decCurve F g field) c.ord
      ((s0.setLq c.ord.length).setCG g (groupOf f F field c)) where
  frame := by cases g <;> rfl
  run {rest s} h := by
    have hready := h.ready hr
    obtain ⟨o, fl, rfl⟩ := h.state
    have hnew : ((s0.setOff o).setFlags fl).cg g = none := by cases g <;> exact hg
    obtain ⟨hrun, hu⟩ := decCurve_ok (field := field) hready hc hnew h.unread
    exact ⟨_, hrun, ⟨curveEnd o F.deg f.lp c.ord.length, fl, by cases g <;> rfl⟩, hu⟩

theorem Parses.decScalar {c : CurveGroup} {cf : CurveFields} {e : Nat} (hl : s0.cur.lq = some cf.ord.length)
    (hc : c.q = bytesToNat cf.ord) (he : firstError (scalarChecks cf e) = none) :
    Parses s0 (scalarBytes cf e) (Machine.decScalar c) e s0 where
  frame := rfl
  run {rest s} h := by
    have hlt : e < c.q := by
      rw [hc]
      simpa [scalarChecks, firstError_none_iff] using he
    have hfit : c.q ≤ 256 ^ cf.ord.length := hc.le.trans (bytesToNat_lt _).le
    have hls : s.cur.lq = some cf.ord.length := by
      obtain ⟨o, g, rfl⟩ := h.state
      exact hl
    obtain ⟨hrun, hu⟩ := decScalar_ok hls hlt hfit h.unread
    exact ⟨_, hrun, h.setOff hu⟩

theorem Parses.decCount {n : Nat} (hw : byteFits n = true) (hn : firstError (countChecks n) = none) :
    Parses s0 [byteOf n] Machine.decCount n s0 where
  frame := rfl
  run h := by
    have hfits : countFits n = true := by
      simp only [byteFits, decide_eq_true_eq] at hw
      simp only [countChecks, firstError_none_iff, List.mem_singleton, forall_eq, bne_iff_ne] at hn
      simp only [countFits, Bool.and_eq_true, decide_eq_true_eq]
      omega
    exact ⟨_, (decCount_ok hfits h.unread).1, h.setOff (decCount_ok hfits h.unread).2⟩

/-- `DEC.LOOP`, `DEC.W0`, `DEC.W1` (44_decoder.md R346, R353). -/
theorem Parses.decLoop {bs : List Byte} (hw : prefixFits bs = true) (hc : firstError (loopChecks bs) = none) :
    Parses s0 (prefixedBytes bs) Machine.decLoop (bytesToNat bs) s0 := by
  simp only [prefixFits, decide_eq_true_eq] at hw
  simp only [loopChecks, firstError_none_iff, List.forall_mem_cons, List.not_mem_nil, false_implies, implies_true, and_true] at hc
  obtain ⟨hlen, hhead, hbits⟩ := hc
  exact .bind (ys := bs) (.readByte (by omega)) <| .silentBind (.require hlen _) <| .bindSilent (.tapeRead bs) <|
    .silentBind (.require hhead _) <| .silentBind (.require hbits _) <| .pure _

end

/-! ## Points, pairs and lists -/

section
variable {α : Type} {s0 : State} {f : PrimeField} {F : Fld α} {lp : Nat}

theorem elementFits_of_checks {d : Nat} {v : List Nat} (hw : elementWidth lp d v = true) (hc : firstError (elemChecks f v) = none) :
    elementFits f.p d v = true := by
  rw [elementFits, (Bool.and_eq_true_iff.1 hw).1, (firstError_elem_none f v).1 hc]
  rfl

theorem curveFits_of_checks {d : Nat} {c : CurveFields} (hw : curveWidth lp d c = true) (hc : firstError (curveChecks f c) = none) :
    curveFits f.p d c = true := by
  simp only [curveWidth, Bool.and_eq_true] at hw
  simp only [curveChecks, firstError_append_none, firstError_order_none] at hc
  obtain ⟨⟨ha, hb⟩, -⟩ := hw
  obtain ⟨⟨hca, hcb⟩, hord⟩ := hc
  rw [curveFits, elementFits_of_checks ha hca, elementFits_of_checks hb hcb, hord]
  rfl

/-- `DEC.POINT(g)` (44_decoder.md R342). -/
theorem Parses.decPoint {c : CurveGroup} {pt : PointFields} (hr : Ready s0 f) (hw : pointWidth lp F.deg pt = true)
    (hc : firstError (pointChecks f F (F.ofCoords c.a) (F.ofCoords c.b) pt) = none) :
    Parses s0 (pointFieldBytes f.lp pt) (Machine.decPoint F c) (pointOf f F pt) s0 where
  frame := rfl
  run {rest s} h := by
    obtain ⟨hx, hy⟩ := Bool.and_eq_true_iff.1 hw
    simp only [pointChecks, firstError_append_none] at hc
    obtain ⟨⟨hcx, hcy⟩, hon⟩ := hc
    have hfits : pointFits f.p F.deg pt = true := by
      rw [pointFits, elementFits_of_checks hx hcx, elementFits_of_checks hy hcy]
      rfl
    obtain ⟨t, hrun, hu, hframe⟩ := decPoint_ok (h.ready hr) hfits (by simpa [firstError_none_iff] using hon) h.unread
    exact ⟨t, hrun, h.parseFrame hframe hu⟩

/-- A subgroup check that is not asked for, or holds (44_decoder.md R350). -/
theorem Parses.checkSubgroup {c : CurveGroup} {wanted : Bool} {p : Pt α}
    (h : wanted = true → ptSubgroupCheck F (F.ofCoords c.a) c.q p = true) :
    Parses s0 [] (Machine.checkSubgroup F c wanted p) () s0 := by
  cases wanted with
  | true => exact .silentBind (.setFlags _) (.require (h rfl) _)
  | false => exact .pure ()

theorem subgroup_of_check {n : Nat} {ok : Bool} {e : Err} (h : firstError [(n == 0 || ok, e)] = none) (hn : (n == 1) = true) :
    ok = true := by
  rw [beq_iff_eq.1 hn] at h
  simpa [firstError_none_iff] using h

theorem flag_of_checks {n : Nat} (h : firstError (flagChecks n) = none) : n ≤ 1 := by
  simpa [flagChecks, firstError_none_iff] using h

/-- One pair (44_decoder.md R350). -/
theorem Parses.decPair {c1 c2 : CurveGroup} {pr : PairFields} (hr : Ready s0 f)
    (hw1 : pointWidth lp (fpFld f).deg pr.p = true) (hw2 : pointWidth lp F.deg pr.q = true)
    (hc : firstError (pairChecks f c1 F c2 pr) = none) :
    Parses s0 (pairBytes f.lp pr) (Machine.decPair (fpFld f) c1 F c2) (pairOf f F pr) s0 := by
  simp only [pairChecks, firstError_append_none] at hc
  obtain ⟨⟨⟨⟨⟨hflag1, hp⟩, hsub1⟩, hflag2⟩, hq⟩, hsub2⟩ := hc
  exact .bind (xs := [_]) (.readFlag (flag_of_checks hflag1)) <| .silentBind (.setFlags _) <| .bind (.decPoint hr hw1 hp) <|
    .silentBind (.checkSubgroup (subgroup_of_check hsub1)) <|
    .bind (xs := [_]) (.readFlag (flag_of_checks hflag2)) <| .silentBind (.setFlags _) <| .bindSilent (.decPoint hr hw2 hq) <|
    .silentBind (.checkSubgroup (subgroup_of_check hsub2)) <| .silentBind (.setFlags _) <| .pure _

theorem pairsOf_cons (pr : PairFields) (prs : List PairFields) :
    pairsOf f F (pr :: prs) = (pairOf f F pr).toList ++ pairsOf f F prs := by
  rw [pairsOf, List.filterMap_cons]
  cases pairOf f F pr <;> rfl

theorem Parses.decPairs {c1 c2 : CurveGroup} (hr : Ready s0 f) : ∀ {prs : List PairFields},
    (∀ pr ∈ prs, pointWidth lp (fpFld f).deg pr.p = true ∧ pointWidth lp F.deg pr.q = true
      ∧ firstError (pairChecks f c1 F c2 pr) = none) →
    Parses s0 (prs.flatMap (pairBytes f.lp)) (Machine.decPairs (fpFld f) c1 F c2 prs.length) (pairsOf f F prs) s0
  | [], _ => .pure _
  | pr :: prs, h => by
    obtain ⟨⟨hw1, hw2, hc⟩, hrest⟩ := List.forall_mem_cons.1 h
    rw [List.flatMap_cons, pairsOf_cons]
    exact .bind (.decPair hr hw1 hw2 hc) <| .bindSilent (Parses.decPairs hr hrest) <| .pure _

/-- The entries of a multi-exponentiation (44_decoder.md R355). -/
theorem Parses.decEntries {c : CurveGroup} {cf : CurveFields} (hr : Ready s0 f) (hl : s0.cur.lq = some cf.ord.length)
    (hq : c.q = bytesToNat cf.ord) : ∀ {list : List (PointFields × Nat)},
    (∀ pe ∈ list, pointWidth lp F.deg pe.1 = true
      ∧ firstError (pointChecks f F (F.ofCoords c.a) (F.ofCoords c.b) pe.1) = none ∧ firstError (scalarChecks cf pe.2) = none) →
    Parses s0 (list.flatMap fun pe => pointFieldBytes f.lp pe.1 ++ scalarBytes cf pe.2) (Machine.decEntries F c list.length)
      (entriesOf f F list) s0
  | [], _ => .pure _
  | pe :: list, h => by
    obtain ⟨⟨hw, hp, he⟩, hrest⟩ := List.forall_mem_cons.1 h
    rw [List.flatMap_cons, List.append_assoc]
    exact .bind (.decPoint hr hw hp) <| .bind (.decScalar hl hq he) <| .bindSilent (Parses.decEntries hr hl hq hrest) <| .pure _

/-- `DEC.MEXP_LIST(g)` (44_decoder.md R355). -/
theorem Parses.decMexpList {c : CurveGroup} {cf : CurveFields} {list : List (PointFields × Nat)} (hr : Ready s0 f)
    (hl : s0.cur.lq = some cf.ord.length) (hq : c.q = bytesToNat cf.ord) (hn : byteFits list.length = true)
    (hcount : firstError (countChecks list.length) = none)
    (hlist : ∀ pe ∈ list, pointWidth lp F.deg pe.1 = true
      ∧ firstError (pointChecks f F (F.ofCoords c.a) (F.ofCoords c.b) pe.1) = none ∧ firstError (scalarChecks cf pe.2) = none) :
    Parses s0 (mexpListBytes f.lp cf list) (Machine.decMexpList F c) (entriesOf f F list) s0 :=
  .bind (xs := [_]) (.decCount hn hcount) (.decEntries hr hl hq hlist)

end

end Sys2Proof.Machine

/-! PROOF. The parse of whole calls that pass their checks (44_decoder.md R340 to R357; O60): the G1 and G2 operations, then the
set-up of the two kinds of pairing. -/

namespace Sys2Proof.Machine

/-! ## The header of an extension -/

section
variable {s0 : State} {f : PrimeField} {lp : Nat}

/-- The Montgomery form of a nonzero residue is not zero. -/
theorem PrimeField.toMont_ne_zero (hf : f.legal = true) {x : Nat} (hx : x < f.p) (h0 : x ≠ 0) : f.toMont x ≠ f.zero := by
  intro h
  have hzero : (x : ZMod f.p) = 0 := by
    rw [← residue_toMont (odd_of_legal hf) x, h, zero_eq_of_legal hf, residue_zero]
  exact h0 (Nat.eq_zero_of_dvd_of_lt ((ZMod.natCast_eq_zero_iff x f.p).1 hzero) hx)

/-- A non-residue of degree `n` needs an exact division (40_prime_field.md R152). -/
theorem PrimeField.dvd_of_nres {x n : Nat} (h : f.nres x n = true) : n ∣ f.p - 1 := by
  by_contra hn
  rw [PrimeField.nres, if_pos fun h0 => hn (Nat.dvd_of_mod_eq_zero h0)] at h
  exact Bool.false_ne_true h

/-- What the checks of an extension header say. -/
theorem firstError_ext_none {allowed : List Nat} {n : Nat} {h : ExtHeader} :
    firstError (extChecks f allowed n h) = none ↔
      h.deg ∈ allowed ∧ h.nr < f.p ∧ h.nr ≠ 0 ∧ f.nres (f.toMont h.nr) n = true := by
  simp [firstError_none_iff, extChecks]

/-- `DEC.EXTHDR(allowed, n)` (44_decoder.md R340). -/
theorem Parses.decExtHdr {allowed : List Nat} {n : Nat → Nat} {h : ExtHeader} (hr : Ready s0 f) (hf : f.legal = true)
    (hw : extWidth lp h = true) (hc : firstError (extChecks f allowed (n h.deg) h) = none)
    {l : Level} (hl : degreeLevel h.deg = l) (hnew : s0.ex.get l = none) :
    Parses s0 (extBytes f.lp h) (Machine.decExtHdr allowed n) h.deg (s0.setEX l (freshLevel l [f.toMont h.nr])) := by
  subst hl
  simp only [extWidth, byteFits, Bool.and_eq_true, decide_eq_true_eq] at hw
  obtain ⟨hdeg, hnr, hnr0, hres⟩ := firstError_ext_none.1 hc
  exact .bind (xs := [_]) (.readByte (by omega)) <| .silentBind (.require (List.contains_iff_mem.2 hdeg) _) <|
    .bindSilent (.decFE hr hnr) <| .silentBind (.getPF hr.pf) <|
    .silentBind (.require (bne_iff_ne.2 (PrimeField.toMont_ne_zero hf hnr hnr0)) _) <| .silentBind (.setFlags _) <|
    .silentBind (.require hres _) <| .silentBind (.newEX _ hnew) <| .pure _

end

/-! ## The operations of G1 and G2 -/

/-- The state after `BASE` (44_decoder.md R332). -/
def State.afterBase (s : State) (mb : List Byte) : State := (s.beginCall.setPF (callField mb)).setField mb.length

/-- The state after `BASE ; CURVE(Fp)` (44_decoder.md R339). -/
def State.afterG1 (s : State) (mb : List Byte) (c : CurveFields) : State :=
  ((s.afterBase mb).setLq c.ord.length).setCG .g1 (groupOf (callField mb) (fpFld (callField mb)) .fp c)

section
variable {s : State} {mb : List Byte} {c : CurveFields}

theorem State.afterBase_ready (s : State) (mb : List Byte) : Ready (s.afterBase mb) (callField mb) := .base s.resetCall 1 mb

theorem State.afterG1_ready (s : State) (mb : List Byte) (c : CurveFields) : Ready (s.afterG1 mb c) (callField mb) :=
  ((s.afterBase_ready mb).setLq _).setCG _ _

/-- `BASE ; CURVE(Fp)`. -/
theorem Parses.decG1 (hm : firstError (modulusChecks mb) = none) (hw : curveWidth mb.length 1 c = true)
    (hc : firstError (curveChecks (callField mb) c) = none) :
    Parses s.beginCall (prefixedBytes mb ++ curveBytes mb.length c) Machine.decG1
      (callField mb, groupOf (callField mb) (fpFld (callField mb)) .fp c) (s.afterG1 mb c) :=
  .bind (.decBase ((firstError_modulus_none mb).1 hm) rfl) <| .silentBind (.getPF rfl) <|
    .bindSilent (.decCurve (s.afterBase_ready mb) (curveFits_of_checks hw hc) rfl) <| .silentBind (.getCG rfl) <| .pure _

section
variable {α : Type} {F : Fld α} {f : PrimeField} {lp : Nat} {s1 : State} {field : FieldRef}

/-- The curve test of a decoded group is that of its fields (44_decoder.md R339, R342). -/
theorem pointChecks_groupOf (hF : F.Coordinates) (c : CurveFields) (pt : PointFields) :
    pointChecks f F (F.ofCoords (groupOf f F field c).a) (F.ofCoords (groupOf f F field c).b) pt =
      pointChecks f F (elemOf f F c.a) (elemOf f F c.b) pt := by
  rw [groupOf, hF.back, hF.back]

theorem Trails.callAdd (hF : F.Coordinates) (hr : Ready s1 f) {p1 p2 : PointFields} (hw1 : pointWidth lp F.deg p1 = true)
    (hw2 : pointWidth lp F.deg p2 = true) (hc : firstError (pointChecks f F (elemOf f F c.a) (elemOf f F c.b) p1
      ++ pointChecks f F (elemOf f F c.a) (elemOf f F c.b) p2) = none) :
    Trails s1 (pointFieldBytes f.lp p1 ++ pointFieldBytes f.lp p2) (Machine.callAdd F (groupOf f F field c)) := by
  rw [← pointChecks_groupOf (field := field) hF, ← pointChecks_groupOf (field := field) hF, firstError_append_none] at hc
  exact .bind (.decPoint hr hw1 hc.1) <| .bindSilent (.decPoint hr hw2 hc.2) <| .andThen .decEnd

theorem Trails.callMul (hF : F.Coordinates) (hr : Ready s1 f) (hl : s1.cur.lq = some c.ord.length) {p : PointFields} {e : Nat}
    (hw : pointWidth lp F.deg p = true)
    (hc : firstError (pointChecks f F (elemOf f F c.a) (elemOf f F c.b) p ++ scalarChecks c e) = none) :
    Trails s1 (pointFieldBytes f.lp p ++ scalarBytes c e) (Machine.callMul F (groupOf f F field c)) := by
  rw [← pointChecks_groupOf (field := field) hF, firstError_append_none] at hc
  exact .bind (.decPoint hr hw hc.1) <| .bindSilent (.decScalar hl rfl hc.2) <| .andThen .decEnd

theorem Trails.callMexp (hF : F.Coordinates) (hr : Ready s1 f) (hl : s1.cur.lq = some c.ord.length)
    {list : List (PointFields × Nat)} (hw : mexpListWidth lp F.deg c list = true)
    (hc : firstError (mexpChecks f F c list) = none) :
    Trails s1 (mexpListBytes f.lp c list) (Machine.callMexp F (groupOf f F field c)) := by
  simp only [mexpListWidth, Bool.and_eq_true, List.all_eq_true] at hw
  obtain ⟨hn, hwidths⟩ := hw
  simp only [mexpChecks, firstError_append_none, firstError_flatMap_none] at hc
  obtain ⟨hcount, hentries⟩ := hc
  refine .bindSilent (.decMexpList (lp := lp) hr hl rfl hn hcount fun pe hpe => ⟨(hwidths pe hpe).1, ?_⟩) (.andThen .decEnd)
  rw [pointChecks_groupOf hF]
  exact hentries pe hpe

end

/-- A G1 call: the base field and the curve, then its own operands. -/
theorem Trails.g1Body {k : PrimeField × CurveGroup → M (List Byte)} {rest : PrimeField → Checks} {ys : List Byte}
    (hw : curveWidth mb.length 1 c = true) (hc : firstError (g1Checks mb c rest) = none)
    (hk : Ready (s.afterG1 mb c) (callField mb) → (s.afterG1 mb c).cur.lq = some c.ord.length →
      firstError (rest (callField mb)) = none →
      Trails (s.afterG1 mb c) ys (k (callField mb, groupOf (callField mb) (fpFld (callField mb)) .fp c))) :
    Trails s.beginCall (prefixedBytes mb ++ curveBytes mb.length c ++ ys) (do
      let fc ← Machine.decG1
      k fc) := by
  simp only [g1Checks, firstError_append_none] at hc
  obtain ⟨⟨hm, hcurve⟩, hrest⟩ := hc
  exact .bind (.decG1 hm hw hcurve) (hk (s.afterG1_ready mb c) rfl hrest)

/-- `CURVE(Fqd)` of a G2 call, then its own operands. -/
theorem Trails.decG2 {α : Type} {F : Fld α} {f : PrimeField} {s1 : State} {lp d : Nat} {k : CurveGroup → M (List Byte)}
    {ys : List Byte} (hr : Ready s1 f) (hg : s1.cg2 = none) (hw : curveWidth lp F.deg c = true)
    (hc : firstError (curveChecks f c) = none)
    (hk : ∀ {s2 : State}, Ready s2 f → s2.cur.lq = some c.ord.length →
      Trails s2 ys (k (groupOf f F (.level (degreeLevel d)) c))) :
    Trails s1 (curveBytes f.lp c ++ ys) (do
      let c ← Machine.decG2 F d
      k c) :=
  .bind (.bindSilent (.decCurve hr (curveFits_of_checks hw hc) hg) (.getCG (State.setCG_cg_same _ _ _)))
    (hk ((hr.setLq _).setCG _ _) rfl)

/-- A G2 call: the base field, the extension and the curve, then its own operands over the field of the extension. -/
theorem Trails.g2Body {h : ExtHeader} {k : {α : Type} → Fld α → CurveGroup → M (List Byte)}
    {rest : {α : Type} → PrimeField → Fld α → Checks} {ys : List Byte} (hext : extWidth mb.length h = true)
    (hw : curveWidth mb.length h.deg c = true) (hc : firstError (g2Checks mb h c rest) = none)
    (hk : ∀ {α : Type} {F : Fld α} {s2 : State}, F.Coordinates → F.deg = h.deg → Ready s2 (callField mb) →
      s2.cur.lq = some c.ord.length → firstError (rest (callField mb) F) = none →
      Trails s2 ys (k F (groupOf (callField mb) F (.level (degreeLevel h.deg)) c))) :
    Trails s.beginCall (prefixedBytes mb ++ extBytes mb.length h ++ curveBytes mb.length c ++ ys) (do
      Machine.decBase
      let d ← Machine.decExtHdr [2, 3] (fun d => d)
      Machine.withDegree d (fun F => do
        let c ← Machine.decG2 F d
        k F c)) := by
  simp only [g2Checks, firstError_append_none] at hc
  obtain ⟨⟨⟨hm, he⟩, hcurve⟩, hrest⟩ := hc
  have hfits := (firstError_modulus_none mb).1 hm
  have hready := (s.afterBase_ready mb).setEX (degreeLevel h.deg) (freshLevel (degreeLevel h.deg) [(callField mb).toMont h.nr])
  simp only [List.append_assoc]
  refine .bind (.decBase hfits rfl) <|
    .bind (.decExtHdr (s.afterBase_ready mb) (callField_legal hfits) hext he rfl (ExFile.unset_get _)) <|
    .silentBind (.getPF hready.pf) ?_
  obtain ⟨hdeg, -⟩ := firstError_ext_none.1 he
  obtain ⟨d, nr⟩ := h
  rw [List.mem_pair] at hdeg
  rcases hdeg with rfl | rfl
  · exact .silentBind (.getEX (l := .fq2) rfl) <| .decG2 hready rfl hw hcurve fun hr hl =>
      hk (fq2Fld_coordinates _ _) rfl hr hl hrest
  · exact .silentBind (.getEX (l := .fq3) rfl) <| .decG2 hready rfl hw hcurve fun hr hl =>
      hk (fq3Fld_coordinates _ _) rfl hr hl hrest

end

end Sys2Proof.Machine

/-! PROOF. The parse of the pairing calls that pass their checks (44_decoder.md R340 to R354; O60): their tables exist, because the
non-residue check of the header (MNT) or the check of `DEC.TOWER` (BLS12, BN) makes every division exact. -/

namespace Sys2Proof.Machine

/-! ## The tables -/

section
variable {α : Type} {F : Fld α} {p n : Nat}

theorem quadTables_exists (c : α) (k : Nat) (h : n ∣ p - 1) : ∃ tt, quadTables (frobTable F p c n 1 (k + 1)) = some tt := by
  rw [frobTable_eq_cons F c 1 k h]
  exact ⟨_, rfl⟩

theorem cubicTables_exists (c : α) (k : Nat) (h : n ∣ p - 1) :
    ∃ tt, cubicTables (frobTable F p c n 1 (k + 1)) (frobTable F p c n 2 (k + 1)) = some tt := by
  rw [frobTable_eq_cons F c 1 k h, frobTable_eq_cons F c 2 k h]
  exact ⟨_, rfl⟩

theorem preTablesOf_exists (T2 : Tow E2) (l : PreLevel) (f1 : E2) (h : (p - 1) % 6 = 0) :
    ∃ tt, preTablesOf T2 p l f1 = some tt := by
  cases l with
  | fq6c => exact ⟨_, if_neg (not_not.2 h)⟩
  | fq12 => exact ⟨_, congrArg quadTables (if_neg (not_not.2 h))⟩

end

/-! ## The pairs -/

section
variable {α : Type} {F : Fld α} {f : PrimeField} {lp : Nat} {s0 : State} {c1 c2 : CurveGroup} {prs : List PairFields}

/-- What the checks of `COUNT` and `PAIRS` say (44_decoder.md R349, R350). -/
theorem pairs_of_checks (hw : pairsWidth lp F.deg prs = true) (hc : firstError (pairsChecks f c1 F c2 prs) = none) :
    byteFits prs.length = true ∧ firstError (countChecks prs.length) = none ∧
      ∀ pr ∈ prs, pointWidth lp (fpFld f).deg pr.p = true ∧ pointWidth lp F.deg pr.q = true
        ∧ firstError (pairChecks f c1 F c2 pr) = none := by
  simp only [pairsWidth, Bool.and_eq_true, List.all_eq_true] at hw
  simp only [pairsChecks, firstError_append_none, firstError_flatMap_none] at hc
  obtain ⟨hn, hwidths⟩ := hw
  refine ⟨hn, hc.1, fun pr hpr => ?_⟩
  obtain ⟨⟨⟨-, hp⟩, -⟩, hq⟩ := hwidths pr hpr
  exact ⟨hp, hq, hc.2 pr hpr⟩

end

/-! ## BLS12 and BN -/

section
variable {f : PrimeField} {β : Nat} {s0 : State} {lp : Nat}

/-- `DEC.XI` (44_decoder.md R341). -/
theorem Parses.decXi {v : List Nat} (hr : Ready s0 f) (h2 : s0.ex.fq2 = some (freshLevel .fq2 [β]))
    (hw : elementWidth lp 2 v = true) (hc : firstError (xiChecks f (fq2Fld (fpFld f) β) v) = none) :
    Parses s0 (elementBytes f.lp v) Machine.decXi (elemOf f (fq2Fld (fpFld f) β) v) s0 := by
  simp only [xiChecks, firstError_append_none] at hc
  obtain ⟨helem, hxi⟩ := hc
  simp only [firstError_none_iff, List.forall_mem_cons, List.not_mem_nil, false_implies, implies_true, and_true] at hxi
  obtain ⟨hzero, hdvd, hone⟩ := hxi
  exact .silentBind (.getPF hr.pf) <| .silentBind (.getEX (l := .fq2) h2) <|
    .bindSilent (.decElem hr (elementFits_of_checks hw helem)) <| .silentBind (.require hzero _) <|
    .silentBind (.require hdvd _) <| .silentBind (.require hone _) <| .pure _

theorem Parses.twistMultiplier {F2 : Fld E2} {b : Nat} {xi : E2} (hb : b = 1 ∨ b = 2) (hinv : (b == 1 || (F2.inv xi).1) = true) :
    Parses s0 [] (Machine.twistMultiplier F2 (twistOf b) xi) (twistFactor F2 b xi) s0 := by
  rcases hb with rfl | rfl
  · exact .pure _
  · exact .silentBind (.setFlags _) <| .silentBind (.require hinv _) <| .pure _

/-- `DEC.TWIST` (44_decoder.md R344). -/
theorem Parses.decTwist {b : Nat} {xi : E2} {c1 : CurveGroup} (hr : Ready s0 f)
    (h2 : s0.ex.fq2 = some (freshLevel .fq2 [β])) (hg1 : s0.cg1 = some c1) (hg2 : s0.cg2 = none)
    (hc : firstError (twistChecks (fq2Fld (fpFld f) β) b xi) = none) :
    Parses s0 [byteOf b] (Machine.decTwist xi) (twistOf b) (s0.setCG .g2
      (twistedGroup (fq2Fld (fpFld f) β) c1 (twistFactor (fq2Fld (fpFld f) β) b xi))) := by
  simp only [twistChecks, firstError_none_iff, List.forall_mem_cons, List.not_mem_nil, false_implies, implies_true, and_true,
    Bool.or_eq_true (b == 1) (b == 2), beq_iff_eq] at hc
  obtain ⟨hb, hinv⟩ := hc
  have hsome : twistOfByte b = some (twistOf b) := by rcases hb with rfl | rfl <;> rfl
  exact .silentBind (.getPF hr.pf) <| .silentBind (.getEX (l := .fq2) h2) <| .bindSilent (.readByte (by omega)) <|
    .silentBind (.silent rfl fun _ g => ⟨g, by rw [hsome]; rfl⟩) <| .silentBind (.getCG hg1) <| .silentBind (.newCG _ hg2) <|
    .silentBind (.twistMultiplier hb hinv) <| .silentBind (.twistCG2 _ _ rfl) <| .pure _

/-- What `DEC.TOWER` leaves: the three levels of the engine, `FQ2` with its table, and the groups as before
(44_decoder.md R345). -/
structure TowerBuilt (f : PrimeField) (β : Nat) (s0 s1 : State) : Prop where
  ready : Ready s1 f
  cg2 : s1.cg2 = s0.cg2
  fq2 : ∃ tt, s1.ex.fq2 = some (tabledLevel .fq2 [β] (some tt))
  fq6c : ∃ e6, s1.ex.fq6c = some e6
  fq12 : ∃ e12, s1.ex.fq12 = some e12

/-- `DEC.TOWER` (44_decoder.md R345), and what follows it. -/
theorem Trails.decTower {xi : E2} {xs : List Byte} {k : Unit → M (List Byte)} (hr : Ready s0 f)
    (h2 : s0.ex.fq2 = some (freshLevel .fq2 [β])) (h6 : s0.ex.fq6c = none) (h12 : s0.ex.fq12 = none)
    (hc : firstError (towerChecks f) = none) (hk : ∀ {s1}, TowerBuilt f β s0 s1 → Trails s1 xs (k ())) :
    Trails s0 xs (Machine.decTower xi >>= k) := by
  have hdvd : (f.p - 1) % 6 = 0 := by simpa [towerChecks, firstError_none_iff] using hc
  obtain ⟨tt2, ht2⟩ := quadTables_exists (F := fpFld f) β 1 ((by decide : 2 ∣ 6).trans (Nat.dvd_of_mod_eq_zero hdvd))
  have hpre (l : PreLevel) := preTablesOf_exists (towFq2 f s0.freeCtr (tabledLevel .fq2 [β] (some tt2))) l
    ((fq2Fld (fpFld f) β).exp xi ((f.p - 1) / 6)) hdvd
  obtain ⟨tt6, ht6⟩ := hpre .fq6c
  obtain ⟨tt12, ht12⟩ := hpre .fq12
  have hcalc : ∀ o g, TablesOf ((s0.setOff o).setFlags g) .fq2 (some tt2) := fun o g =>
    ht2 ▸ TablesOf.fq2 f (freshLevel .fq2 [β]) hr.pf h2
  refine .silentBind (.silentBind (.getPF hr.pf) <| .silentBind (.getEX (l := .fq2) h2) <| .silentBind (.calcFrob h2 hcalc) <|
    .silentBind (.require rfl _) <| .silentBind (.require (beq_iff_eq.2 hdvd) _) <| .silentBind (.newEX _ h6) <|
    .silentBind (.calcFrobPre (l := .fq6c) hr.pf rfl rfl rfl ht6) <| .silentBind (.require rfl _) <|
    .silentBind (.newEX _ h12) <| .silentBind (.calcFrobPre (l := .fq12) hr.pf rfl rfl rfl ht12) <| .require rfl _) (hk ?_)
  exact ⟨((((hr.setEX _ _).setEX _ _).setEX _ _).setEX _ _).setEX _ _, rfl, ⟨_, rfl⟩, ⟨_, rfl⟩, ⟨_, rfl⟩⟩

/-- The tower of the engine is read (43_pairing.md R261). -/
theorem Parses.getBnTower {e2 e6 e12 : ExtField} (hf : s0.pf = some f) (h2 : s0.ex.fq2 = some e2) (h6 : s0.ex.fq6c = some e6)
    (h12 : s0.ex.fq12 = some e12) :
    ∃ t, Parses s0 [] Machine.getBnTower t s0 ∧ t.t2.fld = fq2Fld (fpFld f) (e2.nonResidue.headD 0) :=
  ⟨_, .silentBind (.getPF hf) <| .silentBind (.silent rfl fun _ g => ⟨g, rfl⟩) <| .silentBind (.getEX (l := .fq2) h2) <|
    .silentBind (.getEX (l := .fq6c) h6) <| .silentBind (.getEX (l := .fq12) h12) <| .pure _, rfl⟩

end

section
variable {s : State} {mb : List Byte} {c : CurveFields}

theorem twistedBytes_eq (lp : Nat) (t : TwistedFields) :
    twistedBytes lp t = extBytes lp t.ext ++ (elementBytes lp t.xi ++ ([byteOf t.twist] ++ (prefixedBytes t.loop ++
      ([byteOf t.neg] ++ ([byteOf t.pairs.length] ++ t.pairs.flatMap (pairBytes lp)))))) := by
  simp [twistedBytes, pairsBytes]

/-- A BLS12 or BN call (44_decoder.md R357). -/
theorem Trails.callTwisted {isBn : Bool} {t : TwistedFields} (hw : curveWidth mb.length 1 c = true)
    (hwt : twistedWidth mb.length t = true) (hc : firstError (twistedChecks mb c t isBn) = none) :
    Trails s.beginCall (prefixedBytes mb ++ curveBytes mb.length c ++ twistedBytes mb.length t) (Machine.callTwisted isBn) := by
  simp only [twistedWidth, Bool.and_eq_true] at hwt
  obtain ⟨⟨⟨⟨⟨hext, hxi⟩, -⟩, hloop⟩, -⟩, hpairs⟩ := hwt
  simp only [twistedChecks, firstError_append_none] at hc
  obtain ⟨⟨⟨⟨⟨⟨⟨⟨⟨hm, hcurve⟩, hcext⟩, hcxi⟩, hctwist⟩, hctower⟩, hcloop⟩, hcneg⟩, hcweight⟩, hcpairs⟩ := hc
  obtain ⟨hn, hcount, hprs⟩ := pairs_of_checks (F := fq2Fld _ _) hpairs hcpairs
  have hdeg : degreeLevel t.ext.deg = .fq2 := if_pos (List.mem_singleton.1 (firstError_ext_none.1 hcext).1)
  have hready := (s.afterG1_ready mb c).setEX .fq2 (freshLevel .fq2 [(callField mb).toMont t.ext.nr])
  rw [twistedBytes_eq]
  refine .bind (.decG1 hm hw hcurve) <|
    .bind (.decExtHdr (s.afterG1_ready mb c) (callField_legal ((firstError_modulus_none mb).1 hm)) hext hcext hdeg rfl) <|
    .bind (.decXi hready rfl hxi hcxi) <| .bind (.decTwist hready rfl rfl rfl hctwist) <|
    .decTower (hready.setCG .g2 _) rfl rfl rfl hctower fun {s1} hbuilt =>
    .bind (.decLoop hloop hcloop) <| .bind (.readFlag (flag_of_checks hcneg)) ?_
  obtain ⟨hready1, hg2, ⟨tt, h2⟩, ⟨e6, h6⟩, ⟨e12, h12⟩⟩ := hbuilt
  obtain ⟨tower, htower, hfld⟩ := Parses.getBnTower hready1.pf h2 h6 h12
  cases isBn
  case' true => refine .silentBind (.require ((firstError_none_iff [_]).1 hcweight _ (List.mem_singleton_self _)) _) ?_
  all_goals
    exact .bind (.decCount hn hcount) <| .silentBind htower <| .silentBind (.getCG (g := .g2) hg2) <|
      .bindSilent (.decPairs hready1 (by rw [hfld]; exact hprs)) <| .andThen .decEnd

end

/-! ## MNT4 and MNT6 -/

section
variable {α : Type} {F : Fld α} {f : PrimeField} {s0 : State} {lp : Nat} {l target : Level} {c1 : CurveGroup}

/-- `DEC.MNT_TWIST` (44_decoder.md R352). -/
theorem Parses.decMntTwist (hr : Ready s0 f) (hg1 : s0.cg1 = some c1) (hg2 : s0.cg2 = none) :
    Parses s0 [] (Machine.decMntTwist F l) () (s0.setCG .g2 (mntGroup f F l c1)) :=
  .silentBind (.getPF hr.pf) <| .silentBind (.getCG hg1) <| .silentBind (.newCG _ hg2) <|
    .twistCG2 (s0 := s0.setCG .g2 _) _ _ rfl

/-- The tables an MNT call computes exist: that of the level `l` of `Fe`, and then that of the level `target` of `Ft`
(44_decoder.md R351). -/
structure MntTables (f : PrimeField) (β : Nat) (l target : Level) (tt1 tt2 : List (List Nat) × List (List Nat)) : Prop where
  base : ∀ {s : State}, s.pf = some f → s.ex.get l = some (freshLevel l [β]) → TablesOf s l (some tt1)
  target : ∀ {s : State}, s.pf = some f → s.ex.get l = some (tabledLevel l [β] (some tt1)) → TablesOf s target (some tt2)

theorem mnt4Tables {β : Nat} (h : 4 ∣ f.p - 1) : ∃ tt1 tt2, MntTables f β .fq2 .fq4 tt1 tt2 := by
  obtain ⟨tt1, h1⟩ := quadTables_exists (F := fpFld f) β 1 ((by decide : 2 ∣ 4).trans h)
  obtain ⟨tt2, h2⟩ := quadTables_exists (F := fpFld f) β 3 h
  exact ⟨tt1, tt2, fun hf he => h1 ▸ .fq2 f _ hf he, fun hf he => h2 ▸ .fq4 f (tabledLevel .fq2 [β] (some tt1)) hf he⟩

theorem mnt6Tables {β : Nat} (h : 6 ∣ f.p - 1) : ∃ tt1 tt2, MntTables f β .fq3 .fq6q tt1 tt2 := by
  obtain ⟨tt1, h1⟩ := cubicTables_exists (F := fpFld f) β 2 ((by decide : 3 ∣ 6).trans h)
  obtain ⟨tt2, h2⟩ := quadTables_exists (F := fpFld f) β 5 h
  exact ⟨tt1, tt2, fun hf he => h1 ▸ .fq3 f _ hf he, fun hf he => h2 ▸ .fq6q f (tabledLevel .fq3 [β] (some tt1)) hf he⟩

/-- `DEC.MNT_TOWER` (44_decoder.md R351). -/
theorem Parses.decMntTower {β : Nat} {tt1 tt2 : List (List Nat) × List (List Nat)} (ht : MntTables f β l target tt1 tt2)
    (hne : target ≠ l) (hr : Ready s0 f) (hl : s0.ex.get l = some (freshLevel l [β])) (hnew : s0.ex.get target = none) :
    Parses s0 [] (Machine.decMntTower F l target) () (((s0.setEX l (tabledLevel l [β] (some tt1))).setEX target
      (freshLevel target (F.coords (F.generator f.one)))).setEX target
        (tabledLevel target (F.coords (F.generator f.one)) (some tt2))) := by
  have hnew' : (s0.setEX l (tabledLevel l [β] (some tt1))).ex.get target = none := by
    rw [State.setEX_ex, ExFile.put_get_other _ _ _ _ hne, hnew]
  have hbase (o : Nat) (g : Flags) : ((((s0.setEX l (tabledLevel l [β] (some tt1))).setEX target
      (freshLevel target (F.coords (F.generator f.one)))).setOff o).setFlags g).ex.get l =
        some (tabledLevel l [β] (some tt1)) := by
    rw [State.setFlags_ex, State.setOff_ex, State.setEX_ex, ExFile.put_get_other _ _ _ _ hne.symm, State.setEX_ex,
      ExFile.put_get_same]
  exact .silentBind (.getPF hr.pf) <| .silentBind (.calcFrob hl fun _ _ => ht.base hr.pf hl) <| .silentBind (.require rfl _) <|
    .silentBind (.newEX _ hnew') <|
    .silentBind (.calcFrob (ExFile.put_get_same _ _ _) fun o g => ht.target hr.pf (hbase o g)) <| .require rfl _

/-- `LOOP ; SIGN ; W0 ; W1 ; W0_SIGN` (44_decoder.md R346, R347, R353, R354). -/
theorem Parses.decMntLoops {t : MntFields} (hwloop : prefixFits t.loop = true) (hww0 : prefixFits t.w0 = true)
    (hww1 : prefixFits t.w1 = true) (hloop : firstError (loopChecks t.loop) = none)
    (hneg : firstError (flagChecks t.neg) = none) (hw0 : firstError (loopChecks t.w0) = none)
    (hw1 : firstError (loopChecks t.w1) = none) (hw0neg : firstError (flagChecks t.w0Neg) = none) :
    Parses s0 (prefixedBytes t.loop ++ ([byteOf t.neg] ++ (prefixedBytes t.w0 ++ (prefixedBytes t.w1 ++ [byteOf t.w0Neg]))))
      Machine.decMntLoops (bytesToNat t.loop, t.neg == 1, bytesToNat t.w0, bytesToNat t.w1, t.w0Neg == 1) s0 :=
  .bind (.decLoop hwloop hloop) <| .bind (.readFlag (flag_of_checks hneg)) <| .bind (.decLoop hww0 hw0) <|
    .bind (.decLoop hww1 hw1) <| .bindSilent (.readFlag (flag_of_checks hw0neg)) <| .pure _

theorem mntBytes_eq (lp : Nat) (t : MntFields) :
    mntBytes lp t = extBytes lp t.ext ++ ((prefixedBytes t.loop ++ ([byteOf t.neg] ++ (prefixedBytes t.w0 ++
      (prefixedBytes t.w1 ++ [byteOf t.w0Neg])))) ++ ([byteOf t.pairs.length] ++ t.pairs.flatMap (pairBytes lp))) := by
  simp [mntBytes, pairsBytes]

/-- The non-residue check of an MNT header makes the divisions of its tables exact (40_prime_field.md R152). -/
theorem mnt_dvd {mb : List Byte} {c : CurveFields} {t : MntFields} {d n : Nat} (hc : firstError (mntChecks mb F l d n c t) = none) :
    n ∣ (callField mb).p - 1 := by
  simp only [mntChecks, firstError_append_none] at hc
  obtain ⟨⟨⟨⟨⟨⟨⟨⟨-, -⟩, hext⟩, -⟩, -⟩, -⟩, -⟩, -⟩, -⟩ := hc
  obtain ⟨-, -, -, hres⟩ := firstError_ext_none.1 hext
  exact PrimeField.dvd_of_nres hres

/-- An MNT call (44_decoder.md R357): `F` and `l` are the field and level of its G2, `d` and `n` the degrees of its header. -/
theorem Trails.mntCall {s : State} {mb : List Byte} {c : CurveFields} {t : MntFields} {d n : Nat} {family : Family}
    {tt1 tt2 : List (List Nat) × List (List Nat)} {k : List (MillerPair α Unit) → M (List Byte)}
    (hw : curveWidth mb.length 1 c = true) (hwt : mntWidth mb.length F.deg t = true)
    (hc : firstError (mntChecks mb F l d n c t) = none) (hl : degreeLevel d = l) (hne : target ≠ l)
    (ht : MntTables (callField mb) ((callField mb).toMont t.ext.nr) l target tt1 tt2)
    {fldOf : PrimeField → ExtField → Fld α} (hF : fldOf (callField mb) (freshLevel l [(callField mb).toMont t.ext.nr]) = F) :
    Trails s.beginCall (prefixedBytes mb ++ curveBytes mb.length c ++ mntBytes mb.length t) (do
      let fc ← Machine.decG1
      let _ ← Machine.decExtHdr [d] (fun _ => n)
      let e ← Machine.getEX l
      let pairs ← Machine.decMntCall fc.1 fc.2 (fldOf fc.1 e) l target family
      k pairs) := by
  simp only [mntWidth, Bool.and_eq_true] at hwt
  obtain ⟨⟨⟨⟨⟨⟨hext, hwloop⟩, -⟩, hww0⟩, hww1⟩, -⟩, hpairs⟩ := hwt
  simp only [mntChecks, firstError_append_none] at hc
  obtain ⟨⟨⟨⟨⟨⟨⟨⟨hm, hcurve⟩, hcext⟩, hcloop⟩, hcneg⟩, hcw0⟩, hcw1⟩, hcw0neg⟩, hcpairs⟩ := hc
  obtain ⟨hn, hcount, hprs⟩ := pairs_of_checks hpairs hcpairs
  have hdeg : degreeLevel t.ext.deg = l := by rw [List.mem_singleton.1 (firstError_ext_none.1 hcext).1, hl]
  have hready := (s.afterG1_ready mb c).setEX l (freshLevel l [(callField mb).toMont t.ext.nr])
  have hlevel : ((s.afterG1 mb c).setEX l (freshLevel l [(callField mb).toMont t.ext.nr])).ex.get l = some _ :=
    ExFile.put_get_same _ _ _
  have hnew : ((s.afterG1 mb c).setEX l (freshLevel l [(callField mb).toMont t.ext.nr])).ex.get target = none :=
    (ExFile.put_get_other _ _ _ _ hne).trans (ExFile.unset_get _)
  have htwist := hready.setCG .g2 (mntGroup (callField mb) F l (groupOf (callField mb) (fpFld (callField mb)) .fp c))
  have htower := ((htwist.setEX l (tabledLevel l [(callField mb).toMont t.ext.nr] (some tt1))).setEX target
    (freshLevel target (F.coords (F.generator (callField mb).one)))).setEX target
      (tabledLevel target (F.coords (F.generator (callField mb).one)) (some tt2))
  rw [mntBytes_eq]
  refine .bind (.decG1 hm hw hcurve) <|
    .bind (.decExtHdr (s.afterG1_ready mb c) (callField_legal ((firstError_modulus_none mb).1 hm)) hext hcext hdeg
      (ExFile.unset_get _)) <| .silentBind (.getEX hlevel) ?_
  rw [hF]
  exact .andThen <| .silentBind (.decMntTwist hready rfl rfl) <| .silentBind (.decMntTower ht hne htwist hlevel hnew) <|
    .bind (.decMntLoops hwloop hww0 hww1 hcloop hcneg hcw0 hcw1 hcw0neg) <| .bind (.decCount hn hcount) <|
    .silentBind (.getCG (g := .g2) rfl) <| .bindSilent (.decPairs htower hprs) <| .andThen .decEnd

theorem Trails.mnt4Body {s : State} {mb : List Byte} {c : CurveFields} {t : MntFields} (hw : curveWidth mb.length 1 c = true)
    (hwt : mntWidth mb.length 2 t = true)
    (hc : firstError (mntChecks mb (fq2Fld (fpFld (callField mb)) ((callField mb).toMont t.ext.nr)) .fq2 2 4 c t) = none) :
    Trails s.beginCall (prefixedBytes mb ++ curveBytes mb.length c ++ mntBytes mb.length t) Machine.mnt4Body := by
  obtain ⟨tt1, tt2, ht⟩ := mnt4Tables (β := (callField mb).toMont t.ext.nr) (mnt_dvd hc)
  exact .mntCall (fldOf := fun f e => fq2Fld (fpFld f) (e.nonResidue.headD 0)) hw hwt hc rfl (by decide) ht rfl

theorem Trails.mnt6Body {s : State} {mb : List Byte} {c : CurveFields} {t : MntFields} (hw : curveWidth mb.length 1 c = true)
    (hwt : mntWidth mb.length 3 t = true)
    (hc : firstError (mntChecks mb (fq3Fld (fpFld (callField mb)) ((callField mb).toMont t.ext.nr)) .fq3 3 6 c t) = none) :
    Trails s.beginCall (prefixedBytes mb ++ curveBytes mb.length c ++ mntBytes mb.length t) Machine.mnt6Body := by
  obtain ⟨tt1, tt2, ht⟩ := mnt6Tables (β := (callField mb).toMont t.ext.nr) (mnt_dvd hc)
  exact .mntCall (fldOf := fun f e => fq3Fld (fpFld f) (e.nonResidue.headD 0)) hw hwt hc rfl (by decide) ht rfl

end

end Sys2Proof.Machine

/-! PROOF. A buffer that is not exactly its call (44_decoder.md R321, R356; O60). The parse of a call that passes ends at the end of
its bytes; with one byte more it ends with `E_TRAILING`, and cut short it is out of bytes before that end. -/

namespace Sys2Proof.Machine

/-- How an instruction meets the buffers of a call: its body sees the tape through its reads and `DEC.END` alone, and takes the
whole payload of the call before `DEC.END`. -/
structure TakesExactly (c : Call) (body : M (List Byte)) : Prop where
  exec : ∀ s, exec c.instr s = runCall body s
  cut : CutEnds body
  trails : ∀ s : State, Trails s.beginCall (callPayload c) body

section
variable {c : Call} {body : M (List Byte)} (h : TakesExactly c body)
include h

/-- With bytes left over the body ends with `E_TRAILING` where the call ends (44_decoder.md R356). -/
theorem TakesExactly.run_extra {s : State} {extra : List Byte} (hne : extra ≠ [])
    (hinp : s.inp = Memory.ofBytes (encodeCall c ++ extra)) :
    ∃ t, body s.beginCall = .error (.raise .trailing) t ∧ t.cur.off = (encodeCall c).length ∧ t.resetCall = s.resetCall := by
  obtain ⟨t, ht, hu, hframe⟩ := h.trails s hne ⟨⟨1, Flags.unset, rfl⟩, Unread.beginCall hinp⟩
  refine ⟨t, ht, ?_, hframe⟩
  have hlen := hu.length
  rw [inp_of_resetCall_eq hframe, State.beginCall_inp, hinp, Memory.ofBytes_len, List.length_append] at hlen
  exact Nat.add_right_cancel hlen

/-- Any bytes appended end the call with `E_TRAILING`. -/
theorem TakesExactly.trailing {s : State} {extra : List Byte} (hne : extra ≠ [])
    (hinp : s.inp = Memory.ofBytes (encodeCall c ++ extra)) :
    Machine.exec c.instr s.beginCall = .next (s.errorWith .trailing) := by
  obtain ⟨t, ht, -, hframe⟩ := h.run_extra hne hinp
  rw [h.exec, runCall_raise ht, State.raiseErr, hframe, State.errorWith]

/-- Any bytes cut off the end end the call with `E_SHORT`: the run is compared with the run on the call and one byte more. -/
theorem TakesExactly.short {s : State} {n : Nat} (hn : n < (encodeCall c).length) (htwo : 1 < (encodeCall c).length)
    (hinp : s.inp = Memory.ofBytes ((encodeCall c).take n)) :
    Machine.exec c.instr s.beginCall = .next (s.errorWith .short) := by
  have hmax : max n 1 < (encodeCall c).length := Nat.max_lt.2 ⟨hn, htwo⟩
  have hcut : s.inp.CutAt (Memory.ofBytes (encodeCall c ++ [0])) (max n 1) := by
    rw [hinp]
    exact Memory.cutAt_take hn.le (Nat.le_max_left n 1) (hmax.trans (by simp))
  obtain ⟨t, ht, hoff, hframe⟩ := h.run_extra (s := s.onTape (Memory.ofBytes (encodeCall c ++ [0]))) (extra := [0])
    (List.cons_ne_nil _ _) rfl
  have hctr : t.freeCtr = s.freeCtr := congrArg (fun u => u.freeCtr) hframe
  rw [h.exec]
  exact h.cut.runCall_short (s := s.beginCall) hcut (Nat.le_max_right n 1) ht (hoff ▸ hmax) hctr

end

/-- A call has at least byte 0 and the length of its modulus. -/
theorem one_lt_encodeCall_length (c : Call) : 1 < (encodeCall c).length := by
  have hpos : 0 < (callPayload c).length := by
    cases c <;> simp only [callPayload, List.length_append, prefixedBytes_length] <;> omega
  rw [encodeCall_length]
  omega

/-- Every call that passes its checks is taken exactly. -/
theorem takesExactly (c : Call) (hw : c.encodable = true) (hc : callPasses c = true) : ∃ body, TakesExactly c body := by
  rw [callPasses_iff] at hc
  cases c <;> simp only [Call.encodable, Bool.and_eq_true] at hw <;> rw [callChecks] at hc
  case g1add mb c p1 p2 =>
    obtain ⟨⟨⟨-, hcurve⟩, hp1⟩, hp2⟩ := hw
    refine ⟨_, fun _ => rfl, .g1Body fun _ => .callAdd _ _, fun s => ?_⟩
    rw [callPayload, List.append_assoc]
    exact .g1Body hcurve hc fun hr _ hrest => .callAdd (fpFld_coordinates _) hr hp1 hp2 hrest
  case g1mul mb c p e =>
    obtain ⟨⟨⟨-, hcurve⟩, hp⟩, -⟩ := hw
    refine ⟨_, fun _ => rfl, .g1Body fun _ => .callMul _ _, fun s => ?_⟩
    rw [callPayload, List.append_assoc]
    exact .g1Body hcurve hc fun hr hl hrest => .callMul (fpFld_coordinates _) hr hl hp hrest
  case g1mexp mb c list =>
    obtain ⟨⟨-, hcurve⟩, hlist⟩ := hw
    exact ⟨_, fun _ => rfl, .g1Body fun _ => .callMexp _ _, fun s =>
      .g1Body hcurve hc fun hr hl hrest => .callMexp (fpFld_coordinates _) hr hl hlist hrest⟩
  case g2add mb h c p1 p2 =>
    obtain ⟨⟨⟨⟨-, hext⟩, hcurve⟩, hp1⟩, hp2⟩ := hw
    refine ⟨_, fun _ => rfl, .g2Body fun F c => .callAdd F c, fun s => ?_⟩
    rw [callPayload, List.append_assoc _ _ (pointFieldBytes _ p2)]
    exact .g2Body hext hcurve hc fun hF hd hr _ hrest => .callAdd hF hr (hd ▸ hp1) (hd ▸ hp2) hrest
  case g2mul mb h c p e =>
    obtain ⟨⟨⟨⟨-, hext⟩, hcurve⟩, hp⟩, -⟩ := hw
    refine ⟨_, fun _ => rfl, .g2Body fun F c => .callMul F c, fun s => ?_⟩
    rw [callPayload, List.append_assoc _ _ (scalarBytes c e)]
    exact .g2Body hext hcurve hc fun hF hd hr hl hrest => .callMul hF hr hl (hd ▸ hp) hrest
  case g2mexp mb h c list =>
    obtain ⟨⟨⟨-, hext⟩, hcurve⟩, hlist⟩ := hw
    exact ⟨_, fun _ => rfl, .g2Body fun F c => .callMexp F c, fun s =>
      .g2Body hext hcurve hc fun hF hd hr hl hrest => .callMexp hF hr hl (hd ▸ hlist) hrest⟩
  case bls12 mb c t | bn mb c t =>
    obtain ⟨⟨-, hcurve⟩, ht⟩ := hw
    exact ⟨_, fun _ => rfl, .callTwisted _, fun s => .callTwisted hcurve ht hc⟩
  case mnt4 mb c t =>
    obtain ⟨⟨-, hcurve⟩, ht⟩ := hw
    exact ⟨_, fun _ => rfl, .mnt4Body, fun s => .mnt4Body hcurve ht hc⟩
  case mnt6 mb c t =>
    obtain ⟨⟨-, hcurve⟩, ht⟩ := hw
    exact ⟨_, fun _ => rfl, .mnt6Body, fun s => .mnt6Body hcurve ht hc⟩

/-- Settles O60: every call that passes is taken exactly, so `DEC.END` finds what is appended, and a read what is cut off. -/
theorem bufferMustBeExactlyTheCall : Obligations.BufferMustBeExactlyTheCall := by
  intro s c hw hc
  obtain ⟨body, h⟩ := takesExactly c hw hc
  exact ⟨fun _ hne hinp => h.trailing hne hinp, fun _ hn hinp => h.short hn (one_lt_encodeCall_length c) hinp⟩

end Sys2Proof.Machine

/-! PROOF. What the next step runs (45_dispatcher.md R380; O6, O7). -/

namespace Sys2Proof.Machine

/-! ## Fetching -/

/-- With an empty port and a byte on the tape, byte 0 is read after the reset of the call (45_dispatcher.md R380). -/
theorem readByte_resetCall {s : State} (h : 0 < s.inp.len) : readByte s.resetCall = .ok (s.inp.read 0).toNat s.beginCall := by
  rcases tapeRead_cases 1 s.resetCall with ⟨hlen, -⟩ | ⟨-, hread⟩
  · exact absurd hlen (Nat.not_lt.2 h)
  · rw [readByte, M.bind_of_ok hread]
    exact congrArg (EStateM.Result.ok · s.beginCall) (bytesToNat_one _)

/-- With an empty port and an empty tape there is no byte 0 (44_decoder.md R321). -/
theorem readByte_resetCall_short {s : State} (h : s.inp.len = 0) :
    readByte s.resetCall = .error (.raise .short) s.resetCall := by
  rcases tapeRead_cases 1 s.resetCall with ⟨-, hread⟩ | ⟨hlen, -⟩
  · exact M.bind_of_error hread
  · exact absurd (h ▸ hlen : 1 ≤ 0) (by decide)

/-- What is fetched from the tape is what byte 0 decodes to, in the state after it is read (45_dispatcher.md R380). -/
theorem step_of_tape {s : State} {i : Instr} (hp : s.port = []) (h : 0 < s.inp.len) (hd : decode (.tape (s.inp.read 0)) = .ok i) :
    step s = exec i s.beginCall := by
  have hbyte : BitVec.ofNat 8 (s.inp.read 0).toNat = s.inp.read 0 := by simp
  rw [step, fetch, if_pos (List.isEmpty_iff.2 hp), readByte_resetCall h]
  simp only [hbyte, hd]

/-- A byte 0 that decodes to nothing is `E_OPCODE` (30_encoding.md R102). -/
theorem step_of_tape_error {s : State} {e : DecodeErr} (hp : s.port = []) (h : 0 < s.inp.len)
    (hd : decode (.tape (s.inp.read 0)) = .error e) : step s = .next (s.errorWith .opcode) := by
  have hbyte : BitVec.ofNat 8 (s.inp.read 0).toNat = s.inp.read 0 := by simp
  rw [step, fetch, if_pos (List.isEmpty_iff.2 hp), readByte_resetCall h]
  simp only [hbyte, hd]
  rfl

/-- An empty tape is `E_SHORT` (20_memory.md R71). -/
theorem step_of_empty {s : State} (hp : s.port = []) (h : s.inp.len = 0) : step s = .next (s.errorWith .short) := by
  rw [step, fetch, if_pos (List.isEmpty_iff.2 hp), readByte_resetCall_short h]
  rfl

/-- Settles O6: from the tape by `step_of_tape`; from the port (log 3) by what its words decode to. -/
theorem stepRunsTheDecodedInstruction : Obligations.StepRunsTheDecodedInstruction := by
  refine ⟨fun s i => step_of_tape, fun s i hp hd => ?_, fun s e hp hd => ?_⟩ <;>
    rw [step, fetch, if_neg (mt List.isEmpty_iff.1 hp)] <;> simp only [hd]

/-- Settles O7: without a byte 0 the read of it is short, and a byte 0 that is no opcode decodes to nothing. -/
theorem noOperationIsAnError : Obligations.NoOperationIsAnError :=
  ⟨fun _ => step_of_empty, fun _ hp hlen hop => step_of_tape_error hp hlen (decode_tape_badOpcode hop)⟩

end Sys2Proof.Machine

/-! PROOF. The parse of a call with good or bad fields (44_decoder.md R357, R358; O56 to O59): beside what a step takes off the tape,
answers and leaves, the checks it makes. The checks of a sequence are those of its steps, one after the other. -/

namespace Sys2Proof.Machine

/-! ## Steps with checks -/

/-- From `s0`, with the bytes `xs` and then `rest` left to read, `m` makes the checks `cs`: when all pass it takes `xs`, answers `v`
and leaves `s1`; else it ends with the error of the first that fails, whatever it has read by then. -/
structure Checked {α : Type} (rest : List Byte) (s0 : State) (xs : List Byte) (cs : Checks) (m : M α) (v : α) (s1 : State) :
    Prop where
  frame : firstError cs = none → s1.resetCall = s0.resetCall
  pass : firstError cs = none → ∀ {s}, Reading s0 (xs ++ rest) s → ∃ t, m s = .ok v t ∧ Reading s1 rest t
  fail : ∀ {e s}, firstError cs = some e → Reading s0 (xs ++ rest) s →
    ∃ t, m s = .error (.raise e) t ∧ t.resetCall = s0.resetCall

theorem Reading.resetCall {s0 s : State} {bs : List Byte} (h : Reading s0 bs s) : s.resetCall = s0.resetCall := by
  obtain ⟨o, g, rfl⟩ := h.state
  rfl

section
variable {α β : Type} {rest : List Byte} {s0 s1 s2 : State} {xs ys : List Byte} {cs ds : Checks} {v : α} {w : β} {m : M α}
  {k : α → M β}

/-- A step without checks. -/
theorem Parses.checked (h : Parses s0 xs m v s1) : Checked rest s0 xs [] m v s1 where
  frame _ := h.frame
  pass _ _ := h.run
  fail he := nomatch he

theorem Checked.bind (hm : Checked (ys ++ rest) s0 xs cs m v s1)
    (hk : firstError cs = none → Checked rest s1 ys ds (k v) w s2) :
    Checked rest s0 (xs ++ ys) (cs ++ ds) (m >>= k) w s2 where
  frame h := by
    rw [firstError_append_none] at h
    exact ((hk h.1).frame h.2).trans (hm.frame h.1)
  pass h s hs := by
    rw [firstError_append_none] at h
    rw [List.append_assoc] at hs
    obtain ⟨t, hmt, ht⟩ := hm.pass h.1 hs
    rw [M.bind_of_ok hmt]
    exact (hk h.1).pass h.2 ht
  fail {e s} h hs := by
    rw [firstError_append] at h
    rw [List.append_assoc] at hs
    cases hcs : firstError cs with
    | some e' =>
      rw [hcs] at h
      cases h
      obtain ⟨t, hmt, ht⟩ := hm.fail hcs hs
      exact ⟨t, M.bind_of_error hmt, ht⟩
    | none =>
      rw [hcs] at h
      obtain ⟨t, hmt, ht⟩ := hm.pass hcs hs
      obtain ⟨u, hku, hu⟩ := (hk hcs).fail h ht
      exact ⟨u, (M.bind_of_ok hmt).trans hku, hu.trans (hm.frame hcs)⟩

/-- Last steps that read nothing. -/
theorem Checked.bindSilent (hm : Checked rest s0 xs cs m v s1) (hk : firstError cs = none → Checked rest s1 [] ds (k v) w s2) :
    Checked rest s0 xs (cs ++ ds) (m >>= k) w s2 := by
  have h := Checked.bind (rest := rest) (ys := []) hm hk
  rwa [List.append_nil] at h

/-- Last steps that read nothing and check nothing. -/
theorem Checked.bindParses (hm : Checked rest s0 xs cs m v s1) (hk : firstError cs = none → Parses s1 [] (k v) w s2) :
    Checked rest s0 xs cs (m >>= k) w s2 := by
  have h := hm.bindSilent (rest := rest) fun h => (hk h).checked
  rwa [List.append_nil] at h

/-- A first step that checks nothing. -/
theorem Checked.afterParses (hm : Parses s0 xs m v s1) (hk : Checked rest s1 ys ds (k v) w s2) :
    Checked rest s0 (xs ++ ys) ds (m >>= k) w s2 :=
  .bind hm.checked fun _ => hk

/-- A first step that reads nothing and checks nothing. -/
theorem Checked.afterSilent (hm : Parses s0 [] m v s1) (hk : Checked rest s1 ys ds (k v) w s2) :
    Checked rest s0 ys ds (m >>= k) w s2 :=
  .afterParses hm hk

/-- A read, and then checks of what it read. -/
theorem Checked.afterRead (hm : Parses s0 xs m v s1) (hk : Checked rest s1 [] ds (k v) w s2) :
    Checked rest s0 xs ds (m >>= k) w s2 :=
  .bindSilent hm.checked fun _ => hk

theorem Checked.require (ok : Bool) (e : Err) : Checked rest s0 [] [(ok, e)] (Machine.require ok e) () s0 where
  frame _ := rfl
  pass h s hs := ⟨s, require_of (by simpa [firstError_none_iff] using h) e s, hs⟩
  fail {e' s} h hs := by
    cases ok with
    | true => cases h
    | false =>
      cases h
      exact ⟨s, rfl, hs.resetCall⟩

/-- A check first. -/
theorem Checked.afterRequire {ok : Bool} {e : Err} {k : Unit → M β} (hk : ok = true → Checked rest s0 ys ds (k ()) w s2) :
    Checked rest s0 ys ((ok, e) :: ds) (Machine.require ok e >>= k) w s2 :=
  .bind (xs := []) (cs := [_]) (.require ok e) fun h => hk (by simpa [firstError_none_iff] using h)

/-- The checks of a step may be written in another way. -/
theorem Checked.congr (h : Checked rest s0 xs cs m v s1) (he : firstError ds = firstError cs) : Checked rest s0 xs ds m v s1 where
  frame hd := h.frame (he ▸ hd)
  pass hd := h.pass (he ▸ hd)
  fail hd := h.fail (he ▸ hd)

/-- `DEC.END` at the end of the tape (44_decoder.md R356). -/
theorem Checked.decEnd : Checked [] s0 [] [] Machine.decEnd () s0 where
  frame _ := rfl
  pass _ s hs := ⟨s, decEnd_ok hs.unread, hs⟩
  fail h := nomatch h

/-- The end of the input after the last operand, then steps that read nothing (44_decoder.md R357). -/
theorem Checked.bindEnd (hm : Checked [] s0 xs cs m v s1) (hk : firstError cs = none → Parses s1 [] (k v) w s2) :
    Checked [] s0 xs cs (m >>= fun a => Machine.decEnd >>= fun _ => k a) w s2 := by
  have h := hm.bindSilent (k := fun a => Machine.decEnd >>= fun _ => k a) fun h => .bindParses .decEnd fun _ => hk h
  rwa [List.append_nil] at h

end

/-! ## Bytes and elements -/

section
variable {α : Type} {rest : List Byte} {s0 : State} {f : PrimeField}

theorem Parses.tapeRead_of_length {xs : List Byte} {n : Nat} (h : xs.length = n) : Parses s0 xs (Machine.tapeRead n) xs s0 :=
  h ▸ .tapeRead xs

/-- `ReadFlag` (44_decoder.md R324). -/
theorem Checked.readFlag {n : Nat} (hn : byteFits n = true) :
    Checked rest s0 [byteOf n] (flagChecks n) Machine.readFlag (n == 1) s0 :=
  .afterRead (.readByte (Nat.lt_succ_of_le (of_decide_eq_true hn))) <| .bindParses (.require _ _) fun _ => .pure _

/-- `DEC.COUNT` (44_decoder.md R349). -/
theorem Checked.decCount {n : Nat} (hn : byteFits n = true) :
    Checked rest s0 [byteOf n] (countChecks n) Machine.decCount n s0 :=
  .afterRead (.readByte (Nat.lt_succ_of_le (of_decide_eq_true hn))) <| .bindParses (.require _ _) fun _ => .pure _

/-- `DEC.FE` (44_decoder.md R335). -/
theorem Checked.decFE {x : Nat} (hr : Ready s0 f) (hx : x < 256 ^ f.lp) :
    Checked rest s0 (natToBytes x f.lp) [(decide (x < f.p), .feRange)] Machine.decFE (f.toMont x) s0 := by
  refine .afterSilent (.silent rfl fun _ g => ⟨g, getCurField_some hr.fieldSet hr.pf⟩) <|
    .afterSilent (.silent rfl fun _ g => ⟨g, getLp_some hr.lp⟩) <|
    .afterRead (.tapeRead_of_length (natToBytes_length x f.lp)) ?_
  rw [bytesToNat_natToBytes_of_lt hx]
  exact .bindParses (.require _ _) fun _ => .pure _

/-- The coordinates of an element (44_decoder.md R336). -/
theorem Checked.decFEs (hr : Ready s0 f) : ∀ {v : List Nat}, v.all (· < 256 ^ f.lp) = true →
    Checked rest s0 (elementBytes f.lp v) (elemChecks f v) (Machine.decFEs v.length) (v.map f.toMont) s0
  | [], _ => (Parses.pure _).checked
  | x :: v, h => by
    simp only [List.all_cons, Bool.and_eq_true, decide_eq_true_eq] at h
    exact .bind (cs := [_]) (.decFE hr h.1) fun _ => .bindParses (Checked.decFEs hr h.2) fun _ => .pure _

/-- `DEC.FE(F)` (44_decoder.md R336). -/
theorem Checked.decElem {F : Fld α} {v : List Nat} (hr : Ready s0 f) (hw : elementWidth f.lp F.deg v = true) :
    Checked rest s0 (elementBytes f.lp v) (elemChecks f v) (Machine.decElem F) (elemOf f F v) s0 := by
  simp only [elementWidth, Bool.and_eq_true, beq_iff_eq] at hw
  obtain ⟨hlen, hlt⟩ := hw
  rw [Machine.decElem, ← hlen]
  exact .bindParses (.decFEs hr hlt) fun _ => .pure _

/-! ## The base field and the curve -/

/-- The checks of `PF.NEW` that are left once the length is known to be right (40_prime_field.md R130). -/
theorem Checked.newPF {mb : List Byte} (hlen : (mb.length != 0) = true) (hmax : decide (mb.length ≤ 128) = true)
    (hp : s0.pf = none) : Checked rest s0 [] [(mb.headD 0 != 0, .noncanon), (bytesToNat mb % 2 == 1, .modEven),
      (!(mb.length == 1 && bytesToNat mb ≤ 3), .modSmall)] (Machine.newPF mb) () (s0.setPF (callField mb)) := by
  have hlimbs : (decide (1 ≤ (callField mb).limbs) && decide ((callField mb).limbs ≤ Config.limbMax)) = true := by
    obtain ⟨hlo, hhi⟩ := limbCount_bounds (bytesToNat_lt mb) (of_decide_eq_true hmax)
    exact Bool.and_eq_true_iff.2 ⟨decide_eq_true (le_trans (by decide) hlo), decide_eq_true hhi⟩
  exact .afterSilent (.require hlen _) <| .afterSilent (.require hmax _) <| .afterRequire fun _ => .afterRequire fun _ =>
    .bindParses (cs := [_]) (.require _ _) fun _ => .silentBind (.require hlimbs _) <|
    .silent rfl fun _ g => ⟨g, construct_new (by rw [State.setFlags_pf, State.setOff_pf, hp]; rfl)⟩

/-- `DEC.BASE` (44_decoder.md R330 to R332). -/
theorem Checked.decBase {mb : List Byte} (hw : prefixFits mb = true) (hp : s0.pf = none) :
    Checked rest s0 (prefixedBytes mb) (modulusChecks mb) Machine.decBase () ((s0.setPF (callField mb)).setField mb.length) :=
  .afterParses (ys := mb) (.readByte (Nat.lt_succ_of_le (of_decide_eq_true hw))) <| .afterRequire fun hlen =>
    .afterRequire fun hmax => .afterRead (.tapeRead mb) <| .bindParses (.newPF hlen hmax hp) fun _ =>
    .silent rfl fun _ g => ⟨g, rfl⟩

/-- `DEC.ORDER` (44_decoder.md R338). -/
theorem Checked.decOrder {ob : List Byte} (hw : prefixFits ob = true) :
    Checked rest s0 (prefixedBytes ob) (orderChecks ob) Machine.decOrder ob (s0.setLq ob.length) :=
  .afterParses (ys := ob) (.readByte (Nat.lt_succ_of_le (of_decide_eq_true hw))) <| .afterRequire fun _ => .afterRequire fun _ =>
    .afterRead (.tapeRead ob) <| .bindParses (.require _ _) fun _ =>
    .silentBind (s1 := s0.setLq ob.length) (.silent rfl fun _ g => ⟨g, rfl⟩) <| .pure _

/-- `DEC.CURVE(F)` (44_decoder.md R337, R339). -/
theorem Checked.decCurve {F : Fld α} {g : Group} {field : FieldRef} {c : CurveFields} (hr : Ready s0 f)
    (hw : curveWidth f.lp F.deg c = true) (hg : s0.cg g = none) :
    Checked rest s0 (curveBytes f.lp c) (curveChecks f c) (Machine.decCurve F g field) c.ord
      ((s0.setLq c.ord.length).setCG g (groupOf f F field c)) := by
  simp only [curveWidth, Bool.and_eq_true] at hw
  obtain ⟨⟨ha, hb⟩, hord⟩ := hw
  rw [curveBytes, curveChecks, List.append_assoc, List.append_assoc]
  exact .bind (.decElem hr ha) fun _ => .bind (.decElem hr hb) fun _ => .bindParses (.decOrder hord) fun _ =>
    .silentBind (.newCG _ (by cases g <;> exact hg)) <| .pure _

/-- `DEC.EXTHDR(allowed, n)` (44_decoder.md R340). -/
theorem Checked.decExtHdr {allowed : List Nat} {n : Nat → Nat} {h : ExtHeader} (hr : Ready s0 f) (hf : f.legal = true)
    (hw : extWidth f.lp h = true) (hnew : s0.ex.get (degreeLevel h.deg) = none) :
    Checked rest s0 (extBytes f.lp h) (extChecks f allowed (n h.deg) h) (Machine.decExtHdr allowed n) h.deg
      (s0.setEX (degreeLevel h.deg) (freshLevel (degreeLevel h.deg) [f.toMont h.nr])) := by
  simp only [extWidth, byteFits, Bool.and_eq_true, decide_eq_true_eq] at hw
  obtain ⟨hdeg, hnr⟩ := hw
  refine .afterParses (xs := [_]) (.readByte (by omega)) <| .afterRequire fun _ =>
    .bindSilent (cs := [_]) (.decFE hr hnr) fun hlt => .afterSilent (.getPF hr.pf) ?_
  have hnonzero : (f.toMont h.nr != f.zero) = (h.nr != 0) := by
    have hlt : h.nr < f.p := by simpa [firstError_none_iff] using hlt
    by_cases h0 : h.nr = 0
    · rw [h0, PrimeField.toMont, Nat.zero_mul, Nat.zero_mod, PrimeField.zero_eq_of_legal hf]
    · rw [bne_iff_ne.2 h0, bne_iff_ne.2 (PrimeField.toMont_ne_zero hf hlt h0)]
  rw [hnonzero]
  exact .afterRequire fun _ => .afterSilent (.setFlags _) <| .bindParses (.require _ _) fun _ =>
    .silentBind (.newEX _ hnew) <| .pure _

/-! ## Points, scalars and lists -/

/-- `DEC.POINT(g)` (44_decoder.md R342). -/
theorem Checked.decPoint {F : Fld α} {c : CurveGroup} {pt : PointFields} (hr : Ready s0 f)
    (hw : pointWidth f.lp F.deg pt = true) :
    Checked rest s0 (pointFieldBytes f.lp pt) (pointChecks f F (F.ofCoords c.a) (F.ofCoords c.b) pt) (Machine.decPoint F c)
      (pointOf f F pt) s0 := by
  obtain ⟨hx, hy⟩ := Bool.and_eq_true_iff.1 hw
  rw [pointChecks, List.append_assoc]
  refine .bind (.decElem hr hx) fun _ => .bindSilent (.decElem hr hy) fun _ => ?_
  rw [pointOf, pointPasses]
  by_cases hz : (F.isZero (elemOf f F pt.x) && F.isZero (elemOf f F pt.y)) = true
  · rw [if_pos hz, if_pos hz, hz, Bool.true_or]
    exact (Parses.pure _).checked.congr rfl
  · rw [if_neg hz, if_neg hz, Bool.eq_false_iff.2 hz, Bool.false_or]
    exact .afterSilent (.setFlags _) <| .bindParses (.require _ _) fun _ => .pure _

/-- `DEC.SCALAR(g)` (44_decoder.md R343). -/
theorem Checked.decScalar {c : CurveGroup} {cf : CurveFields} {e : Nat} (hl : s0.cur.lq = some cf.ord.length)
    (hc : c.q = bytesToNat cf.ord) (hw : scalarWidth cf e = true) :
    Checked rest s0 (scalarBytes cf e) (scalarChecks cf e) (Machine.decScalar c) e s0 := by
  refine .afterSilent (.silent rfl fun _ g => ⟨g, getLq_some hl⟩) <| .afterRead (.tapeRead_of_length (natToBytes_length e _)) ?_
  rw [scalarBytes, bytesToNat_natToBytes_of_lt (of_decide_eq_true hw), hc]
  exact .bindParses (.require _ _) fun _ => .pure _

/-- The entries of a multi-exponentiation (44_decoder.md R355). -/
theorem Checked.decEntries {F : Fld α} {c : CurveGroup} {cf : CurveFields} (hr : Ready s0 f)
    (hl : s0.cur.lq = some cf.ord.length) (hq : c.q = bytesToNat cf.ord) : ∀ {list : List (PointFields × Nat)},
    (∀ pe ∈ list, pointWidth f.lp F.deg pe.1 = true ∧ scalarWidth cf pe.2 = true) →
    Checked rest s0 (list.flatMap fun pe => pointFieldBytes f.lp pe.1 ++ scalarBytes cf pe.2)
      (list.flatMap fun pe => pointChecks f F (F.ofCoords c.a) (F.ofCoords c.b) pe.1 ++ scalarChecks cf pe.2)
      (Machine.decEntries F c list.length) (entriesOf f F list) s0
  | [], _ => (Parses.pure _).checked
  | pe :: list, h => by
    obtain ⟨⟨hp, he⟩, hrest⟩ := List.forall_mem_cons.1 h
    rw [List.flatMap_cons, List.flatMap_cons, List.append_assoc, List.append_assoc]
    exact .bind (.decPoint hr hp) fun _ => .bind (.decScalar hl hq he) fun _ =>
      .bindParses (Checked.decEntries hr hl hq hrest) fun _ => .pure _

/-- A subgroup check, of a point whose flag byte is `n` (44_decoder.md R350). -/
theorem Checked.checkSubgroup {F : Fld α} {c : CurveGroup} {n : Nat} (hn : n ≤ 1) (p : Pt α) :
    Checked rest s0 [] [(n == 0 || ptSubgroupCheck F (F.ofCoords c.a) c.q p, .subgroup)]
      (Machine.checkSubgroup F c (n == 1) p) () s0 := by
  rcases Nat.le_one_iff_eq_zero_or_eq_one.1 hn with rfl | rfl
  · exact (Parses.pure ()).checked.congr rfl
  · exact .afterSilent (.setFlags _) (.require _ _)

/-- One pair (44_decoder.md R350). -/
theorem Checked.decPair {F : Fld α} {c1 c2 : CurveGroup} {pr : PairFields} (hr : Ready s0 f) (hw1 : byteFits pr.chk1 = true)
    (hp : pointWidth f.lp (fpFld f).deg pr.p = true) (hw2 : byteFits pr.chk2 = true) (hq : pointWidth f.lp F.deg pr.q = true) :
    Checked rest s0 (pairBytes f.lp pr) (pairChecks f c1 F c2 pr) (Machine.decPair (fpFld f) c1 F c2) (pairOf f F pr) s0 := by
  simp only [pairChecks, List.append_assoc]
  exact .bind (xs := [_]) (.readFlag hw1) fun hflag1 => .afterSilent (.setFlags _) <| .bind (.decPoint hr hp) fun _ =>
    .bind (xs := []) (.checkSubgroup (flag_of_checks hflag1) _) fun _ =>
    .bind (xs := [_]) (.readFlag hw2) fun hflag2 => .afterSilent (.setFlags _) <| .bindSilent (.decPoint hr hq) fun _ =>
    .bindParses (.checkSubgroup (flag_of_checks hflag2) _) fun _ => .silentBind (.setFlags _) <| .pure _

theorem Checked.decPairs {F : Fld α} {c1 c2 : CurveGroup} (hr : Ready s0 f) : ∀ {prs : List PairFields},
    (∀ pr ∈ prs, (byteFits pr.chk1 && pointWidth f.lp 1 pr.p && byteFits pr.chk2 && pointWidth f.lp F.deg pr.q) = true) →
    Checked rest s0 (prs.flatMap (pairBytes f.lp)) (prs.flatMap (pairChecks f c1 F c2))
      (Machine.decPairs (fpFld f) c1 F c2 prs.length) (pairsOf f F prs) s0
  | [], _ => (Parses.pure _).checked
  | pr :: prs, h => by
    obtain ⟨hpr, hrest⟩ := List.forall_mem_cons.1 h
    simp only [Bool.and_eq_true] at hpr
    obtain ⟨⟨⟨hw1, hp⟩, hw2⟩, hq⟩ := hpr
    rw [List.flatMap_cons, List.flatMap_cons, pairsOf_cons]
    exact .bind (.decPair hr hw1 hp hw2 hq) fun _ => .bindParses (Checked.decPairs hr hrest) fun _ => .pure _

/-- `DEC.LOOP`, `DEC.W0`, `DEC.W1` (44_decoder.md R346, R353). -/
theorem Checked.decLoop {bs : List Byte} (hw : prefixFits bs = true) :
    Checked rest s0 (prefixedBytes bs) (loopChecks bs) Machine.decLoop (bytesToNat bs) s0 :=
  .afterParses (ys := bs) (.readByte (Nat.lt_succ_of_le (of_decide_eq_true hw))) <| .afterRequire fun _ =>
    .afterRead (.tapeRead bs) <| .afterRequire fun _ => .bindParses (.require _ _) fun _ => .pure _

end

end Sys2Proof.Machine

/-! PROOF. The G1 and G2 calls, with good or bad fields (45_dispatcher.md R381 to R386; O56, O57). -/

namespace Sys2Proof.Machine

/-! ## How a checked call ends -/

/-- How an instruction meets a buffer of a call: its body makes the checks of the call on its payload, gives its result, and ends
only when every byte is read. -/
structure RunsCall (c : Call) (s : State) (body : M (List Byte)) : Prop where
  exec : ∀ s, exec c.instr s = runCall body s
  ends : EndsAtEnd body
  checked : ∃ s1, Checked [] s.beginCall (callPayload c) (callChecks c) body (callResult s.cfg.forceBinary c) s1

/-- The cursor of a call starts after byte 0 of its buffer. -/
theorem reading_beginCall {s : State} {c : Call} (hinp : s.inp = Memory.ofBytes (encodeCall c)) :
    Reading s.beginCall (callPayload c ++ []) s.beginCall := by
  rw [List.append_nil]
  exact ⟨⟨1, Flags.unset, rfl⟩, Unread.beginCall hinp⟩

section
variable {c : Call} {s : State} {body : M (List Byte)} (h : RunsCall c s body) (hinp : s.inp = Memory.ofBytes (encodeCall c))
include h hinp

/-- An accepted call answers its result with every byte read. -/
theorem RunsCall.run_pass (hc : callPasses c = true) :
    ∃ t, body s.beginCall = .ok (callResult s.cfg.forceBinary c) t ∧ t.cur.off = t.inp.len ∧ t.resetCall = s.resetCall := by
  obtain ⟨s1, hchecked⟩ := h.checked
  have hnone := (callPasses_iff c).1 hc
  obtain ⟨t, ht, hread⟩ := hchecked.pass hnone (reading_beginCall hinp)
  exact ⟨t, ht, h.ends _ _ _ ht, hread.resetCall.trans (hchecked.frame hnone)⟩

theorem RunsCall.exec_pass (hc : callPasses c = true) :
    Machine.exec c.instr s.beginCall = .next (s.okWith (callResult s.cfg.forceBinary c)) := by
  obtain ⟨t, ht, hoff, hframe⟩ := h.run_pass hinp hc
  rw [h.exec, runCall_ok ht, State.finish_eq hoff, State.okWith, hframe, inp_of_resetCall_eq hframe, State.okWith]

/-- A call with a bad field ends with the error of its first failing check (44_decoder.md R358). -/
theorem RunsCall.exec_fail {e : Err} (hc : firstError (callChecks c) = some e) :
    Machine.exec c.instr s.beginCall = .next (s.errorWith e) := by
  obtain ⟨s1, hchecked⟩ := h.checked
  obtain ⟨t, ht, hframe⟩ := hchecked.fail hc (reading_beginCall hinp)
  rw [h.exec, runCall_raise ht, State.raiseErr, hframe, State.errorWith]
  rfl

end

/-- With its buffer on the tape, a step is the call (45_dispatcher.md R380). -/
theorem step_eq_exec {s : State} {c : Call} (hinp : s.inp = Memory.ofBytes (encodeCall c)) (hp : s.port = []) :
    step s = exec c.instr s.beginCall := by
  have hlen : 0 < s.inp.len := by
    rw [hinp, Memory.ofBytes_len, encodeCall_length]
    exact Nat.succ_pos _
  have hbyte : s.inp.read 0 = c.opcode := by
    rw [hinp, Memory.ofBytes_read]
    rfl
  exact step_of_tape hp hlen (by rw [hbyte]; cases c <;> rfl)

/-! ## The operands of the G1 and G2 calls -/

section
variable {α : Type} {F : Fld α} {f : PrimeField} {s1 : State} {field : FieldRef} {c : CurveFields}

/-- `PointBytes` (45_dispatcher.md R393). -/
theorem Parses.pointBytes (hr : Ready s1 f) (r : Pt α) : Parses s1 [] (Machine.pointBytes F r) (pointResult f F r) s1 :=
  .silent rfl fun o g => ⟨g, pointBytes_ok (s := (s1.setOff o).setFlags g) hr.pf hr.lp r⟩

/-- The coefficient a decoded group keeps is that of its fields (44_decoder.md R339). -/
theorem ofCoords_groupOf_a (hF : F.Coordinates) : F.ofCoords (groupOf f F field c).a = elemOf f F c.a := hF.back _

theorem Checked.callAdd (hF : F.Coordinates) (hr : Ready s1 f) {p1 p2 : PointFields} (hw1 : pointWidth f.lp F.deg p1 = true)
    (hw2 : pointWidth f.lp F.deg p2 = true) :
    Checked [] s1 (pointFieldBytes f.lp p1 ++ pointFieldBytes f.lp p2)
      (pointChecks f F (elemOf f F c.a) (elemOf f F c.b) p1 ++ pointChecks f F (elemOf f F c.a) (elemOf f F c.b) p2)
      (Machine.callAdd F (groupOf f F field c))
      (pointResult f F (ptAdd F (elemOf f F c.a) (pointOf f F p1) (pointOf f F p2))) s1 := by
  rw [← pointChecks_groupOf (field := field) hF, ← pointChecks_groupOf (field := field) hF,
    ← ofCoords_groupOf_a (field := field) hF]
  exact .bind (.decPoint hr hw1) fun _ => .bindEnd (.decPoint hr hw2) fun _ => .pointBytes hr _

theorem Checked.callMul (hF : F.Coordinates) (hr : Ready s1 f) (hl : s1.cur.lq = some c.ord.length) {p : PointFields} {e : Nat}
    (hw : pointWidth f.lp F.deg p = true) (he : scalarWidth c e = true) :
    Checked [] s1 (pointFieldBytes f.lp p ++ scalarBytes c e)
      (pointChecks f F (elemOf f F c.a) (elemOf f F c.b) p ++ scalarChecks c e) (Machine.callMul F (groupOf f F field c))
      (pointResult f F (ptScalarMul F (elemOf f F c.a) (pointOf f F p) e)) s1 := by
  rw [← pointChecks_groupOf (field := field) hF, ← ofCoords_groupOf_a (field := field) hF]
  exact .bind (.decPoint hr hw) fun _ => .bindEnd (.decScalar hl rfl he) fun _ => .pointBytes hr _

/-- The points and the scalars of a list are of one length, and the list again (42_curve_group.md R240). -/
theorem Parses.multiExp (a : α) (q : Nat) (list : List (Pt α × Nat)) :
    Parses s1 [] (Machine.multiExp F a q (list.map Prod.fst) (list.map Prod.snd)) (ptMultiExp F a q list) s1 := by
  have hlen : ((list.map Prod.fst).length == (list.map Prod.snd).length) = true := by simp
  have hzip : (list.map Prod.fst).zip (list.map Prod.snd) = list := (List.zip_of_prod rfl rfl).symm
  rw [← congrArg (ptMultiExp F a q) hzip]
  exact .silentBind (.require hlen _) <| .pure _

theorem Checked.callMexp (hF : F.Coordinates) (hr : Ready s1 f) (hl : s1.cur.lq = some c.ord.length)
    {list : List (PointFields × Nat)} (hw : mexpListWidth f.lp F.deg c list = true) :
    Checked [] s1 (mexpListBytes f.lp c list) (mexpChecks f F c list) (Machine.callMexp F (groupOf f F field c))
      (pointResult f F (ptMultiExp F (elemOf f F c.a) (bytesToNat c.ord) (entriesOf f F list))) s1 := by
  simp only [mexpListWidth, Bool.and_eq_true, List.all_eq_true] at hw
  obtain ⟨hn, hwidths⟩ := hw
  simp only [mexpChecks, ← pointChecks_groupOf (field := field) hF]
  rw [← ofCoords_groupOf_a (field := field) hF]
  exact .bindEnd (.bind (xs := [_]) (.decCount hn) fun _ => .decEntries hr hl rfl hwidths) fun _ =>
    .silentBind (.multiExp _ _ _) <| .pointBytes hr _

end

/-! ## The G1 calls -/

section
variable {s : State} {mb : List Byte} {c : CurveFields} {rest : List Byte}

/-- `BASE ; CURVE(Fp)`. -/
theorem Checked.decG1 (hmb : prefixFits mb = true) (hw : curveWidth mb.length 1 c = true) :
    Checked rest s.beginCall (prefixedBytes mb ++ curveBytes mb.length c) (modulusChecks mb ++ curveChecks (callField mb) c)
      Machine.decG1 (callField mb, groupOf (callField mb) (fpFld (callField mb)) .fp c) (s.afterG1 mb c) :=
  .bind (.decBase hmb rfl) fun _ => .afterSilent (.getPF rfl) <|
    .bindParses (.decCurve (s.afterBase_ready mb) hw rfl) fun _ => .silentBind (.getCG rfl) <| .pure _

/-- A G1 call makes its checks and gives its result. -/
theorem runsCall_g1 (s : State) {c : Call} (hi : c.instr = .g1add ∨ c.instr = .g1mul ∨ c.instr = .g1mexp)
    (hw : c.encodable = true) : ∃ body, RunsCall c s body := by
  cases c <;> simp only [Call.instr, reduceCtorEq, or_self] at hi <;> simp only [Call.encodable, Bool.and_eq_true] at hw
  case g1add mb c p1 p2 =>
    obtain ⟨⟨⟨hmb, hcurve⟩, hp1⟩, hp2⟩ := hw
    refine ⟨_, fun _ => rfl, .bind fun _ => .callAdd _ _, s.afterG1 mb c, ?_⟩
    rw [callPayload, List.append_assoc]
    exact .bind (.decG1 hmb hcurve) fun _ => .callAdd (fpFld_coordinates _) (s.afterG1_ready mb c) hp1 hp2
  case g1mul mb c p e =>
    obtain ⟨⟨⟨hmb, hcurve⟩, hp⟩, he⟩ := hw
    refine ⟨_, fun _ => rfl, .bind fun _ => .callMul _ _, s.afterG1 mb c, ?_⟩
    rw [callPayload, List.append_assoc]
    exact .bind (.decG1 hmb hcurve) fun _ => .callMul (fpFld_coordinates _) (s.afterG1_ready mb c) rfl hp he
  case g1mexp mb c list =>
    obtain ⟨⟨hmb, hcurve⟩, hlist⟩ := hw
    exact ⟨_, fun _ => rfl, .bind fun _ => .callMexp _ _, s.afterG1 mb c,
      .bind (.decG1 hmb hcurve) fun _ => .callMexp (fpFld_coordinates _) (s.afterG1_ready mb c) rfl hlist⟩

end

/-- Settles O56: a G1 call makes exactly the checks of its fields, in their order, before it answers. -/
theorem g1CallsGiveTheirResult : Obligations.G1CallsGiveTheirResult := by
  intro s c hi hw hinp
  obtain ⟨body, h⟩ := runsCall_g1 s hi hw
  exact ⟨h.exec_pass hinp, fun _ => h.exec_fail hinp, step_eq_exec hinp⟩

/-! ## The G2 calls -/

/-- The state after `BASE ; EXTHDR ; CURVE(Fqd)` over the field `F` of the header `h` (44_decoder.md R340). -/
def State.afterG2 (s : State) (mb : List Byte) (h : ExtHeader) (c : CurveFields) {α : Type} (F : Fld α) : State :=
  (((s.afterBase mb).setEX (degreeLevel h.deg) (freshLevel (degreeLevel h.deg) [(callField mb).toMont h.nr])).setLq
    c.ord.length).setCG .g2 (groupOf (callField mb) F (.level (degreeLevel h.deg)) c)

section
variable {s : State} {mb : List Byte} {h : ExtHeader} {c : CurveFields}

theorem State.afterG2_ready (s : State) (mb : List Byte) (h : ExtHeader) (c : CurveFields) {α : Type} (F : Fld α) :
    Ready (s.afterG2 mb h c F) (callField mb) :=
  (((s.afterBase_ready mb).setEX _ _).setLq _).setCG _ _

/-- `CURVE(Fqd)` of a G2 call. -/
theorem Checked.decG2 {α : Type} {F : Fld α} {f : PrimeField} {s1 : State} {d : Nat} {rest : List Byte} (hr : Ready s1 f)
    (hg : s1.cg2 = none) (hw : curveWidth f.lp F.deg c = true) :
    Checked rest s1 (curveBytes f.lp c) (curveChecks f c) (Machine.decG2 F d) (groupOf f F (.level (degreeLevel d)) c)
      ((s1.setLq c.ord.length).setCG .g2 (groupOf f F (.level (degreeLevel d)) c)) :=
  .bindParses (.decCurve hr hw hg) fun _ => .getCG (State.setCG_cg_same _ _ _)

/-- A G2 call: the base field, the extension and the curve, then its own operands over the field of the extension; a degree that
is none ends it before the curve. -/
theorem Checked.g2Body {k : {α : Type} → Fld α → CurveGroup → M (List Byte)} {ds : {α : Type} → PrimeField → Fld α → Checks}
    {w : {α : Type} → Fld α → List Byte} {ys : List Byte} (hmb : prefixFits mb = true) (hext : extWidth mb.length h = true)
    (hw : curveWidth mb.length h.deg c = true)
    (hk : ∀ {α : Type} {F : Fld α}, F.Coordinates → F.deg = h.deg → Checked [] (s.afterG2 mb h c F) ys (ds (callField mb) F)
      (k F (groupOf (callField mb) F (.level (degreeLevel h.deg)) c)) (w F) (s.afterG2 mb h c F)) :
    Checked [] s.beginCall (prefixedBytes mb ++ extBytes mb.length h ++ curveBytes mb.length c ++ ys) (g2Checks mb h c ds) (do
      Machine.decBase
      let d ← Machine.decExtHdr [2, 3] (fun d => d)
      Machine.withDegree d (fun F => do
        let c ← Machine.decG2 F d
        k F c)) (withExt (callField mb) h fun F => w F) (withExt (callField mb) h fun F => s.afterG2 mb h c F) := by
  have hready := (s.afterBase_ready mb).setEX (degreeLevel h.deg) (freshLevel (degreeLevel h.deg) [(callField mb).toMont h.nr])
  simp only [g2Checks, List.append_assoc]
  refine .bind (.decBase hmb rfl) fun hm => .bind (.decExtHdr (n := fun d => d) (s.afterBase_ready mb)
    (callField_legal ((firstError_modulus_none mb).1 hm)) hext (ExFile.unset_get _)) fun he =>
    .afterSilent (.getPF hready.pf) ?_
  obtain ⟨hdeg, -⟩ := firstError_ext_none.1 he
  obtain ⟨d, nr⟩ := h
  rw [List.mem_pair] at hdeg
  rcases hdeg with rfl | rfl
  · exact .afterSilent (.getEX (l := .fq2) rfl) <| .bind (.decG2 hready rfl hw) fun _ => hk (fq2Fld_coordinates _ _) rfl
  · exact .afterSilent (.getEX (l := .fq3) rfl) <| .bind (.decG2 hready rfl hw) fun _ => hk (fq3Fld_coordinates _ _) rfl

/-- The bodies of the G2 calls end only when every byte is read. -/
theorem EndsAtEnd.g2Body {k : {α : Type} → Fld α → CurveGroup → M (List Byte)}
    (hk : ∀ {α : Type} (F : Fld α) (c : CurveGroup), EndsAtEnd (k F c)) :
    EndsAtEnd (do
      Machine.decBase
      let d ← Machine.decExtHdr [2, 3] (fun d => d)
      Machine.withDegree d (fun F => do
        let c ← Machine.decG2 F d
        k F c)) :=
  .bind fun _ => .bind fun d => .withDegree d fun _ => .bind fun _ => hk _ _

/-- A G2 call makes its checks and gives its result. -/
theorem runsCall_g2 (s : State) {c : Call} (hi : c.instr = .g2add ∨ c.instr = .g2mul ∨ c.instr = .g2mexp)
    (hw : c.encodable = true) : ∃ body, RunsCall c s body := by
  cases c <;> simp only [Call.instr, reduceCtorEq, or_self] at hi <;> simp only [Call.encodable, Bool.and_eq_true] at hw
  case g2add mb h c p1 p2 =>
    obtain ⟨⟨⟨⟨hmb, hext⟩, hcurve⟩, hp1⟩, hp2⟩ := hw
    refine ⟨_, fun _ => rfl, .g2Body .callAdd, withExt (callField mb) h fun F => s.afterG2 mb h c F, ?_⟩
    rw [callPayload, callChecks, callResult, List.append_assoc _ _ (pointFieldBytes _ p2)]
    exact .g2Body hmb hext hcurve fun hF hd => .callAdd hF (s.afterG2_ready mb h c _) (hd ▸ hp1) (hd ▸ hp2)
  case g2mul mb h c p e =>
    obtain ⟨⟨⟨⟨hmb, hext⟩, hcurve⟩, hp⟩, he⟩ := hw
    refine ⟨_, fun _ => rfl, .g2Body .callMul, withExt (callField mb) h fun F => s.afterG2 mb h c F, ?_⟩
    rw [callPayload, callChecks, callResult, List.append_assoc _ _ (scalarBytes c e)]
    exact .g2Body hmb hext hcurve fun hF hd => .callMul hF (s.afterG2_ready mb h c _) rfl (hd ▸ hp) he
  case g2mexp mb h c list =>
    obtain ⟨⟨⟨hmb, hext⟩, hcurve⟩, hlist⟩ := hw
    refine ⟨_, fun _ => rfl, .g2Body .callMexp, withExt (callField mb) h fun F => s.afterG2 mb h c F, ?_⟩
    rw [callPayload, callChecks, callResult]
    exact .g2Body hmb hext hcurve fun hF hd => .callMexp hF (s.afterG2_ready mb h c _) rfl (hd ▸ hlist)

end

/-- Settles O57: the same for a G2 call, over either degree or with a degree that is none. -/
theorem g2CallsGiveTheirResult : Obligations.G2CallsGiveTheirResult := by
  intro s c hi hw hinp
  obtain ⟨body, h⟩ := runsCall_g2 s hi hw
  exact ⟨h.exec_pass hinp, fun _ => h.exec_fail hinp, step_eq_exec hinp⟩

end Sys2Proof.Machine

/-! PROOF. The pairing calls, with good or bad fields (45_dispatcher.md R387 to R390, R394; O58, O59). Their tables exist: 6 divides
`p - 1` where `DEC.TOWER` goes on, and the non-residue check of an MNT header makes its divisions exact. So no free value is met. -/

namespace Sys2Proof.Machine

/-! ## Towers with their tables -/

section
variable {f : PrimeField}

/-- A level with its tables has no use for the free-value counter (log 5). -/
theorem mkTow_valid {α : Type} (F : Fld α) (p c d : Nat) (l : Level) (real : α → Nat → α) :
    mkTow F p c l true real = mkTow F p d l true real := rfl

theorem towFq2_valid {e2 : ExtField} (h2 : e2.frobValid = true) (c d : Nat) : towFq2 f c e2 = towFq2 f d e2 := by
  simp only [towFq2, h2]
  exact mkTow_valid ..

theorem towFq3_valid {e3 : ExtField} (h3 : e3.frobValid = true) (c d : Nat) : towFq3 f c e3 = towFq3 f d e3 := by
  simp only [towFq3, h3]
  exact mkTow_valid ..

theorem towFq4_valid {e2 e4 : ExtField} (h2 : e2.frobValid = true) (h4 : e4.frobValid = true) (c d : Nat) :
    towFq4 f c e2 e4 = towFq4 f d e2 e4 := by
  have hvalid : (towFq2 f d e2).valid = true := h2
  simp only [towFq4, towFq2_valid h2 c d, hvalid, h4]
  exact mkTow_valid ..

theorem towFq6c_valid {e2 e6 : ExtField} (h2 : e2.frobValid = true) (h6 : e6.frobValid = true) (c d : Nat) :
    towFq6c f c e2 e6 = towFq6c f d e2 e6 := by
  have hvalid : (towFq2 f d e2).valid = true := h2
  simp only [towFq6c, towFq2_valid h2 c d, hvalid, h6]
  exact mkTow_valid ..

theorem towFq6q_valid {e3 e6 : ExtField} (h3 : e3.frobValid = true) (h6 : e6.frobValid = true) (c d : Nat) :
    towFq6q f c e3 e6 = towFq6q f d e3 e6 := by
  have hvalid : (towFq3 f d e3).valid = true := h3
  simp only [towFq6q, towFq3_valid h3 c d, hvalid, h6]
  exact mkTow_valid ..

theorem towFq12_valid {e2 e6 e12 : ExtField} (h2 : e2.frobValid = true) (h6 : e6.frobValid = true) (h12 : e12.frobValid = true)
    (c d : Nat) : towFq12 f c e2 e6 e12 = towFq12 f d e2 e6 e12 := by
  have hvalid : (towFq6c f d e2 e6).valid = true := Bool.and_eq_true_iff.2 ⟨h2, h6⟩
  simp only [towFq12, towFq2_valid h2 c d, towFq6c_valid h2 h6 c d, hvalid, h12]
  exact mkTow_valid ..

end

/-! ## The shared steps -/

section
variable {s0 : State} {f : PrimeField}

/-- Tables that exist. -/
theorem tabledLevel_valid {l : Level} {nr : List Nat} {o : Option (List (List Nat) × List (List Nat))} (h : o.isSome = true) :
    (tabledLevel l nr o).frobValid = true := by
  cases o with
  | none => cases h
  | some tt => rfl

/-- `CALC_FROB` where the tables exist, with the block named by its tables. -/
theorem Parses.calcFrobOf {l : Level} {nr : List Nat} {o : Option (List (List Nat) × List (List Nat))}
    (ho : o.isSome = true) (he : s0.ex.get l = some (freshLevel l nr)) (ht : ∀ i g, TablesOf ((s0.setOff i).setFlags g) l o) :
    Parses s0 [] (Machine.calcFrob l) true (s0.setEX l (tabledLevel l nr o)) := by
  obtain ⟨tt, rfl⟩ := Option.isSome_iff_exists.1 ho
  exact .calcFrob he ht

/-- `CALC_FROB_PRE` where the tables exist, whatever the free-value counter. -/
theorem Parses.calcFrobPreOf {e2 : ExtField} {l : PreLevel} {nr : List Nat} {f1 : E2} (hdvd : (f.p - 1) % 6 = 0)
    (hf : s0.pf = some f) (h2 : s0.ex.fq2 = some e2) (hvalid : e2.frobValid = true)
    (he : s0.ex.get (preLevelLevel l) = some (freshLevel (preLevelLevel l) nr)) :
    Parses s0 [] (Machine.calcFrobPre l f1) true
      (s0.setEX (preLevelLevel l) (tabledLevel (preLevelLevel l) nr (preTablesOf (towFq2 f 0 e2) f.p l f1))) := by
  obtain ⟨tt, ht⟩ := preTablesOf_exists (towFq2 f 0 e2) l f1 hdvd
  rw [ht]
  exact .calcFrobPre hf h2 hvalid he (by rw [towFq2_valid hvalid _ 0, ht])

/-- No free value was used. -/
theorem Parses.noteFree {valid : Bool} (h : valid = true) : Parses s0 [] (Machine.noteFree valid) () s0 :=
  .silent rfl fun _ g => ⟨g, by rw [noteFree_apply, h]; rfl⟩

theorem Parses.getPE {e : Engine} (h : s0.pe = some e) : Parses s0 [] Machine.getPE e s0 := .silent rfl fun _ g => ⟨g, getPE_some h⟩

theorem Parses.getPEField {α : Type} {o : Option α} {v : α} (h : o = some v) : Parses s0 [] (Machine.getPEField o) v s0 :=
  .silent rfl fun _ g => ⟨g, by rw [h]; rfl⟩

theorem Parses.constructPE (e : Engine) (h : s0.pe = none) : Parses s0 [] (Machine.constructPE e) () (s0.setPE e) :=
  .silent rfl fun _ g => ⟨g, constructPE_new h⟩

theorem Parses.look {α : Type} {g : State → α} (h : ∀ o fl, g ((s0.setOff o).setFlags fl) = g s0) :
    Parses s0 [] (Machine.look g) (g s0) s0 :=
  .silent rfl fun o fl => ⟨fl, by rw [look_apply, h]⟩

/-- The result byte of a pairing call (45_dispatcher.md R394). -/
theorem Parses.pairingResult (b : Bool) : Parses s0 [] (Machine.pairingResult b) (oneByte b) s0 :=
  .silentBind (.setFlags _) <| .pure _

/-- The widths of `COUNT` and of each pair (30_encoding.md R88). -/
theorem pairsWidth_iff {lp d : Nat} {prs : List PairFields} : pairsWidth lp d prs = true ↔ byteFits prs.length = true ∧
    ∀ pr ∈ prs, (byteFits pr.chk1 && pointWidth lp 1 pr.p && byteFits pr.chk2 && pointWidth lp d pr.q) = true := by
  rw [pairsWidth, Bool.and_eq_true, List.all_eq_true]

/-! ## What `RES.is_one` holds -/

/-- A sequence of steps that, when it runs to its end, has set `RES.is_one` to what its result byte says (45_dispatcher.md R394). -/
def MarksOne (m : M (List Byte)) : Prop := ∀ s bs t, m s = .ok bs t → t.flags.isOne = some (bs == [0x01])

theorem MarksOne.bind {α : Type} {m : M α} {k : α → M (List Byte)} (hk : ∀ a, MarksOne (k a)) : MarksOne (m >>= k) := by
  intro s bs t h
  obtain ⟨a, u, -, hu⟩ := M.bind_ok h
  exact hk a u bs t hu

theorem MarksOne.pairingResult (b : Bool) : MarksOne (Machine.pairingResult b) := by
  intro s bs t h
  cases h
  cases b <;> rfl

theorem MarksOne.callTwisted (isBn : Bool) : MarksOne (Machine.callTwisted isBn) := by
  refine .bind fun _ => .bind fun _ => .bind fun _ => .bind fun _ => .bind fun _ => .bind fun _ => .bind fun _ => ?_
  cases isBn
  case' true => refine .bind fun _ => ?_
  all_goals
    exact .bind fun _ => .bind fun _ => .bind fun _ => .bind fun _ => .bind fun _ => .bind fun _ => .bind fun _ => .bind fun _ =>
      .pairingResult _

theorem MarksOne.mnt4Body : MarksOne Machine.mnt4Body :=
  .bind fun _ => .bind fun _ => .bind fun _ => .bind fun _ => .bind fun _ => .bind fun _ => .bind fun _ => .pairingResult _

theorem MarksOne.mnt6Body : MarksOne Machine.mnt6Body :=
  .bind fun _ => .bind fun _ => .bind fun _ => .bind fun _ => .bind fun _ => .bind fun _ => .bind fun _ => .pairingResult _

end

end Sys2Proof.Machine

/-! PROOF. The BLS12 and BN calls, with good or bad fields (45_dispatcher.md R387, R388; O58). -/

namespace Sys2Proof.Machine

/-! ## The levels of the call -/

/-- The state after `DEC.TOWER`: the three levels with their tables (44_decoder.md R345). -/
def State.withTower (s : State) (f : PrimeField) (β : Nat) (xi : E2) : State :=
  ((s.setEX .fq2 (twistedLevels f β xi).1).setEX .fq6c (twistedLevels f β xi).2.1).setEX .fq12 (twistedLevels f β xi).2.2

section
variable {f : PrimeField} {β : Nat} {xi : E2} {s0 : State} {rest : List Byte}

/-- 2 divides `p - 1`, so the table of `FQ2` exists (41_extension_tower.md R184). -/
theorem callFq2_tables (β : Nat) (h : 2 ∣ f.p - 1) : (quadTables (frobTable (fpFld f) f.p β 2 1 2)).isSome = true :=
  Option.isSome_iff_exists.2 (quadTables_exists β 1 h)

theorem two_dvd_of_legal (hf : f.legal = true) : 2 ∣ f.p - 1 := by
  have hodd := PrimeField.odd_of_legal hf
  omega

theorem preTablesOf_isSome (T2 : Tow E2) (l : PreLevel) (f1 : E2) (h : (f.p - 1) % 6 = 0) :
    (preTablesOf T2 f.p l f1).isSome = true :=
  Option.isSome_iff_exists.2 (preTablesOf_exists T2 l f1 h)

/-- The tower a call works in is read from the levels it built, whatever the free-value counter. -/
theorem Parses.getTwistedTower (hf : f.legal = true) (hdvd : (f.p - 1) % 6 = 0) (hpf : s0.pf = some f)
    (h2 : s0.ex.fq2 = some (twistedLevels f β xi).1) (h6 : s0.ex.fq6c = some (twistedLevels f β xi).2.1)
    (h12 : s0.ex.fq12 = some (twistedLevels f β xi).2.2) :
    Parses s0 [] Machine.getBnTower (twistedTower f β xi) s0 := by
  have hv2 : (twistedLevels f β xi).1.frobValid = true := tabledLevel_valid (callFq2_tables β (two_dvd_of_legal hf))
  have hv6 : (twistedLevels f β xi).2.1.frobValid = true := tabledLevel_valid (preTablesOf_isSome _ .fq6c _ hdvd)
  have hv12 : (twistedLevels f β xi).2.2.frobValid = true := tabledLevel_valid (preTablesOf_isSome _ .fq12 _ hdvd)
  refine .silent rfl fun o g => ⟨g, getBnTower_of ⟨f, _, _, _, hpf, h2, h6, h12, ?_⟩⟩
  rw [twistedTower, towFq2_valid hv2 0, towFq6c_valid hv2 hv6 0, towFq12_valid hv2 hv6 hv12 0]

theorem twistedTower_t2_fld : (twistedTower f β xi).t2.fld = fq2Fld (fpFld f) β := by
  show fq2Fld (fpFld f) ((callFq2 f β).nonResidue.headD 0) = _
  rw [callFq2, tabledLevel_nonResidue]
  rfl

theorem twistedTower_t12_valid (hf : f.legal = true) (hdvd : (f.p - 1) % 6 = 0) : (twistedTower f β xi).t12.valid = true := by
  have hv2 : (twistedLevels f β xi).1.frobValid = true := tabledLevel_valid (callFq2_tables β (two_dvd_of_legal hf))
  have hv6 : (twistedLevels f β xi).2.1.frobValid = true := tabledLevel_valid (preTablesOf_isSome _ .fq6c _ hdvd)
  have hv12 : (twistedLevels f β xi).2.2.frobValid = true := tabledLevel_valid (preTablesOf_isSome _ .fq12 _ hdvd)
  show (((twistedLevels f β xi).1.frobValid && _) && _) = true
  rw [hv2, hv6, hv12]
  rfl

/-! ## The steps -/

/-- `DEC.XI` (44_decoder.md R341). -/
theorem Checked.decXi {v : List Nat} (hr : Ready s0 f) (h2 : s0.ex.fq2 = some (freshLevel .fq2 [β]))
    (hw : elementWidth f.lp 2 v = true) :
    Checked rest s0 (elementBytes f.lp v) (xiChecks f (fq2Fld (fpFld f) β) v) Machine.decXi (elemOf f (fq2Fld (fpFld f) β) v) s0 :=
  .afterSilent (.getPF hr.pf) <| .afterSilent (.getEX (l := .fq2) h2) <| .bindSilent (.decElem hr hw) fun _ =>
    .afterRequire fun _ => .afterRequire fun _ => .bindParses (.require _ _) fun _ => .pure _

/-- A value that is there exactly when a check passes. -/
theorem Checked.requireSome {α : Type} {o : Option α} {ok : Bool} {v : α} {e : Err} (h : o = if ok then some v else none) :
    Checked rest s0 [] [(ok, e)] (Machine.requireSome o e) v s0 where
  frame _ := rfl
  pass hok s hs := by
    cases ok with
    | true => exact ⟨s, by rw [h]; rfl, hs⟩
    | false => cases hok
  fail {e' s} hok hs := by
    cases ok with
    | true => cases hok
    | false =>
      cases hok
      exact ⟨s, by rw [h]; rfl, hs.resetCall⟩

/-- The bytes that name a twist (44_decoder.md R344). -/
theorem twistOfByte_eq (b : Nat) : twistOfByte b = if b == 1 || b == 2 then some (twistOf b) else none := by
  fun_cases twistOfByte b
  case case3 h1 h2 => rw [beq_false_of_ne h1, beq_false_of_ne h2]; rfl
  all_goals rfl

/-- The multiplier of the twist (44_decoder.md R344). -/
theorem Checked.twistMultiplier {F2 : Fld E2} {b : Nat} (hb : b = 1 ∨ b = 2) :
    Checked rest s0 [] [(b == 1 || (F2.inv xi).1, .twist)] (Machine.twistMultiplier F2 (twistOf b) xi) (twistFactor F2 b xi) s0 := by
  rcases hb with rfl | rfl
  · exact (Parses.pure xi).checked.congr rfl
  · exact .afterSilent (.setFlags _) <| .bindParses (.require _ _) fun _ => .pure _

/-- `DEC.TWIST` (44_decoder.md R344). -/
theorem Checked.decTwist {b : Nat} {c1 : CurveGroup} (hr : Ready s0 f) (h2 : s0.ex.fq2 = some (freshLevel .fq2 [β]))
    (hg1 : s0.cg1 = some c1) (hg2 : s0.cg2 = none) (hw : byteFits b = true) :
    Checked rest s0 [byteOf b] (twistChecks (fq2Fld (fpFld f) β) b xi) (Machine.decTwist xi) (twistOf b)
      (s0.setCG .g2 (twistedGroup (fq2Fld (fpFld f) β) c1 (twistFactor (fq2Fld (fpFld f) β) b xi))) := by
  refine .afterSilent (.getPF hr.pf) <| .afterSilent (.getEX (l := .fq2) h2) <|
    .afterRead (.readByte (Nat.lt_succ_of_le (of_decide_eq_true hw))) <| .bind (xs := []) (cs := [_])
    (.requireSome (twistOfByte_eq b)) fun hb => ?_
  have hb : b = 1 ∨ b = 2 := by simpa [firstError_none_iff] using hb
  exact .afterSilent (.getCG hg1) <| .afterSilent (.newCG _ hg2) <| .bindParses (.twistMultiplier hb) fun _ =>
    .silentBind (.twistCG2 _ _ rfl) <| .pure _

/-- `DEC.TOWER` (44_decoder.md R345). -/
theorem Checked.decTower (hr : Ready s0 f) (hf : f.legal = true) (h2 : s0.ex.fq2 = some (freshLevel .fq2 [β]))
    (h6 : s0.ex.fq6c = none) (h12 : s0.ex.fq12 = none) :
    Checked rest s0 [] (towerChecks f) (Machine.decTower xi) () (s0.withTower f β xi) := by
  have htables := callFq2_tables β (two_dvd_of_legal hf)
  have hvalid : (callFq2 f β).frobValid = true := tabledLevel_valid htables
  refine .afterSilent (.getPF hr.pf) <| .afterSilent (.getEX (l := .fq2) h2) <|
    .afterSilent (.calcFrobOf htables h2 fun _ _ => .fq2 f (freshLevel .fq2 [β]) hr.pf h2) <|
    .afterSilent (.require rfl _) <| .afterRequire fun h => ?_
  have hdvd : (f.p - 1) % 6 = 0 := beq_iff_eq.1 h
  exact Parses.checked <| .silentBind (.newEX _ h6) <|
    .silentBind (.calcFrobPreOf (l := .fq6c) hdvd hr.pf rfl hvalid rfl) <| .silentBind (.require rfl _) <|
    .silentBind (.newEX _ h12) <| .silentBind (.calcFrobPreOf (l := .fq12) hdvd hr.pf rfl hvalid rfl) <| .require rfl _

/-- `PE.NEW` for BN and BLS12 (43_pairing.md R262). -/
theorem Parses.newTwistedPE {c1 c2 : CurveGroup} {e12 : ExtField} (isBn : Bool) (t : Twist) (x : Nat) (xNeg : Bool)
    (hg1 : s0.cg1 = some c1) (hg2 : s0.cg2 = some c2) (h12 : s0.ex.fq12 = some e12) (hpe : s0.pe = none) :
    Parses s0 [] (Machine.newPE (if isBn then .bn else .bls12) t x xNeg 0 0 false) ()
      (s0.setPE (twistedEngine s0.cfg.forceBinary isBn t x xNeg)) := by
  cases isBn <;>
    exact .silentBind (.getCG (g := .g1) hg1) <| .silentBind (.getCG (g := .g2) hg2) <|
      .silentBind (.getEX (l := .fq12) h12) <| .silentBind (.look fun _ _ => rfl) <| .constructPE _ hpe

/-- `MULTI_PAIR` for BN and BLS12 with every table computed (43_pairing.md R264). -/
theorem Parses.multiPairTwisted {t : BnTower} (h12 : t.t12.valid = true) (fb isBn : Bool) (tw : Twist) (x : Nat) (xNeg : Bool)
    (ms : List (MillerPair E2 Unit)) :
    Parses s0 [] (Machine.multiPairBn t (twistedEngine fb isBn tw x xNeg) isBn ms)
      (bnMultiPair t tw isBn ((twistedEngine fb isBn tw x xNeg).digits.getD [])
        (if isBn then (twistedEngine fb isBn tw x xNeg).loopNeg.getD false else xNeg) x xNeg ms) s0 := by
  refine .silentBind (.getPEField rfl) <| .silentBind (.getPEField rfl) <| .silentBind ?_ <| .silentBind (.noteFree h12) <| .pure _
  cases isBn with
  | true => exact .getPEField rfl
  | false => exact .pure _

end

/-! ## The call -/

section
variable {s : State} {mb : List Byte} {c : CurveFields} {t : TwistedFields}

/-- The state of a BLS12 or BN call whose set-up is decoded (44_decoder.md R340 to R345). -/
def State.afterTwisted (s : State) (mb : List Byte) (c : CurveFields) (t : TwistedFields) : State :=
  let f := callField mb
  let F2 := fq2Fld (fpFld f) (f.toMont t.ext.nr)
  let xi := elemOf f F2 t.xi
  (((s.afterG1 mb c).setEX .fq2 (freshLevel .fq2 [f.toMont t.ext.nr])).setCG .g2
    (twistedGroup F2 (groupOf f (fpFld f) .fp c) (twistFactor F2 t.twist xi))).withTower f (f.toMont t.ext.nr) xi

/-- A BLS12 or BN call makes its checks and gives its byte. -/
theorem Checked.callTwisted (isBn : Bool) (hmb : prefixFits mb = true) (hw : curveWidth mb.length 1 c = true)
    (hwt : twistedWidth mb.length t = true) :
    Checked [] s.beginCall (prefixedBytes mb ++ curveBytes mb.length c ++ twistedBytes mb.length t) (twistedChecks mb c t isBn)
      (Machine.callTwisted isBn) (oneByte (twistedResult s.cfg.forceBinary mb t isBn))
      ((s.afterTwisted mb c t).setPE (twistedEngine s.cfg.forceBinary isBn (twistOf t.twist) (bytesToNat t.loop) (t.neg == 1))) := by
  simp only [twistedWidth, Bool.and_eq_true] at hwt
  obtain ⟨⟨⟨⟨⟨hext, hxi⟩, htw⟩, hloop⟩, hneg⟩, hpairs⟩ := hwt
  obtain ⟨hn, hprs⟩ := pairsWidth_iff.1 hpairs
  have hready := (s.afterG1_ready mb c).setEX .fq2 (freshLevel .fq2 [(callField mb).toMont t.ext.nr])
  have hready1 : Ready (s.afterTwisted mb c t) (callField mb) := (((hready.setCG .g2 _).setEX _ _).setEX _ _).setEX _ _
  rw [twistedBytes_eq]
  simp only [twistedChecks, List.append_assoc]
  rw [← List.append_assoc (modulusChecks mb), ← List.append_assoc (prefixedBytes mb)]
  refine .bind (.decG1 hmb hw) fun hbase => ?_
  rw [firstError_append_none] at hbase
  have hf := callField_legal ((firstError_modulus_none mb).1 hbase.1)
  refine .bind (.decExtHdr (n := fun _ => 2) (s.afterG1_ready mb c) hf hext (ExFile.unset_get _)) fun hcext => ?_
  have hdeg : degreeLevel t.ext.deg = .fq2 := if_pos (List.mem_singleton.1 (firstError_ext_none.1 hcext).1)
  rw [hdeg]
  refine .bind (.decXi hready rfl hxi) fun _ => .bind (.decTwist hready rfl rfl rfl htw) fun _ =>
    .bind (xs := []) (.decTower (hready.setCG .g2 _) hf rfl rfl rfl) fun hctower => ?_
  have hdvd : ((callField mb).p - 1) % 6 = 0 := by simpa [towerChecks, firstError_none_iff] using hctower
  refine .bind (.decLoop hloop) fun _ => .bind (.readFlag hneg) fun _ => ?_
  have htower := Parses.getTwistedTower (s0 := s.afterTwisted mb c t) hf hdvd hready1.pf rfl rfl rfl
  cases isBn
  case' false => rw [if_neg Bool.false_ne_true, List.nil_append]
  case' true => refine .bind (xs := []) (.require _ _) fun _ => ?_
  all_goals
    refine .bind (.decCount hn) fun _ => .afterSilent htower <| .afterSilent (.getCG (g := .g2) rfl) ?_
    rw [twistedTower_t2_fld]
    exact .bindEnd (.decPairs hready1 hprs) fun _ => .silentBind (.newTwistedPE _ _ _ _ rfl rfl rfl rfl) <|
      .silentBind (.getPE rfl) <| .silentBind (.multiPairTwisted (twistedTower_t12_valid hf hdvd) _ _ _ _ _ _) <|
      .pairingResult _

/-- A BLS12 or BN call runs `callTwisted`. -/
theorem runsCall_twisted (s : State) {c : Call} (hi : c.instr = .bls12 ∨ c.instr = .bn) (hw : c.encodable = true) :
    RunsCall c s (Machine.callTwisted (c.instr == .bn)) := by
  cases c <;> simp only [Call.instr, reduceCtorEq, or_self] at hi <;> simp only [Call.encodable, Bool.and_eq_true] at hw
  all_goals
    obtain ⟨⟨hmb, hcurve⟩, ht⟩ := hw
    exact ⟨fun _ => rfl, .callTwisted _, _, .callTwisted _ hmb hcurve ht⟩

end

/-- Settles O58: the call makes exactly the checks of its fields, in their order, and sets `RES.is_one` last. -/
theorem twistedCallsGiveTheirResult : Obligations.TwistedCallsGiveTheirResult := by
  intro s c hi hw hinp
  have h := runsCall_twisted s hi hw
  refine ⟨h.exec_pass hinp, fun _ => h.exec_fail hinp, step_eq_exec hinp, fun hc => ?_⟩
  obtain ⟨t, ht, hoff, hframe⟩ := h.run_pass hinp hc
  exact ⟨t, ht, MarksOne.callTwisted _ _ _ _ ht, hoff.trans (congrArg Memory.len (inp_of_resetCall_eq hframe))⟩

end Sys2Proof.Machine

/-! PROOF. The MNT4 and MNT6 calls, with good or bad fields (45_dispatcher.md R389, R390; O59). -/

namespace Sys2Proof.Machine

/-! ## What the two families share -/

/-- The state of an MNT call whose set-up is decoded: `F` and `l` are the field and level of its G2, `target` the level of `Ft`, and
`o1`, `o2` the tables of the two levels (44_decoder.md R351, R352). -/
def State.afterMnt (s : State) (mb : List Byte) (c : CurveFields) (t : MntFields) {α : Type} (F : Fld α) (l target : Level)
    (o1 o2 : Option (List (List Nat) × List (List Nat))) : State :=
  let f := callField mb
  let tw := F.coords (F.generator f.one)
  (((((s.afterG1 mb c).setEX l (freshLevel l [f.toMont t.ext.nr])).setCG .g2 (mntGroup f F l (groupOf f (fpFld f) .fp c))).setEX l
    (tabledLevel l [f.toMont t.ext.nr] o1)).setEX target (freshLevel target tw)).setEX target (tabledLevel target tw o2)

section
variable {α : Type} {F : Fld α} {f : PrimeField} {s0 : State} {l target : Level} {rest : List Byte}

/-- `LOOP ; SIGN ; W0 ; W1 ; W0_SIGN` (44_decoder.md R346, R347, R353, R354). -/
theorem Checked.decMntLoops {t : MntFields} (hloop : prefixFits t.loop = true) (hneg : byteFits t.neg = true)
    (hw0 : prefixFits t.w0 = true) (hw1 : prefixFits t.w1 = true) (hw0neg : byteFits t.w0Neg = true) :
    Checked rest s0 (prefixedBytes t.loop ++ ([byteOf t.neg] ++ (prefixedBytes t.w0 ++ (prefixedBytes t.w1 ++ [byteOf t.w0Neg]))))
      (loopChecks t.loop ++ (flagChecks t.neg ++ (loopChecks t.w0 ++ (loopChecks t.w1 ++ flagChecks t.w0Neg))))
      Machine.decMntLoops (bytesToNat t.loop, t.neg == 1, bytesToNat t.w0, bytesToNat t.w1, t.w0Neg == 1) s0 :=
  .bind (.decLoop hloop) fun _ => .bind (.readFlag hneg) fun _ => .bind (.decLoop hw0) fun _ => .bind (.decLoop hw1) fun _ =>
    .bindParses (.readFlag hw0neg) fun _ => .pure _

/-- `MULTI_PAIR` for MNT with every table computed (43_pairing.md R264). -/
theorem Parses.multiPairMnt {t : MntTower α} (hvalid : t.tt.valid = true) (one : Nat) (family : Family) (x : Nat) (xNeg : Bool)
    (w0 w1 : Nat) (w0Neg : Bool) (ms : List (MillerPair α Unit)) :
    Parses s0 [] (Machine.multiPairMnt t (mntEngine F one family x xNeg w0 w1 w0Neg) ms)
      (mntMultiPair t x xNeg w0 w1 w0Neg ms) s0 :=
  .silentBind (.getPEField rfl) <| .silentBind (.getPEField rfl) <| .silentBind (.getPEField rfl) <|
    .silentBind (.noteFree hvalid) <| .pure _

/-- The checks of an MNT call in the grouping of its steps (44_decoder.md R357). -/
theorem mntChecks_eq (mb : List Byte) (d n : Nat) (c : CurveFields) (t : MntFields) :
    mntChecks mb F l d n c t = modulusChecks mb ++ curveChecks (callField mb) c ++ (extChecks (callField mb) [d] n t.ext ++
      ((loopChecks t.loop ++ (flagChecks t.neg ++ (loopChecks t.w0 ++ (loopChecks t.w1 ++ flagChecks t.w0Neg)))) ++
        pairsChecks (callField mb) (groupOf (callField mb) (fpFld (callField mb)) .fp c) F
          (mntGroup (callField mb) F l (groupOf (callField mb) (fpFld (callField mb)) .fp c)) t.pairs)) := by
  simp only [mntChecks, List.append_assoc]

/-- An MNT call makes its checks: `d` and `n` are the degrees of its header, `k` what follows the decoded pairs. Where the header
passes, `n` divides `p - 1` (40_prime_field.md R152). -/
theorem Checked.mntCall {s s2 : State} {mb : List Byte} {c : CurveFields} {t : MntFields} {d n : Nat} {family : Family}
    {o1 o2 : Option (List (List Nat) × List (List Nat))} {k : List (MillerPair α Unit) → M (List Byte)} {w : List Byte}
    (hmb : prefixFits mb = true) (hw : curveWidth mb.length 1 c = true) (hwt : mntWidth mb.length F.deg t = true)
    (hl : degreeLevel d = l) (hne : target ≠ l)
    (ht : n ∣ (callField mb).p - 1 → ∃ tt1 tt2, o1 = some tt1 ∧ o2 = some tt2 ∧
      MntTables (callField mb) ((callField mb).toMont t.ext.nr) l target tt1 tt2)
    {fldOf : PrimeField → ExtField → Fld α} (hF : fldOf (callField mb) (freshLevel l [(callField mb).toMont t.ext.nr]) = F)
    (hpe : Parses (s.afterMnt mb c t F l target o1 o2) [] (Machine.newPE family .m (bytesToNat t.loop) (t.neg == 1)
      (bytesToNat t.w0) (bytesToNat t.w1) (t.w0Neg == 1)) () s2)
    (hk : n ∣ (callField mb).p - 1 → Parses s2 [] (k (pairsOf (callField mb) F t.pairs)) w s2) :
    Checked [] s.beginCall (prefixedBytes mb ++ curveBytes mb.length c ++ mntBytes mb.length t) (mntChecks mb F l d n c t) (do
      let fc ← Machine.decG1
      let _ ← Machine.decExtHdr [d] (fun _ => n)
      let e ← Machine.getEX l
      let pairs ← Machine.decMntCall fc.1 fc.2 (fldOf fc.1 e) l target family
      k pairs) w s2 := by
  simp only [mntWidth, Bool.and_eq_true] at hwt
  obtain ⟨⟨⟨⟨⟨⟨hext, hloop⟩, hneg⟩, hw0⟩, hw1⟩, hw0neg⟩, hpairs⟩ := hwt
  obtain ⟨hn, hprs⟩ := pairsWidth_iff.1 hpairs
  have hready := (s.afterG1_ready mb c).setEX l (freshLevel l [(callField mb).toMont t.ext.nr])
  have htwist := hready.setCG .g2 (mntGroup (callField mb) F l (groupOf (callField mb) (fpFld (callField mb)) .fp c))
  have htower : Ready (s.afterMnt mb c t F l target o1 o2) (callField mb) := ((htwist.setEX _ _).setEX _ _).setEX _ _
  rw [mntBytes_eq, mntChecks_eq]
  refine .bind (.decG1 hmb hw) fun hbase => ?_
  rw [firstError_append_none] at hbase
  refine .bind (.decExtHdr (n := fun _ => n) (s.afterG1_ready mb c)
    (callField_legal ((firstError_modulus_none mb).1 hbase.1)) hext (ExFile.unset_get _)) fun hcext => ?_
  obtain ⟨hdeg, -, -, hres⟩ := firstError_ext_none.1 hcext
  have hdvd := PrimeField.dvd_of_nres hres
  obtain ⟨tt1, tt2, rfl, rfl, htables⟩ := ht hdvd
  rw [List.mem_singleton.1 hdeg, hl]
  refine .afterSilent (.getEX (ExFile.put_get_same _ _ _)) ?_
  rw [hF]
  exact .bindParses (.afterSilent (.decMntTwist hready rfl rfl) <|
    .afterSilent (.decMntTower htables hne htwist (ExFile.put_get_same _ _ _)
      ((ExFile.put_get_other _ _ _ _ hne).trans (ExFile.unset_get _))) <|
    .bind (.decMntLoops hloop hneg hw0 hw1 hw0neg) fun _ => .bind (xs := [_]) (.decCount hn) fun _ =>
    .afterSilent (.getCG (g := .g2) rfl) <| .bindEnd (.decPairs htower hprs) fun _ => .silentBind hpe <| .pure _) fun _ => hk hdvd

end

/-! ## MNT4 -/

section
variable {f : PrimeField} {β : Nat} {s0 : State} {c1 : CurveGroup}

/-- `PE.NEW` for MNT4 (43_pairing.md R262). -/
theorem Parses.newMnt4PE {c2 : CurveGroup} {e2 e4 : ExtField} (x : Nat) (xNeg : Bool) (w0 w1 : Nat) (w0Neg : Bool)
    (hf : s0.pf = some f) (h2 : s0.ex.fq2 = some e2) (h4 : s0.ex.fq4 = some e4) (hβ : e2.nonResidue = [β])
    (hg1 : s0.cg1 = some c1) (hg2 : s0.cg2 = some c2) (hpe : s0.pe = none) :
    Parses s0 [] (Machine.newPE .mnt4 .m x xNeg w0 w1 w0Neg) ()
      (s0.setPE (mntEngine (fq2Fld (fpFld f) β) f.one .mnt4 x xNeg w0 w1 w0Neg)) := by
  have hfld : (towFq2 f s0.freeCtr e2).fld = fq2Fld (fpFld f) β := by
    rw [towFq2, hβ]
    rfl
  rw [← hfld]
  exact .silentBind (.getCG (g := .g1) hg1) <| .silentBind (.getCG (g := .g2) hg2) <| .silentBind (.getEX (l := .fq4) h4) <|
    .silentBind (.look fun _ _ => rfl) <| .silentBind (.getPF hf) <| .silentBind (.getPF hf) <|
    .silentBind (.look fun _ _ => rfl) <| .silentBind (.getEX (l := .fq2) h2) <| .constructPE _ hpe

/-- The tables of an MNT4 call (44_decoder.md R351). -/
theorem mnt4Tables_of (h : 4 ∣ f.p - 1) : ∃ tt1 tt2, quadTables (frobTable (fpFld f) f.p β 2 1 2) = some tt1 ∧
    quadTables (frobTable (fpFld f) f.p β 4 1 4) = some tt2 ∧ MntTables f β .fq2 .fq4 tt1 tt2 := by
  obtain ⟨tt1, h1⟩ := quadTables_exists (F := fpFld f) β 1 ((by decide : 2 ∣ 4).trans h)
  obtain ⟨tt2, h2⟩ := quadTables_exists (F := fpFld f) β 3 h
  exact ⟨tt1, tt2, h1, h2, fun hf he => h1 ▸ .fq2 f _ hf he, fun hf he => h2 ▸ .fq4 f (tabledLevel .fq2 [β] (some tt1)) hf he⟩

theorem mnt4Tower_te_fld : (mnt4Tower f β c1).te.fld = fq2Fld (fpFld f) β := by
  show fq2Fld (fpFld f) ((callFq2 f β).nonResidue.headD 0) = _
  rw [callFq2, tabledLevel_nonResidue]
  rfl

theorem mnt4Tower_tt_valid (h : 4 ∣ f.p - 1) : (mnt4Tower f β c1).tt.valid = true := by
  obtain ⟨tt1, tt2, h1, h2, -⟩ := mnt4Tables_of (β := β) h
  show ((callFq2 f β).frobValid && (tabledLevel _ _ _).frobValid) = true
  rw [callFq2, h1, h2]
  rfl

/-- The tower an MNT4 call works in is read from the levels it built, whatever the free-value counter. -/
theorem Parses.getMnt4TowerOf {x w0 w1 : Nat} {xNeg w0Neg : Bool} (h : 4 ∣ f.p - 1) (hf : s0.pf = some f)
    (h2 : s0.ex.fq2 = some (callFq2 f β))
    (h4 : s0.ex.fq4 = some (tabledLevel .fq4 ((fq2Fld (fpFld f) β).coords ((fq2Fld (fpFld f) β).generator f.one))
      (quadTables (frobTable (fpFld f) f.p β 4 1 4))))
    (hg : s0.cg2 = some (mntGroup f (fq2Fld (fpFld f) β) .fq2 c1)) :
    Parses s0 [] (Machine.getMnt4Tower (mntEngine (fq2Fld (fpFld f) β) f.one .mnt4 x xNeg w0 w1 w0Neg)) (mnt4Tower f β c1) s0 := by
  obtain ⟨tt1, tt2, ht1, ht2, -⟩ := mnt4Tables_of (β := β) h
  have hv2 : (callFq2 f β).frobValid = true := tabledLevel_valid (by rw [ht1]; rfl)
  refine .silent rfl fun o g => ⟨g, (getMnt4Tower_of (s := (s0.setOff o).setFlags g) hf h2 h4 hg rfl rfl).trans ?_⟩
  have hfld : (towFq2 f 0 (callFq2 f β)).fld = fq2Fld (fpFld f) β := mnt4Tower_te_fld (c1 := c1)
  rw [towFq2_valid hv2 _ 0, towFq4_valid hv2 (tabledLevel_valid (by rw [ht2]; rfl)) _ 0, mnt4Tower, mntTowerOf, hfld]

end

theorem Checked.mnt4Body {s : State} {mb : List Byte} {c : CurveFields} {t : MntFields} (hmb : prefixFits mb = true)
    (hw : curveWidth mb.length 1 c = true) (hwt : mntWidth mb.length 2 t = true) :
    ∃ s1, Checked [] s.beginCall (prefixedBytes mb ++ curveBytes mb.length c ++ mntBytes mb.length t)
      (mntChecks mb (fq2Fld (fpFld (callField mb)) ((callField mb).toMont t.ext.nr)) .fq2 2 4 c t) Machine.mnt4Body
      (oneByte (mntResult (callField mb)
        (mnt4Tower (callField mb) ((callField mb).toMont t.ext.nr) (groupOf (callField mb) (fpFld (callField mb)) .fp c)) t)) s1 := by
  refine ⟨_, .mntCall (fldOf := fun f e => fq2Fld (fpFld f) (e.nonResidue.headD 0)) hmb hw hwt rfl (by decide) mnt4Tables_of rfl
    (.newMnt4PE _ _ _ _ _ rfl rfl rfl (tabledLevel_nonResidue _) rfl rfl rfl) fun hdvd => ?_⟩
  rw [mntResult, mnt4Tower_te_fld]
  exact .silentBind (.getPE rfl) <| .silentBind (.getMnt4TowerOf hdvd rfl rfl rfl rfl) <|
    .silentBind (.multiPairMnt (mnt4Tower_tt_valid hdvd) _ _ _ _ _ _ _ _) <| .pairingResult _

/-! ## MNT6 -/

section
variable {f : PrimeField} {β : Nat} {s0 : State} {c1 : CurveGroup}

/-- `FQ3` of an MNT6 call, its tables computed (44_decoder.md R351). -/
def callFq3 (f : PrimeField) (β : Nat) : ExtField :=
  tabledLevel .fq3 [β] (cubicTables (frobTable (fpFld f) f.p β 3 1 3) (frobTable (fpFld f) f.p β 3 2 3))

/-- `PE.NEW` for MNT6 (43_pairing.md R262). -/
theorem Parses.newMnt6PE {c2 : CurveGroup} {e3 e6 : ExtField} (x : Nat) (xNeg : Bool) (w0 w1 : Nat) (w0Neg : Bool)
    (hf : s0.pf = some f) (h3 : s0.ex.fq3 = some e3) (h6 : s0.ex.fq6q = some e6) (hβ : e3.nonResidue = [β])
    (hg1 : s0.cg1 = some c1) (hg2 : s0.cg2 = some c2) (hpe : s0.pe = none) :
    Parses s0 [] (Machine.newPE .mnt6 .m x xNeg w0 w1 w0Neg) ()
      (s0.setPE (mntEngine (fq3Fld (fpFld f) β) f.one .mnt6 x xNeg w0 w1 w0Neg)) := by
  have hfld : (towFq3 f s0.freeCtr e3).fld = fq3Fld (fpFld f) β := by
    rw [towFq3, hβ]
    rfl
  rw [← hfld]
  exact .silentBind (.getCG (g := .g1) hg1) <| .silentBind (.getCG (g := .g2) hg2) <| .silentBind (.getEX (l := .fq6q) h6) <|
    .silentBind (.look fun _ _ => rfl) <| .silentBind (.getPF hf) <| .silentBind (.getPF hf) <|
    .silentBind (.look fun _ _ => rfl) <| .silentBind (.getEX (l := .fq3) h3) <| .constructPE _ hpe

/-- The tables of an MNT6 call (44_decoder.md R351). -/
theorem mnt6Tables_of (h : 6 ∣ f.p - 1) : ∃ tt1 tt2,
    cubicTables (frobTable (fpFld f) f.p β 3 1 3) (frobTable (fpFld f) f.p β 3 2 3) = some tt1 ∧
    quadTables (frobTable (fpFld f) f.p β 6 1 6) = some tt2 ∧ MntTables f β .fq3 .fq6q tt1 tt2 := by
  obtain ⟨tt1, h1⟩ := cubicTables_exists (F := fpFld f) β 2 ((by decide : 3 ∣ 6).trans h)
  obtain ⟨tt2, h2⟩ := quadTables_exists (F := fpFld f) β 5 h
  exact ⟨tt1, tt2, h1, h2, fun hf he => h1 ▸ .fq3 f _ hf he, fun hf he => h2 ▸ .fq6q f (tabledLevel .fq3 [β] (some tt1)) hf he⟩

theorem mnt6Tower_te_fld : (mnt6Tower f β c1).te.fld = fq3Fld (fpFld f) β := by
  show fq3Fld (fpFld f) ((callFq3 f β).nonResidue.headD 0) = _
  rw [callFq3, tabledLevel_nonResidue]
  rfl

theorem mnt6Tower_tt_valid (h : 6 ∣ f.p - 1) : (mnt6Tower f β c1).tt.valid = true := by
  obtain ⟨tt1, tt2, h1, h2, -⟩ := mnt6Tables_of (β := β) h
  show ((callFq3 f β).frobValid && (tabledLevel _ _ _).frobValid) = true
  rw [callFq3, h1, h2]
  rfl

/-- The tower an MNT6 call works in is read from the levels it built, whatever the free-value counter. -/
theorem Parses.getMnt6TowerOf {x w0 w1 : Nat} {xNeg w0Neg : Bool} (h : 6 ∣ f.p - 1) (hf : s0.pf = some f)
    (h3 : s0.ex.fq3 = some (callFq3 f β))
    (h6 : s0.ex.fq6q = some (tabledLevel .fq6q ((fq3Fld (fpFld f) β).coords ((fq3Fld (fpFld f) β).generator f.one))
      (quadTables (frobTable (fpFld f) f.p β 6 1 6))))
    (hg : s0.cg2 = some (mntGroup f (fq3Fld (fpFld f) β) .fq3 c1)) :
    Parses s0 [] (Machine.getMnt6Tower (mntEngine (fq3Fld (fpFld f) β) f.one .mnt6 x xNeg w0 w1 w0Neg)) (mnt6Tower f β c1) s0 := by
  obtain ⟨tt1, tt2, ht1, ht2, -⟩ := mnt6Tables_of (β := β) h
  have hv3 : (callFq3 f β).frobValid = true := tabledLevel_valid (by rw [ht1]; rfl)
  refine .silent rfl fun o g => ⟨g, (getMnt6Tower_of (s := (s0.setOff o).setFlags g) hf h3 h6 hg rfl rfl).trans ?_⟩
  have hfld : (towFq3 f 0 (callFq3 f β)).fld = fq3Fld (fpFld f) β := mnt6Tower_te_fld (c1 := c1)
  rw [towFq3_valid hv3 _ 0, towFq6q_valid hv3 (tabledLevel_valid (by rw [ht2]; rfl)) _ 0, mnt6Tower, mntTowerOf, ← callFq3, hfld]

end

theorem Checked.mnt6Body {s : State} {mb : List Byte} {c : CurveFields} {t : MntFields} (hmb : prefixFits mb = true)
    (hw : curveWidth mb.length 1 c = true) (hwt : mntWidth mb.length 3 t = true) :
    ∃ s1, Checked [] s.beginCall (prefixedBytes mb ++ curveBytes mb.length c ++ mntBytes mb.length t)
      (mntChecks mb (fq3Fld (fpFld (callField mb)) ((callField mb).toMont t.ext.nr)) .fq3 3 6 c t) Machine.mnt6Body
      (oneByte (mntResult (callField mb)
        (mnt6Tower (callField mb) ((callField mb).toMont t.ext.nr) (groupOf (callField mb) (fpFld (callField mb)) .fp c)) t)) s1 := by
  refine ⟨_, .mntCall (fldOf := fun f e => fq3Fld (fpFld f) (e.nonResidue.headD 0)) hmb hw hwt rfl (by decide) mnt6Tables_of rfl
    (.newMnt6PE _ _ _ _ _ rfl rfl rfl (tabledLevel_nonResidue _) rfl rfl rfl) fun hdvd => ?_⟩
  rw [mntResult, mnt6Tower_te_fld]
  exact .silentBind (.getPE rfl) <| .silentBind (.getMnt6TowerOf hdvd rfl rfl rfl rfl) <|
    .silentBind (.multiPairMnt (mnt6Tower_tt_valid hdvd) _ _ _ _ _ _ _ _) <| .pairingResult _

/-! ## The calls -/

/-- The body of an MNT call (45_dispatcher.md R389, R390). -/
theorem runsCall_mnt (s : State) {c : Call} (hi : c.instr = .mnt4 ∨ c.instr = .mnt6) (hw : c.encodable = true) :
    RunsCall c s (if c.instr = .mnt4 then mnt4Body else mnt6Body) := by
  cases c <;> simp only [Call.instr, reduceCtorEq, or_self] at hi <;> simp only [Call.encodable, Bool.and_eq_true] at hw
  case mnt4 =>
    obtain ⟨⟨hmb, hcurve⟩, ht⟩ := hw
    exact ⟨fun _ => rfl, .mnt4Body, Checked.mnt4Body hmb hcurve ht⟩
  case mnt6 =>
    obtain ⟨⟨hmb, hcurve⟩, ht⟩ := hw
    exact ⟨fun _ => rfl, .mnt6Body, Checked.mnt6Body hmb hcurve ht⟩

theorem MarksOne.mntBody (i : Instr) : MarksOne (if i = .mnt4 then Machine.mnt4Body else Machine.mnt6Body) := by
  split
  · exact .mnt4Body
  · exact .mnt6Body

/-- Settles O59: as O58; the header's non-residue check makes every division of the tables exact, so the tower adds no check. -/
theorem mntCallsGiveTheirResult : Obligations.MntCallsGiveTheirResult := by
  intro s c hi hw hinp
  have h := runsCall_mnt s hi hw
  refine ⟨h.exec_pass hinp, fun _ => h.exec_fail hinp, step_eq_exec hinp, fun hc => ?_⟩
  obtain ⟨t, ht, hoff, hframe⟩ := h.run_pass hinp hc
  exact ⟨t, ht, MarksOne.mntBody _ _ _ _ ht, hoff.trans (congrArg Memory.len (inp_of_resetCall_eq hframe))⟩

end Sys2Proof.Machine

/-! PROOF. What a call sees of the state (45_dispatcher.md R397; O9). Two runs of a call from states with one tape and one
`CFG.force_binary` go step by step together: the free-value counter is read only for a tower, and a call asks for a tower only when
the tables of its levels are computed, where no free value is used (`towFq2_valid` to `towFq12_valid`). -/

namespace Sys2Proof.Machine

/-! ## Two runs side by side -/

/-- The same state with other configuration inputs and another free-value counter. -/
def State.elsewhere (s : State) (cfg : Cfg) (n : Nat) : State := { s with cfg := cfg, freeCtr := n }

/-- The tables of level `l` are computed. -/
def HasTables (l : Level) (s : State) : Prop := ∃ e, s.ex.get l = some e ∧ e.frobValid = true

/-- Two states that differ in the counter and in configuration inputs other than `CFG.force_binary`; the tables of the levels `ls`
are computed. -/
structure Twins (ls : List Level) (s t : State) : Prop where
  same : ∃ cfg n, t = s.elsewhere cfg n ∧ cfg.forceBinary = s.cfg.forceBinary
  tables : ∀ l ∈ ls, HasTables l s

/-- Two runs end in the same way: with one answer, in twin states that have the tables `post` says; or with one error. -/
inductive TwinRun {α : Type} (post : α → List Level) :
    EStateM.Result Stop State α → EStateM.Result Stop State α → Prop
  | ok {a s t} : Twins (post a) s t → TwinRun post (.ok a s) (.ok a t)
  | error {e s t} : TwinRun post (.error e s) (.error e t)

/-- From twin states with the tables of `ls`, `m` and `m'` end in the same way. -/
def Agree {α : Type} (ls : List Level) (post : α → List Level) (m m' : M α) : Prop :=
  ∀ ⦃s t⦄, Twins ls s t → TwinRun post (m s) (m' t)

/-- A step that ends in the same way from twin states, and keeps the tables that are computed. -/
abbrev Blind {α : Type} (ls : List Level) (m : M α) : Prop := Agree ls (fun _ => ls) m m

section
variable {α β : Type} {ls : List Level}

theorem Agree.bind {mid : α → List Level} {post : β → List Level} {m m' : M α} {k k' : α → M β} (hm : Agree ls mid m m')
    (hk : ∀ a, Agree (mid a) post (k a) (k' a)) : Agree ls post (m >>= k) (m' >>= k') := by
  intro s t h
  rw [M.bind_apply, M.bind_apply]
  have hrun := hm h
  generalize m s = r at hrun ⊢
  generalize m' t = r' at hrun ⊢
  cases hrun with
  | ok hu => exact hk _ hu
  | error => exact .error

theorem Agree.pure (a : α) : Blind ls (pure a : M α) := fun _ _ h => .ok h

theorem Agree.require (ok : Bool) (e : Err) : Blind ls (Machine.require ok e) := fun s t h => by
  cases ok with
  | true => exact .ok h
  | false => exact .error

theorem Agree.requireSome (o : Option α) (e : Err) : Blind ls (Machine.requireSome o e) := fun s t h => by
  cases o with
  | some v => exact .ok h
  | none => exact .error

/-- A look at what twin states have in common. -/
theorem Agree.look {g : State → α} (hg : ∀ s cfg n, cfg.forceBinary = s.cfg.forceBinary → g (s.elsewhere cfg n) = g s) :
    Blind ls (Machine.look g) := fun s t h => by
  obtain ⟨cfg, n, rfl, hcfg⟩ := h.same
  rw [look_apply, look_apply, hg s cfg n hcfg]
  exact .ok h

/-- The counter is seen, and what follows does not depend on it. -/
theorem Agree.lookCounter {post : β → List Level} {k k' : Nat → M β} (hk : ∀ c d, Agree ls post (k c) (k' d)) :
    Agree ls post (Machine.look (fun s => s.freeCtr) >>= k) (Machine.look (fun s => s.freeCtr) >>= k') :=
  fun s t h => by
  rw [M.bind_of_ok (look_apply _ _), M.bind_of_ok (look_apply _ _)]
  exact hk _ _ h

theorem Agree.getSet (what : Item) {o : State → Option α} (ho : ∀ s cfg n, o (s.elsewhere cfg n) = o s) :
    Blind ls (Machine.getSet what o) := fun s t h => by
  obtain ⟨cfg, n, rfl, -⟩ := h.same
  cases hs : o s with
  | some v =>
    rw [getSet_some hs, getSet_some ((ho s cfg n).trans hs)]
    exact .ok h
  | none =>
    rw [getSet_none hs, getSet_none ((ho s cfg n).trans hs)]
    exact .error

theorem Agree.getPF : Blind ls Machine.getPF := .getSet _ fun _ _ _ => rfl
theorem Agree.getEX (l : Level) : Blind ls (Machine.getEX l) := .getSet _ fun _ _ _ => rfl
theorem Agree.getCG (g : Group) : Blind ls (Machine.getCG g) := .getSet _ fun _ _ _ => by cases g <;> rfl
theorem Agree.getPE : Blind ls Machine.getPE := .getSet _ fun _ _ _ => rfl
theorem Agree.getPEField (o : Option α) : Blind ls (Machine.getPEField o) := .getSet _ fun _ _ _ => rfl
theorem Agree.getLp : Blind ls Machine.getLp := .getSet _ fun _ _ _ => rfl
theorem Agree.getLq : Blind ls Machine.getLq := .getSet _ fun _ _ _ => rfl
theorem Agree.getCurField : Blind ls Machine.getCurField := .bind (.getSet _ fun _ _ _ => rfl) fun _ => .getPF

/-- A level that has its tables is read with them. -/
theorem Agree.getTabled {l : Level} (hl : l ∈ ls) {post : β → List Level} {k k' : ExtField → M β}
    (hk : ∀ e, e.frobValid = true → Agree ls post (k e) (k' e)) :
    Agree ls post (Machine.getEX l >>= k) (Machine.getEX l >>= k') := fun s t h => by
  obtain ⟨e, he, hvalid⟩ := h.tables l hl
  have het : t.ex.get l = some e := by
    obtain ⟨cfg, n, rfl, -⟩ := h.same
    exact he
  rw [M.bind_of_ok (getEX_some he), M.bind_of_ok (getEX_some het)]
  exact hk e hvalid h

/-! ## Updates -/

/-- An update outside the levels, of what twin states have in common. -/
theorem Twins.update {s t : State} (h : Twins ls s t) {f : State → State}
    (hf : ∀ s cfg n, f (s.elsewhere cfg n) = (f s).elsewhere cfg n) (hcfg : (f s).cfg = s.cfg) (hex : (f s).ex = s.ex) :
    Twins ls (f s) (f t) := by
  obtain ⟨cfg, n, rfl, hfb⟩ := h.same
  refine ⟨⟨cfg, n, hf s cfg n, hfb.trans (by rw [hcfg])⟩, fun l hl => ?_⟩
  rw [HasTables, hex]
  exact h.tables l hl

theorem Agree.update {f : State → State} (hf : ∀ s cfg n, f (s.elsewhere cfg n) = (f s).elsewhere cfg n)
    (hcfg : ∀ s, (f s).cfg = s.cfg) (hex : ∀ s, (f s).ex = s.ex) : Blind ls (Machine.update f) :=
  fun s _ h => .ok (h.update hf (hcfg s) (hex s))

theorem Agree.setFlags {g : State → Flags} (hg : ∀ s cfg n, g (s.elsewhere cfg n) = g s) :
    Blind ls (Machine.update fun s => s.setFlags (g s)) :=
  .update (fun s cfg n => by rw [hg]; rfl) (fun _ => rfl) fun _ => rfl

theorem Agree.construct (what : Item) {present : State → Bool} {f : State → State}
    (hp : ∀ s cfg n, present (s.elsewhere cfg n) = present s) (hf : ∀ s cfg n, f (s.elsewhere cfg n) = (f s).elsewhere cfg n)
    (hcfg : ∀ s, (f s).cfg = s.cfg) (hex : ∀ s, (f s).ex = s.ex) : Blind ls (Machine.construct what present f) := fun s t h => by
  have hpt : present t = present s := by
    obtain ⟨cfg, n, rfl, -⟩ := h.same
    exact hp s cfg n
  cases hs : present s with
  | false =>
    rw [construct_new hs, construct_new (hpt.trans hs)]
    exact .ok (h.update hf (hcfg s) (hex s))
  | true =>
    rw [construct_frozen hs, construct_frozen (hpt.trans hs)]
    exact .error

theorem Agree.newCG (g : Group) (c : CurveGroup) : Blind ls (Machine.newCG g c) :=
  .construct _ (fun _ _ _ => by cases g <;> rfl) (fun _ _ _ => by cases g <;> rfl) (fun _ => by cases g <;> rfl)
    fun _ => by cases g <;> rfl

theorem Agree.constructPE (e : Engine) : Blind ls (Machine.constructPE e) :=
  .construct _ (fun _ _ _ => rfl) (fun _ _ _ => rfl) (fun _ => rfl) fun _ => rfl

theorem Agree.twistCG2 (a b : List Nat) : Blind ls (Machine.twistCG2 a b) :=
  .bind (.getCG _) fun _ => .update (fun _ _ _ => rfl) (fun _ => rfl) fun _ => rfl

/-- The counter may move, and then it moves in both runs. -/
theorem Agree.noteFree (v : Bool) : Blind ls (Machine.noteFree v) := fun s t h => by
  obtain ⟨cfg, n, rfl, hcfg⟩ := h.same
  cases v with
  | true => exact .ok h
  | false => exact .ok ⟨⟨cfg, n + 1, rfl, hcfg⟩, h.tables⟩

/-! ## Levels and their tables -/

/-- A block written at level `l` leaves the tables of the other levels, and of `l` too when it holds tables itself. -/
theorem HasTables.setEX {s : State} {l m : Level} {e : ExtField} (h : HasTables m s) (he : m = l → e.frobValid = true) :
    HasTables m (s.setEX l e) := by
  by_cases hm : m = l
  · subst hm
    exact ⟨e, ExFile.put_get_same _ _ _, he rfl⟩
  · obtain ⟨e', hget, hvalid⟩ := h
    exact ⟨e', (ExFile.put_get_other _ _ _ _ hm).trans hget, hvalid⟩

theorem Twins.setEX {s t : State} {l : Level} {e : ExtField} (h : Twins ls s t) (he : l ∈ ls → e.frobValid = true) :
    Twins ls (s.setEX l e) (t.setEX l e) := by
  obtain ⟨cfg, n, rfl, hcfg⟩ := h.same
  exact ⟨⟨cfg, n, rfl, hcfg⟩, fun m hm => (h.tables m hm).setEX fun heq => he (heq ▸ hm)⟩

/-- A new level is none that has tables. -/
theorem Agree.newEX (l : Level) (nr : List Nat) : Blind ls (Machine.newEX l nr) := fun s t h => by
  have hget : t.ex.get l = s.ex.get l := by
    obtain ⟨cfg, n, rfl, -⟩ := h.same
    rfl
  cases hs : s.ex.get l with
  | none =>
    rw [newEX_new hs, newEX_new (hget.trans hs)]
    refine .ok (h.setEX fun hl => ?_)
    obtain ⟨e, he, -⟩ := h.tables l hl
    cases hs.symm.trans he
  | some e =>
    rw [Machine.newEX, construct_frozen (by rw [hs]; rfl), construct_frozen (by rw [hget, hs]; rfl)]
    exact .error

theorem Agree.demandNoTable (l : Level) (e : ExtField) : Blind ls (Machine.demandNoTable l e) := fun s t h => by
  unfold Machine.demandNoTable
  cases e.frobValid with
  | false => exact .ok h
  | true => exact .error

/-- The tables a computation that answers `ok` leaves. -/
def withComputed (l : Level) (ls : List Level) (ok : Bool) : List Level := if ok then l :: ls else ls

theorem Agree.writeTables (l : Level) (e : ExtField) (o : Option (List (List Nat) × List (List Nat))) :
    Agree ls (withComputed l ls) (Machine.writeTables l e o) (Machine.writeTables l e o) := fun s t h => by
  cases o with
  | none => exact .ok h
  | some tt =>
    refine .ok ?_
    obtain ⟨hsame, htables⟩ := h.setEX (l := l) (e := { e with frob1 := tt.1, frob2 := tt.2, frobValid := true }) fun _ => rfl
    exact ⟨hsame, List.forall_mem_cons.2 ⟨⟨_, ExFile.put_get_same _ _ _, rfl⟩, htables⟩⟩

theorem Agree.frobTables (l : Level) : Blind ls (Machine.frobTables l) := by
  refine .bind .getPF fun f => ?_
  cases l
  case fq6c | fq12 => exact .bind (.getEX _) fun _ => .bind (.getEX _) fun _ => .pure _
  all_goals exact .bind (.getEX _) fun _ => .pure _

/-- The boolean of a computation, with the tables it stands for. -/
theorem Agree.pureComputed (l : Level) (ok : Bool) :
    Agree (withComputed l ls ok) (withComputed l ls) (Pure.pure ok : M Bool) (Pure.pure ok) := fun _ _ h => .ok h

theorem Agree.calcFrob (l : Level) : Agree ls (withComputed l ls) (Machine.calcFrob l) (Machine.calcFrob l) :=
  .bind (.getEX _) fun _ => .bind (.demandNoTable _ _) fun _ => .bind (.frobTables _) fun _ => .bind (.writeTables _ _ _) fun _ =>
    .bind (.setFlags fun _ _ _ => rfl) fun _ => .pureComputed _ _

/-- With the table of `FQ2` the maps of `CALC_FROB_PRE` are no free values. -/
theorem Agree.calcFrobPre (l : PreLevel) (f1 : E2) (h2 : .fq2 ∈ ls) :
    Agree ls (withComputed (preLevelLevel l) ls) (Machine.calcFrobPre l f1) (Machine.calcFrobPre l f1) := by
  refine .bind .getPF fun f => .lookCounter fun c d => .getTabled h2 fun e2 hvalid => ?_
  rw [towFq2_valid hvalid c d]
  exact .bind (.getEX _) fun _ => .bind (.demandNoTable _ _) fun _ => .bind (.writeTables _ _ _) fun _ =>
    .bind (.noteFree _) fun _ => .bind (.setFlags fun _ _ _ => rfl) fun _ => .pureComputed _ _

/-- Past the check of its boolean the tables are there. -/
theorem Agree.requireComputed (l : Level) (ok : Bool) (e : Err) :
    Agree (withComputed l ls ok) (fun _ => l :: ls) (Machine.require ok e) (Machine.require ok e) := fun s t h => by
  cases ok with
  | true => exact .ok h
  | false => exact .error

/-- The BN and BLS12 tower is one in both runs. -/
theorem Agree.getBnTower (h2 : .fq2 ∈ ls) (h6 : .fq6c ∈ ls) (h12 : .fq12 ∈ ls) : Blind ls Machine.getBnTower := by
  refine .bind .getPF fun f => .lookCounter fun c d => .getTabled h2 fun e2 hv2 => .getTabled h6 fun e6 hv6 =>
    .getTabled h12 fun e12 hv12 => ?_
  rw [towFq2_valid hv2 c d, towFq6c_valid hv2 hv6 c d, towFq12_valid hv2 hv6 hv12 c d]
  exact .pure _

theorem Agree.getMnt4Tower (pe : Engine) (h2 : .fq2 ∈ ls) (h4 : .fq4 ∈ ls) : Blind ls (Machine.getMnt4Tower pe) := by
  refine .bind .getPF fun f => .lookCounter fun c d => .getTabled h2 fun e2 hv2 => .getTabled h4 fun e4 hv4 => ?_
  rw [towFq2_valid hv2 c d, towFq4_valid hv2 hv4 c d]
  exact .bind (.getCG _) fun _ => .bind (.getPEField _) fun _ => .bind (.getPEField _) fun _ => .pure _

theorem Agree.getMnt6Tower (pe : Engine) (h3 : .fq3 ∈ ls) (h6 : .fq6q ∈ ls) : Blind ls (Machine.getMnt6Tower pe) := by
  refine .bind .getPF fun f => .lookCounter fun c d => .getTabled h3 fun e3 hv3 => .getTabled h6 fun e6 hv6 => ?_
  rw [towFq3_valid hv3 c d, towFq6q_valid hv3 hv6 c d]
  exact .bind (.getCG _) fun _ => .bind (.getPEField _) fun _ => .bind (.getPEField _) fun _ => .pure _

/-- `PE.NEW` reads `CFG.force_binary`, and of a tower its arithmetic only (43_pairing.md R262). -/
theorem Agree.newPE (family : Family) (twist : Twist) (x : Nat) (xNeg : Bool) (w0 w1 : Nat) (w0Neg : Bool) :
    Blind ls (Machine.newPE family twist x xNeg w0 w1 w0Neg) := by
  refine .bind (.getCG _) fun _ => .bind (.getCG _) fun _ => .bind (.getEX _) fun _ => .bind (.look fun _ _ _ h => h) fun _ => ?_
  cases family with
  | bls12 | bn => exact .constructPE _
  | mnt4 | mnt6 =>
    exact .bind .getPF fun _ => .bind .getPF fun _ => .lookCounter fun _ _ => .bind (.getEX _) fun _ => .constructPE _

theorem Agree.multiPairBn (t : BnTower) (pe : Engine) (isBn : Bool) (ms : List (MillerPair E2 Unit)) :
    Blind ls (Machine.multiPairBn t pe isBn ms) := by
  refine .bind (.getPEField _) fun _ => .bind (.getPEField _) fun _ => .bind ?_ fun _ => .bind (.noteFree _) fun _ => .pure _
  cases isBn with
  | true => exact .getPEField _
  | false => exact .pure _

theorem Agree.multiPairMnt (t : MntTower α) (pe : Engine) (ms : List (MillerPair α Unit)) :
    Blind ls (Machine.multiPairMnt t pe ms) :=
  .bind (.getPEField _) fun _ => .bind (.getPEField _) fun _ => .bind (.getPEField _) fun _ => .bind (.noteFree _) fun _ => .pure _

/-! ## The parse steps -/

theorem Agree.tapeRead (n : Nat) : Blind ls (Machine.tapeRead n) := fun s t h => by
  obtain ⟨cfg, c, rfl, hcfg⟩ := h.same
  cases hb : s.inp.readBytes s.cur.off n with
  | none =>
    rw [tapeRead_short hb, tapeRead_short (s := s.elsewhere cfg c) hb]
    exact .error
  | some bs =>
    rw [tapeRead_ok hb, tapeRead_ok (s := s.elsewhere cfg c) hb]
    exact .ok ⟨⟨cfg, c, rfl, hcfg⟩, h.tables⟩

theorem Agree.readByte : Blind ls Machine.readByte := .bind (.tapeRead 1) fun _ => .pure _

theorem Agree.readFlag : Blind ls Machine.readFlag := .bind .readByte fun _ => .bind (.require _ _) fun _ => .pure _

theorem Agree.newPF (mb : List Byte) : Blind ls (Machine.newPF mb) :=
  .bind (.require _ _) fun _ => .bind (.require _ _) fun _ => .bind (.require _ _) fun _ => .bind (.require _ _) fun _ =>
    .bind (.require _ _) fun _ => .bind (.require _ _) fun _ =>
    .construct _ (fun _ _ _ => rfl) (fun _ _ _ => rfl) (fun _ => rfl) fun _ => rfl

theorem Agree.decBase : Blind ls Machine.decBase :=
  .bind .readByte fun _ => .bind (.require _ _) fun _ => .bind (.require _ _) fun _ => .bind (.tapeRead _) fun _ =>
    .bind (.newPF _) fun _ => .update (fun _ _ _ => rfl) (fun _ => rfl) fun _ => rfl

theorem Agree.decFE : Blind ls Machine.decFE :=
  .bind .getCurField fun _ => .bind .getLp fun _ => .bind (.tapeRead _) fun _ => .bind (.require _ _) fun _ => .pure _

theorem Agree.decFEs : ∀ n, Blind ls (Machine.decFEs n)
  | 0 => .pure _
  | n + 1 => .bind .decFE fun _ => .bind (Agree.decFEs n) fun _ => .pure _

theorem Agree.decElem (F : Fld α) : Blind ls (Machine.decElem F) := .bind (.decFEs _) fun _ => .pure _

theorem Agree.decOrder : Blind ls Machine.decOrder :=
  .bind .readByte fun _ => .bind (.require _ _) fun _ => .bind (.require _ _) fun _ => .bind (.tapeRead _) fun _ =>
    .bind (.require _ _) fun _ => .bind (.update (fun _ _ _ => rfl) (fun _ => rfl) fun _ => rfl) fun _ => .pure _

theorem Agree.decCurve (F : Fld α) (g : Group) (field : FieldRef) : Blind ls (Machine.decCurve F g field) :=
  .bind (.decElem F) fun _ => .bind (.decElem F) fun _ => .bind .decOrder fun _ => .bind (.newCG _ _) fun _ => .pure _

theorem Agree.decExtHdr (allowed : List Nat) (n : Nat → Nat) : Blind ls (Machine.decExtHdr allowed n) :=
  .bind .readByte fun _ => .bind (.require _ _) fun _ => .bind .decFE fun _ => .bind .getPF fun _ => .bind (.require _ _) fun _ =>
    .bind (.setFlags fun _ _ _ => rfl) fun _ => .bind (.require _ _) fun _ => .bind (.newEX _ _) fun _ => .pure _

theorem Agree.decPoint (F : Fld α) (c : CurveGroup) : Blind ls (Machine.decPoint F c) := by
  refine .bind (.decElem F) fun x => .bind (.decElem F) fun y => ?_
  split
  · exact .pure _
  · exact .bind (.setFlags fun _ _ _ => rfl) fun _ => .bind (.require _ _) fun _ => .pure _

theorem Agree.decScalar (c : CurveGroup) : Blind ls (Machine.decScalar c) :=
  .bind .getLq fun _ => .bind (.tapeRead _) fun _ => .bind (.require _ _) fun _ => .pure _

theorem Agree.decXi : Blind ls Machine.decXi :=
  .bind .getPF fun _ => .bind (.getEX _) fun _ => .bind (.decElem _) fun _ => .bind (.require _ _) fun _ =>
    .bind (.require _ _) fun _ => .bind (.require _ _) fun _ => .pure _

theorem Agree.twistMultiplier (F2 : Fld E2) (t : Twist) (xi : E2) : Blind ls (Machine.twistMultiplier F2 t xi) := by
  cases t with
  | m => exact .pure _
  | d => exact .bind (.setFlags fun _ _ _ => rfl) fun _ => .bind (.require _ _) fun _ => .pure _

theorem Agree.decTwist (xi : E2) : Blind ls (Machine.decTwist xi) :=
  .bind .getPF fun _ => .bind (.getEX _) fun _ => .bind .readByte fun _ => .bind (.requireSome _ _) fun _ =>
    .bind (.getCG _) fun _ => .bind (.newCG _ _) fun _ => .bind (.twistMultiplier _ _ _) fun _ => .bind (.twistCG2 _ _) fun _ =>
    .pure _

/-- `DEC.TOWER` leaves the tables of the three levels (44_decoder.md R345). -/
theorem Agree.decTower (xi : E2) :
    Agree ls (fun _ => .fq12 :: .fq6c :: .fq2 :: ls) (Machine.decTower xi) (Machine.decTower xi) :=
  .bind .getPF fun _ => .bind (.getEX _) fun _ => .bind (.calcFrob .fq2) fun _ => .bind (.requireComputed _ _ _) fun _ =>
    .bind (.require _ _) fun _ => .bind (.newEX _ _) fun _ => .bind (.calcFrobPre .fq6c _ (by simp)) fun _ =>
    .bind (.requireComputed _ _ _) fun _ => .bind (.newEX _ _) fun _ => .bind (.calcFrobPre .fq12 _ (by simp)) fun _ =>
    .requireComputed _ _ _

theorem Agree.decLoop : Blind ls Machine.decLoop :=
  .bind .readByte fun _ => .bind (.require _ _) fun _ => .bind (.tapeRead _) fun _ => .bind (.require _ _) fun _ =>
    .bind (.require _ _) fun _ => .pure _

theorem Agree.decCount : Blind ls Machine.decCount := .bind .readByte fun _ => .bind (.require _ _) fun _ => .pure _

theorem Agree.checkSubgroup (F : Fld α) (c : CurveGroup) (wanted : Bool) (p : Pt α) :
    Blind ls (Machine.checkSubgroup F c wanted p) := by
  cases wanted with
  | true => exact .bind (.setFlags fun _ _ _ => rfl) fun _ => .require _ _
  | false => exact .pure _

theorem Agree.decPair (F1 : Fld Nat) (c1 : CurveGroup) (F : Fld α) (c2 : CurveGroup) : Blind ls (Machine.decPair F1 c1 F c2) :=
  .bind .readFlag fun _ => .bind (.setFlags fun _ _ _ => rfl) fun _ => .bind (.decPoint _ _) fun _ =>
    .bind (.checkSubgroup _ _ _ _) fun _ => .bind .readFlag fun _ => .bind (.setFlags fun _ _ _ => rfl) fun _ =>
    .bind (.decPoint _ _) fun _ => .bind (.checkSubgroup _ _ _ _) fun _ => .bind (.setFlags fun _ _ _ => rfl) fun _ => .pure _

theorem Agree.decPairs (F1 : Fld Nat) (c1 : CurveGroup) (F : Fld α) (c2 : CurveGroup) :
    ∀ n, Blind ls (Machine.decPairs F1 c1 F c2 n)
  | 0 => .pure _
  | n + 1 => .bind (.decPair _ _ _ _) fun _ => .bind (Agree.decPairs F1 c1 F c2 n) fun _ => .pure _

theorem Agree.decEntries (F : Fld α) (c : CurveGroup) : ∀ n, Blind ls (Machine.decEntries F c n)
  | 0 => .pure _
  | n + 1 => .bind (.decPoint _ _) fun _ => .bind (.decScalar _) fun _ => .bind (Agree.decEntries F c n) fun _ => .pure _

theorem Agree.decMexpList (F : Fld α) (c : CurveGroup) : Blind ls (Machine.decMexpList F c) :=
  .bind .decCount fun _ => .decEntries _ _ _

theorem Agree.decMntTwist (F : Fld α) (l : Level) : Blind ls (Machine.decMntTwist F l) :=
  .bind .getPF fun _ => .bind (.getCG _) fun _ => .bind (.newCG _ _) fun _ => .twistCG2 _ _

/-- `DEC.MNT_TOWER` leaves the tables of the two levels (44_decoder.md R351). -/
theorem Agree.decMntTower (F : Fld α) (l t : Level) :
    Agree ls (fun _ => t :: l :: ls) (Machine.decMntTower F l t) (Machine.decMntTower F l t) :=
  .bind .getPF fun _ => .bind (.calcFrob _) fun _ => .bind (.requireComputed _ _ _) fun _ => .bind (.newEX _ _) fun _ =>
    .bind (.calcFrob _) fun _ => .requireComputed _ _ _

theorem Agree.decMntLoops : Blind ls Machine.decMntLoops :=
  .bind .decLoop fun _ => .bind .readFlag fun _ => .bind .decLoop fun _ => .bind .decLoop fun _ => .bind .readFlag fun _ => .pure _

theorem Agree.decEnd : Blind ls Machine.decEnd := .bind (.look fun _ _ _ _ => rfl) fun _ => .require _ _

theorem Agree.decG1 : Blind ls Machine.decG1 :=
  .bind .decBase fun _ => .bind .getPF fun _ => .bind (.decCurve _ _ _) fun _ => .bind (.getCG _) fun _ => .pure _

theorem Agree.decG2 (F : Fld α) (d : Nat) : Blind ls (Machine.decG2 F d) := .bind (.decCurve F _ _) fun _ => .getCG _

theorem Agree.pointBytes (F : Fld α) (r : Pt α) : Blind ls (Machine.pointBytes F r) :=
  .bind .getPF fun _ => .bind .getLp fun _ => .pure _

theorem Agree.pairingResult (b : Bool) : Blind ls (Machine.pairingResult b) := .bind (.setFlags fun _ _ _ => rfl) fun _ => .pure _

/-! ## The calls -/

theorem Agree.callAdd (F : Fld α) (c : CurveGroup) : Blind ls (Machine.callAdd F c) :=
  .bind (.decPoint F c) fun _ => .bind (.decPoint F c) fun _ => .bind .decEnd fun _ => .pointBytes F _

theorem Agree.callMul (F : Fld α) (c : CurveGroup) : Blind ls (Machine.callMul F c) :=
  .bind (.decPoint F c) fun _ => .bind (.decScalar c) fun _ => .bind .decEnd fun _ => .pointBytes F _

theorem Agree.callMexp (F : Fld α) (c : CurveGroup) : Blind ls (Machine.callMexp F c) :=
  .bind (.decMexpList F c) fun _ => .bind .decEnd fun _ => .bind (.bind (.require _ _) fun _ => .pure _) fun _ => .pointBytes F _

theorem Agree.g2Body {k : {α : Type} → Fld α → CurveGroup → M (List Byte)}
    (hk : ∀ {α : Type} (F : Fld α) (c : CurveGroup), Blind ls (k F c)) :
    Blind ls (do
      Machine.decBase
      let d ← Machine.decExtHdr [2, 3] (fun d => d)
      Machine.withDegree d (fun F => do
        let c ← Machine.decG2 F d
        k F c)) := by
  refine .bind .decBase fun _ => .bind (.decExtHdr _ _) fun d => .bind .getPF fun f => ?_
  split <;> exact .bind (.getEX _) fun _ => .bind (.decG2 _ d) fun c => hk _ c

theorem Agree.callTwisted (isBn : Bool) :
    Agree ls (fun _ => .fq12 :: .fq6c :: .fq2 :: ls) (Machine.callTwisted isBn) (Machine.callTwisted isBn) := by
  refine .bind .decG1 fun fc => .bind (.decExtHdr _ _) fun _ => .bind .decXi fun xi => .bind (.decTwist xi) fun tw =>
    .bind (.decTower xi) fun _ => .bind .decLoop fun x => .bind .readFlag fun neg => ?_
  cases isBn
  case' true => refine .bind (.require _ _) fun _ => ?_
  all_goals
    exact .bind .decCount fun n => .bind (.getBnTower (by simp) (by simp) (by simp)) fun _ => .bind (.getCG _) fun _ =>
      .bind (.decPairs _ _ _ _ n) fun _ => .bind .decEnd fun _ => .bind (.newPE _ _ _ _ _ _ _) fun _ => .bind .getPE fun _ =>
      .bind (.multiPairBn _ _ _ _) fun _ => .pairingResult _

theorem Agree.decMntCall (f : PrimeField) (c1 : CurveGroup) (F : Fld α) (l target : Level) (family : Family) :
    Agree ls (fun _ => target :: l :: ls) (Machine.decMntCall f c1 F l target family)
      (Machine.decMntCall f c1 F l target family) :=
  .bind (.decMntTwist F l) fun _ => .bind (.decMntTower F l target) fun _ => .bind .decMntLoops fun _ => .bind .decCount fun n =>
    .bind (.getCG _) fun _ => .bind (.decPairs _ _ _ _ n) fun _ => .bind .decEnd fun _ => .bind (.newPE _ _ _ _ _ _ _) fun _ =>
    .pure _

theorem Agree.mnt4Body : Agree ls (fun _ => .fq4 :: .fq2 :: ls) Machine.mnt4Body Machine.mnt4Body :=
  .bind .decG1 fun _ => .bind (.decExtHdr _ _) fun _ => .bind (.getEX _) fun _ => .bind (.decMntCall _ _ _ _ _ _) fun _ =>
    .bind .getPE fun pe => .bind (.getMnt4Tower pe (by simp) (by simp)) fun _ => .bind (.multiPairMnt _ _ _) fun _ =>
    .pairingResult _

theorem Agree.mnt6Body : Agree ls (fun _ => .fq6q :: .fq3 :: ls) Machine.mnt6Body Machine.mnt6Body :=
  .bind .decG1 fun _ => .bind (.decExtHdr _ _) fun _ => .bind (.getEX _) fun _ => .bind (.decMntCall _ _ _ _ _ _) fun _ =>
    .bind .getPE fun pe => .bind (.getMnt6Tower pe (by simp) (by simp)) fun _ => .bind (.multiPairMnt _ _ _) fun _ =>
    .pairingResult _

end

/-! ## A step from two states -/

/-- Two outcomes of a step that show one output tape and one result. -/
def SameOutcome (o o' : Host.Outcome State Fault Refusal) : Prop :=
  ∀ t, o = .next t → ∃ t', o' = .next t' ∧ t'.out = t.out ∧ t'.res = t.res

/-- A call whose runs go together ends with one output and one result. -/
theorem Agree.runCall {post : List Byte → List Level} {m : M (List Byte)} (h : Agree [] post m m) {s t : State}
    (hst : Twins [] s t) : SameOutcome (Machine.runCall m s) (Machine.runCall m t) := by
  intro u hu
  have hrun := h hst
  rcases runCall_next hu with ⟨bs, v, hv, rfl⟩ | ⟨e, v, hv, rfl⟩
  · rw [hv] at hrun
    generalize ht : m t = r at hrun
    cases hrun with
    | ok => exact ⟨_, runCall_ok ht, rfl, rfl⟩
  · rw [hv] at hrun
    generalize ht : m t = r at hrun
    cases hrun with
    | error => exact ⟨_, runCall_raise ht, rfl, rfl⟩

/-- Each call, from twin states. -/
theorem exec_sameOutcome {i : Instr} (hi : isCall i = true) {s t : State} (h : Twins [] s t) :
    SameOutcome (exec i s) (exec i t) := by
  cases i
  case g1add => exact Agree.runCall (.bind .decG1 fun _ => .callAdd _ _) h
  case g1mul => exact Agree.runCall (.bind .decG1 fun _ => .callMul _ _) h
  case g1mexp => exact Agree.runCall (.bind .decG1 fun _ => .callMexp _ _) h
  case g2add => exact Agree.runCall (.g2Body .callAdd) h
  case g2mul => exact Agree.runCall (.g2Body .callMul) h
  case g2mexp => exact Agree.runCall (.g2Body .callMexp) h
  case bls12 => exact Agree.runCall (.callTwisted false) h
  case bn => exact Agree.runCall (.callTwisted true) h
  case mnt4 => exact Agree.runCall .mnt4Body h
  case mnt6 => exact Agree.runCall .mnt6Body h
  all_goals cases hi

/-- The tape names calls only (30_encoding.md R101, R102). -/
theorem decode_tape_isCall {op : Byte} {i : Instr} (h : decode (.tape op) = .ok i) : isCall i = true := by
  by_cases hin : 1 ≤ op.toNat ∧ op.toNat ≤ 10
  · have hop : op = 0x01 ∨ op = 0x02 ∨ op = 0x03 ∨ op = 0x04 ∨ op = 0x05 ∨ op = 0x06 ∨ op = 0x07 ∨ op = 0x08 ∨ op = 0x09 ∨
        op = 0x0a := by bv_omega
    rcases hop with rfl | rfl | rfl | rfl | rfl | rfl | rfl | rfl | rfl | rfl <;> cases h <;> rfl
  · rw [decode_tape_badOpcode hin] at h
    cases h

/-- States with one input start a call as twins: the reset clears what an earlier call left (10_state.md R45). -/
theorem Twins.beginCall {s t : State} (h : SameInput s t) : Twins [] s.beginCall t.beginCall := by
  obtain ⟨hinp, hforce, hs, ht⟩ := h
  refine ⟨⟨t.cfg, t.freeCtr, ?_, hforce.symm⟩, fun _ hl => nomatch hl⟩
  simp only [State.beginCall, State.resetCall, State.setOff, State.elsewhere, hinp, hs, ht]

/-- Settles O9: the start states of the two calls are twins, so a call of either ends as the other's does; without a call to
run, both end with one error. -/
theorem callIsAFunctionOfItsInput : Obligations.CallIsAFunctionOfItsInput := by
  intro s t u h hu
  have ⟨hinp, _, hs, ht⟩ := h
  rcases Nat.eq_zero_or_pos s.inp.len with hlen | hlen
  · rw [step_of_empty hs hlen] at hu
    cases hu
    exact ⟨_, step_of_empty ht (hinp ▸ hlen), rfl, rfl⟩
  cases hd : decode (.tape (s.inp.read 0)) with
  | error e =>
    rw [step_of_tape_error hs hlen hd] at hu
    cases hu
    exact ⟨_, step_of_tape_error ht (hinp ▸ hlen) (hinp ▸ hd), rfl, rfl⟩
  | ok i =>
    rw [step_of_tape hs hlen hd] at hu
    rw [step_of_tape ht (hinp ▸ hlen) (hinp ▸ hd)]
    exact exec_sameOutcome (decode_tape_isCall hd) (.beginCall h) _ hu

end Sys2Proof.Machine

/-! PROOF. Every call ends with a result (60_exceptions.md R414; O10). No call meets a stop of the model: at each point of its step
list (44_decoder.md R357) every item it reads is set and every object it builds is not there yet. `Stage` says which items those
are, and `NoStop` follows it from step to step. -/

namespace Sys2Proof.Machine

/-! ## Sequences that meet no stop of the model -/

/-- From a state with `P`, `m` answers a value, with `Q`, or raises an error; it meets no fault and no refusal. -/
def NoStop {α : Type} (P : State → Prop) (Q : α → State → Prop) (m : M α) : Prop :=
  ∀ s, P s → (∃ a t, m s = .ok a t ∧ Q a t) ∨ ∃ e t, m s = .error (.raise e) t

section
variable {α β : Type} {P P' : State → Prop} {Q : α → State → Prop} {m : M α}

theorem NoStop.bind {R : β → State → Prop} {k : α → M β} (hm : NoStop P Q m) (hk : ∀ a, NoStop (Q a) R (k a)) :
    NoStop P R (m >>= k) := by
  intro s h
  rcases hm s h with ⟨a, t, hok, hQ⟩ | ⟨e, t, hraise⟩
  · rw [M.bind_of_ok hok]
    exact hk a t hQ
  · exact .inr ⟨e, t, M.bind_of_error hraise⟩

/-- A fact that holds of no state in particular. -/
theorem NoStop.given {p : Prop} (h : p → NoStop P Q m) : NoStop (fun s => p ∧ P s) Q m := fun s hs => h hs.1 s hs.2

/-- Whatever the answer, there is no stop. -/
theorem NoStop.anyway (h : NoStop P Q m) : NoStop P (fun _ _ => True) m := fun s hs =>
  (h s hs).imp_left fun ⟨a, t, hok, _⟩ => ⟨a, t, hok, trivial⟩

theorem NoStop.pureOf {a : α} (h : ∀ s, P s → Q a s) : NoStop P Q (pure a) := fun s hs => .inl ⟨a, s, rfl, h s hs⟩

theorem NoStop.pure (a : α) : NoStop P (fun _ => P) (pure a : M α) := .pureOf fun _ => id

/-- Past a check, what it demands holds. -/
theorem NoStop.check (ok : Bool) (e : Err) : NoStop P (fun _ s => ok = true ∧ P s) (Machine.require ok e) := fun s h => by
  cases ok with
  | true => exact .inl ⟨(), s, rfl, rfl, h⟩
  | false => exact .inr ⟨e, s, rfl⟩

theorem NoStop.require (ok : Bool) (e : Err) : NoStop P (fun _ => P) (Machine.require ok e) := fun s h => by
  cases ok with
  | true => exact .inl ⟨(), s, rfl, h⟩
  | false => exact .inr ⟨e, s, rfl⟩

theorem NoStop.requireSome (o : Option α) (e : Err) : NoStop P (fun _ => P) (Machine.requireSome o e) := fun s h => by
  cases o with
  | some v => exact .inl ⟨v, s, rfl, h⟩
  | none => exact .inr ⟨e, s, rfl⟩

theorem NoStop.look (g : State → α) : NoStop P (fun _ => P) (Machine.look g) := fun s h => .inl ⟨g s, s, rfl, h⟩

theorem NoStop.update {f : State → State} (h : ∀ s, P s → P' (f s)) : NoStop P (fun _ => P') (Machine.update f) :=
  fun s hs => .inl ⟨(), f s, rfl, h s hs⟩

/-- A read of what is set. -/
theorem NoStop.getSetOf (what : Item) {o : State → Option α} (h : ∀ s, P s → ∃ v, o s = some v ∧ Q v s) :
    NoStop P Q (Machine.getSet what o) := fun s hs => by
  obtain ⟨v, hv, hQ⟩ := h s hs
  exact .inl ⟨v, s, getSet_some hv, hQ⟩

theorem NoStop.getSet (what : Item) {o : State → Option α} (h : ∀ s, P s → (o s).isSome = true) :
    NoStop P (fun _ => P) (Machine.getSet what o) :=
  .getSetOf what fun s hs => (Option.isSome_iff_exists.1 (h s hs)).imp fun _ hv => ⟨hv, hs⟩

/-- The construction of what is not there. -/
theorem NoStop.construct (what : Item) {present : State → Bool} {f : State → State} (hnew : ∀ s, P s → present s = false)
    (h : ∀ s, P s → P' (f s)) : NoStop P (fun _ => P') (Machine.construct what present f) :=
  fun s hs => .inl ⟨(), f s, construct_new (hnew s hs), h s hs⟩

theorem NoStop.getPEField {o : Option α} (h : o.isSome = true) : NoStop P (fun _ => P) (Machine.getPEField o) :=
  .getSet _ fun _ _ => h

theorem NoStop.demandNoTable (l : Level) {e : ExtField} (h : e.frobValid = false) :
    NoStop P (fun _ => P) (Machine.demandNoTable l e) := fun s hs =>
  .inl ⟨(), s, by rw [Machine.demandNoTable, h]; rfl, hs⟩

end

/-! ## Which items a call has set so far -/

/-- The items of 10_state.md R45 that are set at a point of a call: the field with its cursor cache, `CUR.Lq`, the levels, each
with whether its tables are computed (the first entry of a level counts), the groups, and the family of the engine. -/
structure Stage where
  field : Bool := false
  order : Bool := false
  levels : List (Level × Bool) := []
  groups : List Group := []
  engine : Option Family := none

/-- The fields that `PE.NEW` sets for a family (43_pairing.md R262), as far as a pairing call reads them. -/
def Engine.HasFieldsOf (pe : Engine) : Family → Prop
  | .bls12 => pe.twist.isSome = true ∧ pe.digits.isSome = true
  | .bn => pe.twist.isSome = true ∧ pe.digits.isSome = true ∧ pe.loopNeg.isSome = true
  | .mnt4 | .mnt6 => pe.w0.isSome = true ∧ pe.w1.isSome = true ∧ pe.w0Neg.isSome = true ∧ pe.tw.isSome = true ∧
      pe.twInv.isSome = true

/-- The engine of a family stands, or none does. -/
def EngineOf : Option Family → Option Engine → Prop
  | none, o => o = none
  | some family, o => ∃ pe, o = some pe ∧ pe.HasFieldsOf family

/-- Exactly the blocks of `st` are set in `s`, and the lengths in the cursor's cache that belong to them. -/
structure Stage.At (st : Stage) (s : State) : Prop where
  pf : s.pf.isSome = st.field
  cached : st.field = true → s.cur.fieldSet = true ∧ s.cur.lp.isSome = true
  order : st.order = true → s.cur.lq.isSome = true
  level : ∀ l, (s.ex.get l).map ExtField.frobValid = st.levels.lookup l
  group : ∀ g, (s.cg g).isSome = st.groups.contains g
  engine : EngineOf st.engine s.pe

/-- Nothing is set. -/
def Stage.start : Stage := {}

/-- The field is built and cached. -/
def Stage.withField (st : Stage) : Stage := { st with field := true }

/-- A level is built, or its tables are written. -/
def Stage.withLevel (st : Stage) (l : Level) (tables : Bool) : Stage := { st with levels := (l, tables) :: st.levels }

/-- A group is built. -/
def Stage.withGroup (st : Stage) (g : Group) : Stage := { st with groups := g :: st.groups }

/-- `CUR.Lq` is cached. -/
def Stage.withOrder (st : Stage) : Stage := { st with order := true }

/-- The engine is built. -/
def Stage.withEngine (st : Stage) (family : Family) : Stage := { st with engine := some family }

/-- What a computation of tables leaves: the tables where it answers that they exist (41_extension_tower.md R177). -/
def Stage.computed (st : Stage) (l : Level) (ok : Bool) : Stage := if ok then st.withLevel l true else st

section
variable {st : Stage} {s : State}

theorem Stage.At.setOff (h : st.At s) (o : Nat) : st.At (s.setOff o) := { h with }
theorem Stage.At.setFlags (h : st.At s) (f : Flags) : st.At (s.setFlags f) := { h with }
theorem Stage.At.bumpFree (h : st.At s) : st.At s.bumpFree := { h with }

theorem Stage.At.setLq (h : st.At s) (n : Nat) : st.withOrder.At (s.setLq n) := { h with order := fun _ => rfl }

theorem Stage.At.setEX (h : st.At s) {l : Level} {e : ExtField} {tables : Bool} (he : e.frobValid = tables) :
    (st.withLevel l tables).At (s.setEX l e) where
  __ := h
  level m := by
    show ((s.ex.put e l).get m).map ExtField.frobValid = List.lookup m ((l, tables) :: st.levels)
    by_cases hm : m = l
    · subst hm
      rw [ExFile.put_get_same, List.lookup_cons_self, Option.map_some, he]
    · rw [ExFile.put_get_other _ _ _ _ hm, h.level, List.lookup_cons, beq_eq_false_iff_ne.2 hm]

/-- Writing one group leaves the other. -/
theorem State.setCG_cg_other {g k : Group} (s : State) (c : CurveGroup) (h : k ≠ g) : (s.setCG g c).cg k = s.cg k := by
  cases g with
  | g1 => cases k with
    | g1 => exact absurd rfl h
    | g2 => rfl
  | g2 => cases k with
    | g1 => rfl
    | g2 => exact absurd rfl h

theorem Stage.At.setCG (h : st.At s) (g : Group) (c : CurveGroup) : (st.withGroup g).At (s.setCG g c) := by
  have hgroup (k : Group) : ((s.setCG g c).cg k).isSome = (g :: st.groups).contains k := by
    rw [List.contains_cons]
    by_cases hk : k = g
    · subst hk
      rw [State.setCG_cg_same, beq_self_eq_true, Bool.true_or, Option.isSome_some]
    · rw [State.setCG_cg_other _ _ hk, h.group, beq_eq_false_iff_ne.2 hk, Bool.false_or]
  cases g <;> exact { h with group := hgroup }

/-- A group that stands is written again (10_state.md R35). -/
theorem Stage.At.rewriteCG (h : st.At s) {g : Group} (hg : st.groups.contains g = true) (c : CurveGroup) :
    st.At (s.setCG g c) := by
  have hgroup (k : Group) : ((s.setCG g c).cg k).isSome = st.groups.contains k := by
    by_cases hk : k = g
    · subst hk
      rw [State.setCG_cg_same, hg, Option.isSome_some]
    · rw [State.setCG_cg_other _ _ hk, h.group]
  cases g <;> exact { h with group := hgroup }

theorem Stage.At.setPE (h : st.At s) {family : Family} {pe : Engine} (hpe : pe.HasFieldsOf family) :
    (st.withEngine family).At (s.setPE pe) := { h with engine := ⟨pe, rfl, hpe⟩ }

/-- The start of a call's meaning: nothing is set (70_reset_and_hazards.md R450). -/
theorem Stage.At.beginCall (s : State) : Stage.start.At s.beginCall where
  pf := rfl
  cached := nofun
  order := nofun
  level l := by rw [State.beginCall_ex, ExFile.unset_get]; rfl
  group g := by cases g <;> rfl
  engine := rfl

end

/-! ## Reads and writes of the items -/

section
variable {α : Type} {st : Stage}

theorem NoStop.getPF (hf : st.field = true) : NoStop st.At (fun _ => st.At) Machine.getPF :=
  .getSet _ fun _ h => h.pf.trans hf

theorem NoStop.getCurField (hf : st.field = true) : NoStop st.At (fun _ => st.At) Machine.getCurField :=
  .bind (.getSet _ fun _ h => by rw [(h.cached hf).1]; rfl) fun _ => .getPF hf

theorem NoStop.getLp (hf : st.field = true) : NoStop st.At (fun _ => st.At) Machine.getLp :=
  .getSet _ fun _ h => (h.cached hf).2

theorem NoStop.getLq (ho : st.order = true) : NoStop st.At (fun _ => st.At) Machine.getLq :=
  .getSet _ fun _ h => h.order ho

theorem NoStop.getEX {l : Level} (hl : (st.levels.lookup l).isSome = true) : NoStop st.At (fun _ => st.At) (Machine.getEX l) :=
  .getSet _ fun _ h => by rw [← Option.isSome_map, h.level, hl]

/-- A level whose tables are not computed. -/
theorem NoStop.getUntabled {l : Level} (hl : st.levels.lookup l = some false) :
    NoStop st.At (fun e s => e.frobValid = false ∧ st.At s) (Machine.getEX l) :=
  .getSetOf _ fun s h => by
    obtain ⟨e, he, hvalid⟩ := Option.map_eq_some_iff.1 ((h.level l).trans hl)
    exact ⟨e, he, hvalid, h⟩

theorem NoStop.getCG {g : Group} (hg : st.groups.contains g = true) : NoStop st.At (fun _ => st.At) (Machine.getCG g) :=
  .getSet _ fun _ h => (h.group g).trans hg

theorem NoStop.getPE {family : Family} (he : st.engine = some family) :
    NoStop st.At (fun pe s => pe.HasFieldsOf family ∧ st.At s) Machine.getPE :=
  .getSetOf _ fun s h => by
    have hpe := h.engine
    rw [he] at hpe
    obtain ⟨pe, hpe, hfields⟩ := hpe
    exact ⟨pe, hpe, hfields, h⟩

theorem NoStop.setFlags (f : State → Flags) : NoStop st.At (fun _ => st.At) (Machine.update fun s => s.setFlags (f s)) :=
  .update fun _ h => h.setFlags _

theorem NoStop.noteFree (valid : Bool) : NoStop st.At (fun _ => st.At) (Machine.noteFree valid) :=
  .update fun s h => by
    cases valid with
    | true => exact h
    | false => exact h.bumpFree

theorem NoStop.newEX {l : Level} (hl : st.levels.lookup l = none) (nr : List Nat) :
    NoStop st.At (fun _ => (st.withLevel l false).At) (Machine.newEX l nr) :=
  .construct _ (fun _ h => by rw [← Option.isSome_map, h.level, hl]; rfl) fun _ h => h.setEX rfl

theorem NoStop.newCG {g : Group} (hg : st.groups.contains g = false) (c : CurveGroup) :
    NoStop st.At (fun _ => (st.withGroup g).At) (Machine.newCG g c) :=
  .construct _ (fun _ h => (h.group g).trans hg) fun _ h => h.setCG _ _

theorem NoStop.twistCG2 (hg : st.groups.contains .g2 = true) (a b : List Nat) :
    NoStop st.At (fun _ => st.At) (Machine.twistCG2 a b) :=
  .bind (.getCG hg) fun _ => .update fun _ h => h.rewriteCG hg _

theorem NoStop.constructPE (he : st.engine = none) {family : Family} {pe : Engine} (hpe : pe.HasFieldsOf family) :
    NoStop st.At (fun _ => (st.withEngine family).At) (Machine.constructPE pe) :=
  .construct _ (fun s h => by
    have hnone := h.engine
    rw [he] at hnone
    exact congrArg Option.isSome hnone) fun _ h => h.setPE hpe

/-! ## Tables -/

theorem NoStop.writeTables (l : Level) (e : ExtField) (o : Option (List (List Nat) × List (List Nat))) :
    NoStop st.At (fun ok => (st.computed l ok).At) (Machine.writeTables l e o) := by
  cases o with
  | none => exact .pureOf fun _ => id
  | some tt => exact .bind (.update fun _ h => h.setEX rfl) fun _ => .pureOf fun _ => id

/-- Past the check of its boolean the tables are there. -/
theorem NoStop.requireComputed (l : Level) (ok : Bool) (e : Err) :
    NoStop (st.computed l ok).At (fun _ => (st.withLevel l true).At) (Machine.require ok e) := fun s h => by
  cases ok with
  | true => exact .inl ⟨(), s, rfl, h⟩
  | false => exact .inr ⟨e, s, rfl⟩

/-- `CALC_FROB` at a level that has no tables, where the reads of its tables are set (41_extension_tower.md R177). -/
theorem NoStop.calcFrob {l : Level} (hl : st.levels.lookup l = some false)
    (htables : NoStop st.At (fun _ => st.At) (Machine.frobTables l)) :
    NoStop st.At (fun ok => (st.computed l ok).At) (Machine.calcFrob l) :=
  .bind (.getUntabled hl) fun _ => .given fun hvalid => .bind (.demandNoTable _ hvalid) fun _ => .bind htables fun _ =>
    .bind (.writeTables _ _ _) fun _ => .bind (.setFlags _) fun _ => .pureOf fun _ => id

/-- The tables of `l` are powers of the residue of the level `b` over `Fp` (41_extension_tower.md R184, R192, R198, R207). -/
inductive ResidueAt : Level → Level → Prop
  | fq2 : ResidueAt .fq2 .fq2
  | fq3 : ResidueAt .fq3 .fq3
  | fq4 : ResidueAt .fq4 .fq2
  | fq6q : ResidueAt .fq6q .fq3

theorem NoStop.frobTables {l b : Level} (hlb : ResidueAt l b) (hf : st.field = true)
    (hb : (st.levels.lookup b).isSome = true) : NoStop st.At (fun _ => st.At) (Machine.frobTables l) := by
  refine .bind (.getPF hf) fun f => ?_
  cases hlb <;> exact .bind (.getEX hb) fun _ => .pure _

theorem NoStop.calcFrobPre {l : PreLevel} (hf : st.field = true) (h2 : (st.levels.lookup .fq2).isSome = true)
    (hl : st.levels.lookup (preLevelLevel l) = some false) (f1 : E2) :
    NoStop st.At (fun ok => (st.computed (preLevelLevel l) ok).At) (Machine.calcFrobPre l f1) :=
  .bind (.getPF hf) fun _ => .bind (.look _) fun _ => .bind (.getEX h2) fun _ => .bind (.getUntabled hl) fun _ =>
    .given fun hvalid => .bind (.demandNoTable _ hvalid) fun _ => .bind (.writeTables _ _ _) fun _ =>
    .bind (.noteFree _) fun _ => .bind (.setFlags _) fun _ => .pureOf fun _ => id

end

/-! ## The parse steps -/

section
variable {α : Type} {st : Stage}

theorem NoStop.tapeRead (n : Nat) : NoStop st.At (fun _ => st.At) (Machine.tapeRead n) := fun s h => by
  rcases tapeRead_cases n s with ⟨-, hshort⟩ | ⟨-, hread⟩
  · exact .inr ⟨_, _, hshort⟩
  · exact .inl ⟨_, _, hread, h.setOff _⟩

theorem NoStop.readByte : NoStop st.At (fun _ => st.At) Machine.readByte := .bind (.tapeRead 1) fun _ => .pure _

theorem NoStop.readFlag : NoStop st.At (fun _ => st.At) Machine.readFlag :=
  .bind .readByte fun _ => .bind (.require _ _) fun _ => .pure _

/-- After `PF.NEW` only the cursor's cache is missing (44_decoder.md R332). -/
theorem NoStop.newPF (hf : st.field = false) (mb : List Byte) :
    NoStop st.At (fun _ s => ∀ n, st.withField.At (s.setField n)) (Machine.newPF mb) :=
  .bind (.require _ _) fun _ => .bind (.require _ _) fun _ => .bind (.require _ _) fun _ => .bind (.require _ _) fun _ =>
    .bind (.require _ _) fun _ => .bind (.require _ _) fun _ =>
    .construct _ (fun _ h => h.pf.trans hf) fun _ h _ => { h with pf := rfl, cached := fun _ => ⟨rfl, rfl⟩ }

theorem NoStop.decBase (hf : st.field = false) :
    NoStop st.At (fun _ => st.withField.At) Machine.decBase :=
  .bind .readByte fun lp => .bind (.require _ _) fun _ => .bind (.require _ _) fun _ => .bind (.tapeRead _) fun _ =>
    .bind (.newPF hf _) fun _ => .update fun _ h => h lp

theorem NoStop.decOrder : NoStop st.At (fun _ => st.withOrder.At) Machine.decOrder :=
  .bind .readByte fun _ => .bind (.require _ _) fun _ => .bind (.require _ _) fun _ => .bind (.tapeRead _) fun _ =>
    .bind (.require _ _) fun _ => .bind (.update fun _ h => h.setLq _) fun _ => .pure _

theorem NoStop.decLoop : NoStop st.At (fun _ => st.At) Machine.decLoop :=
  .bind .readByte fun _ => .bind (.require _ _) fun _ => .bind (.tapeRead _) fun _ => .bind (.require _ _) fun _ =>
    .bind (.require _ _) fun _ => .pure _

theorem NoStop.decCount : NoStop st.At (fun _ => st.At) Machine.decCount :=
  .bind .readByte fun _ => .bind (.require _ _) fun _ => .pure _

theorem NoStop.decMntLoops : NoStop st.At (fun _ => st.At) Machine.decMntLoops :=
  .bind .decLoop fun _ => .bind .readFlag fun _ => .bind .decLoop fun _ => .bind .decLoop fun _ => .bind .readFlag fun _ => .pure _

theorem NoStop.decEnd : NoStop st.At (fun _ => st.At) Machine.decEnd := .bind (.look _) fun _ => .require _ _

theorem NoStop.checkSubgroup (F : Fld α) (c : CurveGroup) (wanted : Bool) (p : Pt α) :
    NoStop st.At (fun _ => st.At) (Machine.checkSubgroup F c wanted p) := by
  cases wanted with
  | true => exact .bind (.setFlags _) fun _ => .require _ _
  | false => exact .pure _

theorem NoStop.twistMultiplier (F2 : Fld E2) (t : Twist) (xi : E2) :
    NoStop st.At (fun _ => st.At) (Machine.twistMultiplier F2 t xi) := by
  cases t with
  | m => exact .pure _
  | d => exact .bind (.setFlags _) fun _ => .bind (.require _ _) fun _ => .pure _

theorem NoStop.pairingResult (b : Bool) : NoStop st.At (fun _ => st.At) (Machine.pairingResult b) :=
  .bind (.setFlags _) fun _ => .pure _

theorem NoStop.multiExp (F : Fld α) (a : α) (q : Nat) (ps : List (Pt α)) (es : List Nat) :
    NoStop st.At (fun _ => st.At) (Machine.multiExp F a q ps es) := .bind (.require _ _) fun _ => .pure _

theorem NoStop.decScalar (ho : st.order = true) (c : CurveGroup) : NoStop st.At (fun _ => st.At) (Machine.decScalar c) :=
  .bind (.getLq ho) fun _ => .bind (.tapeRead _) fun _ => .bind (.require _ _) fun _ => .pure _

/-! ### Elements of a field that is there -/

section
variable (hf : st.field = true)
include hf

theorem NoStop.decFE : NoStop st.At (fun _ => st.At) Machine.decFE :=
  .bind (.getCurField hf) fun _ => .bind (.getLp hf) fun _ => .bind (.tapeRead _) fun _ => .bind (.require _ _) fun _ => .pure _

theorem NoStop.decFEs : ∀ n, NoStop st.At (fun _ => st.At) (Machine.decFEs n)
  | 0 => .pure _
  | n + 1 => .bind (.decFE hf) fun _ => .bind (NoStop.decFEs n) fun _ => .pure _

theorem NoStop.decElem (F : Fld α) : NoStop st.At (fun _ => st.At) (Machine.decElem F) := .bind (.decFEs hf _) fun _ => .pure _

theorem NoStop.decCurve {g : Group} (hg : st.groups.contains g = false) (F : Fld α) (field : FieldRef) :
    NoStop st.At (fun _ => (st.withOrder.withGroup g).At) (Machine.decCurve F g field) :=
  .bind (.decElem hf F) fun _ => .bind (.decElem hf F) fun _ => .bind .decOrder fun _ =>
    .bind (.newCG (st := st.withOrder) hg _) fun _ => .pure _

/-- `DEC.EXTHDR` gives a degree it allows, and its level is new (44_decoder.md R340). -/
theorem NoStop.decExtHdr (hl : ∀ l, st.levels.lookup l = none) (allowed : List Nat) (n : Nat → Nat) :
    NoStop st.At (fun d s => allowed.contains d = true ∧ (st.withLevel (degreeLevel d) false).At s)
      (Machine.decExtHdr allowed n) :=
  .bind .readByte fun _ => .bind (.check _ _) fun _ => .given fun hd => .bind (.decFE hf) fun _ => .bind (.getPF hf) fun _ =>
    .bind (.require _ _) fun _ => .bind (.setFlags _) fun _ => .bind (.require _ _) fun _ => .bind (.newEX (hl _) _) fun _ =>
    .pureOf fun _ h => ⟨hd, h⟩

theorem NoStop.decPoint (F : Fld α) (c : CurveGroup) : NoStop st.At (fun _ => st.At) (Machine.decPoint F c) := by
  refine .bind (.decElem hf F) fun x => .bind (.decElem hf F) fun y => ?_
  split
  · exact .pure _
  · exact .bind (.setFlags _) fun _ => .bind (.require _ _) fun _ => .pure _

theorem NoStop.decPair (F1 : Fld Nat) (c1 : CurveGroup) (F : Fld α) (c2 : CurveGroup) :
    NoStop st.At (fun _ => st.At) (Machine.decPair F1 c1 F c2) :=
  .bind .readFlag fun _ => .bind (.setFlags _) fun _ => .bind (.decPoint hf _ _) fun _ => .bind (.checkSubgroup _ _ _ _) fun _ =>
    .bind .readFlag fun _ => .bind (.setFlags _) fun _ => .bind (.decPoint hf _ _) fun _ => .bind (.checkSubgroup _ _ _ _) fun _ =>
    .bind (.setFlags _) fun _ => .pure _

theorem NoStop.decPairs (F1 : Fld Nat) (c1 : CurveGroup) (F : Fld α) (c2 : CurveGroup) :
    ∀ n, NoStop st.At (fun _ => st.At) (Machine.decPairs F1 c1 F c2 n)
  | 0 => .pure _
  | n + 1 => .bind (.decPair hf _ _ _ _) fun _ => .bind (NoStop.decPairs F1 c1 F c2 n) fun _ => .pure _

theorem NoStop.decEntries (ho : st.order = true) (F : Fld α) (c : CurveGroup) :
    ∀ n, NoStop st.At (fun _ => st.At) (Machine.decEntries F c n)
  | 0 => .pure _
  | n + 1 => .bind (.decPoint hf _ _) fun _ => .bind (.decScalar ho _) fun _ => .bind (NoStop.decEntries ho F c n) fun _ => .pure _

theorem NoStop.decMexpList (ho : st.order = true) (F : Fld α) (c : CurveGroup) :
    NoStop st.At (fun _ => st.At) (Machine.decMexpList F c) := .bind .decCount fun _ => .decEntries hf ho _ _ _

theorem NoStop.pointBytes (F : Fld α) (r : Pt α) : NoStop st.At (fun _ => st.At) (Machine.pointBytes F r) :=
  .bind (.getPF hf) fun _ => .bind (.getLp hf) fun _ => .pure _

/-! ### The operands of the G1 and G2 calls -/

theorem NoStop.callAdd (F : Fld α) (c : CurveGroup) : NoStop st.At (fun _ => st.At) (Machine.callAdd F c) :=
  .bind (.decPoint hf F c) fun _ => .bind (.decPoint hf F c) fun _ => .bind .decEnd fun _ => .pointBytes hf F _

theorem NoStop.callMul (ho : st.order = true) (F : Fld α) (c : CurveGroup) :
    NoStop st.At (fun _ => st.At) (Machine.callMul F c) :=
  .bind (.decPoint hf F c) fun _ => .bind (.decScalar ho c) fun _ => .bind .decEnd fun _ => .pointBytes hf F _

theorem NoStop.callMexp (ho : st.order = true) (F : Fld α) (c : CurveGroup) :
    NoStop st.At (fun _ => st.At) (Machine.callMexp F c) :=
  .bind (.decMexpList hf ho F c) fun _ => .bind .decEnd fun _ => .bind (.multiExp _ _ _ _ _) fun _ => .pointBytes hf F _

end

/-! ## The G1 and G2 calls (45_dispatcher.md R381 to R386) -/

/-- After `BASE`. -/
def Stage.base : Stage := Stage.start.withField

/-- After `BASE ; CURVE(Fp)`. -/
def Stage.g1 : Stage := Stage.base.withOrder.withGroup .g1

/-- After `BASE ; EXTHDR ; CURVE(Fqd)`. -/
def Stage.g2 (d : Nat) : Stage := ((Stage.base.withLevel (degreeLevel d) false).withOrder).withGroup .g2

theorem NoStop.decG1 : NoStop Stage.start.At (fun _ => Stage.g1.At) Machine.decG1 :=
  .bind (.decBase rfl) fun _ => .bind (.getPF rfl) fun _ => .bind (.decCurve rfl rfl _ _) fun _ => .bind (.getCG rfl) fun _ => .pure _

/-- The field of the G2 calls is over the level the header built. -/
theorem NoStop.withDegree {d : Nat} {Q : α → State → Prop} (hf : st.field = true)
    (hl : (st.levels.lookup (degreeLevel d)).isSome = true) {k : {β : Type} → Fld β → M α}
    (hk : ∀ {β : Type} (F : Fld β), NoStop st.At Q (k F)) : NoStop st.At Q (Machine.withDegree d k) := by
  refine .bind (.getPF hf) fun f => ?_
  unfold degreeLevel at hl
  split at hl
  · next hd => rw [if_pos hd]; exact .bind (.getEX hl) fun _ => hk _
  · next hd => rw [if_neg hd]; exact .bind (.getEX hl) fun _ => hk _

theorem NoStop.g2Body {k : {α : Type} → Fld α → CurveGroup → M (List Byte)}
    (hk : ∀ (d : Nat) {α : Type} (F : Fld α) (c : CurveGroup), NoStop (Stage.g2 d).At (fun _ => (Stage.g2 d).At) (k F c)) :
    NoStop Stage.start.At (fun _ _ => True) (do
      Machine.decBase
      let d ← Machine.decExtHdr [2, 3] (fun d => d)
      Machine.withDegree d (fun F => do
        let c ← Machine.decG2 F d
        k F c)) :=
  .bind (.decBase rfl) fun _ => .bind (.decExtHdr rfl (fun _ => rfl) _ _) fun d => .given fun _ =>
    .withDegree rfl (congrArg Option.isSome List.lookup_cons_self) fun F =>
      .bind (.bind (.decCurve rfl rfl F _) fun _ => .getCG rfl) fun c => (hk d F c).anyway

/-! ## BLS12 and BN (45_dispatcher.md R387, R388) -/

/-- After `XI` and `TWIST`. -/
def Stage.twisted : Stage := (Stage.g1.withLevel .fq2 false).withGroup .g2

/-- After `TOWER`. -/
def Stage.towered : Stage :=
  ((((Stage.twisted.withLevel .fq2 true).withLevel .fq6c false).withLevel .fq6c true).withLevel .fq12 false).withLevel .fq12 true

theorem NoStop.decXi (hf : st.field = true) (hl : (st.levels.lookup .fq2).isSome = true) :
    NoStop st.At (fun _ => st.At) Machine.decXi :=
  .bind (.getPF hf) fun _ => .bind (.getEX hl) fun _ => .bind (.decElem hf _) fun _ => .bind (.require _ _) fun _ =>
    .bind (.require _ _) fun _ => .bind (.require _ _) fun _ => .pure _

theorem NoStop.decTwist (xi : E2) :
    NoStop (Stage.g1.withLevel .fq2 false).At (fun _ => Stage.twisted.At) (Machine.decTwist xi) :=
  .bind (.getPF rfl) fun _ => .bind (.getEX rfl) fun _ => .bind .readByte fun _ => .bind (.requireSome _ _) fun _ =>
    .bind (.getCG rfl) fun _ => .bind (.newCG rfl _) fun _ => .bind (.twistMultiplier _ _ _) fun _ =>
    .bind (.twistCG2 rfl _ _) fun _ => .pure _

theorem NoStop.decTower (xi : E2) : NoStop Stage.twisted.At (fun _ => Stage.towered.At) (Machine.decTower xi) :=
  .bind (.getPF rfl) fun _ => .bind (.getEX rfl) fun _ =>
    .bind (.calcFrob rfl (.frobTables .fq2 rfl rfl)) fun _ => .bind (.requireComputed _ _ _) fun _ =>
    .bind (.require _ _) fun _ => .bind (.newEX rfl _) fun _ =>
    .bind (.calcFrobPre (l := .fq6c) rfl rfl rfl _) fun _ => .bind (.requireComputed _ _ _) fun _ =>
    .bind (.newEX rfl _) fun _ => .bind (.calcFrobPre (l := .fq12) rfl rfl rfl _) fun _ => .requireComputed _ _ _

theorem NoStop.getBnTower : NoStop Stage.towered.At (fun _ => Stage.towered.At) Machine.getBnTower :=
  .bind (.getPF rfl) fun _ => .bind (.look _) fun _ => .bind (.getEX rfl) fun _ => .bind (.getEX rfl) fun _ =>
    .bind (.getEX rfl) fun _ => .pure _

theorem twistedEngine_hasFieldsOf (forceBinary isBn : Bool) (tw : Twist) (x : Nat) (xNeg : Bool) :
    (twistedEngine forceBinary isBn tw x xNeg).HasFieldsOf (if isBn then .bn else .bls12) := by
  cases isBn with
  | true => exact ⟨rfl, rfl, rfl⟩
  | false => exact ⟨rfl, rfl⟩

/-- `PE.NEW` of BLS12 or BN, over the blocks the decoder built (43_pairing.md R262). -/
theorem NoStop.newTwistedPE (isBn : Bool) (tw : Twist) (x : Nat) (xNeg : Bool) :
    NoStop Stage.towered.At (fun _ => (Stage.towered.withEngine (if isBn then .bn else .bls12)).At)
      (Machine.newPE (if isBn then .bn else .bls12) tw x xNeg 0 0 false) := by
  cases isBn <;>
  exact .bind (.getCG rfl) fun _ => .bind (.getCG rfl) fun _ => .bind (.getEX rfl) fun _ => .bind (.look _) fun _ =>
    .constructPE rfl (twistedEngine_hasFieldsOf _ _ _ _ _)

theorem NoStop.multiPairBn {isBn : Bool} {pe : Engine} (hpe : pe.HasFieldsOf (if isBn then .bn else .bls12)) (t : BnTower)
    (ms : List (MillerPair E2 Unit)) : NoStop st.At (fun _ => st.At) (Machine.multiPairBn t pe isBn ms) := by
  cases isBn with
  | true =>
    obtain ⟨htw, hdigits, hneg⟩ := hpe
    exact .bind (.getPEField htw) fun _ => .bind (.getPEField hdigits) fun _ => .bind (.getPEField hneg) fun _ =>
      .bind (.noteFree _) fun _ => .pure _
  | false =>
    obtain ⟨htw, hdigits⟩ := hpe
    exact .bind (.getPEField htw) fun _ => .bind (.getPEField hdigits) fun _ => .bind (.pure _) fun _ =>
      .bind (.noteFree _) fun _ => .pure _

theorem NoStop.callTwisted (isBn : Bool) : NoStop Stage.start.At (fun _ _ => True) (Machine.callTwisted isBn) := by
  refine .bind .decG1 fun fc => .bind (.decExtHdr rfl (fun _ => rfl) _ _) fun d => .given fun hd => ?_
  obtain rfl : d = 2 := by simpa using hd
  refine .bind (.decXi rfl rfl) fun xi => .bind (.decTwist xi) fun _ => .bind (.decTower xi) fun _ => .bind .decLoop fun x =>
    .bind .readFlag fun neg => ?_
  cases isBn
  case' true => refine .bind (.require _ _) fun _ => ?_
  all_goals
    exact .bind .decCount fun n => .bind .getBnTower fun _ => .bind (.getCG rfl) fun _ => .bind (.decPairs rfl _ _ _ _ n) fun _ =>
      .bind .decEnd fun _ => .bind (.newTwistedPE _ _ _ _) fun _ => .bind (.getPE rfl) fun _ => .given fun hpe =>
      .bind (.multiPairBn hpe _ _) fun _ => (NoStop.pairingResult _).anyway

/-! ## MNT4 and MNT6 (45_dispatcher.md R389, R390) -/

/-- The level of `Fe` and the level of `Ft` of an MNT family (43_pairing.md R261). -/
inductive MntLevels : Family → Level → Level → Prop
  | mnt4 : MntLevels .mnt4 .fq2 .fq4
  | mnt6 : MntLevels .mnt6 .fq3 .fq6q

/-- After `MNT_TWIST`. -/
def Stage.mntTwisted (l : Level) : Stage := (Stage.g1.withLevel l false).withGroup .g2

/-- After `MNT_TOWER`. -/
def Stage.mntTowered (l target : Level) : Stage :=
  (((Stage.mntTwisted l).withLevel l true).withLevel target false).withLevel target true

theorem NoStop.decMntTwist (F : Fld α) (l : Level) :
    NoStop (Stage.g1.withLevel l false).At (fun _ => (Stage.mntTwisted l).At) (Machine.decMntTwist F l) :=
  .bind (.getPF rfl) fun _ => .bind (.getCG rfl) fun _ => .bind (.newCG rfl _) fun _ => .twistCG2 rfl _ _

section
variable {family : Family} {l target : Level} (hlevels : MntLevels family l target)
include hlevels

theorem MntLevels.residues : ResidueAt l l ∧ ResidueAt target l := by
  cases hlevels with
  | mnt4 => exact ⟨.fq2, .fq4⟩
  | mnt6 => exact ⟨.fq3, .fq6q⟩

theorem NoStop.decMntTower (F : Fld α) :
    NoStop (Stage.mntTwisted l).At (fun _ => (Stage.mntTowered l target).At) (Machine.decMntTower F l target) := by
  obtain ⟨hl, htarget⟩ := hlevels.residues
  cases hlevels <;>
  exact .bind (.getPF rfl) fun _ => .bind (.calcFrob rfl (.frobTables hl rfl rfl)) fun _ =>
    .bind (.requireComputed _ _ _) fun _ => .bind (.newEX rfl _) fun _ =>
    .bind (.calcFrob rfl (.frobTables htarget rfl rfl)) fun _ => .requireComputed _ _ _

/-- `PE.NEW` of an MNT family, over the blocks the decoder built (43_pairing.md R262). -/
theorem NoStop.newMntPE (tw : Twist) (x : Nat) (xNeg : Bool) (w0 w1 : Nat) (w0Neg : Bool) :
    NoStop (Stage.mntTowered l target).At (fun _ => ((Stage.mntTowered l target).withEngine family).At)
      (Machine.newPE family tw x xNeg w0 w1 w0Neg) := by
  cases hlevels <;>
  exact .bind (.getCG rfl) fun _ => .bind (.getCG rfl) fun _ => .bind (.getEX rfl) fun _ => .bind (.look _) fun _ =>
    .bind (.getPF rfl) fun _ => .bind (.getPF rfl) fun _ => .bind (.look _) fun _ => .bind (.getEX rfl) fun _ =>
    .constructPE rfl ⟨rfl, rfl, rfl, rfl, rfl⟩

theorem NoStop.decMntCall (f : PrimeField) (c1 : CurveGroup) (F : Fld α) :
    NoStop (Stage.g1.withLevel l false).At (fun _ => ((Stage.mntTowered l target).withEngine family).At)
      (Machine.decMntCall f c1 F l target family) :=
  .bind (.decMntTwist F l) fun _ => .bind (.decMntTower hlevels F) fun _ => .bind .decMntLoops fun _ => .bind .decCount fun n =>
    .bind (.getCG rfl) fun _ => .bind (.decPairs rfl _ _ _ _ n) fun _ => .bind .decEnd fun _ =>
    .bind (.newMntPE hlevels _ _ _ _ _ _) fun _ => .pure _

theorem MntLevels.fields {pe : Engine} (h : pe.HasFieldsOf family) : pe.w0.isSome = true ∧ pe.w1.isSome = true ∧
    pe.w0Neg.isSome = true ∧ pe.tw.isSome = true ∧ pe.twInv.isSome = true := by
  cases hlevels <;> exact h

theorem NoStop.multiPairMnt {pe : Engine} (hpe : pe.HasFieldsOf family) (t : MntTower α) (ms : List (MillerPair α Unit)) :
    NoStop st.At (fun _ => st.At) (Machine.multiPairMnt t pe ms) := by
  obtain ⟨hw0, hw1, hneg, -, -⟩ := hlevels.fields hpe
  exact .bind (.getPEField hw0) fun _ => .bind (.getPEField hw1) fun _ => .bind (.getPEField hneg) fun _ =>
    .bind (.noteFree _) fun _ => .pure _

end

theorem NoStop.getMnt4Tower {pe : Engine} (hpe : pe.HasFieldsOf .mnt4) :
    NoStop ((Stage.mntTowered .fq2 .fq4).withEngine .mnt4).At (fun _ => ((Stage.mntTowered .fq2 .fq4).withEngine .mnt4).At)
      (Machine.getMnt4Tower pe) := by
  obtain ⟨-, -, -, htw, hinv⟩ := hpe
  exact .bind (.getPF rfl) fun _ => .bind (.look _) fun _ => .bind (.getEX rfl) fun _ => .bind (.getEX rfl) fun _ =>
    .bind (.getCG rfl) fun _ => .bind (.getPEField htw) fun _ => .bind (.getPEField hinv) fun _ => .pure _

theorem NoStop.getMnt6Tower {pe : Engine} (hpe : pe.HasFieldsOf .mnt6) :
    NoStop ((Stage.mntTowered .fq3 .fq6q).withEngine .mnt6).At (fun _ => ((Stage.mntTowered .fq3 .fq6q).withEngine .mnt6).At)
      (Machine.getMnt6Tower pe) := by
  obtain ⟨-, -, -, htw, hinv⟩ := hpe
  exact .bind (.getPF rfl) fun _ => .bind (.look _) fun _ => .bind (.getEX rfl) fun _ => .bind (.getEX rfl) fun _ =>
    .bind (.getCG rfl) fun _ => .bind (.getPEField htw) fun _ => .bind (.getPEField hinv) fun _ => .pure _

theorem NoStop.mnt4Body : NoStop Stage.start.At (fun _ _ => True) Machine.mnt4Body := by
  refine .bind .decG1 fun fc => .bind (.decExtHdr rfl (fun _ => rfl) _ _) fun d => .given fun hd => ?_
  obtain rfl : d = 2 := by simpa using hd
  exact .bind (.getEX rfl) fun _ => .bind (.decMntCall .mnt4 _ _ _) fun _ => .bind (.getPE rfl) fun _ => .given fun hpe =>
    .bind (.getMnt4Tower hpe) fun _ => .bind (.multiPairMnt .mnt4 hpe _ _) fun _ => (NoStop.pairingResult _).anyway

theorem NoStop.mnt6Body : NoStop Stage.start.At (fun _ _ => True) Machine.mnt6Body := by
  refine .bind .decG1 fun fc => .bind (.decExtHdr rfl (fun _ => rfl) _ _) fun d => .given fun hd => ?_
  obtain rfl : d = 3 := by simpa using hd
  exact .bind (.getEX rfl) fun _ => .bind (.decMntCall .mnt6 _ _ _) fun _ => .bind (.getPE rfl) fun _ => .given fun hpe =>
    .bind (.getMnt6Tower hpe) fun _ => .bind (.multiPairMnt .mnt6 hpe _ _) fun _ => (NoStop.pairingResult _).anyway

end

/-! ## How a call ends -/

/-- A result stands, the cursor where it says, and nothing else of the call (10_state.md R28, 60_exceptions.md R420, R446). -/
def State.ended (t : State) : Prop :=
  (t.res = .ok ∧ t.cur.off = t.inp.len ∨ (∃ e, t.res = .error e) ∧ t.out = Memory.empty ∧ t.cur.off = 0) ∧ t.idle

/-- The reset leaves every block unset. -/
theorem State.resetCall_idle (s : State) : s.resetCall.idle :=
  ⟨rfl, rfl, rfl, rfl, ExFile.unset_get, fun g => by cases g <;> rfl, rfl, rfl, rfl, rfl⟩

theorem State.raiseErr_ended (s : State) (e : Err) : (s.raiseErr e).ended :=
  ⟨.inr ⟨⟨e, rfl⟩, rfl, rfl⟩, s.resetCall_idle⟩

theorem State.finish_ended {s : State} (h : s.cur.off = s.inp.len) (bs : List Byte) : (s.finish bs).ended :=
  ⟨.inl ⟨rfl, h⟩, s.resetCall_idle⟩

/-- An outcome that is the end of a call. -/
def EndsCall (o : Host.Outcome State Fault Refusal) : Prop := ∃ t, o = .next t ∧ t.ended

/-- A body that meets no stop and reads the whole tape before it answers ends the call. -/
theorem NoStop.runCall {m : M (List Byte)} (hm : NoStop Stage.start.At (fun _ _ => True) m) (hend : EndsAtEnd m) (s : State) :
    EndsCall (Machine.runCall m s.beginCall) := by
  rcases hm _ (.beginCall s) with ⟨bs, t, hok, -⟩ | ⟨e, t, hraise⟩
  · exact ⟨_, runCall_ok hok, State.finish_ended (hend _ _ _ hok) bs⟩
  · exact ⟨_, runCall_raise hraise, t.raiseErr_ended e⟩

/-- Each call, whatever the tape holds. -/
theorem exec_endsCall {i : Instr} (hi : isCall i = true) (s : State) : EndsCall (exec i s.beginCall) := by
  cases i
  case g1add => exact (NoStop.bind .decG1 fun _ => (NoStop.callAdd rfl _ _).anyway).runCall (.bind fun _ => .callAdd _ _) s
  case g1mul => exact (NoStop.bind .decG1 fun _ => (NoStop.callMul rfl rfl _ _).anyway).runCall (.bind fun _ => .callMul _ _) s
  case g1mexp => exact (NoStop.bind .decG1 fun _ => (NoStop.callMexp rfl rfl _ _).anyway).runCall (.bind fun _ => .callMexp _ _) s
  case g2add => exact (NoStop.g2Body fun _ => .callAdd rfl).runCall (.g2Body .callAdd) s
  case g2mul => exact (NoStop.g2Body fun _ => .callMul rfl rfl).runCall (.g2Body .callMul) s
  case g2mexp => exact (NoStop.g2Body fun _ => .callMexp rfl rfl).runCall (.g2Body .callMexp) s
  case bls12 => exact (NoStop.callTwisted false).runCall (.callTwisted false) s
  case bn => exact (NoStop.callTwisted true).runCall (.callTwisted true) s
  case mnt4 => exact NoStop.mnt4Body.runCall .mnt4Body s
  case mnt6 => exact NoStop.mnt6Body.runCall .mnt6Body s
  all_goals cases hi

/-- With an empty port a step is a call that ends, or ends at byte 0 (45_dispatcher.md R380). -/
theorem step_endsCall {s : State} (hp : s.port = []) : EndsCall (step s) := by
  rcases Nat.eq_zero_or_pos s.inp.len with hlen | hlen
  · exact ⟨_, step_of_empty hp hlen, s.raiseErr_ended .short⟩
  cases hd : decode (.tape (s.inp.read 0)) with
  | error e => exact ⟨_, step_of_tape_error hp hlen hd, s.raiseErr_ended .opcode⟩
  | ok i =>
    rw [step_of_tape hp hlen hd]
    exact exec_endsCall (decode_tape_isCall hd) s

/-- Settles O10: no call meets a stop of the model, so each ends with a result; the inputs stand over every step (O15). -/
theorem everyCallEndsWithAResult : Obligations.EveryCallEndsWithAResult := by
  intro s hp
  obtain ⟨t, ht, hres, hidle⟩ := step_endsCall hp
  obtain ⟨hinp, hcfg⟩ := inputsAndObjectsKept.1 s t ht
  exact ⟨t, ht, hinp ▸ hres, hidle, hinp, hcfg⟩

end Sys2Proof.Machine

/-! PROOF. What a unit operation may change, said once for every relation: `UnitChain R` is what its updates must keep, and
`RunsAlong R` says that it relates the state it begins in to the state it leaves, however it ends. -/

namespace Sys2Proof.Machine

/-- A relation that every update of a unit operation keeps: those of a call, writes to slots (40_prime_field.md R139), and the
unit byte result (log 4). -/
structure UnitChain (R : State → State → Prop) : Prop extends CallChain R where
  store : ∀ s a vs, R s (s.store a vs)
  ret : ∀ s bs, R s (s.setRet bs)

section
variable {R : State → State → Prop} {α β : Type}

/-- Steps that only read keep every chain. -/
theorem Along.of_reads {m : M α} (hR : Chain R) (h : Along (· = ·) m) : Along R m :=
  fun s => ⟨fun a t ht => (h s).1 a t ht ▸ hR.refl s, fun e t ht => (h s).2 e t ht ▸ hR.refl s⟩

theorem Along.withFieldRef (hR : Chain R) (r : FieldRef) {k : {α : Type} → Fld α → M β}
    (hk : ∀ {α : Type} (F : Fld α), Along R (k F)) : Along R (Machine.withFieldRef r k) := by
  cases r with
  | fp => exact .bind hR (.getPF hR) fun _ => hk _
  | level l => exact .withLevel hR l fun _ => hk _

theorem Along.millerBn (hR : Chain R) (t : BnTower) (pe : Engine) (isBn : Bool) (ms : List (MillerPair E2 Unit)) :
    Along R (Machine.millerBn t pe isBn ms) :=
  .bind hR (.getPEField hR _) fun _ => .bind hR (.getPEField hR _) fun _ =>
    .bind hR (by cases isBn with | true => exact .getPEField hR _ | false => exact .pure hR _) fun _ => .pure hR _

end

section
variable {R : State → State → Prop} {α β : Type} (hR : UnitChain R)
include hR

/-! ## Destinations -/

theorem Along.writeSlot (c v : Nat) : Along R (Machine.writeSlot c v) := .update fun s => hR.store s c [v]
theorem Along.writeGroup (c : Nat) (vs : List Nat) : Along R (Machine.writeGroup c vs) := .update fun s => hR.store s c vs
theorem Along.writeElem (F : Fld α) (c : Nat) (v : α) : Along R (Machine.writeElem F c v) := .writeGroup hR c _
theorem Along.writePt (F : Fld α) (c : Nat) (p : Pt α) : Along R (Machine.writePt F c p) := .writeGroup hR c _
theorem Along.writePt4 (F : Fld α) (c : Nat) (p : Pt4 α) : Along R (Machine.writePt4 F c p) := .writeGroup hR c _
theorem Along.writeLine2 (F : Fld α) (c : Nat) (l : Line2 α) : Along R (Machine.writeLine2 F c l) := .writeGroup hR c _
theorem Along.writeLine3 (F : Fld E2) (c : Nat) (l : Line3) : Along R (Machine.writeLine3 F c l) := .writeGroup hR c _
theorem Along.writeLine4 (F : Fld α) (c : Nat) (l : Line4 α) : Along R (Machine.writeLine4 F c l) := .writeGroup hR c _
theorem Along.writeFlags (f : State → Flags) : Along R (Machine.update fun s => s.setFlags (f s)) := .update fun s => hR.flags s _
theorem Along.writeRet (bs : List Byte) : Along R (Machine.update fun s => s.setRet bs) := .update fun s => hR.ret s bs

/-! ## The forms of an operation -/

/-- Read an operand at a slot, then go on. -/
theorem Along.onSlot {i : Nat} {k : Nat → M β} (hk : ∀ x, Along R (k x)) : Along R (Machine.readSlot i >>= k) :=
  .bind hR.toChain (.readSlot hR.toChain i) hk

/-- Read an element operand, then go on. -/
theorem Along.onElem {F : Fld α} {a : Nat} {k : α → M β} (hk : ∀ x, Along R (k x)) : Along R (Machine.readElem F a >>= k) :=
  .bind hR.toChain (.readElem hR.toChain F a) hk

/-- Read a point operand, then go on. -/
theorem Along.onPt {F : Fld α} {a : Nat} {k : Pt α → M β} (hk : ∀ x, Along R (k x)) : Along R (Machine.readPt F a >>= k) :=
  .bind hR.toChain (.readPt hR.toChain F a) hk

/-- Read the field block, then go on. -/
theorem Along.onPF {k : PrimeField → M β} (hk : ∀ f, Along R (k f)) : Along R (Machine.getPF >>= k) :=
  .bind hR.toChain (.getPF hR.toChain) hk

/-- Read a level's block, then go on. -/
theorem Along.onEX {l : Level} {k : ExtField → M β} (hk : ∀ e, Along R (k e)) : Along R (Machine.getEX l >>= k) :=
  .bind hR.toChain (.getEX hR.toChain l) hk

/-- Read the BN and BLS12 tower, then go on. -/
theorem Along.onBnTower {k : BnTower → M β} (hk : ∀ t, Along R (k t)) : Along R (Machine.getBnTower >>= k) :=
  .bind hR.toChain (.getBnTower hR.toChain) hk

theorem Along.slotOp1 (op : PrimeField → Nat → Nat) (c a : Nat) : Along R (Machine.slotOp1 op c a) :=
  .onPF hR fun _ => .onSlot hR fun _ => .writeSlot hR c _

theorem Along.slotOp2 (op : PrimeField → Nat → Nat → Nat) (c a b : Nat) : Along R (Machine.slotOp2 op c a b) :=
  .onPF hR fun _ => .onSlot hR fun _ => .onSlot hR fun _ => .writeSlot hR c _

theorem Along.levelOp1 (l : Level) (op : {α : Type} → Fld α → α → α) (c a : Nat) : Along R (Machine.levelOp1 l op c a) :=
  .withLevel hR.toChain l fun _ => .onElem hR fun _ => .writeElem hR _ c _

theorem Along.levelOp2 (l : Level) (op : {α : Type} → Fld α → α → α → α) (c a b : Nat) :
    Along R (Machine.levelOp2 l op c a b) :=
  .withLevel hR.toChain l fun _ => .onElem hR fun _ => .onElem hR fun _ => .writeElem hR _ c _

theorem Along.conjOp (B : Fld α) (F : Fld (α × α)) (c a : Nat) : Along R (Machine.conjOp B F c a) :=
  .onElem hR fun _ => .writeElem hR F c _

theorem Along.groupOp1 (g : Group) (op : {α : Type} → Fld α → CurveGroup → Pt α → Pt α) (r p : Nat) :
    Along R (Machine.groupOp1 g op r p) :=
  .withGroup hR.toChain g fun _ _ => .onPt hR fun _ => .writePt hR _ r _

end

/-! ## The operations whose form is their own -/

/-- `op` is a unit operation whose steps relate the state it begins in to the state they leave by `R`. -/
def RunsAlong (R : State → State → Prop) (op : State → Host.Outcome State Fault Refusal) : Prop :=
  ∃ m, op = runUnit m ∧ Along R m

theorem RunsAlong.of_along {R : State → State → Prop} {m : M Unit} (h : Along R m) : RunsAlong R (runUnit m) := ⟨m, rfl, h⟩

section
variable {R : State → State → Prop} (hR : UnitChain R)
include hR

theorem execPfInvert_along (c a : Nat) : RunsAlong R (execPfInvert c a) :=
  .of_along (.onPF hR fun _ => .onSlot hR fun _ => .bind hR.toChain (.writeSlot hR c _) fun _ => .writeFlags hR _)

theorem execPfSqrt_along (c a : Nat) : RunsAlong R (execPfSqrt c a) :=
  .of_along (.onPF hR fun _ => .onSlot hR fun _ => by
    split
    · exact .bind hR.toChain (.writeSlot hR c _) fun _ => .writeFlags hR _
    · exact .refuseWith hR.toChain _)

theorem execPfFromBytes_along (c : Nat) (bs : List Byte) : RunsAlong R (execPfFromBytes c bs) :=
  .of_along (.onPF hR fun _ => .bind hR.toChain (.require hR.toChain _ _) fun _ =>
    .bind hR.toChain (.require hR.toChain _ _) fun _ => .writeSlot hR c _)

theorem execExNew_along (l : Level) (nr : Nat) : RunsAlong R (execExNew l nr) :=
  .of_along (.bind hR.toChain (.of_reads hR.toChain (demandBase_reads l)) fun _ =>
    .bind hR.toChain (.readGroup hR.toChain _ _) fun _ => .newEX hR.toCallChain l _)

theorem execExInverse_along (l : Level) (c a : Nat) : RunsAlong R (execExInverse l c a) :=
  .of_along (.withLevel hR.toChain l fun _ => .onElem hR fun _ => .bind hR.toChain (.writeElem hR _ c _) fun _ =>
    .writeFlags hR _)

theorem execExConjugate_along (l : QuadLevel) (c a : Nat) : RunsAlong R (execExConjugate l c a) :=
  .of_along (.onPF hR fun _ => by
    cases l with
    | fq2 => exact .onEX hR fun _ => .conjOp hR _ _ c a
    | fq4 => exact .onEX hR fun _ => .onEX hR fun _ => .conjOp hR _ _ c a
    | fq6q => exact .onEX hR fun _ => .onEX hR fun _ => .conjOp hR _ _ c a
    | fq12 => exact .onBnTower hR fun _ => .conjOp hR _ _ c a)

theorem execExFrobeniusMap_along (l : Level) (c a power : Nat) : RunsAlong R (execExFrobeniusMap l c a power) :=
  .of_along (.withLevel hR.toChain l fun _ => .onElem hR fun _ => .bind hR.toChain (.writeElem hR _ c _) fun _ =>
    .noteFree hR.toCallChain _)

theorem execExCalcFrobPre_along (l : PreLevel) (f1 : Nat) : RunsAlong R (execExCalcFrobPre l f1) :=
  .of_along (.onPF hR fun _ => .onEX hR fun _ => .onElem hR fun _ =>
    .bind hR.toChain (.calcFrobPre hR.toCallChain l _) fun _ => .pure hR.toChain _)

/-- The sparse products: an element of `FQ12` and three of `FQ2` (41_extension_tower.md R214, R215). -/
theorem Along.sparseProduct (op : BnTower → E12 → E2 → E2 → E2 → E12) (c a x y z : Nat) : Along R (do
    let t ← Machine.getBnTower
    let v ← Machine.readElem t.t12.fld a
    let v0 ← Machine.readElem t.t2.fld x
    let v1 ← Machine.readElem t.t2.fld y
    let v2 ← Machine.readElem t.t2.fld z
    Machine.writeElem t.t12.fld c (op t v v0 v1 v2)) :=
  .onBnTower hR fun _ => .onElem hR fun _ => .onElem hR fun _ => .onElem hR fun _ => .onElem hR fun _ => .writeElem hR _ c _

theorem execExMulBy014_along (c a e0 e1 e4 : Nat) : RunsAlong R (execExMulBy014 c a e0 e1 e4) :=
  .of_along (.sparseProduct hR (fun t => mulBy014 t.t2.fld t.t12.fld) c a e0 e1 e4)

theorem execExMulBy034_along (c a e0 e3 e4 : Nat) : RunsAlong R (execExMulBy034 c a e0 e3 e4) :=
  .of_along (.sparseProduct hR (fun t => mulBy034 t.t2.fld t.t12.fld) c a e0 e3 e4)

theorem execCgNew_along (field : CurveField) (a b : Option Nat) (ob : List Byte) : RunsAlong R (execCgNew field a b ob) :=
  .of_along (.withFieldRef hR.toChain _ fun F => .bind hR.toChain (.of_reads hR.toChain (readCoeff_reads F a)) fun _ =>
    .bind hR.toChain (.of_reads hR.toChain (readCoeff_reads F b)) fun _ => .newCG hR.toCallChain _ _)

theorem execCgIsZero_along (g : Group) (p : Nat) : RunsAlong R (execCgIsZero g p) :=
  .of_along (.withGroup hR.toChain g fun F _ => .bind hR.toChain (.readPtZ hR.toChain F p) fun _ => .writeFlags hR _)

theorem execCgIsOnCurve_along (g : Group) (p : Nat) : RunsAlong R (execCgIsOnCurve g p) :=
  .of_along (.withGroup hR.toChain g fun F _ => .bind hR.toChain (.readPtZ hR.toChain F p) fun _ => by
    split
    · exact .writeFlags hR _
    · exact .onPt hR fun _ => .writeFlags hR _)

theorem execCgAdd_along (g : Group) (r p1 p2 : Nat) : RunsAlong R (execCgAdd g r p1 p2) :=
  .of_along (.withGroup hR.toChain g fun _ _ => .onPt hR fun _ => .onPt hR fun _ => .writePt hR _ r _)

theorem execCgSubgroupCheck_along (g : Group) (p : Nat) : RunsAlong R (execCgSubgroupCheck g p) :=
  .of_along (.withGroup hR.toChain g fun _ _ => .onPt hR fun _ => .writeFlags hR _)

theorem execCgMultiExp_along (g : Group) (r points n : Nat) (scalars : List Nat) :
    RunsAlong R (execCgMultiExp g r points n scalars) :=
  .of_along (.withGroup hR.toChain g fun F _ => .bind hR.toChain (.require hR.toChain _ _) fun _ =>
    .bind hR.toChain (.readPts hR.toChain F n points) fun _ => .bind hR.toChain (.multiExp hR.toCallChain F _ _ _ _) fun _ =>
    .writePt hR F r _)

theorem execCgToAffine_along (g : Group) (r p : Nat) : RunsAlong R (execCgToAffine g r p) :=
  .of_along (.withGroup hR.toChain g fun _ _ => .onPt hR fun _ => .writeGroup hR r _)

theorem execPeDoublingStep_along (r co src : Nat) : RunsAlong R (execPeDoublingStep r co src) :=
  .of_along (.withBn hR.toChain fun _ _ _ => .onPt hR fun _ => .bind hR.toChain (.writePt hR _ r _) fun _ =>
    .writeLine3 hR _ co _)

theorem execPeAdditionStep_along (r co src q : Nat) : RunsAlong R (execPeAdditionStep r co src q) :=
  .of_along (.withBn hR.toChain fun _ _ _ => .onPt hR fun _ => .bind hR.toChain (.readXY hR.toChain _ q) fun _ =>
    .bind hR.toChain (.writePt hR _ r _) fun _ => .writeLine3 hR _ co _)

theorem execPeEll_along (c f co p : Nat) : RunsAlong R (execPeEll c f co p) :=
  .of_along (.withBn hR.toChain fun t _ _ => .bind hR.toChain (.getPEField hR.toChain _) fun _ => .onElem hR fun _ =>
    .bind hR.toChain (.of_reads hR.toChain (readLine3_reads t.t2.fld co)) fun _ => .onSlot hR fun _ => .onSlot hR fun _ =>
    .writeElem hR _ c _)

theorem execPeMillerLoop_along (c pairs n : Nat) : RunsAlong R (execPeMillerLoop c pairs n) :=
  .of_along (.withBn hR.toChain fun _ _ _ => .bind hR.toChain (.readPairs hR.toChain _ n pairs) fun _ =>
    .bind hR.toChain (.millerBn hR.toChain _ _ _ _) fun _ => .bind hR.toChain (.writeElem hR _ c _) fun _ =>
    .noteFree hR.toCallChain _)

theorem execPeFinalExp_along (c f : Nat) : RunsAlong R (execPeFinalExp c f) :=
  .of_along (.withBn hR.toChain fun _ _ _ => .onElem hR fun _ => .bind hR.toChain (.writeElem hR _ c _) fun _ =>
    .noteFree hR.toCallChain _)

theorem execPeMultiPair_along (c pairs n : Nat) : RunsAlong R (execPeMultiPair c pairs n) := by
  have pairsIn {α : Type} (F : Fld α) : Along R (readPairs F pairs n) := .readPairs hR.toChain F n pairs
  refine .of_along (.bind hR.toChain (.getPE hR.toChain) fun _ => ?_)
  split
  case h_1 | h_2 =>
    exact .withBn hR.toChain fun _ _ _ => .bind hR.toChain (pairsIn _) fun _ =>
      .bind hR.toChain (.multiPairBn hR.toCallChain _ _ _ _) fun _ => .writeElem hR _ c _
  case h_3 | h_4 =>
    exact .withMnt hR.toChain fun _ _ => .bind hR.toChain (pairsIn _) fun _ =>
      .bind hR.toChain (.multiPairMnt hR.toCallChain _ _ _) fun _ => .writeElem hR _ c _

theorem execPeDoublingStepMnt_along (r co src : Nat) : RunsAlong R (execPeDoublingStepMnt r co src) :=
  .of_along (.withMnt hR.toChain fun _ _ => .bind hR.toChain (.readPt4 hR.toChain _ src) fun _ =>
    .bind hR.toChain (.writePt4 hR _ r _) fun _ => .writeLine4 hR _ co _)

theorem execPeAdditionStepMnt_along (r co src q : Nat) : RunsAlong R (execPeAdditionStepMnt r co src q) :=
  .of_along (.withMnt hR.toChain fun _ _ => .bind hR.toChain (.readPt4 hR.toChain _ src) fun _ =>
    .bind hR.toChain (.readXY hR.toChain _ q) fun _ => .bind hR.toChain (.writePt4 hR _ r _) fun _ => .writeLine2 hR _ co _)

theorem execPeEllMnt_along (kind : LineKind) (c f co p q : Nat) : RunsAlong R (execPeEllMnt kind c f co p q) :=
  .of_along (.withMnt hR.toChain fun t _ => .onElem hR fun _ => .onSlot hR fun _ => .onSlot hR fun _ =>
    .bind hR.toChain (.readXY hR.toChain _ q) fun _ =>
    .bind hR.toChain (.of_reads hR.toChain (readLineValue_reads t kind co _)) fun _ => .writeElem hR _ c _)

theorem execPeMillerLoopMnt_along (c pairs n : Nat) : RunsAlong R (execPeMillerLoopMnt c pairs n) :=
  .of_along (.withMnt hR.toChain fun _ _ => .bind hR.toChain (.readPairs hR.toChain _ n pairs) fun _ => .writeElem hR _ c _)

theorem execPeFinalExpMnt_along (c f : Nat) : RunsAlong R (execPeFinalExpMnt c f) :=
  .of_along (.withMnt hR.toChain fun _ _ => .bind hR.toChain (.getPEField hR.toChain _) fun _ =>
    .bind hR.toChain (.getPEField hR.toChain _) fun _ => .bind hR.toChain (.getPEField hR.toChain _) fun _ =>
    .onElem hR fun _ => .bind hR.toChain (.writeElem hR _ c _) fun _ => .noteFree hR.toCallChain _)

/-! ## The instructions -/

/-- Every instruction that is no call is a unit operation whose steps keep every chain. -/
theorem exec_along {i : Instr} (hi : isCall i = false) : RunsAlong R (exec i) := by
  have hC := hR.toCallChain
  cases i with
  | g1add | g1mul | g1mexp | g2add | g2mul | g2mexp | bls12 | bn | mnt4 | mnt6 => cases hi
  | pfNew mb => exact .of_along (.newPF hC mb)
  | pfAdd c a b => exact .of_along (.slotOp2 hR _ c a b)
  | pfSub c a b => exact .of_along (.slotOp2 hR _ c a b)
  | pfDouble c a => exact .of_along (.slotOp1 hR _ c a)
  | pfNegate c a => exact .of_along (.slotOp1 hR _ c a)
  | pfMul c a b => exact .of_along (.slotOp2 hR _ c a b)
  | pfSquare c a => exact .of_along (.slotOp1 hR _ c a)
  | pfExp c a e => exact .of_along (.slotOp1 hR _ c a)
  | pfInvert c a => exact execPfInvert_along hR c a
  | pfSqrt c a => exact execPfSqrt_along hR c a
  | pfNres a n => exact .of_along (.onPF hR fun _ => .onSlot hR fun _ => .writeFlags hR _)
  | pfFromBytes c bs => exact execPfFromBytes_along hR c bs
  | pfToBytes a => exact .of_along (.onPF hR fun _ => .onSlot hR fun _ => .writeRet hR _)
  | pfToBytesDense a => exact .of_along (.onPF hR fun _ => .onSlot hR fun _ => .writeRet hR _)
  | pfToMont c a => exact .of_along (.slotOp1 hR _ c a)
  | pfFromMont c a => exact .of_along (.slotOp1 hR _ c a)
  | exNew l nr => exact execExNew_along hR l nr
  | exAdd l c a b => exact .of_along (.levelOp2 hR l _ c a b)
  | exSub l c a b => exact .of_along (.levelOp2 hR l _ c a b)
  | exNeg l c a => exact .of_along (.levelOp1 hR l _ c a)
  | exDouble l c a => exact .of_along (.levelOp1 hR l _ c a)
  | exMul l c a b => exact .of_along (.levelOp2 hR l _ c a b)
  | exSquare l c a => exact .of_along (.levelOp1 hR l _ c a)
  | exInverse l c a => exact execExInverse_along hR l c a
  | exExp l c a e => exact .of_along (.levelOp1 hR l _ c a)
  | exConjugate l c a => exact execExConjugate_along hR l c a
  | exFrobeniusMap l c a power => exact execExFrobeniusMap_along hR l c a power
  | exCalcFrob l => exact .of_along (.bind hR.toChain (.calcFrob hC l) fun _ => .pure hR.toChain _)
  | exCalcFrobPre l f1 => exact execExCalcFrobPre_along hR l f1
  | exMulBy014 c a e0 e1 e4 => exact execExMulBy014_along hR c a e0 e1 e4
  | exMulBy034 c a e0 e3 e4 => exact execExMulBy034_along hR c a e0 e3 e4
  | exCyclotomicSquare c a => exact .of_along (.onBnTower hR fun _ => .onElem hR fun _ => .writeElem hR _ c _)
  | cgNew field a b ob => exact execCgNew_along hR field a b ob
  | cgIsZero g p => exact execCgIsZero_along hR g p
  | cgIsOnCurve g p => exact execCgIsOnCurve_along hR g p
  | cgAdd g r p1 p2 => exact execCgAdd_along hR g r p1 p2
  | cgDouble g r p => exact .of_along (.groupOp1 hR g _ r p)
  | cgNegate g r p => exact .of_along (.groupOp1 hR g _ r p)
  | cgScalarMul g r p e => exact .of_along (.groupOp1 hR g _ r p)
  | cgWnafMul g r p e => exact .of_along (.groupOp1 hR g _ r p)
  | cgSubgroupCheck g p => exact execCgSubgroupCheck_along hR g p
  | cgMultiExp g r points n scalars => exact execCgMultiExp_along hR g r points n scalars
  | cgToAffine g r p => exact execCgToAffine_along hR g r p
  | peNew => exact .of_along (.newPE hC _ _ _ _ _ _ _)
  | peDoublingStep r co src => exact execPeDoublingStep_along hR r co src
  | peAdditionStep r co src q => exact execPeAdditionStep_along hR r co src q
  | peEll c f co p => exact execPeEll_along hR c f co p
  | peMillerLoop c pairs n => exact execPeMillerLoop_along hR c pairs n
  | peFinalExp c f => exact execPeFinalExp_along hR c f
  | peMultiPair c pairs n => exact execPeMultiPair_along hR c pairs n
  | peDoublingStepMnt r co src => exact execPeDoublingStepMnt_along hR r co src
  | peAdditionStepMnt r co src q => exact execPeAdditionStepMnt_along hR r co src q
  | peEllMnt kind c f co p q => exact execPeEllMnt_along hR kind c f co p q
  | peMillerLoopMnt c pairs n => exact execPeMillerLoopMnt_along hR c pairs n
  | peFinalExpMnt c f => exact execPeFinalExpMnt_along hR c f

end

/-- A call is the run of its body. -/
theorem exec_runCall {i : Instr} (hi : isCall i = true) : ∃ m, exec i = runCall m := by
  cases i
  case g1add | g1mul | g1mexp | g2add | g2mul | g2mexp | bls12 | bn | mnt4 | mnt6 => exact ⟨_, rfl⟩
  all_goals cases hi

end Sys2Proof.Machine

/-! PROOF. The canonical forms (20_memory.md, 10_state.md R22; log 15): what writes the output tape or a slot keeps them. -/

namespace Sys2Proof.Machine

/-- The canonical form of what a step writes: the output tape and the slot file. No step writes the input tape (O15). -/
def State.writtenCanonical (s : State) : Prop := s.out.wf = true ∧ regsCanonical 0 s.slots = true

theorem State.canonical_iff (s : State) : s.canonical ↔ s.inp.wf = true ∧ s.writtenCanonical := Iff.rfl

theorem State.raiseErr_writtenCanonical (s : State) (e : Err) : (s.raiseErr e).writtenCanonical := ⟨Memory.wf_empty, rfl⟩

theorem State.errorWith_writtenCanonical (s : State) (e : Err) : (s.errorWith e).writtenCanonical := ⟨Memory.wf_empty, rfl⟩

theorem State.beginCall_writtenCanonical (s : State) : s.beginCall.writtenCanonical := ⟨Memory.wf_empty, rfl⟩

theorem State.finish_writtenCanonical (s : State) (bs : List Byte) : (s.finish bs).writtenCanonical :=
  ⟨Memory.wf_ofBytes bs, rfl⟩

/-- A write to slots is the only update of a unit operation that touches either form. -/
theorem writtenCanonical_chain : UnitChain (fun s t => s.writtenCanonical → t.writtenCanonical) where
  refl _ h := h
  trans h1 h2 h := h2 (h1 h)
  off _ _ _ h := h
  field _ _ h := h
  lq _ _ h := h
  pf _ _ h := h
  ex _ _ _ h := h
  cg _ g _ h := by cases g <;> exact h
  pe _ _ h := h
  flags _ _ h := h
  free _ h := h
  store _ a vs := fun ⟨hout, hslots⟩ => ⟨hout, regSetGroup_canonical vs a _ hslots⟩
  ret _ _ h := h

/-- The end of a call writes the whole output tape and unsets every slot; a unit operation keeps both forms step by step. -/
theorem exec_writtenCanonical {i : Instr} {s t : State} (hs : s.writtenCanonical) (h : exec i s = .next t) :
    t.writtenCanonical := by
  cases hi : isCall i with
  | true =>
    obtain ⟨m, hm⟩ := exec_runCall hi
    rcases runCall_next (hm ▸ h) with ⟨bs, u, -, rfl⟩ | ⟨e, u, -, rfl⟩
    · exact u.finish_writtenCanonical bs
    · exact u.raiseErr_writtenCanonical e
  | false =>
    obtain ⟨m, hm, hkeeps⟩ := exec_along writtenCanonical_chain hi
    rcases runUnit_next (hm ▸ h) with hok | ⟨e, u, -, rfl⟩
    · exact (hkeeps s).1 () t hok hs
    · exact u.raiseErr_writtenCanonical e

theorem step_writtenCanonical {s t : State} (hs : s.writtenCanonical) (h : step s = .next t) : t.writtenCanonical := by
  by_cases hp : s.port = []
  · rcases step_tape hp h with ⟨e, rfl⟩ | ⟨-, i, hi⟩
    · exact s.errorWith_writtenCanonical e
    · exact exec_writtenCanonical s.beginCall_writtenCanonical hi
  · obtain ⟨i, -, hi⟩ := step_port hp h
    exact exec_writtenCanonical (s := s.clearPort) hs hi

/-- Settles O11: the input tape stands over every step, and what a step writes is canonical again. -/
theorem canonicalFormsKept : Obligations.CanonicalFormsKept := by
  intro s t hs h
  obtain ⟨hinp, hwritten⟩ := s.canonical_iff.1 hs
  exact t.canonical_iff.2 ⟨(step_stepKept h).inp.symm ▸ hinp, step_writtenCanonical hwritten h⟩

end Sys2Proof.Machine

/-! PROOF. The stops of the model (logs 1, 7): reading what is unset, writing what is frozen, and an engine of the other family
each end an operation with a fault (70_reset_and_hazards.md R452, R475, R476). -/

namespace Sys2Proof.Machine

section
variable {s : State} {β : Type}

/-- A unit operation that meets a stop of the model. -/
theorem runUnit_fault {m : M Unit} {t : State} {f : Fault} (h : m s = .error (.fault f) t) : runUnit m s = .fault f := by
  unfold runUnit
  rw [h]

/-- A unit operation whose first step meets a stop of the model. -/
theorem runUnit_bind_of_fault {m : M β} {k : β → M Unit} {t : State} {f : Fault} (h : m s = .error (.fault f) t) :
    runUnit (m >>= k) s = .fault f :=
  runUnit_fault (M.bind_of_error h)

/-! ## Unset blocks (R452) -/

theorem slotOp2_unset_pf (op : PrimeField → Nat → Nat → Nat) (hf : s.pf = none) (c a b : Nat) :
    runUnit (slotOp2 op c a b) s = .fault (.unset .pf) :=
  runUnit_bind_of_fault (getPF_none hf)

theorem slotOp2_unset_slot (op : PrimeField → Nat → Nat → Nat) {f : PrimeField} {a : Nat} (hf : s.pf = some f)
    (ha : regGet a s.slots = none) (c b : Nat) : runUnit (slotOp2 op c a b) s = .fault (.unset (.slot a)) := by
  rw [slotOp2, runUnit_getPF_bind hf]
  exact runUnit_bind_of_fault (readSlot_none ha)

theorem withLevel_unset_fq2 {f : PrimeField} (hf : s.pf = some f) (h2 : s.ex.fq2 = none)
    (k : {α : Type} → Tow α → M Unit) : runUnit (withLevel .fq2 k) s = .fault (.unset (.ex .fq2)) := by
  rw [withLevel, runUnit_getPF_bind hf, runUnit_bind_of_ok (look_apply _ _)]
  exact runUnit_bind_of_fault (getEX_none (l := .fq2) h2)

theorem withGroup_unset {g : Group} (hg : s.cg g = none) (k : {α : Type} → Fld α → CurveGroup → M Unit) :
    runUnit (withGroup g k) s = .fault (.unset (.cg g)) :=
  runUnit_bind_of_fault (getCG_none hg)

theorem withBn_unset (hpe : s.pe = none) (k : BnTower → Engine → Bool → M Unit) :
    runUnit (withBn k) s = .fault (.unset .pe) :=
  runUnit_bind_of_fault (getPE_none hpe)

/-! ## Frozen objects (R475) -/

/-- A modulus that fits passes every check of `PF.NEW`, so only the field that exists stands in its way. -/
theorem newPF_frozen {mb : List Byte} (hm : modulusFits mb = true) (hp : s.pf.isSome = true) :
    runUnit (newPF mb) s = .fault (.frozen .pf) := by
  simp only [modulusFits, Bool.and_eq_true, decide_eq_true_eq, and_assoc] at hm
  obtain ⟨hpos, hlen, hcanon, hodd, hsmall⟩ := hm
  obtain ⟨hlo, hhi⟩ := limbCount_bytesToNat_bounds hlen
  rw [newPF, runUnit_require_of (bne_iff_ne.2 (by omega)),
    runUnit_require_of (decide_eq_true (p := mb.length ≤ Config.maxModulusLen) hlen), runUnit_require_of hcanon,
    runUnit_require_of hodd, runUnit_require_of (by simpa [or_iff_not_imp_left] using hsmall)]
  calc
    _ = runUnit (construct .pf (fun s => s.pf.isSome) fun s => s.setPF (callField mb)) s :=
      runUnit_require_of (Bool.and_eq_true_iff.2 ⟨decide_eq_true hlo, decide_eq_true hhi⟩) ..
    _ = .fault (.frozen .pf) := runUnit_fault (construct_frozen hp)

theorem demandNoTable_frozen {l : Level} {e : ExtField} (h : e.frobValid = true) :
    demandNoTable l e s = .error (.fault (.frozen (.ex l))) s := by
  unfold demandNoTable
  rw [if_pos h]

theorem calcFrob_frozen {l : Level} {e : ExtField} (he : s.ex.get l = some e) (hvalid : e.frobValid = true) :
    calcFrob l s = .error (.fault (.frozen (.ex l))) s := by
  rw [calcFrob, M.bind_of_ok (getEX_some he), M.bind_of_error (demandNoTable_frozen hvalid)]

/-! ## Engines of the other family (R476) -/

theorem withBn_mismatch {pe : Engine} (hpe : s.pe = some pe) (hfam : pe.family = .mnt4 ∨ pe.family = .mnt6)
    (k : BnTower → Engine → Bool → M Unit) : runUnit (withBn k) s = .fault .mismatch := by
  rw [withBn, runUnit_bind_of_ok (getPE_some hpe)]
  rcases hfam with h | h <;> rw [h] <;> rfl

theorem withMnt_mismatch {pe : Engine} {c : CurveGroup} (hpe : s.pe = some pe) (hc : s.cg .g2 = some c)
    (hfam : pe.family = .bls12 ∨ pe.family = .bn) (k : {α : Type} → MntTower α → Engine → M Unit) :
    runUnit (withMnt k) s = .fault .mismatch := by
  rw [withMnt, runUnit_bind_of_ok (getPE_some hpe), runUnit_bind_of_ok (getCG_some hc)]
  rcases hfam with h | h <;> rw [h] <;> rfl

end

/-- Settles O29: each operation meets its stop at the first item it reads that is not as it needs it. -/
theorem stopsOutsideTheRules : Obligations.StopsOutsideTheRules := by
  refine ⟨?_, ?_, ?_, ?_, ?_, ?_, ?_, ?_, ?_⟩
  · exact fun s c a b hf => slotOp2_unset_pf _ hf c a b
  · exact fun s f c a b hf ha => slotOp2_unset_slot _ hf ha c b
  · exact fun s f c a b hf h2 => withLevel_unset_fq2 hf h2 _
  · exact fun s g r p hg => withGroup_unset hg _
  · exact fun s c f hpe => withBn_unset hpe _
  · exact fun s f mb hf hm => newPF_frozen hm (hf ▸ rfl)
  · exact fun s l e he hvalid => runUnit_bind_of_fault (calcFrob_frozen he hvalid)
  · exact fun s pe r co src hpe hfam => withBn_mismatch hpe (.inl hfam) _
  · exact fun s pe g r co src hpe hg hfam => withMnt_mismatch hpe hg (.inr hfam) _

end Sys2Proof.Machine
